-- ==== Sys2Proof/Word.lean ====
section
/-! DEFINITION. The word types of the core: a byte of a span, a 16-bit field of the stream, a 32-bit register. -/

namespace Sys2Proof

/-- One byte of host memory, of the window or of the pending buffer (R40, R43, R49). -/
abbrev Byte := BitVec 8

/-- A 16-bit value: a hash-chain entry, a match distance, an accumulator word (R14 (b), R44, R48). -/
abbrev Half := BitVec 16

/-- A 32-bit register or address (R20, R60). -/
abbrev Word := BitVec 32

end Sys2Proof
end

