-- ==== Sys2Proof/Syntax.lean ====
section
/-! DEFINITION. The instruction set: one constructor for each row of spec/opcode_table.json.

The first eight are the host commands of R90 (their operand fields as R91 to R94 lay them out).
The last four are the block headers the core emits on the wire (R110 to R113, R130). The table lists them beside
the commands and says of each that it is not a host command; here each stands for the block encoder's
operation that closes the open block in that form (log entry 6). -/

namespace Sys2Proof

/-- A core instruction. Fields are the raw bit fields of the encoding: their legal ranges are `Instr.wellFormed`. -/
inductive Instr where
  /-- `INIT` (opcode 0x01, format I, R91, R281). -/
  | init (level : BitVec 4) (strategy : BitVec 2) (windowBits memLevel : BitVec 4) (wrap : BitVec 2)
  /-- `RESET` (opcode 0x02, format N, R94, R282). -/
  | reset
  /-- `SET_DICT` (opcode 0x03, format N, R94, R286). -/
  | setDict
  /-- `SET_INPUT` (opcode 0x04, format N, R94, R284). -/
  | setInput
  /-- `SET_OUTPUT` (opcode 0x05, format N, R94, R285). -/
  | setOutput
  /-- `STEP` (opcode 0x06, format S, R92, R283). -/
  | step (flush : BitVec 3)
  /-- `PARAMS` (opcode 0x07, format P, R93, R287). -/
  | params (level : BitVec 4) (strategy : BitVec 2)
  /-- `END` (opcode 0x08, format N, R94, R288). -/
  | endSession
  /-- Block header with `BTYPE = 0` (R110, R111). -/
  | blockStored (bfinal : Bool)
  /-- Block header with `BTYPE = 1` (R110, R112). -/
  | blockStatic (bfinal : Bool)
  /-- Block header with `BTYPE = 2` (R110, R113). -/
  | blockDynamic (bfinal : Bool)
  /-- Block header with `BTYPE = 3`, reserved (R110, R130). -/
  | blockReserved (bfinal : Bool)
  deriving DecidableEq, Repr

end Sys2Proof
end

