-- ==== Sys2Proof/WellFormed.lean ====
section
/-! DEFINITION. Which instructions have legal operand fields (R7, R91 to R93). An instruction that fails this check is the
illegal encoding of R96: the machine reports `ERR_PARAM` for it and nothing else happens. -/

namespace Sys2Proof

/-- `level` is 0..9 (R7). -/
def levelLegal (level : BitVec 4) : Bool := decide (level.toNat ≤ 9)

/-- `strategy` is 0 default, 1 filtered or 2 Huffman-only (R7). -/
def strategyLegal (strategy : BitVec 2) : Bool := decide (strategy.toNat ≤ 2)

/-- `windowBits` is 9..15 (R7); the field is 4 bits, so only the lower bound can fail (R91). -/
def windowBitsLegal (windowBits : BitVec 4) : Bool := decide (9 ≤ windowBits.toNat)

/-- `memLevel` is 1..9 (R7). -/
def memLevelLegal (memLevel : BitVec 4) : Bool := decide (1 ≤ memLevel.toNat) && decide (memLevel.toNat ≤ 9)

/-- `wrap` is 0 raw, 1 zlib or 2 gzip (R7). -/
def wrapLegal (wrap : BitVec 2) : Bool := decide (wrap.toNat ≤ 2)

/-- `flush` is 0..4 (R92, R100). -/
def flushLegal (flush : BitVec 3) : Bool := decide (flush.toNat ≤ 4)

/-- Every operand field is in its legal range (R91 to R94). -/
def Instr.wellFormed : Instr → Bool
  | .init level strategy windowBits memLevel wrap =>
    levelLegal level && strategyLegal strategy && windowBitsLegal windowBits && memLevelLegal memLevel && wrapLegal wrap
  | .reset => true
  | .setDict => true
  | .setInput => true
  | .setOutput => true
  | .step flush => flushLegal flush
  | .params level strategy => levelLegal level && strategyLegal strategy
  | .endSession => true
  | .blockStored _ => true
  | .blockStatic _ => true
  | .blockDynamic _ => true
  | .blockReserved _ => true

end Sys2Proof
end

