-- ==== Sys2Proof/Decode.lean ====
section
/-! DEFINITION. Decoding command words and block headers (R90 to R96, R110), and the encoder written from the same tables.

Decoding is total and rejects by name. It checks the opcode and the must-be-zero bits (the `match`/`mask` of the opcode
table); the ranges of the operand fields are `Instr.wellFormed`, which the machine checks first of all when it executes
(R280, R327 line 1), so that a word with a field out of range is `ERR_PARAM` exactly like a word that is rejected here. -/

namespace Sys2Proof

/-- Why a command word is no command (R96). -/
inductive Reject where
  /-- `op` is not one of 0x01 .. 0x08 (R322 cause 1). -/
  | unknownOpcode
  /-- A must-be-zero bit of the word is 1 (R322 cause 2). -/
  | mustBeZero
  deriving DecidableEq, Repr

/-- Bits [7:0] of a command word (R90). -/
def opcodeOf (w : Word) : Nat := (w.extractLsb' 0 8).toNat

/-- Must-be-zero mask of format I (R91). -/
def mbzInit : Word := 0xFC00C000#32
/-- Must-be-zero mask of format S (R92). -/
def mbzStep : Word := 0xFFFFF800#32
/-- Must-be-zero mask of format P (R93). -/
def mbzParams : Word := 0xFFFFC000#32
/-- Must-be-zero mask of format N (R94). -/
def mbzNone : Word := 0xFFFFFF00#32

/-- The instruction `i` when no must-be-zero bit of `w` is set. -/
def guardZero (w mask : Word) (i : Instr) : Except Reject Instr :=
  if w &&& mask = 0#32 then .ok i else .error .mustBeZero

/-- The command a word written to `CMD` stands for (R90 to R94). -/
def decode (w : Word) : Except Reject Instr :=
  match opcodeOf w with
  | 0x01 => guardZero w mbzInit (.init (w.extractLsb' 8 4) (w.extractLsb' 12 2) (w.extractLsb' 16 4) (w.extractLsb' 20 4)
      (w.extractLsb' 24 2))
  | 0x02 => guardZero w mbzNone .reset
  | 0x03 => guardZero w mbzNone .setDict
  | 0x04 => guardZero w mbzNone .setInput
  | 0x05 => guardZero w mbzNone .setOutput
  | 0x06 => guardZero w mbzStep (.step (w.extractLsb' 8 3))
  | 0x07 => guardZero w mbzParams (.params (w.extractLsb' 8 4) (w.extractLsb' 12 2))
  | 0x08 => guardZero w mbzNone .endSession
  | _ => .error .unknownOpcode

/-- The block header of R110: bit 0 is `BFINAL`, bits [2:1] are `BTYPE`. -/
def decodeHeader (h : BitVec 3) : Instr :=
  match (h.extractLsb' 1 2).toNat with
  | 0 => .blockStored (h.getLsbD 0)
  | 1 => .blockStatic (h.getLsbD 0)
  | 2 => .blockDynamic (h.getLsbD 0)
  | _ => .blockReserved (h.getLsbD 0)

/-- The two encodings of the core: a word on the register port (R90), a 3-bit header on the wire (R110). -/
inductive Encoded where
  | command (w : Word)
  | header (h : BitVec 3)
  deriving DecidableEq, Repr

/-- Decoding either kind of encoding. -/
def decodeEncoded : Encoded → Except Reject Instr
  | .command w => decode w
  | .header h => .ok (decodeHeader h)

/-- A field of the word, `v` placed at bit `at_`. -/
def fieldAt (v : BitVec n) (at_ : Nat) : Word := v.setWidth 32 <<< at_

/-- The 3-bit header value `(BTYPE << 1) + BFINAL` (R110). -/
def headerWord (btype : BitVec 2) (bfinal : Bool) : BitVec 3 := btype ++ BitVec.ofBool bfinal

/-- The encoding of an instruction, from the tables of R90 to R94 and R110. -/
def encode : Instr → Encoded
  | .init level strategy windowBits memLevel wrap =>
    .command (0x01#32 ||| fieldAt level 8 ||| fieldAt strategy 12 ||| fieldAt windowBits 16 ||| fieldAt memLevel 20
      ||| fieldAt wrap 24)
  | .reset => .command 0x02#32
  | .setDict => .command 0x03#32
  | .setInput => .command 0x04#32
  | .setOutput => .command 0x05#32
  | .step flush => .command (0x06#32 ||| fieldAt flush 8)
  | .params level strategy => .command (0x07#32 ||| fieldAt level 8 ||| fieldAt strategy 12)
  | .endSession => .command 0x08#32
  | .blockStored bfinal => .header (headerWord 0#2 bfinal)
  | .blockStatic bfinal => .header (headerWord 1#2 bfinal)
  | .blockDynamic bfinal => .header (headerWord 2#2 bfinal)
  | .blockReserved bfinal => .header (headerWord 3#2 bfinal)

/-- The instruction the decoder reads from a word numbered as spec/opcode_table.json numbers it. A command row has 32
bits, a block-header row 3 (so one byte, of which the header is bits [2:0]). -/
def decodeTableWord (nbits w : Nat) : Option Instr :=
  if nbits ≤ 8 then some (decodeHeader (BitVec.ofNat 3 w))
  else if w < 2 ^ 32 then
    match decode (BitVec.ofNat 32 w) with
    | .ok i => some i
    | .error _ => none
  else none

end Sys2Proof
end

