-- ==== Sys2Proof/Machine/HostMem.lean ====
section
/-! DEFINITION. Host memory (R49, R60 to R62): the other side of the interface, a list of (address, byte) pairs.

Canonical form (`Memory.wf`): addresses strictly rising and below 2^32. An unlisted address is one whose byte nobody has
stored: it holds no value the model knows (`Memory.get` answers `none`), so reading it stops the machine
(R61, U13; log entry 1). No entry can equal what an unlisted address reads as, which is no byte at all. -/

namespace Sys2Proof.Machine

/-- Host memory: the bytes stored so far. -/
abbrev Memory := List Host.Cell

namespace Memory

/-- Addresses strictly rising, all at least `lo`. -/
def risingFrom : Nat → Memory → Bool
  | _, [] => true
  | lo, (a, _) :: m => decide (lo ≤ a) && decide (a < 2 ^ 32) && risingFrom (a + 1) m

/-- The canonical form of host memory. -/
def wf (m : Memory) : Bool := risingFrom 0 m

/-- The byte last stored at an address, or none. -/
def get : Memory → Nat → Option Byte
  | [], _ => none
  | (a, b) :: m, x => if x = a then some b else get m x

/-- Storing one byte, keeping the addresses rising. -/
def put : Memory → Nat → Byte → Memory
  | [], x, v => [(x, v)]
  | (a, b) :: m, x, v => if x < a then (x, v) :: (a, b) :: m else if x = a then (a, v) :: m else (a, b) :: put m x v

end Memory

end Sys2Proof.Machine
end

