-- ==== Sys2Proof/Machine/Ram.lean ====
section
/-! DEFINITION. The core's internal memories (R40 to R47) as plain data in one canonical form.

A memory of `w`-bit entries is a binary tree over the bits of the index, most significant bit first, `ramBits` levels
deep; an index with no leaf holds 0. The form is canonical (`Ram.wf`): no leaf holds 0 and no node has two empty children, so
equal memories are equal data. The size of a memory is not in the tree: the procedures check every index against the
session's size (R73). -/

namespace Sys2Proof.Machine

/-- Index bits of an internal memory: the largest one is the pending buffer, 131072 entries (R8). -/
def ramBits : Nat := 17

inductive Ram (w : Nat) where
  | zero
  | leaf (v : BitVec w)
  | node (l r : Ram w)
  deriving DecidableEq, Repr

namespace Ram

variable {w : Nat}

def mkLeaf (v : BitVec w) : Ram w := if v = 0#w then .zero else .leaf v

def mkNode (l r : Ram w) : Ram w :=
  match l, r with
  | .zero, .zero => .zero
  | l, r => .node l r

def left : Ram w → Ram w
  | .node l _ => l
  | _ => .zero

def right : Ram w → Ram w
  | .node _ r => r
  | _ => .zero

def valueOf : Ram w → BitVec w
  | .leaf v => v
  | _ => 0#w

/-- The entry at index `i` of a tree `d` levels deep. -/
def getAt : Nat → Ram w → Nat → BitVec w
  | 0, m, _ => m.valueOf
  | d + 1, m, i => if i.testBit d then getAt d m.right i else getAt d m.left i

/-- The tree with `v` at index `i`. -/
def setAt : Nat → Ram w → Nat → BitVec w → Ram w
  | 0, _, _, v => mkLeaf v
  | d + 1, m, i, v => if i.testBit d then mkNode m.left (setAt d m.right i v) else mkNode (setAt d m.left i v) m.right

/-- `f` applied to the entries at indices below `n` (`f 0 = 0` in every use). -/
def mapBelowAt (f : BitVec w → BitVec w) : Nat → Ram w → Nat → Ram w
  | _, .zero, _ => .zero
  | 0, m, n => if n = 0 then m else mkLeaf (f m.valueOf)
  | d + 1, m, n => mkNode (mapBelowAt f d m.left n) (mapBelowAt f d m.right (n - 2 ^ d))

/-- `p` holds of every non-zero entry at an index below `n`. -/
def allBelowAt (p : BitVec w → Bool) : Nat → Ram w → Nat → Bool
  | _, .zero, _ => true
  | 0, m, n => decide (n = 0) || p m.valueOf
  | d + 1, m, n => allBelowAt p d m.left n && allBelowAt p d m.right (n - 2 ^ d)

/-- The canonical form of a tree `d` levels deep. -/
def wfAt : Nat → Ram w → Bool
  | _, .zero => true
  | 0, .leaf v => decide (v ≠ 0#w)
  | d + 1, .node l r => wfAt d l && wfAt d r && !(decide (l = .zero) && decide (r = .zero))
  | _, _ => false

def get (m : Ram w) (i : Nat) : BitVec w := getAt ramBits m i

def set (m : Ram w) (i : Nat) (v : BitVec w) : Ram w := setAt ramBits m i v

def mapBelow (m : Ram w) (n : Nat) (f : BitVec w → BitVec w) : Ram w := mapBelowAt f ramBits m n

/-- Entries `0 .. n - 1` set to 0. -/
def clearBelow (m : Ram w) (n : Nat) : Ram w := m.mapBelow n (fun _ => 0#w)

def allBelow (m : Ram w) (n : Nat) (p : BitVec w → Bool) : Bool := allBelowAt p ramBits m n

/-- Entries `src, src + 1, …` copied to `dst, dst + 1, …`, `n` of them, in increasing order. -/
def copyFrom : Nat → Nat → Nat → Ram w → Ram w
  | 0, _, _, m => m
  | n + 1, src, dst, m => copyFrom n (src + 1) (dst + 1) (m.set dst (m.get src))

/-- The canonical form of an internal memory. -/
def wf (m : Ram w) : Bool := wfAt ramBits m

end Ram

end Sys2Proof.Machine
end

