-- ==== Sys2Proof/Machine/State.lean ====
section
/-! DEFINITION. The state of the core and of the host's side of its interface, as plain data (R20 to R51), and its value
after a hardware reset (R361). INVENTORY.md, heading 'State', lists every element with its rule and its reset value. -/

namespace Sys2Proof.Machine

/-- The status codes of R97. Codes 6 and 7 are never produced (U2), so no constructor stands for them. -/
inductive Status where
  | ok
  | streamEnd
  | buf
  | errParam
  | errProtocol
  | errFatal
  deriving DecidableEq, Repr

/-- The stream state `sstate` (R22, R31). -/
inductive StreamState where
  | unconf
  | init
  | busy
  | finish
  deriving DecidableEq, Repr

/-- The checksum collaborator's function (R78): none before the first `INIT` (R27). -/
inductive ChecksumUnit where
  | none
  | adler32
  | crc32
  deriving DecidableEq, Repr

/-- The host-visible registers (R20 to R27) and the flags and stream state that `STATUS` shows (R22, R32). -/
structure HostRegs where
  cmd : Word
  code : Status
  fault : Bool
  sstate : StreamState
  inValid : Bool
  outValid : Bool
  fresh : Bool
  trailerDone : Bool
  arg0 : Word
  arg1 : Word
  inPtr : Word
  inAvail : Word
  outPtr : Word
  outAvail : Word
  totalIn : BitVec 64
  totalOut : BitVec 64
  gzMtime : Word
  gzOs : Byte
  deriving DecidableEq, Repr

/-- The configuration registers (R33): the five fields that `CFG` shows, the sizes of R8 and the tuning values of R10. -/
structure Conf where
  level : BitVec 4
  strategy : BitVec 2
  windowBits : BitVec 4
  memLevel : BitVec 4
  wrap : BitVec 2
  windowSize : Nat
  windowMask : Nat
  hashBits : Nat
  hashSize : Nat
  hashMask : Nat
  hashShift : Nat
  literalBufferSize : Nat
  pendingBufSize : Nat
  maxDist : Nat
  goodMatch : BitVec 13
  maxLazyMatch : BitVec 13
  niceMatch : BitVec 13
  maxChainLength : BitVec 13
  deriving DecidableEq, Repr

/-- The window, the hash chains and the cursors of the match finder (R30, R40 to R42). `blockStart`, `matchStart` and
`prevMatch` are signed. -/
structure Matcher where
  window : Ram 8
  head : Ram 16
  prev : Ram 16
  strStart : BitVec 17
  lookahead : BitVec 17
  blockStart : BitVec 32
  matchStart : BitVec 32
  prevMatch : BitVec 32
  matchLength : BitVec 9
  prevLength : BitVec 9
  insH : BitVec 16
  matchAvailable : Bool
  deriving DecidableEq, Repr

/-- The bit-packer (R30, R43, R48). -/
structure Packer where
  pendingBuf : Ram 8
  pending : BitVec 18
  pendingOut : BitVec 18
  biBuf : BitVec 16
  biValid : BitVec 5
  deriving DecidableEq, Repr

/-- One dynamic tree descriptor's tables (R45). -/
structure Tree where
  freq : Ram 16
  code : Ram 16
  len : Ram 16
  dad : Ram 10
  deriving DecidableEq, Repr

/-- The block encoder and the tree builder (R30, R44, R45, R47). `matchCount` is the register R30 calls `matches`. The three
`MaxCode` registers are signed. -/
structure Coder where
  dBuf : Ram 16
  lBuf : Ram 8
  lastLit : BitVec 16
  matchCount : BitVec 16
  optLen : BitVec 32
  staticLen : BitVec 32
  lastEobLen : BitVec 4
  dynL : Tree
  dynD : Tree
  bl : Tree
  heap : Ram 10
  depth : Ram 8
  blCount : Ram 16
  nextCode : Ram 16
  heapLen : BitVec 10
  heapMax : BitVec 10
  lMaxCode : BitVec 10
  dMaxCode : BitVec 10
  blMaxCode : BitVec 10
  deriving DecidableEq, Repr

/-- The checksum collaborator (R78). -/
structure Checksum where
  unit : ChecksumUnit
  ck : Word
  deriving DecidableEq, Repr

/-- One thing that can happen at the core's boundary; the core takes one step for each (R5, log entry 2). -/
inductive Event where
  /-- The host writes a register (R20). Word index 0 is `CMD`, whose write executes a command. -/
  | write (index : BitVec 4) (data : Word)
  /-- The host reads a register (R20). -/
  | read (index : BitVec 4)
  /-- The host stores a byte into its own memory, between commands (R49, R370). -/
  | store (addr : Word) (b : Byte)
  /-- The reset input (R360, R361). -/
  | hwReset
  /-- The block encoder closes the open block in the form this header names (R110; log entry 6). -/
  | block (header : BitVec 3)
  deriving DecidableEq, Repr

/-- The whole state. -/
structure State where
  regs : HostRegs
  conf : Conf
  cks : Checksum
  mat : Matcher
  pk : Packer
  cod : Coder
  /-- `lastFlush`, signed, −1 .. 4 (R30, R35). -/
  lastFlush : BitVec 4
  hostMem : Memory
  /-- What the host (or the reset input) does next, oldest first: the model's own field (log entry 2). -/
  events : List Event
  /-- The data lines of the register port after the last read: the model's own field (log entry 2). -/
  portData : Word
  deriving DecidableEq, Repr

/-- Why a step has no next state. -/
inductive Fault where
  /-- Raised by `MemRead` (R61) at an address whose byte the host never stored: the spec's model has no step for it
  (U13, 'stuck'). Safe: the model stops where a platform would supply some byte. -/
  | hostByteNeverStored (addr : Word)
  deriving DecidableEq, Repr

/-- Why a step has no meaning. -/
inductive Refusal where
  /-- Raised by an arm of `exec` whose instruction has no meaning yet. Safe. No arm raises it. -/
  | notModelled (mnemonic : String)
  deriving DecidableEq, Repr

/-! Values after a hardware reset (R361, and the 'HW reset' column of R22 to R33). -/

def HostRegs.reset : HostRegs :=
  { cmd := 0#32, code := .ok, fault := false, sstate := .unconf, inValid := false, outValid := false, fresh := false,
    trailerDone := false, arg0 := 0#32, arg1 := 0#32, inPtr := 0#32, inAvail := 0#32, outPtr := 0#32, outAvail := 0#32,
    totalIn := 0#64, totalOut := 0#64, gzMtime := 0#32, gzOs := 0xFF#8 }

def Conf.reset : Conf :=
  { level := 0#4, strategy := 0#2, windowBits := 0#4, memLevel := 0#4, wrap := 0#2, windowSize := 0, windowMask := 0,
    hashBits := 0, hashSize := 0, hashMask := 0, hashShift := 0, literalBufferSize := 0, pendingBufSize := 0, maxDist := 0,
    goodMatch := 0#13, maxLazyMatch := 0#13, niceMatch := 0#13, maxChainLength := 0#13 }

def Matcher.reset : Matcher :=
  { window := .zero, head := .zero, prev := .zero, strStart := 0#17, lookahead := 0#17, blockStart := 0#32,
    matchStart := 0#32, prevMatch := 0#32, matchLength := 2#9, prevLength := 2#9, insH := 0#16, matchAvailable := false }

/-- R361; `pendingBuf`'s contents are unspecified, and zero here (log entry 3). -/
def Packer.reset : Packer :=
  { pendingBuf := .zero, pending := 0#18, pendingOut := 0#18, biBuf := 0#16, biValid := 0#5 }

/-- A tree with no used symbol (R45); `code`, `len` and `dad` are unspecified, and zero here (log entry 3). -/
def Tree.reset : Tree := { freq := .zero, code := .zero, len := .zero, dad := .zero }

/-- R361 and R45: `InitBlock` has run, so `dynL.freq[256] = 1`; the unspecified memories are zero (log entry 3). -/
def Coder.reset : Coder :=
  { dBuf := .zero, lBuf := .zero, lastLit := 0#16, matchCount := 0#16, optLen := 0#32, staticLen := 0#32, lastEobLen := 8#4,
    dynL := { Tree.reset with freq := Ram.zero.set 256 1#16 }, dynD := Tree.reset, bl := Tree.reset, heap := .zero, depth := .zero,
    blCount := .zero, nextCode := .zero, heapLen := 0#10, heapMax := 573#10, lMaxCode := -1#10, dMaxCode := -1#10,
    blMaxCode := -1#10 }

/-- The machine right after a hardware reset (R361): no session, every register at its reset value. Host memory lists
nothing and no event is pending. -/
def State.reset : State :=
  { regs := HostRegs.reset, conf := Conf.reset, cks := { unit := .none, ck := 0#32 }, mat := Matcher.reset,
    pk := Packer.reset, cod := Coder.reset, lastFlush := 0#4, hostMem := [], events := [], portData := 0#32 }

end Sys2Proof.Machine
end

