-- ==== Sys2Proof/Machine/Tables.lean ====
section
/-! DEFINITION. The fixed constants (R9), the sizes of a session (R8), the level table (R10) and the standard tables
(R114 to R120, R46), with the bit reversal of R171. Every number here is the spec's; which of them the spec itself takes from
general knowledge is listed in 93_implementation_defined.md part 2 (log entry 4). -/

namespace Sys2Proof.Machine

/-! Constants (R9). -/

def minMatch : Nat := 3
def maxMatch : Nat := 258
def minLookahead : Nat := 262
def tooFar : Nat := 4096
def lCodes : Nat := 286
def dCodes : Nat := 30
def blCodes : Nat := 19
def literals : Nat := 256
def endBlock : Nat := 256
def heapSize : Nat := 573
def rep36 : Nat := 16
def repz310 : Nat := 17
def repz11138 : Nat := 18
def maxBits : Nat := 15

/-- `BTYPE` values (R9, R110). -/
inductive BlockType where
  | stored
  | static
  | dynamic
  deriving DecidableEq, Repr

def BlockType.btype : BlockType → Nat
  | .stored => 0
  | .static => 1
  | .dynamic => 2

/-! `strategy`, `wrap` and `flush` values (R7, R100). -/

def strategyDefault : BitVec 2 := 0#2
def strategyFiltered : BitVec 2 := 1#2
def strategyHuffmanOnly : BitVec 2 := 2#2
def wrapRaw : BitVec 2 := 0#2
def wrapZlib : BitVec 2 := 1#2
def wrapGzip : BitVec 2 := 2#2
def noFlush : BitVec 3 := 0#3
def partialFlush : BitVec 3 := 1#3
def syncFlush : BitVec 3 := 2#3
def fullFlush : BitVec 3 := 3#3
def finishFlush : BitVec 3 := 4#3

/-! The level table (R10, parameter `LEVEL_TABLE`). -/

/-- The strategy function of a level: the last column of R10. -/
inductive StrategyFn where
  | stored
  | fast
  | slow
  deriving DecidableEq, Repr

structure LevelRow where
  goodMatch : Nat
  maxLazyMatch : Nat
  niceMatch : Nat
  maxChainLength : Nat
  fn : StrategyFn
  deriving DecidableEq, Repr

/-- R10, row by row. Levels above 9 are refused by the decode; they read as row 9 here. -/
def levelRow (level : BitVec 4) : LevelRow :=
  match level.toNat with
  | 0 => ⟨0, 0, 0, 0, .stored⟩
  | 1 => ⟨4, 4, 8, 4, .fast⟩
  | 2 => ⟨4, 5, 16, 8, .fast⟩
  | 3 => ⟨4, 6, 32, 32, .fast⟩
  | 4 => ⟨4, 4, 16, 16, .slow⟩
  | 5 => ⟨8, 16, 32, 32, .slow⟩
  | 6 => ⟨8, 16, 128, 128, .slow⟩
  | 7 => ⟨8, 32, 128, 256, .slow⟩
  | 8 => ⟨32, 128, 258, 1024, .slow⟩
  | _ => ⟨32, 258, 258, 4096, .slow⟩

/-! Sizes derived from the configuration (R8). -/

def windowSizeOf (windowBits : BitVec 4) : Nat := 2 ^ windowBits.toNat
def hashBitsOf (memLevel : BitVec 4) : Nat := memLevel.toNat + 7
def hashShiftOf (memLevel : BitVec 4) : Nat := (hashBitsOf memLevel + minMatch - 1) / minMatch
def literalBufferSizeOf (memLevel : BitVec 4) : Nat := 2 ^ (memLevel.toNat + 6)
def pendingBufSizeOf (memLevel : BitVec 4) : Nat := 4 * literalBufferSizeOf memLevel
def maxDistOf (windowBits : BitVec 4) : Nat := windowSizeOf windowBits - minLookahead

/-! Code-length alphabet (R114, R115). -/

def extraBlBits : List Nat := [0, 0, 0, 0, 0, 0, 0, 0, 0, 0, 0, 0, 0, 0, 0, 0, 2, 3, 7]
def blOrder : List Nat := [16, 17, 18, 0, 8, 7, 9, 6, 10, 5, 11, 4, 12, 3, 13, 2, 14, 1, 15]

/-! Length and distance codes (R116, R117). -/

def extraLBits : List Nat :=
  [0, 0, 0, 0, 0, 0, 0, 0, 1, 1, 1, 1, 2, 2, 2, 2, 3, 3, 3, 3, 4, 4, 4, 4, 5, 5, 5, 5, 0]

def baseLength : List Nat :=
  [0, 1, 2, 3, 4, 5, 6, 7, 8, 10, 12, 14, 16, 20, 24, 28, 32, 40, 48, 56, 64, 80, 96, 112, 128, 160, 192, 224, 255]

def extraDBits : List Nat :=
  [0, 0, 0, 0, 1, 1, 2, 2, 3, 3, 4, 4, 5, 5, 6, 6, 7, 7, 8, 8, 9, 9, 10, 10, 11, 11, 12, 12, 13, 13]

def baseDist : List Nat :=
  [0, 1, 2, 3, 4, 6, 8, 12, 16, 24, 32, 48, 64, 96, 128, 192, 256, 384, 512, 768, 1024, 1536, 2048, 3072, 4096, 6144,
    8192, 12288, 16384, 24576]

/-- Entry `i` of a constant table. -/
def tableAt (t : List Nat) (i : Nat) : Nat := t.getD i 0

/-- The largest `c` at most `top` with `t[c] ≤ v` (0 when there is none). -/
def largestAtMost (t : List Nat) (v : Nat) : Nat → Nat
  | 0 => 0
  | c + 1 => if tableAt t (c + 1) ≤ v then c + 1 else largestAtMost t v c

/-- `LengthCode` (R120): `lc = L - 3`. -/
def lengthCode (lc : Nat) : Nat := if lc = 255 then 28 else largestAtMost baseLength lc 27

/-- `DistCode` (R120): `d = D - 1`. -/
def distCode (d : Nat) : Nat := largestAtMost baseDist d 29

/-- `BiReverse(code, len)` (R171). -/
def biReverse (code len : Nat) : Nat := go code len 0
where
  go (code : Nat) : Nat → Nat → Nat
    | 0, res => res
    | k + 1, res => go (code >>> 1) k (res <<< 1 ||| code &&& 1)

/-! The static codes (R118, R119). -/

def staticLLen (n : Nat) : Nat := if n ≤ 143 then 8 else if n ≤ 255 then 9 else if n ≤ 279 then 7 else 8

/-- The static literal/length code read most-significant bit first (R118). -/
def staticLCanonical (n : Nat) : Nat :=
  if n ≤ 143 then 0b00110000 + n else if n ≤ 255 then 0b110010000 + (n - 144) else if n ≤ 279 then n - 256
  else 0b11000000 + (n - 280)

/-- `STATIC_LCODE[n]`: the code stored bit-reversed (R12, R118). -/
def staticLCode (n : Nat) : Nat := biReverse (staticLCanonical n) (staticLLen n)

def staticDLen (_n : Nat) : Nat := 5

/-- `STATIC_DCODE[n]` (R119). -/
def staticDCode (n : Nat) : Nat := biReverse n 5

/-- A code table handed to `SendCode`: how many symbols it has, and the stored code and the length of each. -/
structure CodeTable where
  size : Nat
  code : Nat → Nat
  len : Nat → Nat

def staticLTable : CodeTable := ⟨288, staticLCode, staticLLen⟩
def staticDTable : CodeTable := ⟨30, staticDCode, staticDLen⟩

end Sys2Proof.Machine
end

