-- ==== Sys2Proof/Machine/Ops.lean ====
section
/-! DEFINITION. The shared operations: procedures that may stop (R13, R326), bounds-checked internal memories (R73),
the two host-memory primitives (R61, R62), and the status a command leaves, which takes the place of an exception
(R280, R321, R326 to R329). -/

namespace Sys2Proof.Machine

/-! Procedures. -/

/-- How a procedure is abandoned. -/
inductive Stop where
  /-- `raise Fatal` (R13, R326): the command ends, with the effects made so far. -/
  | fatal
  /-- The spec gives no next state. -/
  | stuck (f : Fault)
  deriving DecidableEq, Repr

/-- A procedure over a piece of state `σ`: it changes `σ` and answers a value or is abandoned. The state it leaves when it is
abandoned is kept ('Effects already made by the command … stay as they are', R326). -/
abbrev Proc (σ α : Type) := ExceptT Stop (StateM σ) α

/-- `raise Fatal`. -/
def raiseFatal {σ α : Type} : Proc σ α := throw Stop.fatal

/-- The procedure run from a state: what it answers and the state it leaves. -/
def Proc.runFrom {σ α : Type} (p : Proc σ α) (s : σ) : Except Stop α × σ := p s

/-- An invariant check (R34, R73): `raise Fatal` when it fails. -/
def require {σ : Type} (c : Bool) : Proc σ Unit := if c then pure () else raiseFatal

/-- `if c: p`. -/
def onlyIf {σ : Type} (c : Prop) [Decidable c] (p : Proc σ Unit) : Proc σ Unit := if c then p else pure ()

/-- `for i in lo .. lo + n - 1: body i`. -/
def forCount {σ : Type} (body : Nat → Proc σ Unit) : Nat → Nat → Proc σ Unit
  | 0, _ => pure ()
  | n + 1, lo => do
    body lo
    forCount body n (lo + 1)

/-- `for i in n down to 1: body i`. -/
def forDown {σ : Type} (body : Nat → Proc σ Unit) : Nat → Proc σ Unit
  | 0 => pure ()
  | n + 1 => do
    body (n + 1)
    forDown body n

/-- The entry at `i` of a memory of `size` entries; an index outside it is `raise Fatal` (R73). -/
def load {σ : Type} {w : Nat} (size : Nat) (m : Ram w) (i : Nat) : Proc σ (BitVec w) :=
  if i < size then pure (m.get i) else raiseFatal

/-- The memory of `size` entries with `v` at `i`; an index outside it is `raise Fatal` (R73). -/
def stored {σ : Type} {w : Nat} (size : Nat) (m : Ram w) (i : Nat) (v : BitVec w) : Proc σ (Ram w) :=
  if i < size then pure (m.set i v) else raiseFatal

/-- An index the pseudocode computes on signed values; a negative one is outside every memory (R73). -/
def indexOf {σ : Type} (i : Int) : Proc σ Nat := if 0 ≤ i then pure i.toNat else raiseFatal

/-! A procedure over one part of the state, run in the whole. -/

def onMatcher {α : Type} (p : Proc Matcher α) : Proc State α := fun s =>
  match p s.mat with
  | (r, m) => (r, { s with mat := m })

def onPacker {α : Type} (p : Proc Packer α) : Proc State α := fun s =>
  match p s.pk with
  | (r, k) => (r, { s with pk := k })

def onCoder {α : Type} (p : Proc Coder α) : Proc State α := fun s =>
  match p s.cod with
  | (r, c) => (r, { s with cod := c })

/-! Host memory (R61, R62). -/

/-- `MemRead(addr, 1)`: the byte the host last stored at `addr`; there is no step where it stored none (R61, U13). -/
def memRead (addr : Word) : Proc State Byte := do
  let s ← get
  match s.hostMem.get addr.toNat with
  | some b => pure b
  | none => throw (Stop.stuck (.hostByteNeverStored addr))

/-- `HostMem[addr] <- v`, as a change of the state. -/
def State.storeByte (s : State) (addr : Word) (v : Byte) : State := { s with hostMem := s.hostMem.put addr.toNat v }

/-- `MemWrite(addr, 1, v)` (R62). Which addresses the platform backs is left to it (R60, R66), and an unbacked one is 'stuck'
(U13, D8); the model takes every address as backed for a write, so a write never stops (DESIGN CHOICE, log entry 21). -/
def memWrite (addr : Word) (v : Byte) : Proc State Unit := modify fun s => s.storeByte addr v

/-! The status of a command: the core's exceptions (R320, R321). -/

/-- A command ends: its status is left in `STATUS.CODE` (R280, R321). On any status other than `OK` this is all that
'trap entry' does (R328): nothing is saved, no mode changes and control goes nowhere. -/
def report (st : Status) (s : State) : State := { s with regs := { s.regs with code := st } }

/-- `Fatal` was raised (R326): `fault ← 1`, `STATUS.CODE ← ERR_FATAL`, every effect already made stays. -/
def takeFatal (s : State) : State := { s with regs := { s.regs with code := .errFatal, fault := true } }

/-- The way back from `ERR_FATAL` (R329): there is no return instruction; `INIT` and `END` clear `fault`. -/
def clearFault (s : State) : State := { s with regs := { s.regs with fault := false } }

/-- The end of a command's body (R280): its status is reported, a `Fatal` is taken, or there is no step. -/
def finishCommand (r : Except Stop Status × State) : Host.Outcome State Fault Refusal :=
  match r with
  | (.ok st, s) => .next (report st s)
  | (.error .fatal, s) => .next (takeFatal s)
  | (.error (.stuck f), _) => .fault f

/-- What a command may be issued in (R280): whether `fault = 1` or `sstate = UNCONF` refuses it. -/
structure Admission where
  whileFault : Bool
  whileUnconf : Bool

/-- The prologue of R280 and the body behind it. `legal` is the decode's verdict on the operand fields (R96): it comes
first, then the sticky fault, then the absence of a session (R327). The three refusals change nothing but
`STATUS.CODE`. (`CMD` holds the word already: the step that fetched the word wrote it.) -/
def execute (legal : Bool) (adm : Admission) (body : Proc State Status) (s : State) : Host.Outcome State Fault Refusal :=
  if legal = false then .next (report .errParam s)
  else if s.regs.fault && !adm.whileFault then .next (report .errFatal s)
  else if decide (s.regs.sstate = .unconf) && !adm.whileUnconf then .next (report .errProtocol s)
  else finishCommand (body s)

end Sys2Proof.Machine
end

