-- ==== Sys2Proof/Machine/Flags.lean ====
section
/-! DEFINITION. The flags and the registers the host reads them through: `STATUS` (R22), `CFG` (R23), the sixteen
registers of the port (R20) and what a host write to each does (R20 to R27), and the invariants of R34. -/

namespace Sys2Proof.Machine

/-- The numeric code of a status (R97). -/
def Status.bits : Status → BitVec 3
  | .ok => 0#3
  | .streamEnd => 1#3
  | .buf => 2#3
  | .errParam => 3#3
  | .errProtocol => 4#3
  | .errFatal => 5#3

/-- The numeric code of a stream state (R22). -/
def StreamState.bits : StreamState → BitVec 2
  | .unconf => 0#2
  | .init => 1#2
  | .busy => 2#2
  | .finish => 3#2

/-- The `STATUS` register (R22): `CODE` [2:0], `FAULT` [3], `SSTATE` [5:4], `IN_VALID` [6], `OUT_VALID` [7], `FRESH` [8],
`TRAILER_DONE` [9], zeros above. -/
def HostRegs.statusWord (r : HostRegs) : Word :=
  0#22 ++ BitVec.ofBool r.trailerDone ++ BitVec.ofBool r.fresh ++ BitVec.ofBool r.outValid ++ BitVec.ofBool r.inValid
    ++ r.sstate.bits ++ BitVec.ofBool r.fault ++ r.code.bits

/-- The `CFG` register (R23): the configuration fields at the bit positions of the `INIT` word (R91). -/
def Conf.cfgWord (c : Conf) : Word :=
  0#6 ++ c.wrap ++ c.memLevel ++ c.windowBits ++ 0#2 ++ c.strategy ++ c.level ++ 0#8

/-- What a host read of a register returns (R20); it has no side effect. -/
def State.readReg (s : State) (index : BitVec 4) : Word :=
  match index.toNat with
  | 0x0 => s.regs.cmd
  | 0x1 => s.regs.statusWord
  | 0x2 => s.conf.cfgWord
  | 0x3 => s.regs.arg0
  | 0x4 => s.regs.arg1
  | 0x5 => s.regs.inPtr
  | 0x6 => s.regs.inAvail
  | 0x7 => s.regs.outPtr
  | 0x8 => s.regs.outAvail
  | 0x9 => s.regs.totalIn.extractLsb' 0 32
  | 0xA => s.regs.totalIn.extractLsb' 32 32
  | 0xB => s.regs.totalOut.extractLsb' 0 32
  | 0xC => s.regs.totalOut.extractLsb' 32 32
  | 0xD => s.cks.ck
  | 0xE => s.regs.gzMtime
  | _ => s.regs.gzOs.setWidth 32

/-- A host write to a register other than `CMD` (R20): `ARG0`, `ARG1`, `GZ_MTIME` take the word, `GZ_OS` its bits [7:0];
every other register is read-only and ignores the write (U20). -/
def State.writeReg (s : State) (index : BitVec 4) (data : Word) : State :=
  match index.toNat with
  | 0x3 => { s with regs := { s.regs with arg0 := data } }
  | 0x4 => { s with regs := { s.regs with arg1 := data } }
  | 0xE => { s with regs := { s.regs with gzMtime := data } }
  | 0xF => { s with regs := { s.regs with gzOs := data.extractLsb' 0 8 } }
  | _ => s

/-- Size of the window buffer (R8). -/
def Conf.windowBufSize (c : Conf) : Nat := 2 * c.windowSize

/-- A position that may stand in `head` or `prev`: at most `windowBufSize - MIN_MATCH` (R34). -/
def Conf.positionOk (c : Conf) (p : BitVec 16) : Bool := decide (p.toNat + minMatch ≤ c.windowBufSize)

/-- The window cursor invariants (R34): `strStart + lookahead ≤ windowBufSize`, `blockStart ≤ strStart`, and every position in
`head` or `prev` in range. -/
def Matcher.cursorsOk (c : Conf) (m : Matcher) : Bool :=
  decide (m.strStart.toNat + m.lookahead.toNat ≤ c.windowBufSize)
    && decide (m.blockStart.toInt ≤ (m.strStart.toNat : Int))
    && m.head.allBelow c.hashSize c.positionOk && m.prev.allBelow c.windowSize c.positionOk

/-- `pendingOut ≤ pending ≤ pendingBufSize` and `0 ≤ biValid ≤ 16` (R34, R43, R140). -/
def Packer.cursorsOk (c : Conf) (k : Packer) : Bool :=
  decide (k.pendingOut ≤ k.pending) && decide (k.pending.toNat ≤ c.pendingBufSize) && decide (k.biValid.toNat ≤ 16)

/-- `lastLit ≤ literalBufferSize - 1` (R34). -/
def Coder.cursorsOk (c : Conf) (k : Coder) : Bool := decide (k.lastLit.toNat + 1 ≤ c.literalBufferSize)

/-- The invariants a model may rely on at every command boundary, and should check (R34). -/
def State.boundaryOk (s : State) : Bool := s.mat.cursorsOk s.conf && s.pk.cursorsOk s.conf && s.cod.cursorsOk s.conf

/-- The check of R34 at the end of a command that moves the cursors. -/
def checkBoundary : Proc State Unit := do
  let s ← get
  require s.boundaryOk

end Sys2Proof.Machine
end

