-- ==== Sys2Proof/Machine/Operands.lean ====
section
/-! DEFINITION. Operand assembly (R95) and what the operand fields stand for: the configuration an `INIT` word names
(R8, R33), the tuning values of a level (R10), the spans of `ARG0` and `ARG1`, the flush mode (R100). -/

namespace Sys2Proof.Machine

/-- `(goodMatch, maxLazyMatch, niceMatch, maxChainLength) <- level table row of level` (R10, R33). -/
def Conf.loadTuning (c : Conf) : Conf :=
  { c with
    goodMatch := BitVec.ofNat 13 (levelRow c.level).goodMatch
    maxLazyMatch := BitVec.ofNat 13 (levelRow c.level).maxLazyMatch
    niceMatch := BitVec.ofNat 13 (levelRow c.level).niceMatch
    maxChainLength := BitVec.ofNat 13 (levelRow c.level).maxChainLength }

/-- The configuration registers an accepted `INIT` writes: the five fields and the sizes of R8 (R33, R281). The tuning
values are loaded by the session reset that follows (R282). -/
def Conf.ofFields (old : Conf) (level : BitVec 4) (strategy : BitVec 2) (windowBits memLevel : BitVec 4) (wrap : BitVec 2) : Conf :=
  { old with
    level := level, strategy := strategy, windowBits := windowBits, memLevel := memLevel, wrap := wrap
    windowSize := windowSizeOf windowBits, windowMask := windowSizeOf windowBits - 1
    hashBits := hashBitsOf memLevel, hashSize := 2 ^ hashBitsOf memLevel, hashMask := 2 ^ hashBitsOf memLevel - 1
    hashShift := hashShiftOf memLevel, literalBufferSize := literalBufferSizeOf memLevel
    pendingBufSize := pendingBufSizeOf memLevel, maxDist := maxDistOf windowBits }

/-- `CFG <- 0` (R288). -/
def Conf.clearFields (c : Conf) : Conf :=
  { c with level := 0#4, strategy := 0#2, windowBits := 0#4, memLevel := 0#4, wrap := 0#2 }

/-- `func(level)`: the strategy function the level selects (R10). -/
def Conf.fn (c : Conf) : StrategyFn := (levelRow c.level).fn

/-- `IN_PTR <- ptr; IN_AVAIL <- n; inValid <- v` (R25, R284). -/
def State.setInputSpan (s : State) (ptr n : Word) (v : Bool) : State :=
  { s with regs := { s.regs with inPtr := ptr, inAvail := n, inValid := v } }

/-- `OUT_PTR <- ptr; OUT_AVAIL <- n; outValid <- v` (R25, R285). -/
def State.setOutputSpan (s : State) (ptr n : Word) (v : Bool) : State :=
  { s with regs := { s.regs with outPtr := ptr, outAvail := n, outValid := v } }

/-- `trunc_N` of a signed value (R11): the low bits, two's complement. -/
def truncInt (w : Nat) (v : Int) : BitVec w := BitVec.ofInt w v

/-- The flush operand as it is compared and kept in `lastFlush` (R35, R297). -/
def flushValue (flush : BitVec 3) : BitVec 4 := flush.setWidth 4

/-- `lastFlush = −1`: work is still owed (R35). -/
def workOwed : BitVec 4 := -1#4

end Sys2Proof.Machine
end

