-- ==== Sys2Proof/Machine/BitPacker.lean ====
section
/-! DEFINITION. The bit-packer (40_bitpacker.md, R140 to R149). `cap` is `pendingBufSize`. -/

namespace Sys2Proof.Machine

/-- `PutByte(b)` (R141). -/
def putByte (cap : Nat) (b : Byte) : Proc Packer Unit := do
  let k ← get
  if k.pending.toNat ≥ cap then raiseFatal
  else set { k with pendingBuf := k.pendingBuf.set k.pending.toNat b, pending := k.pending + 1#18 }

/-- `PutShort(w)` (R142): low byte first. -/
def putShort (cap : Nat) (w : Half) : Proc Packer Unit := do
  putByte cap (w.extractLsb' 0 8)
  putByte cap (w.extractLsb' 8 8)

/-- `PutShortMSB(w)` (R143): high byte first. -/
def putShortMSB (cap : Nat) (w : Half) : Proc Packer Unit := do
  putByte cap (w.extractLsb' 8 8)
  putByte cap (w.extractLsb' 0 8)

/-- `SendBits(value, length)` (R144). Length 0 changes nothing; a length above 16 or a value with bits at or above `length`
violates the precondition and is `raise Fatal` (U21). -/
def sendBits (cap : Nat) (value length : Nat) : Proc Packer Unit := do
  if length = 0 then pure ()
  else if length > 16 ∨ value ≥ 2 ^ length then raiseFatal
  else
    let k ← get
    let held := k.biValid.toNat
    let filled := k.biBuf ||| BitVec.ofNat 16 (value <<< held)
    if held > 16 - length then
      modify fun k => { k with biBuf := filled }
      putShort cap filled
      modify fun k => { k with biBuf := BitVec.ofNat 16 (value >>> (16 - held)), biValid := BitVec.ofNat 5 (held + length - 16) }
    else
      modify fun k => { k with biBuf := filled, biValid := BitVec.ofNat 5 (held + length) }

/-- The wide form (R145): 17 to 32 bits as two calls, low half first. No emitter uses it. -/
def sendBits32 (cap : Nat) (value length : Nat) : Proc Packer Unit := do
  sendBits cap (value % 2 ^ 16) 16
  sendBits cap (value >>> 16) (length - 16)

/-- A plain field whose value the pseudocode computes by a subtraction: a negative value violates the precondition of
`SendBits` (R144). -/
def sendField (cap : Nat) (value : Int) (length : Nat) : Proc Packer Unit := do
  let v ← indexOf value
  sendBits cap v length

/-- `SendCode(c, codeTable, lenTable)` (R146): a symbol with no code must never be sent. -/
def sendCode (cap : Nat) (c : Nat) (t : CodeTable) : Proc Packer Unit :=
  if c ≥ t.size ∨ t.len c = 0 then raiseFatal else sendBits cap (t.code c) (t.len c)

/-- `BiFlush()` (R147). -/
def biFlush (cap : Nat) : Proc Packer Unit := do
  let k ← get
  if k.biValid.toNat = 16 then
    putShort cap k.biBuf
    modify fun k => { k with biBuf := 0#16, biValid := 0#5 }
  else if k.biValid.toNat ≥ 8 then
    putByte cap (k.biBuf.extractLsb' 0 8)
    modify fun k => { k with biBuf := k.biBuf >>> 8, biValid := k.biValid - 8#5 }
  else pure ()

/-- The bytes that `BiWindup` writes (R148). -/
def windupBytes (cap : Nat) (k : Packer) : Proc Packer Unit :=
  if k.biValid.toNat > 8 then putShort cap k.biBuf
  else if k.biValid.toNat > 0 then putByte cap (k.biBuf.extractLsb' 0 8)
  else pure ()

/-- `BiWindup()` (R148). -/
def biWindup (cap : Nat) : Proc Packer Unit := do
  let k ← get
  windupBytes cap k
  modify fun k => { k with biBuf := 0#16, biValid := 0#5 }

/-- `PutByte` of each of a list of bytes, in order. -/
def putBytes (cap : Nat) : List Byte → Proc Packer Unit
  | [] => pure ()
  | b :: bs => do
    putByte cap b
    putBytes cap bs

end Sys2Proof.Machine
end

