-- ==== Sys2Proof/Machine/Huffman.lean ====
section
/-! DEFINITION. The Huffman tree builder, canonical codes and the sending of the trees (41_huffman.md, R160 to R178). -/

namespace Sys2Proof.Machine

/-- The three dynamic descriptors (R45, R160). -/
inductive TreeId where
  | dynL
  | dynD
  | bl
  deriving DecidableEq, Repr

def TreeId.elems : TreeId → Nat
  | .dynL => lCodes
  | .dynD => dCodes
  | .bl => blCodes

def TreeId.maxLength : TreeId → Nat
  | .dynL => maxBits
  | .dynD => maxBits
  | .bl => 7

/-- `XBits(t, n)` (R160): the extra bits of symbol `n`. -/
def TreeId.xbits : TreeId → Nat → Nat
  | .dynL, n => if n ≥ 257 then tableAt extraLBits (n - 257) else 0
  | .dynD, n => tableAt extraDBits n
  | .bl, n => tableAt extraBlBits n

/-- `t.staticLen[n]`; 0 for `bl`, which has none (R160): what is added to or taken from the `staticLen` register is then 0. -/
def TreeId.staticLen : TreeId → Nat → Nat
  | .dynL, n => staticLLen n
  | .dynD, n => staticDLen n
  | .bl, _ => 0

/-- Whether the descriptor has static lengths (R160). -/
def TreeId.hasStatic : TreeId → Bool
  | .dynL => true
  | .dynD => true
  | .bl => false

/-- Entries of a descriptor's tables: node indices `0 .. 2 × elems` (R45). -/
def TreeId.nodes (t : TreeId) : Nat := 2 * t.elems + 1

def Coder.tree (k : Coder) : TreeId → Tree
  | .dynL => k.dynL
  | .dynD => k.dynD
  | .bl => k.bl

def Coder.setTree (k : Coder) (t : TreeId) (x : Tree) : Coder :=
  match t with
  | .dynL => { k with dynL := x }
  | .dynD => { k with dynD := x }
  | .bl => { k with bl := x }

/-- The `maxCode` register of a descriptor (R160), signed. -/
def Coder.maxCode (k : Coder) : TreeId → Int
  | .dynL => k.lMaxCode.toInt
  | .dynD => k.dMaxCode.toInt
  | .bl => k.blMaxCode.toInt

def Coder.setMaxCode (k : Coder) (t : TreeId) (v : Int) : Coder :=
  match t with
  | .dynL => { k with lMaxCode := truncInt 10 v }
  | .dynD => { k with dMaxCode := truncInt 10 v }
  | .bl => { k with blMaxCode := truncInt 10 v }

/-! Bounds-checked table accesses (R45, R47, R73). -/

def getFreq (t : TreeId) (n : Nat) : Proc Coder Nat := do
  let k ← get
  let v ← load t.nodes (k.tree t).freq n
  pure v.toNat

def setFreq (t : TreeId) (n v : Nat) : Proc Coder Unit := do
  let k ← get
  let m ← stored t.nodes (k.tree t).freq n (BitVec.ofNat 16 v)
  set (k.setTree t { k.tree t with freq := m })

/-- `t.freq[n] <- t.freq[n] + 1`. -/
def bumpFreq (t : TreeId) (n : Nat) : Proc Coder Unit := do
  let f ← getFreq t n
  setFreq t n (f + 1)

def getLen (t : TreeId) (n : Nat) : Proc Coder Nat := do
  let k ← get
  let v ← load t.nodes (k.tree t).len n
  pure v.toNat

def setLen (t : TreeId) (n v : Nat) : Proc Coder Unit := do
  let k ← get
  let m ← stored t.nodes (k.tree t).len n (BitVec.ofNat 16 v)
  set (k.setTree t { k.tree t with len := m })

def setCode (t : TreeId) (n v : Nat) : Proc Coder Unit := do
  let k ← get
  let m ← stored t.nodes (k.tree t).code n (BitVec.ofNat 16 v)
  set (k.setTree t { k.tree t with code := m })

def getDad (t : TreeId) (n : Nat) : Proc Coder Nat := do
  let k ← get
  let v ← load t.nodes (k.tree t).dad n
  pure v.toNat

def setDad (t : TreeId) (n v : Nat) : Proc Coder Unit := do
  let k ← get
  let m ← stored t.nodes (k.tree t).dad n (BitVec.ofNat 10 v)
  set (k.setTree t { k.tree t with dad := m })

/-- `heap` has entries 0 .. 573 (R47). -/
def heapEntries : Nat := heapSize + 1

def getHeap (i : Nat) : Proc Coder Nat := do
  let k ← get
  let v ← load heapEntries k.heap i
  pure v.toNat

def setHeap (i v : Nat) : Proc Coder Unit := do
  let k ← get
  let m ← stored heapEntries k.heap i (BitVec.ofNat 10 v)
  set { k with heap := m }

/-- `depth` has entries 0 .. 572 (R47). -/
def getDepth (n : Nat) : Proc Coder Nat := do
  let k ← get
  let v ← load heapSize k.depth n
  pure v.toNat

def setDepth (n v : Nat) : Proc Coder Unit := do
  let k ← get
  let m ← stored heapSize k.depth n (BitVec.ofNat 8 v)
  set { k with depth := m }

/-- `blCount` and `nextCode` have entries 0 .. 15 (R47). -/
def getBlCount (b : Nat) : Proc Coder Nat := do
  let k ← get
  let v ← load 16 k.blCount b
  pure v.toNat

def setBlCount (b v : Nat) : Proc Coder Unit := do
  let k ← get
  let m ← stored 16 k.blCount b (BitVec.ofNat 16 v)
  set { k with blCount := m }

def getNextCode (b : Nat) : Proc Coder Nat := do
  let k ← get
  let v ← load 16 k.nextCode b
  pure v.toNat

def setNextCode (b v : Nat) : Proc Coder Unit := do
  let k ← get
  let m ← stored 16 k.nextCode b (BitVec.ofNat 16 v)
  set { k with nextCode := m }

/-- `optLen <- trunc_32(optLen + d)`, `d` signed (R14 (e)). -/
def addOptLen (d : Int) : Proc Coder Unit := modify fun k => { k with optLen := k.optLen + truncInt 32 d }

/-- `staticLen <- trunc_32(staticLen + d)` (R14 (e)). -/
def addStaticLen (d : Int) : Proc Coder Unit := modify fun k => { k with staticLen := k.staticLen + truncInt 32 d }

/-! Block statistics (R161). -/

/-- `InitBlock()` (R161). -/
def Coder.initBlock (k : Coder) : Coder :=
  { k with
    dynL := { k.dynL with freq := (k.dynL.freq.clearBelow lCodes).set endBlock 1#16 }
    dynD := { k.dynD with freq := k.dynD.freq.clearBelow dCodes }
    bl := { k.bl with freq := k.bl.freq.clearBelow blCodes }
    optLen := 0#32, staticLen := 0#32, lastLit := 0#16, matchCount := 0#16 }

/-! Tree construction (R162 to R164). -/

/-- `Smaller(t, n, m)` (R162). -/
def smaller (t : TreeId) (n m : Nat) : Proc Coder Bool := do
  let fn ← getFreq t n
  let fm ← getFreq t m
  let dn ← getDepth n
  let dm ← getDepth m
  pure (decide (fn < fm) || (decide (fn = fm) && decide (dn ≤ dm)))

/-- The smaller child of the node whose left child is slot `j` (R162). -/
def smallerChild (t : TreeId) (heapLen j : Nat) : Proc Coder Nat := do
  let l ← getHeap j
  if j < heapLen then
    let r ← getHeap (j + 1)
    let second ← smaller t r l
    pure (if second then j + 1 else j)
  else pure j

/-- The `while` loop of `PqDownHeap` (R162): `v` sinks from slot `k`, whose left child is slot `j`. `heapLen ≤ 573`
and `j` at least doubles at every turn, so eleven turns see the end. -/
def siftDown (t : TreeId) (v : Nat) : Nat → Nat → Nat → Proc Coder Unit
  | 0, k, _ => setHeap k v
  | fuel + 1, k, j => do
    let c ← get
    if j ≤ c.heapLen.toNat then
      let child ← smallerChild t c.heapLen.toNat j
      let u ← getHeap child
      let settled ← smaller t v u
      if settled then setHeap k v
      else
        setHeap k u
        siftDown t v fuel child (2 * child)
    else setHeap k v

/-- `PqDownHeap(t, k)` (R162). -/
def pqDownHeap (t : TreeId) (k : Nat) : Proc Coder Unit := do
  let v ← getHeap k
  siftDown t v 11 k (2 * k)

/-- `heapLen <- heapLen + 1; heap[heapLen] <- n` (R163). -/
def pushHeap (n : Nat) : Proc Coder Unit := do
  modify fun k => { k with heapLen := k.heapLen + 1#10 }
  let k ← get
  setHeap k.heapLen.toNat n

/-- `heapMax <- heapMax - 1; heap[heapMax] <- n` (R164). -/
def placeSorted (n : Nat) : Proc Coder Unit := do
  modify fun k => { k with heapMax := k.heapMax - 1#10 }
  let k ← get
  setHeap k.heapMax.toNat n

/-- Phase 1 of R163: the used symbols among `n .. elems - 1` enter the heap; answers the largest one, or `maxCode`. -/
def collectSymbols (t : TreeId) : Nat → Nat → Int → Proc Coder Int
  | 0, _, maxCode => pure maxCode
  | r + 1, n, maxCode => do
    let f ← getFreq t n
    if f ≠ 0 then
      pushHeap n
      setDepth n 0
      collectSymbols t r (n + 1) n
    else
      setLen t n 0
      collectSymbols t r (n + 1) maxCode

/-- Phase 1 of R163: a tree has at least two leaves. The loop runs while `heapLen < 2`, so at most twice. -/
def padSymbols (t : TreeId) : Nat → Int → Proc Coder Int
  | 0, maxCode => pure maxCode
  | fuel + 1, maxCode => do
    let k ← get
    if k.heapLen.toNat < 2 then
      let maxCode' := if maxCode < 2 then maxCode + 1 else maxCode
      let node := if maxCode < 2 then (maxCode + 1).toNat else 0
      pushHeap node
      setFreq t node 1
      setDepth node 0
      addOptLen (-1)
      onlyIf t.hasStatic (addStaticLen (-(t.staticLen node : Int)))
      padSymbols t fuel maxCode'
    else pure maxCode

/-- Phase 2 of R164: the two least frequent nodes are combined until one remains; `heapLen` falls by one at each turn. -/
def combineNodes (t : TreeId) : Nat → Nat → Proc Coder Unit
  | 0, _ => pure ()
  | fuel + 1, node => do
    let n ← getHeap 1
    let k ← get
    let last ← getHeap k.heapLen.toNat
    setHeap 1 last
    modify fun k => { k with heapLen := k.heapLen - 1#10 }
    pqDownHeap t 1
    let m ← getHeap 1
    placeSorted n
    placeSorted m
    let fn ← getFreq t n
    let fm ← getFreq t m
    setFreq t node (fn + fm)
    let dn ← getDepth n
    let dm ← getDepth m
    setDepth node (max dn dm + 1)
    setDad t n node
    setDad t m node
    setHeap 1 node
    pqDownHeap t 1
    let k ← get
    if k.heapLen.toNat < 2 then pure () else combineNodes t fuel (node + 1)

/-! Code lengths (R166 to R168). -/

/-- The first pass of `GenBitLen` (R166) over `heap[h ..]`, `r` entries; answers how many nodes were clamped. -/
def assignDepths (t : TreeId) (maxCode : Int) : Nat → Nat → Int → Proc Coder Int
  | 0, _, overflow => pure overflow
  | r + 1, h, overflow => do
    let n ← getHeap h
    let d ← getDad t n
    let above ← getLen t d
    let bits := min (above + 1) t.maxLength
    let overflow' := if above + 1 > t.maxLength then overflow + 1 else overflow
    setLen t n bits
    if (n : Int) > maxCode then assignDepths t maxCode r (h + 1) overflow'
    else
      let c ← getBlCount bits
      setBlCount bits (c + 1)
      let f ← getFreq t n
      addOptLen (f * (bits + t.xbits n) : Nat)
      onlyIf t.hasStatic (addStaticLen (f * (t.staticLen n + t.xbits n) : Nat))
      assignDepths t maxCode r (h + 1) overflow'

/-- `while blCount[bits] = 0: bits <- bits - 1` (R167); reaching 0 is `raise Fatal`. -/
def findBucket : Nat → Proc Coder Nat
  | 0 => raiseFatal
  | b + 1 => do
    let c ← getBlCount (b + 1)
    if c ≠ 0 then pure (b + 1) else findBucket b

/-- The overflow correction of R167; `overflow` falls by two at each turn. -/
def fixOverflow (t : TreeId) : Nat → Int → Proc Coder Unit
  | 0, _ => pure ()
  | fuel + 1, overflow => do
    let bits ← findBucket (t.maxLength - 1)
    let c ← getBlCount bits
    setBlCount bits (c - 1)
    let c ← getBlCount (bits + 1)
    setBlCount (bits + 1) (c + 2)
    let c ← getBlCount t.maxLength
    setBlCount t.maxLength (c + 65535)
    if overflow - 2 ≤ 0 then pure () else fixOverflow t fuel (overflow - 2)

/-- The inner loop of R168: `n` leaves, walking down from `heap[h - 1]`, get the length `bits`; answers where it stopped. -/
def relengthen (t : TreeId) (maxCode : Int) (bits : Nat) : Nat → Nat → Proc Coder Nat
  | 0, n => if n = 0 then pure 0 else raiseFatal
  | h + 1, n => do
    if n = 0 then pure (h + 1)
    else
      let m ← getHeap h
      if (m : Int) > maxCode then relengthen t maxCode bits h n
      else
        let l ← getLen t m
        onlyIf (l ≠ bits) do
          let f ← getFreq t m
          addOptLen (((bits : Int) - l) * f)
          setLen t m bits
        relengthen t maxCode bits h (n - 1)

/-- `for bits in maxLength down to 1` of R168. -/
def reassignLengths (t : TreeId) (maxCode : Int) : Nat → Nat → Proc Coder Unit
  | 0, _ => pure ()
  | b + 1, h => do
    let n ← getBlCount (b + 1)
    let h' ← relengthen t maxCode (b + 1) h n
    reassignLengths t maxCode b h'

/-- `GenBitLen(t)` (R166 to R168). -/
def genBitLen (t : TreeId) : Proc Coder Unit := do
  forCount (fun b => setBlCount b 0) 16 0
  let k ← get
  let root ← getHeap k.heapMax.toNat
  setLen t root 0
  let maxCode := k.maxCode t
  let overflow ← assignDepths t maxCode (heapSize - (k.heapMax.toNat + 1)) (k.heapMax.toNat + 1) 0
  if overflow = 0 then pure ()
  else
    fixOverflow t overflow.toNat overflow
    reassignLengths t maxCode t.maxLength heapSize

/-! Canonical codes (R170). -/

/-- The starting code of each length (R170). -/
def startCodes : Nat → Nat → Nat → Proc Coder Unit
  | 0, _, _ => pure ()
  | r + 1, bits, code => do
    let c ← getBlCount (bits - 1)
    let code' := ((code + c) <<< 1) % 65536
    setNextCode bits code'
    startCodes r (bits + 1) code'

/-- The code of symbol `n` (R170). -/
def assignCode (t : TreeId) (n : Nat) : Proc Coder Unit := do
  let l ← getLen t n
  if l = 0 then pure ()
  else
    let c ← getNextCode l
    setCode t n (biReverse c l)
    setNextCode l (c + 1)

/-- `GenCodes(t)` (R170). -/
def genCodes (t : TreeId) : Proc Coder Unit := do
  startCodes maxBits 1 0
  let k ← get
  forCount (assignCode t) (k.maxCode t + 1).toNat 0

/-- `BuildTree(t)` (R163, R164). -/
def buildTree (t : TreeId) : Proc Coder Unit := do
  modify fun k => { k with heapLen := 0#10, heapMax := BitVec.ofNat 10 heapSize }
  let maxCode ← collectSymbols t t.elems 0 (-1)
  let maxCode ← padSymbols t 2 maxCode
  modify fun k => k.setMaxCode t maxCode
  let k ← get
  forDown (fun n => pqDownHeap t n) (k.heapLen.toNat / 2)
  combineNodes t k.heapLen.toNat t.elems
  let root ← getHeap 1
  placeSorted root
  genBitLen t
  genCodes t

/-! Sending the trees (R175 to R178). -/

/-- One code-length symbol as it goes on the wire: the symbol, and the value and width of its extra bits. -/
structure BlItem where
  sym : Nat
  extra : Nat
  extraBits : Nat
  deriving DecidableEq, Repr

/-- The symbols of one finished run of `count` equal lengths `cur` (the four actions of R175 and R176). -/
def runItems (cur count minCount : Nat) (isNew : Bool) : List BlItem :=
  if count < minCount then List.replicate count ⟨cur, 0, 0⟩
  else if cur ≠ 0 then
    if isNew then [⟨cur, 0, 0⟩, ⟨rep36, count - 1 - 3, 2⟩] else [⟨rep36, count - 3, 2⟩]
  else if count ≤ 10 then [⟨repz310, count - 3, 3⟩]
  else [⟨repz11138, count - 11, 7⟩]

/-- The `GUARD` of R175: equal to no length. -/
def lenGuard : Nat := 0xFFFF

/-- The walk of R175, which R176 repeats: `r` lengths left, the current one `cur` being that of symbol `n`. -/
def walkRuns (len : Nat → Nat) (last : Nat) : Nat → Nat → Option Nat → Nat → Nat → Nat → Nat → List BlItem
  | 0, _, _, _, _, _, _ => []
  | r + 1, n, prev, cur, count, maxCount, minCount =>
    let next := if n < last then len (n + 1) else lenGuard
    if count + 1 < maxCount ∧ cur = next then walkRuns len last r (n + 1) prev next (count + 1) maxCount minCount
    else
      let maxCount' := if next = 0 then 138 else if cur = next then 6 else 7
      let minCount' := if next = 0 then 3 else if cur = next then 3 else 4
      runItems cur (count + 1) minCount (decide (prev ≠ some cur))
        ++ walkRuns len last r (n + 1) (some cur) next 0 maxCount' minCount'

/-- The code-length symbols of `t.len[0 .. maxCode]` (R175, R176). -/
def treeItems (len : Nat → Nat) (maxCode : Nat) : List BlItem :=
  let first := len 0
  walkRuns len maxCode (maxCode + 1) 0 none first 0 (if first = 0 then 138 else 7) (if first = 0 then 3 else 4)

/-- The lengths of a tree as a function of the symbol. -/
def Tree.lenOf (x : Tree) (n : Nat) : Nat := (x.len.get n).toNat

/-- The code table of a dynamic tree (R45). -/
def Coder.codeTable (k : Coder) (t : TreeId) : CodeTable :=
  ⟨t.nodes, fun n => ((k.tree t).code.get n).toNat, fun n => ((k.tree t).len.get n).toNat⟩

/-- `bl.freq[sym] <- bl.freq[sym] + 1` for each code-length symbol. -/
def countItems : List BlItem → Proc Coder Unit
  | [] => pure ()
  | x :: xs => do
    bumpFreq .bl x.sym
    countItems xs

/-- `ScanTree(t, maxCode)` (R175). The walk reads `t.len[0 .. maxCode]`. -/
def scanTree (t : TreeId) (maxCode : Int) : Proc Coder Unit := do
  let last ← indexOf maxCode
  let k ← get
  require (decide (last < t.nodes))
  countItems (treeItems (k.tree t).lenOf last)

/-- Each code-length symbol with its extra bits (R176). -/
def sendItems (cap : Nat) (bl : CodeTable) : List BlItem → Proc Packer Unit
  | [] => pure ()
  | x :: xs => do
    sendCode cap x.sym bl
    sendBits cap x.extra x.extraBits
    sendItems cap bl xs

/-- `SendTree(t, maxCode)` (R176). -/
def sendTree (cap : Nat) (k : Coder) (t : TreeId) (maxCode : Int) : Proc Packer Unit := do
  let last ← indexOf maxCode
  require (decide (last < t.nodes))
  sendItems cap (k.codeTable .bl) (treeItems (k.tree t).lenOf last)

/-- `while maxBlIndex >= 3 and bl.len[BL_ORDER[maxBlIndex]] = 0: maxBlIndex <- maxBlIndex - 1` (R177). -/
def lastBlIndex (len : Nat → Nat) : Nat → Nat
  | 0 => 0
  | i + 1 => if i + 1 ≥ 3 ∧ len (tableAt blOrder (i + 1)) = 0 then lastBlIndex len i else i + 1

/-- `BuildBlTree() → maxBlIndex` (R177). -/
def buildBlTree : Proc Coder Nat := do
  let k ← get
  scanTree .dynL (k.maxCode .dynL)
  scanTree .dynD (k.maxCode .dynD)
  buildTree .bl
  let k ← get
  let maxBlIndex := lastBlIndex (k.tree .bl).lenOf 18
  addOptLen (3 * (maxBlIndex + 1) + 5 + 5 + 4 : Nat)
  pure maxBlIndex

/-- The code lengths of the code-length code, in transmission order (R115, R178). -/
def sendBlLengths (cap : Nat) (len : Nat → Nat) : List Nat → Proc Packer Unit
  | [] => pure ()
  | sym :: rest => do
    sendBits cap (len sym) 3
    sendBlLengths cap len rest

/-- `SendAllTrees(lcodes, dcodes, blcodes)` (R178). -/
def sendAllTrees (cap : Nat) (k : Coder) (lcodes dcodes : Int) (blcodes : Nat) : Proc Packer Unit := do
  sendField cap (lcodes - 257) 5
  sendField cap (dcodes - 1) 5
  sendField cap ((blcodes : Int) - 4) 4
  sendBlLengths cap (k.tree .bl).lenOf (blOrder.take blcodes)
  sendTree cap k .dynL (lcodes - 1)
  sendTree cap k .dynD (dcodes - 1)

end Sys2Proof.Machine
end

