-- ==== Sys2Proof/Machine/Checksum.lean ====
section
/-! DEFINITION. The checksum collaborator (R78) with the two standard functions of R79 (parameter `CHECKSUM_FN`, U16). -/

namespace Sys2Proof.Machine

/-- One byte folded into an Adler-32 (R79): `ck = (s2 << 16) | s1`. -/
def adlerUpdate (ck : Word) (b : Byte) : Word :=
  let s1 := (ck.toNat % 65536 + b.toNat) % 65521
  let s2 := (ck.toNat / 65536 + s1) % 65521
  BitVec.ofNat 32 (s2 * 65536 + s1)

/-- `c <- (c >> 1) ^ (0xEDB88320 if c[0] = 1 else 0)`, `k` times (R79). -/
def crcShift : Nat → Word → Word
  | 0, c => c
  | k + 1, c => crcShift k (if c.getLsbD 0 then (c >>> 1) ^^^ 0xEDB88320#32 else c >>> 1)

/-- One byte folded into a CRC-32 (R79). -/
def crcUpdate (ck : Word) (b : Byte) : Word := ~~~ (crcShift 8 (~~~ ck ^^^ b.setWidth 32))

/-- The initial value of a function (R27, R79). -/
def ChecksumUnit.initial : ChecksumUnit → Word
  | .none => 0#32
  | .adler32 => 1#32
  | .crc32 => 0#32

/-- `CkUpdate` (R78). -/
def ChecksumUnit.update : ChecksumUnit → Word → Byte → Word
  | .none, ck, _ => ck
  | .adler32, ck, b => adlerUpdate ck b
  | .crc32, ck, b => crcUpdate ck b

/-- The function `INIT` selects from `wrap` (R78): 2 → CRC-32, otherwise Adler-32. -/
def unitFor (wrap : BitVec 2) : ChecksumUnit := if wrap = wrapGzip then .crc32 else .adler32

/-- `CkReset()`, as a change of the state (R78). -/
def State.ckReset (s : State) : State := { s with cks := { s.cks with ck := s.cks.unit.initial } }

/-- `CkReset()` (R78). -/
def ckReset : Proc State Unit := modify State.ckReset

/-- `CkUpdate(b)` (R78). -/
def ckUpdate (b : Byte) : Proc State Unit :=
  modify fun s => { s with cks := { s.cks with ck := s.cks.unit.update s.cks.ck b } }

end Sys2Proof.Machine
end

