-- ==== Sys2Proof/Machine/Matcher.lean ====
section
/-! DEFINITION. The sliding window and the hash-chain match finder (42_matcher.md, R200 to R213), and the input side of the
stream: `ReadBuf` (R70) and `FillWindow` (R205). -/

namespace Sys2Proof.Machine

/-- `window[i]`. -/
def getWindow (c : Conf) (i : Nat) : Proc Matcher Byte := do
  let m ← get
  load c.windowBufSize m.window i

/-- `UpdateHash(b)` on a hash value (R201). -/
def hashStep (c : Conf) (insH : BitVec 16) (b : Byte) : BitVec 16 :=
  BitVec.ofNat 16 (((insH.toNat <<< c.hashShift) ^^^ b.toNat) &&& c.hashMask)

/-- `UpdateHash(b)` (R201). -/
def updateHash (c : Conf) (b : Byte) : Proc Matcher Unit := modify fun m => { m with insH := hashStep c m.insH b }

/-- `InsertString(pos) → hashHead` (R202). -/
def insertString (c : Conf) (pos : Nat) : Proc Matcher Nat := do
  let b ← getWindow c (pos + minMatch - 1)
  updateHash c b
  let m ← get
  let hashHead ← load c.hashSize m.head m.insH.toNat
  let prev ← stored c.windowSize m.prev (pos &&& c.windowMask) hashHead
  let head ← stored c.hashSize m.head m.insH.toNat (BitVec.ofNat 16 pos)
  set { m with prev := prev, head := head }
  pure hashHead.toNat

/-- `ClearHash()` (R213). -/
def clearHash (c : Conf) : Proc Matcher Unit := modify fun m => { m with head := m.head.clearBelow c.hashSize }

/-- `head[i] - windowSize`, or 0 when that underflows (R206). -/
def rebase (windowSize : Nat) (p : BitVec 16) : BitVec 16 :=
  if p.toNat ≥ windowSize then BitVec.ofNat 16 (p.toNat - windowSize) else 0#16

/-- `Slide()` (R206). -/
def Matcher.slide (c : Conf) (m : Matcher) : Matcher :=
  { m with
    window := Ram.copyFrom c.windowSize c.windowSize 0 m.window
    matchStart := m.matchStart - BitVec.ofNat 32 c.windowSize
    strStart := m.strStart - BitVec.ofNat 17 c.windowSize
    blockStart := m.blockStart - BitVec.ofNat 32 c.windowSize
    head := m.head.mapBelow c.hashSize (rebase c.windowSize)
    prev := m.prev.mapBelow c.windowSize (rebase c.windowSize) }

/-- `insH <- window[pos]; UpdateHash(window[pos + 1])` (R207, R262, R286). -/
def seedHash (c : Conf) (pos : Nat) : Proc Matcher Unit := do
  let b0 ← getWindow c pos
  modify fun m => { m with insH := b0.setWidth 16 }
  let b1 ← getWindow c (pos + 1)
  updateHash c b1

/-! Longest match (R210). -/

/-- How many of the first `k` bytes from `a + len` on agree with those from `b + len` on, added to `len`. -/
def matchRun (c : Conf) (a b : Nat) : Nat → Nat → Proc Matcher Nat
  | 0, len => pure len
  | k + 1, len => do
    let x ← getWindow c (a + len)
    let y ← getWindow c (b + len)
    if x = y then matchRun c a b k (len + 1) else pure len

/-- The `repeat` loop of R210, `budget` being `chainLength` (a budget of 0 or 1 examines one candidate). -/
def walkChain (c : Conf) (limit nice maxLen : Nat) : Nat → Nat → Nat → Proc Matcher Nat
  | 0, _, bestLen => pure bestLen
  | budget + 1, curMatch, bestLen => do
    let m ← get
    require (decide (curMatch < m.strStart.toNat))
    let len ← matchRun c curMatch m.strStart.toNat maxLen 0
    let better := decide (len > bestLen)
    onlyIf better (modify fun m => { m with matchStart := BitVec.ofNat 32 curMatch })
    if better && decide (len ≥ nice) then pure len
    else
      let best := if better then len else bestLen
      let next ← load c.windowSize m.prev (curMatch &&& c.windowMask)
      if next.toNat ≤ limit then pure best
      else if budget = 0 then pure best
      else walkChain c limit nice maxLen budget next.toNat best

/-- `LongestMatch(curMatch) → length` (R210). -/
def longestMatch (c : Conf) (curMatch : Nat) : Proc Matcher Nat := do
  let m ← get
  let limit := m.strStart.toNat - c.maxDist
  let nice := min c.niceMatch.toNat m.lookahead.toNat
  let maxLen := min maxMatch m.lookahead.toNat
  let chainLength :=
    if m.prevLength.toNat > c.goodMatch.toNat then c.maxChainLength.toNat >>> 2 else c.maxChainLength.toNat
  let bestLen ← walkChain c limit nice maxLen (max chainLength 1) curMatch m.prevLength.toNat
  pure (min bestLen m.lookahead.toNat)

/-- `hashHead ≠ 0 and trunc_16(strStart − hashHead) ≤ maxDist` (R212). -/
def admissible (c : Conf) (m : Matcher) (hashHead : Nat) : Bool :=
  decide (hashHead ≠ 0) && decide ((truncInt 16 ((m.strStart.toNat : Int) - hashHead)).toNat ≤ c.maxDist)

/-! The input side. -/

/-- The loop of `ReadBuf` (R70): `n` bytes from `src` on go to `window[dst ..]` and to the checksum. -/
def readBytes : Nat → Word → Nat → Proc State Unit
  | 0, _, _ => pure ()
  | n + 1, src, dst => do
    let b ← memRead src
    let s ← get
    if dst ≥ s.conf.windowBufSize then raiseFatal
    else
      onMatcher (modify fun m => { m with window := m.window.set dst b })
      onlyIf (s.conf.wrap ≠ wrapRaw) (ckUpdate b)
      readBytes n (src + 1#32) (dst + 1)

/-- `IN_PTR`, `IN_AVAIL` and `TOTAL_IN` after `n` bytes were consumed (R70). -/
def State.consumed (s : State) (n : Nat) : State :=
  { s with regs := { s.regs with
      inPtr := s.regs.inPtr + BitVec.ofNat 32 n
      inAvail := s.regs.inAvail - BitVec.ofNat 32 n
      totalIn := s.regs.totalIn + BitVec.ofNat 64 n } }

/-- `ReadBuf(start, size) → n` (R70). -/
def readBuf (start size : Nat) : Proc State Nat := do
  let s ← get
  let n := min s.regs.inAvail.toNat size
  if n = 0 then pure 0
  else
    readBytes n s.regs.inPtr start
    modify fun s => s.consumed n
    pure n

/-- The `repeat` loop of R205. Every turn that does not return reads at least one byte (R205), so `IN_AVAIL + 1` turns are
enough; a turn beyond them can only come from cursors that break R34, and is `raise Fatal` (log entry 5). -/
def fillLoop : Nat → Proc State Unit
  | 0 => raiseFatal
  | fuel + 1 => do
    let s ← get
    let c := s.conf
    let more := c.windowBufSize - s.mat.lookahead.toNat - s.mat.strStart.toNat
    let slides := decide (s.mat.strStart.toNat ≥ c.windowSize + c.maxDist)
    onlyIf slides (onMatcher (modify fun m => m.slide c))
    if s.regs.inAvail = 0#32 then pure ()
    else
      let room := if slides then more + c.windowSize else more
      let s ← get
      let n ← readBuf (s.mat.strStart.toNat + s.mat.lookahead.toNat) room
      onMatcher (modify fun m => { m with lookahead := m.lookahead + BitVec.ofNat 17 n })
      let s ← get
      onlyIf (s.mat.lookahead.toNat ≥ minMatch) (onMatcher (seedHash c s.mat.strStart.toNat))
      if s.mat.lookahead.toNat < minLookahead ∧ s.regs.inAvail ≠ 0#32 then fillLoop fuel else pure ()

/-- `FillWindow()` (R205). -/
def fillWindow : Proc State Unit := do
  let s ← get
  fillLoop (s.regs.inAvail.toNat + 1)

end Sys2Proof.Machine
end

