-- ==== Sys2Proof/Machine/BlockEncoder.lean ====
section
/-! DEFINITION. The block encoder (43_block_encoder.md, R230 to R242) and the output side of the stream, `FlushPending`
(R71). -/

namespace Sys2Proof.Machine

/-! The output side (R71). -/

/-- The loop of `FlushPending` (R71): `n` pending bytes from index `i` on go to `dst, dst + 1, …`. -/
def writeBytes : Nat → Nat → Word → Proc State Unit
  | 0, _, _ => pure ()
  | n + 1, i, dst => do
    let s ← get
    let b ← load s.conf.pendingBufSize s.pk.pendingBuf i
    memWrite dst b
    writeBytes n (i + 1) (dst + 1#32)

/-- `OUT_PTR`, `OUT_AVAIL` and `TOTAL_OUT` after `n` bytes were delivered (R71). -/
def State.delivered (s : State) (n : Nat) : State :=
  { s with regs := { s.regs with
      outPtr := s.regs.outPtr + BitVec.ofNat 32 n
      outAvail := s.regs.outAvail - BitVec.ofNat 32 n
      totalOut := s.regs.totalOut + BitVec.ofNat 64 n } }

/-- `pendingOut` after `n` bytes were delivered; both indices return to 0 when they meet (R43, R71). -/
def Packer.drained (k : Packer) (n : Nat) : Packer :=
  if k.pendingOut + BitVec.ofNat 18 n = k.pending then { k with pending := 0#18, pendingOut := 0#18 }
  else { k with pendingOut := k.pendingOut + BitVec.ofNat 18 n }

/-- Bytes awaiting delivery (R43). -/
def Packer.owed (k : Packer) : Nat := k.pending.toNat - k.pendingOut.toNat

/-- `FlushPending()` (R71). -/
def flushPending : Proc State Unit := do
  let s ← get
  let n := min s.pk.owed s.regs.outAvail.toNat
  if n = 0 then pure ()
  else
    writeBytes n s.pk.pendingOut.toNat s.regs.outPtr
    modify fun s => s.delivered n
    onPacker (modify fun k => k.drained n)

/-! Accumulating symbols (R230 to R232). -/

/-- The frequencies of `Tally` (R231). `dist` is 0 for a literal. -/
def countSymbol (dist : Half) (lc : Byte) : Proc Coder Unit := do
  if dist = 0#16 then bumpFreq .dynL lc.toNat
  else
    modify fun k => { k with matchCount := k.matchCount + 1#16 }
    bumpFreq .dynL (literals + 1 + lengthCode lc.toNat)
    bumpFreq .dynD (distCode (dist.toNat - 1))

/-- The symbol record of `Tally` (R231), then the frequencies. -/
def recordSymbol (c : Conf) (dist : Half) (lc : Byte) : Proc Coder Unit := do
  let k ← get
  require (decide (k.lastLit.toNat < c.literalBufferSize))
  let dBuf ← stored c.literalBufferSize k.dBuf k.lastLit.toNat dist
  let lBuf ← stored c.literalBufferSize k.lBuf k.lastLit.toNat lc
  set { k with dBuf := dBuf, lBuf := lBuf, lastLit := k.lastLit + 1#16 }
  countSymbol dist lc

/-- `outLength` of `EarlyFlush` before the shift (R232): the distances' bits added over codes `c, c + 1, …`. -/
def distanceBits (freq : Nat → Nat) : Nat → Nat → Nat
  | 0, _ => 0
  | r + 1, c => freq c * (5 + tableAt extraDBits c) + distanceBits freq r (c + 1)

/-- `EarlyFlush() → bool` (R232; the direction of the comparison is C2's). -/
def earlyFlush (m : Matcher) (k : Coder) : Bool :=
  let outLength := (k.lastLit.toNat * 8 + distanceBits (fun c => (k.dynD.freq.get c).toNat) dCodes 0) >>> 3
  let inLength : Int := (m.strStart.toNat : Int) - m.blockStart.toInt
  decide (k.matchCount.toNat < k.lastLit.toNat / 2) && decide ((outLength : Int) < inLength / 2)

/-- `Tally(dist, lc) → flushNow` (R231). The pseudocode computes `dist` on signed values; storing it truncates to 16 bits. -/
def tally (dist : Int) (lc : Byte) : Proc State Bool := do
  let s ← get
  onCoder (recordSymbol s.conf (truncInt 16 dist) lc)
  let s ← get
  let n := s.cod.lastLit.toNat
  if n &&& 0x1FFF = 0 ∧ s.conf.level.toNat > 2 ∧ earlyFlush s.mat s.cod = true then pure true
  else pure (decide (n + 1 = s.conf.literalBufferSize))

/-! Emitting a block (R110, R236 to R239). -/

/-- The 3-bit block header `(BTYPE << 1) + BFINAL` (R110). -/
def sendHeader (cap : Nat) (b : BlockType) (eof : Bool) : Proc Packer Unit :=
  sendBits cap (b.btype * 2 + eof.toNat) 3

/-- `for i in 0 .. n - 1: PutByte(window[buf + i])` (R236). -/
def putWindow (c : Conf) (window : Ram 8) : Nat → Int → Proc Packer Unit
  | 0, _ => pure ()
  | n + 1, buf => do
    let i ← indexOf buf
    let b ← load c.windowBufSize window i
    putByte c.pendingBufSize b
    putWindow c window n (buf + 1)

/-- `lastEobLen <- n` (R242). -/
def setLastEobLen (n : Nat) : Proc State Unit := onCoder (modify fun k => { k with lastEobLen := BitVec.ofNat 4 n })

/-- `StoredBlock(buf, storedLen, eof)` (R236). -/
def storedBlock (buf : Int) (storedLen : Nat) (eof : Bool) : Proc State Unit := do
  let s ← get
  let cap := s.conf.pendingBufSize
  onPacker (sendHeader cap .stored eof)
  onPacker (biWindup cap)
  setLastEobLen 8
  onPacker (putShort cap (BitVec.ofNat 16 storedLen))
  onPacker (putShort cap (~~~ (BitVec.ofNat 16 storedLen)))
  onPacker (putWindow s.conf s.mat.window storedLen buf)

/-- One recorded symbol replayed with the given tables (R121, R237). -/
def sendSymbol (cap : Nat) (dist lc : Nat) (lit dst : CodeTable) : Proc Packer Unit := do
  if dist = 0 then sendCode cap lc lit
  else
    let c := lengthCode lc
    sendCode cap (literals + 1 + c) lit
    onlyIf (tableAt extraLBits c ≠ 0) (sendField cap ((lc : Int) - tableAt baseLength c) (tableAt extraLBits c))
    let d := dist - 1
    let e := distCode d
    sendCode cap e dst
    onlyIf (tableAt extraDBits e ≠ 0) (sendField cap ((d : Int) - tableAt baseDist e) (tableAt extraDBits e))

/-- `CompressBlock` over the recorded symbols `lx, lx + 1, …`, and the end-of-block code (R237). -/
def sendSymbols (c : Conf) (k : Coder) (lit dst : CodeTable) : Nat → Nat → Proc Packer Unit
  | 0, _ => sendCode c.pendingBufSize endBlock lit
  | r + 1, lx => do
    let dist ← load c.literalBufferSize k.dBuf lx
    let lc ← load c.literalBufferSize k.lBuf lx
    sendSymbol c.pendingBufSize dist.toNat lc.toNat lit dst
    sendSymbols c k lit dst r (lx + 1)

/-- `CompressBlock(lcode, llen, dcode, dlen)` (R237). -/
def compressBlock (lit dst : CodeTable) : Proc State Unit := do
  let s ← get
  onPacker (sendSymbols s.conf s.cod lit dst s.cod.lastLit.toNat 0)
  setLastEobLen (lit.len endBlock)

/-- A static block (R238). -/
def staticBlock (eof : Bool) : Proc State Unit := do
  let s ← get
  onPacker (sendHeader s.conf.pendingBufSize .static eof)
  compressBlock staticLTable staticDTable

/-- A dynamic block with the trees just built (R239). -/
def dynamicBlock (eof : Bool) (maxBlIndex : Nat) : Proc State Unit := do
  let s ← get
  onPacker (sendHeader s.conf.pendingBufSize .dynamic eof)
  onPacker (sendAllTrees s.conf.pendingBufSize s.cod (s.cod.maxCode .dynL + 1) (s.cod.maxCode .dynD + 1) (maxBlIndex + 1))
  compressBlock (s.cod.codeTable .dynL) (s.cod.codeTable .dynD)

/-- The three `BuildTree` calls of R235; answers `maxBlIndex`. -/
def buildTrees : Proc Coder Nat := do
  buildTree .dynL
  buildTree .dynD
  buildBlTree

/-- The end of `FlushBlock` (R235): a new block's statistics, and the padding after the final block. -/
def endBlockStats (eof : Bool) : Proc State Unit := do
  onCoder (modify Coder.initBlock)
  let s ← get
  onlyIf eof (onPacker (biWindup s.conf.pendingBufSize))

/-- The choice of R235 between the three encodings. -/
def chooseBlock (buf : Int) (storedLen bestLenB : Nat) (useStatic : Bool) : BlockType :=
  if storedLen + 4 ≤ bestLenB ∧ buf ≠ -1 ∧ storedLen ≤ 65535 then .stored
  else if useStatic then .static
  else .dynamic

/-- The costs of R235: `maxBlIndex`, `useStatic` and `bestLenB`. -/
def costBlock (buf : Int) (storedLen : Nat) : Proc State (Nat × Bool × Nat) := do
  let s ← get
  if s.conf.level.toNat > 0 then
    let maxBlIndex ← onCoder buildTrees
    let s ← get
    let useStatic := decide (s.cod.staticLen ≤ s.cod.optLen)
    let best := min s.cod.optLen.toNat s.cod.staticLen.toNat
    pure (maxBlIndex, useStatic, ((best + 3 + 7) % 2 ^ 32) >>> 3)
  else
    require (decide (buf ≠ -1))
    pure (0, true, storedLen + 5)

/-- The block in the encoding chosen (R235). -/
def emitBlock (b : BlockType) (buf : Int) (storedLen : Nat) (eof : Bool) (maxBlIndex : Nat) : Proc State Unit :=
  match b with
  | .stored => storedBlock buf storedLen eof
  | .static => staticBlock eof
  | .dynamic => dynamicBlock eof maxBlIndex

/-- `FlushBlock(buf, storedLen, eof)` (R235). -/
def flushBlock (buf : Int) (storedLen : Nat) (eof : Bool) : Proc State Unit := do
  let cost ← costBlock buf storedLen
  emitBlock (chooseBlock buf storedLen cost.2.2 cost.2.1) buf storedLen eof cost.1
  endBlockStats eof

/-- One empty static block and `BiFlush` (R131 (b), R240). -/
def emptyStatic (cap : Nat) : Proc Packer Unit := do
  sendHeader cap .static false
  sendCode cap endBlock staticLTable
  biFlush cap

/-- `Align()` (R240). -/
def align : Proc State Unit := do
  let s ← get
  let cap := s.conf.pendingBufSize
  onPacker (emptyStatic cap)
  let s ← get
  onlyIf (1 + (s.cod.lastEobLen.toNat : Int) + 10 - s.pk.biValid.toNat < 9) (onPacker (emptyStatic cap))
  setLastEobLen 7

/-- `blockStart if blockStart >= 0 else -1` (R241). -/
def Matcher.blockBuf (m : Matcher) : Int := if 0 ≤ m.blockStart.toInt then m.blockStart.toInt else -1

/-- `strStart - blockStart` on signed values (R241). -/
def Matcher.blockLen (m : Matcher) : Int := (m.strStart.toNat : Int) - m.blockStart.toInt

/-- What follows the emission of a block (R241): the next block starts at `strStart`, and the pending bytes are delivered. -/
def nextBlock : Proc State Unit := do
  onMatcher (modify fun m => { m with blockStart := m.strStart.setWidth 32 })
  flushPending

/-- `FlushBlockOnly(eof)` (R241). -/
def flushBlockOnly (eof : Bool) : Proc State Unit := do
  let s ← get
  let storedLen ← indexOf s.mat.blockLen
  flushBlock s.mat.blockBuf storedLen eof
  nextBlock

end Sys2Proof.Machine
end

