-- ==== Sys2Proof/Machine/Strategies.lean ====
section
/-! DEFINITION. The three compression strategies (44_strategies.md, R260 to R269). Each loop is given as many turns as
`lookahead + IN_AVAIL + 1`: R270 (d) says that every turn returns, exits or lowers that sum by at least 1. A turn beyond them
can only come from cursors that break R34, and is `raise Fatal` (log entry 5). -/

namespace Sys2Proof.Machine

/-- The block states (R260). -/
inductive BlockState where
  | needMore
  | blockDone
  | finishStarted
  | finishDone
  deriving DecidableEq, Repr

/-- `OUT_AVAIL = 0`. -/
def outputFull : Proc State Bool := do
  let s ← get
  pure (decide (s.regs.outAvail = 0#32))

/-- `Tail(flush, nonEmpty)` (R268). -/
def tail (flush : BitVec 3) (nonEmpty : Bool) : Proc State BlockState := do
  if flush = finishFlush then
    flushBlockOnly true
    let full ← outputFull
    pure (if full then .finishStarted else .finishDone)
  else if nonEmpty then
    flushBlockOnly false
    let full ← outputFull
    pure (if full then .needMore else .blockDone)
  else pure .blockDone

/-- Turns of a strategy's loop (R270 (d)). -/
def State.turns (s : State) : Nat := s.mat.lookahead.toNat + s.regs.inAvail.toNat + 1

/-! Stored (R261). -/

/-- `maxBlockSize <- min(65535, pendingBufSize - 6)` (R261). -/
def Conf.maxBlockSize (c : Conf) : Int := min 65535 ((c.pendingBufSize : Int) - 6)

/-- `strStart - blockStart >= maxDist` closes the block (R261). -/
def distTrigger : Proc State Bool := do
  let s ← get
  if s.mat.blockLen ≥ (s.conf.maxDist : Int) then
    flushBlockOnly false
    outputFull
  else pure false

/-- `strStart >= maxStart` closes a block of `maxBlockSize` bytes and gives back the rest (R261). -/
def sizeTrigger : Proc State Bool := do
  let s ← get
  let maxStart := s.mat.blockStart.toInt + s.conf.maxBlockSize
  if (s.mat.strStart.toNat : Int) ≥ maxStart then
    onMatcher (modify fun m =>
      { m with lookahead := truncInt 17 ((m.strStart.toNat : Int) - maxStart), strStart := truncInt 17 maxStart })
    flushBlockOnly false
    outputFull
  else pure false

/-- `strStart <- strStart + lookahead; lookahead <- 0` (R261). -/
def takeLookahead : Proc State Unit :=
  onMatcher (modify fun m => { m with strStart := m.strStart + m.lookahead, lookahead := 0#17 })

def storedLoop (flush : BitVec 3) : Nat → Proc State (Option BlockState)
  | 0 => raiseFatal
  | fuel + 1 => do
    let s ← get
    onlyIf (s.mat.lookahead.toNat ≤ 1) fillWindow
    let s ← get
    if s.mat.lookahead = 0#17 then pure (if flush = noFlush then some .needMore else none)
    else
      takeLookahead
      let full ← sizeTrigger
      if full then pure (some .needMore)
      else
        let full ← distTrigger
        if full then pure (some .needMore) else storedLoop flush fuel

/-- `DeflateStored(flush) → block state` (R261). -/
def deflateStored (flush : BitVec 3) : Proc State BlockState := do
  let s ← get
  let r ← storedLoop flush s.turns
  match r with
  | some b => pure b
  | none => do
    let s ← get
    tail flush (decide (s.mat.blockLen > 0))

/-! What the two matching strategies share (R262, R265). -/

/-- How the refill at the top of a turn goes on. -/
inductive Refill where
  | proceed
  | leave
  | starved
  deriving DecidableEq, Repr

/-- The first lines of a turn of R262 and R265. -/
def refill (flush : BitVec 3) : Proc State Refill := do
  let s ← get
  if s.mat.lookahead.toNat < minLookahead then
    fillWindow
    let s ← get
    if s.mat.lookahead.toNat < minLookahead ∧ flush = noFlush then pure .starved
    else if s.mat.lookahead = 0#17 then pure .leave
    else pure .proceed
  else pure .proceed

/-- `hashHead <- 0`, or the head `InsertString(strStart)` returns when `MIN_MATCH` bytes are left (R262, R265). -/
def enterString (c : Conf) : Proc Matcher Nat := do
  let m ← get
  if m.lookahead.toNat ≥ minMatch then insertString c m.strStart.toNat else pure 0

/-- `strStart <- strStart + 1`. -/
def advance : Proc Matcher Unit := modify fun m => { m with strStart := m.strStart + 1#17 }

/-! Fast (R262, R263). -/

/-- The inner loop of R262: the interior positions of a short match are inserted. -/
def insertInterior (c : Conf) : Nat → Proc Matcher Unit
  | 0 => pure ()
  | r + 1 => do
    advance
    let m ← get
    let _ ← insertString c m.strStart.toNat
    modify fun m => { m with matchLength := m.matchLength - 1#9 }
    insertInterior c r

/-- What R262 and R263 do after a match was tallied. -/
def passMatch (c : Conf) : Proc Matcher Unit := do
  modify fun m => { m with lookahead := m.lookahead - m.matchLength.setWidth 17 }
  let m ← get
  if m.matchLength.toNat ≤ c.maxLazyMatch.toNat ∧ m.lookahead.toNat ≥ minMatch then
    modify fun m => { m with matchLength := m.matchLength - 1#9 }
    insertInterior c (m.matchLength.toNat - 1)
    advance
  else
    modify fun m => { m with strStart := m.strStart + m.matchLength.setWidth 17, matchLength := 0#9 }
    let m ← get
    seedHash c m.strStart.toNat

/-- The symbol of one turn of the fast strategy (R262): a match or a literal; answers `bflush`. -/
def fastSymbol : Proc State Bool := do
  let s ← get
  let c := s.conf
  let m := s.mat
  if m.matchLength.toNat ≥ minMatch then
    let bflush ← tally ((m.strStart.toNat : Int) - m.matchStart.toInt) (BitVec.ofNat 8 (m.matchLength.toNat - minMatch))
    onMatcher (passMatch c)
    pure bflush
  else
    let b ← onMatcher (getWindow c m.strStart.toNat)
    let bflush ← tally 0 b
    onMatcher (modify fun m => { m with lookahead := m.lookahead - 1#17, strStart := m.strStart + 1#17 })
    pure bflush

/-- The match search of one turn of the fast strategy (R262). -/
def fastSearch (c : Conf) : Proc Matcher Unit := do
  let hashHead ← enterString c
  let m ← get
  if admissible c m hashHead = true ∧ c.strategy ≠ strategyHuffmanOnly then
    let len ← longestMatch c hashHead
    modify fun m => { m with matchLength := BitVec.ofNat 9 len }

def fastLoop (flush : BitVec 3) : Nat → Proc State (Option BlockState)
  | 0 => raiseFatal
  | fuel + 1 => do
    let r ← refill flush
    match r with
    | .starved => pure (some .needMore)
    | .leave => pure none
    | .proceed => do
      let s ← get
      onMatcher (fastSearch s.conf)
      let bflush ← fastSymbol
      if bflush then
        flushBlockOnly false
        let full ← outputFull
        if full then pure (some .needMore) else fastLoop flush fuel
      else fastLoop flush fuel

/-- `lastLit ≠ 0` (R268). -/
def State.blockHolds (s : State) : Bool := decide (s.cod.lastLit ≠ 0#16)

/-- `DeflateFast(flush) → block state` (R262). -/
def deflateFast (flush : BitVec 3) : Proc State BlockState := do
  let s ← get
  let r ← fastLoop flush s.turns
  match r with
  | some b => pure b
  | none => do
    let s ← get
    tail flush s.blockHolds

/-! Slow (R265 to R267). -/

/-- The filter of R267: a match of length at most 5 that is discarded. -/
def discarded (c : Conf) (m : Matcher) : Bool :=
  decide (m.matchLength.toNat ≤ 5)
    && (decide (c.strategy = strategyFiltered)
      || (decide (m.matchLength.toNat = minMatch)
        && decide ((m.strStart.toNat : Int) - m.matchStart.toInt > (tooFar : Int))))

/-- The match search of one turn of the slow strategy (R265, R267). -/
def slowSearch (c : Conf) : Proc Matcher Unit := do
  let hashHead ← enterString c
  modify fun m => { m with prevLength := m.matchLength, prevMatch := m.matchStart, matchLength := 2#9 }
  let m ← get
  if decide (m.prevLength.toNat < c.maxLazyMatch.toNat) && admissible c m hashHead then
    onlyIf (c.strategy ≠ strategyHuffmanOnly) do
      let len ← longestMatch c hashHead
      modify fun m => { m with matchLength := BitVec.ofNat 9 len }
    modify fun m => if discarded c m then { m with matchLength := 2#9 } else m

/-- The inner loop of branch (a) (R265): positions up to `maxInsert` are inserted. -/
def insertMatched (c : Conf) (maxInsert : Int) : Nat → Proc Matcher Unit
  | 0 => pure ()
  | r + 1 => do
    advance
    let m ← get
    onlyIf ((m.strStart.toNat : Int) ≤ maxInsert) do
      let _ ← insertString c m.strStart.toNat
    modify fun m => { m with prevLength := m.prevLength - 1#9 }
    insertMatched c maxInsert r

/-- Branch (a) after the tally (R265, R266 (a)). -/
def passEarlier (c : Conf) (maxInsert : Int) : Proc Matcher Unit := do
  modify fun m => { m with lookahead := m.lookahead - (m.prevLength.setWidth 17 - 1#17), prevLength := m.prevLength - 2#9 }
  let m ← get
  insertMatched c maxInsert m.prevLength.toNat
  modify fun m => { m with matchAvailable := false, matchLength := 2#9 }
  advance

/-- `bflush` of branches (a): the match found at the previous position is emitted (R266 (a)). -/
def emitEarlier : Proc State Bool := do
  let s ← get
  let m := s.mat
  let maxInsert : Int := (m.strStart.toNat : Int) + m.lookahead.toNat - minMatch
  let bflush ← tally ((m.strStart.toNat : Int) - 1 - m.prevMatch.toInt) (BitVec.ofNat 8 (m.prevLength.toNat - minMatch))
  onMatcher (passEarlier s.conf maxInsert)
  if bflush then
    flushBlockOnly false
    outputFull
  else pure false

/-- The literal `window[strStart - 1]` is tallied (R265). -/
def tallyDeferred : Proc State Bool := do
  let s ← get
  let i ← indexOf ((s.mat.strStart.toNat : Int) - 1)
  let b ← onMatcher (getWindow s.conf i)
  tally 0 b

/-- `strStart <- strStart + 1; lookahead <- lookahead - 1` (R265). -/
def passOne : Proc State Unit :=
  onMatcher (modify fun m => { m with strStart := m.strStart + 1#17, lookahead := m.lookahead - 1#17 })

/-- Branch (b): a literal for the deferred position, and the next one is deferred (R266 (b)). -/
def emitDeferred : Proc State Bool := do
  let bflush ← tallyDeferred
  onlyIf bflush (flushBlockOnly false)
  passOne
  outputFull

/-- Branch (c): nothing to compare with yet (R266 (c)). -/
def deferFirst : Proc State Bool := do
  onMatcher (modify fun m => { m with matchAvailable := true })
  passOne
  pure false

/-- The lazy decision of one turn (R266); answers whether the function returns `NEED_MORE`. -/
def slowSymbol : Proc State Bool := do
  let s ← get
  let m := s.mat
  if m.prevLength.toNat ≥ minMatch ∧ m.matchLength ≤ m.prevLength then emitEarlier
  else if m.matchAvailable then emitDeferred
  else deferFirst

def slowLoop (flush : BitVec 3) : Nat → Proc State (Option BlockState)
  | 0 => raiseFatal
  | fuel + 1 => do
    let r ← refill flush
    match r with
    | .starved => pure (some .needMore)
    | .leave => pure none
    | .proceed => do
      let s ← get
      onMatcher (slowSearch s.conf)
      let full ← slowSymbol
      if full then pure (some .needMore) else slowLoop flush fuel

/-- `DeflateSlow(flush) → block state` (R265). -/
def deflateSlow (flush : BitVec 3) : Proc State BlockState := do
  let s ← get
  let r ← slowLoop flush s.turns
  match r with
  | some b => pure b
  | none => do
    let s ← get
    onlyIf s.mat.matchAvailable do
      let _ ← tallyDeferred
      onMatcher (modify fun m => { m with matchAvailable := false })
    let s ← get
    tail flush s.blockHolds

/-- The strategy function of the current level (R10, R283). -/
def deflate (flush : BitVec 3) : Proc State BlockState := do
  let s ← get
  match s.conf.fn with
  | .stored => deflateStored flush
  | .fast => deflateFast flush
  | .slow => deflateSlow flush

end Sys2Proof.Machine
end

