-- ==== Sys2Proof/Machine/Commands.lean ====
section
/-! DEFINITION. The eight host commands (45_commands.md, R280 to R297). -/

namespace Sys2Proof.Machine

/-! Session commands (R281, R282, R288). -/

/-- `SessionReset()`, the match finder's part (R282). `window`, `head` and `prev` are cleared over the prefix the session uses. -/
def Matcher.sessionReset (c : Conf) (m : Matcher) : Matcher :=
  { window := m.window.clearBelow c.windowBufSize, head := m.head.clearBelow c.hashSize, prev := m.prev.clearBelow c.windowSize
    strStart := 0#17, lookahead := 0#17, blockStart := 0#32, matchStart := 0#32, prevMatch := 0#32
    matchLength := 2#9, prevLength := 2#9, insH := 0#16, matchAvailable := false }

/-- `SessionReset()`, the bit-packer's part (R282). -/
def Packer.sessionReset (k : Packer) : Packer := { k with pending := 0#18, pendingOut := 0#18, biBuf := 0#16, biValid := 0#5 }

/-- `SessionReset()`, the block encoder's part (R282): the three `MaxCode` registers and `InitBlock`. -/
def Coder.sessionReset (k : Coder) : Coder :=
  { k.initBlock with lastEobLen := 8#4, lMaxCode := -1#10, dMaxCode := -1#10, blMaxCode := -1#10 }

/-- `SessionReset()`, the host-visible part (R282). -/
def HostRegs.sessionReset (wrap : BitVec 2) (r : HostRegs) : HostRegs :=
  { r with
    totalIn := 0#64, totalOut := 0#64, trailerDone := false, fresh := true
    sstate := if wrap = wrapRaw then .busy else .init }

/-- `SessionReset()` (R282, R362). -/
def State.sessionReset (s : State) : State :=
  { s.ckReset with
    regs := s.regs.sessionReset s.conf.wrap, conf := s.conf.loadTuning, mat := s.mat.sessionReset s.conf
    pk := s.pk.sessionReset, cod := s.cod.sessionReset, lastFlush := 0#4 }

/-- The effects of an accepted `INIT`, in the order of R281. -/
def State.initSession (s : State) (level : BitVec 4) (strategy : BitVec 2) (windowBits memLevel : BitVec 4) (wrap : BitVec 2) : State :=
  let s := { s with conf := s.conf.ofFields level strategy windowBits memLevel wrap, cks := { s.cks with unit := unitFor wrap } }
  let s := (s.setInputSpan 0#32 0#32 false).setOutputSpan 0#32 0#32 false
  (clearFault s).sessionReset

/-- The effects of an accepted `END` (R288). -/
def State.endSession (s : State) : State :=
  let s := (s.setInputSpan 0#32 0#32 false).setOutputSpan 0#32 0#32 false
  let s := clearFault s
  { s with conf := s.conf.clearFields, regs := { s.regs with sstate := .unconf } }

/-- A body that is one change of the state and answers `OK`. -/
def answerOk (f : State → State) : Proc State Status := do
  modify f
  pure .ok

/-- `INIT` (R281): accepted in every stream state and while `fault = 1`. -/
def execInit (level : BitVec 4) (strategy : BitVec 2) (windowBits memLevel : BitVec 4) (wrap : BitVec 2) (s : State) :
    Host.Outcome State Fault Refusal :=
  execute (Instr.init level strategy windowBits memLevel wrap).wellFormed ⟨true, true⟩
    (answerOk fun s => s.initSession level strategy windowBits memLevel wrap) s

/-- `RESET` (R282). -/
def execReset (s : State) : Host.Outcome State Fault Refusal :=
  execute Instr.reset.wellFormed ⟨false, false⟩ (answerOk State.sessionReset) s

/-- `END` (R288): accepted while `fault = 1`. -/
def execEndSession (s : State) : Host.Outcome State Fault Refusal :=
  execute Instr.endSession.wellFormed ⟨true, false⟩ (answerOk State.endSession) s

/-! Span commands (R284, R285). -/

/-- `SET_INPUT` (R284). -/
def execSetInput (s : State) : Host.Outcome State Fault Refusal :=
  execute Instr.setInput.wellFormed ⟨false, false⟩ (answerOk fun s => s.setInputSpan s.regs.arg0 s.regs.arg1 true) s

/-- `SET_OUTPUT` (R285). -/
def execSetOutput (s : State) : Host.Outcome State Fault Refusal :=
  execute Instr.setOutput.wellFormed ⟨false, false⟩ (answerOk fun s => s.setOutputSpan s.regs.arg0 s.regs.arg1 true) s

/-! The preset dictionary (R72, R286). -/

/-- The loop of R72 over the dictionary's bytes `i, i + 1, …`, `r` of them, each read once: every byte goes to the
checksum when `wrap = ZLIB`, and byte `i` to `window[i - index]` when it is one of the last `n - index` of the `n`. -/
def readDict (addr : Word) (index : Nat) : Nat → Nat → Proc State Unit
  | 0, _ => pure ()
  | r + 1, i => do
    let b ← memRead (addr + BitVec.ofNat 32 i)
    let s ← get
    onlyIf (s.conf.wrap = wrapZlib) (ckUpdate b)
    onlyIf (index ≤ i) do
      require (decide (i - index < s.conf.windowBufSize))
      onMatcher (modify fun m => { m with window := m.window.set (i - index) b })
    readDict addr index r (i + 1)

/-- `for p in 0 .. length - MIN_MATCH: InsertString(p)` (R286). -/
def insertAll (c : Conf) : Nat → Nat → Proc Matcher Unit
  | 0, _ => pure ()
  | r + 1, p => do
    let _ ← insertString c p
    insertAll c r (p + 1)

/-- How many of the last of `n` dictionary bytes are kept: `min(n, maxDist)`, or none when `n < MIN_MATCH` (R72, R286). -/
def dictKept (c : Conf) (n : Nat) : Nat := if n < minMatch then 0 else min n c.maxDist

/-- The body of `SET_DICT` (R286). -/
def setDictBody : Proc State Status := do
  let s ← get
  if s.conf.wrap = wrapGzip then pure .errParam
  else if s.regs.fresh = false then pure .errProtocol
  else
    modify fun s => { s with regs := { s.regs with fresh := false } }
    let c := s.conf
    let n := s.regs.arg1.toNat
    let length := dictKept c n
    readDict s.regs.arg0 (n - length) n 0
    if n < minMatch then pure .ok
    else
      onMatcher (modify fun m => { m with strStart := BitVec.ofNat 17 length, blockStart := BitVec.ofNat 32 length })
      onMatcher (seedHash c 0)
      onMatcher (insertAll c (length - minMatch + 1) 0)
      checkBoundary
      pure .ok

/-- `SET_DICT` (R286). -/
def execSetDict (s : State) : Host.Outcome State Fault Refusal :=
  execute Instr.setDict.wellFormed ⟨false, false⟩ setDictBody s

/-! Header and trailer (R290 to R293). -/

/-- `LevelHint()` (R291). -/
def Conf.levelHint (c : Conf) : Nat :=
  if c.strategy = strategyHuffmanOnly ∨ c.level.toNat < 2 then 0
  else if c.level.toNat < 6 then 1
  else if c.level.toNat = 6 then 2
  else 3

/-- The 16-bit zlib header (R125, R291): `dict` says that a dictionary was loaded. -/
def Conf.zlibHeader (c : Conf) (dict : Bool) : Nat :=
  let header := (8 + ((c.windowBits.toNat - 8) <<< 4)) <<< 8 ||| c.levelHint <<< 6 ||| (if dict then 0x20 else 0)
  header + (31 - header % 31)

/-- A 32-bit value, most-significant byte first: two `PutShortMSB` (R143). -/
def putWordMSB (cap : Nat) (w : Word) : Proc Packer Unit := do
  putShortMSB cap (w.extractLsb' 16 16)
  putShortMSB cap (w.extractLsb' 0 16)

/-- The four bytes of a word, least-significant byte first (R63 (e)). -/
def bytesLE (w : Word) : List Byte := [w.extractLsb' 0 8, w.extractLsb' 8 8, w.extractLsb' 16 8, w.extractLsb' 24 8]

/-- `PutHeaderZlib()` (R291), without the checksum reset. -/
def putHeaderZlib : Proc State Unit := do
  let s ← get
  let cap := s.conf.pendingBufSize
  let dict := decide (s.mat.strStart ≠ 0#17)
  onPacker (putShortMSB cap (BitVec.ofNat 16 (s.conf.zlibHeader dict)))
  onlyIf dict (onPacker (putWordMSB cap s.cks.ck))

/-- `XFL` (R292). -/
def Conf.xfl (c : Conf) : Byte := if c.level = 9#4 then 2#8 else if c.level = 1#4 then 4#8 else 0#8

/-- The ten bytes of the gzip header (R127, R292). -/
def State.gzipHeader (s : State) : List Byte :=
  [0x1F#8, 0x8B#8, 0x08#8, 0x00#8] ++ bytesLE s.regs.gzMtime ++ [s.conf.xfl, s.regs.gzOs]

/-- The bytes of `PutHeader` (R290). -/
def putHeaderBytes : Proc State Unit := do
  let s ← get
  if s.conf.wrap = wrapZlib then putHeaderZlib
  else onlyIf (s.conf.wrap = wrapGzip) (onPacker (putBytes s.conf.pendingBufSize s.gzipHeader))

/-- `PutHeader()` (R290). -/
def putHeader : Proc State Unit := do
  putHeaderBytes
  ckReset

/-- `PutTrailer()` (R293). -/
def putTrailer : Proc State Unit := do
  let s ← get
  let cap := s.conf.pendingBufSize
  if s.conf.wrap = wrapZlib then onPacker (putWordMSB cap s.cks.ck)
  else onlyIf (s.conf.wrap = wrapGzip) do
    onPacker (putBytes cap (bytesLE s.cks.ck ++ bytesLE (s.regs.totalIn.extractLsb' 0 32)))

/-! `STEP` (R283, R295, R297). -/

/-- The four entry checks of R283, in order; `none` when the step is accepted. A failing check changes nothing. -/
def State.stepRefusal (s : State) (flush : BitVec 3) : Option Status :=
  if s.regs.outValid = false then some .errParam
  else if s.regs.sstate = .finish ∧ flush ≠ finishFlush then some .errProtocol
  else if s.regs.sstate = .finish ∧ s.regs.inAvail ≠ 0#32 then some .errProtocol
  else if s.regs.outAvail = 0#32 then some (if s.pk.pending ≠ s.pk.pendingOut then .errProtocol else .buf)
  else none

/-- `dup` (R297): a repeated flush request that brings no input. Compared on signed values: `lastFlush` may be −1. -/
def State.isRepeat (s : State) (flush : BitVec 3) : Bool :=
  decide (s.regs.inAvail = 0#32) && decide ((flush.toNat : Int) ≤ s.lastFlush.toInt) && decide (flush ≠ finishFlush)

/-- `pending != pendingOut`. -/
def State.hasPending (s : State) : Bool := decide (s.pk.pending ≠ s.pk.pendingOut)

/-- `lastFlush <- v`. -/
def setLastFlush (v : BitVec 4) : Proc State Unit := modify fun s => { s with lastFlush := v }

/-- The flush marker of R283 and R295. -/
def flushMarker (flush : BitVec 3) : Proc State Unit := do
  if flush = partialFlush then align
  else
    storedBlock 0 0 false
    let s ← get
    onlyIf (flush = fullFlush) (onMatcher (clearHash s.conf))

/-- The end of R283: `STREAM_END`, the trailer, or nothing to do. -/
def finishStep (flush : BitVec 3) : Proc State Status := do
  let s ← get
  if flush ≠ finishFlush then pure .ok
  else if s.conf.wrap = wrapRaw ∨ s.regs.trailerDone = true then pure .streamEnd
  else
    putTrailer
    modify fun s => { s with regs := { s.regs with trailerDone := true } }
    flushPending
    let s ← get
    pure (if s.hasPending then .ok else .streamEnd)

/-- What `STEP` does with the block state (R260, R283). -/
def afterStrategy (flush : BitVec 3) (bstate : BlockState) : Proc State Status := do
  onlyIf (bstate = .finishStarted ∨ bstate = .finishDone) do
    modify fun s => { s with regs := { s.regs with sstate := .finish } }
  match bstate with
  | .needMore | .finishStarted => do
    let full ← outputFull
    onlyIf full (setLastFlush workOwed)
    pure .ok
  | .blockDone => do
    flushMarker flush
    flushPending
    pure .ok
  | .finishDone => finishStep flush

/-- `IN_AVAIL != 0 or lookahead != 0 or (flush != NO_FLUSH and sstate != FINISH)` (R283): the strategy runs. -/
def State.hasWork (s : State) (flush : BitVec 3) : Bool :=
  decide (s.regs.inAvail ≠ 0#32) || decide (s.mat.lookahead ≠ 0#17)
    || (decide (flush ≠ noFlush) && decide (s.regs.sstate ≠ .finish))

/-- The strategy, the marker and the trailer of R283, once nothing older is pending. -/
def stepWork (flush : BitVec 3) : Proc State Status := do
  let s ← get
  if s.hasWork flush then
    let bstate ← deflate flush
    afterStrategy flush bstate
  else finishStep flush

/-- A step that is no repeat (R283, R297): pending bytes go first. -/
def stepFresh (flush : BitVec 3) (hadPending : Bool) : Proc State Status := do
  setLastFlush (flushValue flush)
  if hadPending then
    flushPending
    let full ← outputFull
    if full then
      setLastFlush workOwed
      pure .ok
    else stepWork flush
  else stepWork flush

/-- The header of the first step of a zlib or gzip session (R283, R290). -/
def stepHeader : Proc State Unit := do
  let s ← get
  if s.regs.sstate = .init then
    putHeader
    modify fun s => { s with regs := { s.regs with sstate := .busy } }

/-- An accepted `STEP` (R283), up to the check of R34. -/
def stepAccepted (flush : BitVec 3) : Proc State Status := do
  modify fun s => { s with regs := { s.regs with fresh := false } }
  stepHeader
  let s ← get
  let hadPending := s.hasPending
  if s.isRepeat flush then
    flushPending
    pure (if hadPending then .ok else .buf)
  else stepFresh flush hadPending

/-- The body of `STEP` (R283). -/
def stepBody (flush : BitVec 3) : Proc State Status := do
  let s ← get
  match s.stepRefusal flush with
  | some st => pure st
  | none => do
    let st ← stepAccepted flush
    checkBoundary
    pure st

/-- `STEP` (R283). -/
def execStep (flush : BitVec 3) (s : State) : Host.Outcome State Fault Refusal :=
  execute (Instr.step flush).wellFormed ⟨false, false⟩ (stepBody flush) s

/-! `PARAMS` (R287). -/

/-- The parameters replaced (R287): the tuning values are reloaded when the level changes. -/
def State.setParams (s : State) (level : BitVec 4) (strategy : BitVec 2) : State :=
  let c := if level ≠ s.conf.level then { s.conf with level := level }.loadTuning else s.conf
  { s with conf := { c with strategy := strategy } }

/-- Whether `PARAMS` forces a partial flush first (R287). -/
def State.paramsFlushes (s : State) (level : BitVec 4) : Bool :=
  decide ((levelRow level).fn ≠ s.conf.fn) && decide (s.regs.totalIn ≠ 0#64)

/-- What R287 answers after the inner flush, or `none` when it goes on to change the parameters. -/
def State.paramsBlocked (s : State) (st : Status) : Option Status :=
  if st = .errParam ∨ st = .errProtocol ∨ st = .errFatal then some st
  else if st = .buf ∧ s.regs.outAvail = 0#32 then some .buf
  else if s.lastFlush = workOwed then some .buf
  else none

/-- The body of `PARAMS` (R287). -/
def paramsBody (level : BitVec 4) (strategy : BitVec 2) : Proc State Status := do
  let s ← get
  if s.paramsFlushes level then
    let st ← stepBody partialFlush
    let s ← get
    match s.paramsBlocked st with
    | some st => pure st
    | none => answerOk fun s => s.setParams level strategy
  else answerOk fun s => s.setParams level strategy

/-- `PARAMS` (R287). -/
def execParams (level : BitVec 4) (strategy : BitVec 2) (s : State) : Host.Outcome State Fault Refusal :=
  execute (Instr.params level strategy).wellFormed ⟨false, false⟩ (paramsBody level strategy) s

end Sys2Proof.Machine
end

