-- ==== Sys2Proof/Machine/Blocks.lean ====
section
/-! DEFINITION. The four block headers of the opcode table (R110 to R113, R130).

They are not host commands. Inside a command the block encoder chooses one of the first three for each block (R235); as
instructions of their own they are that operation with the choice made, and everything about them that is not the emission
itself is the model's choice (DESIGN CHOICE, log entry 6): the prologue of a command (R280) before them, the refusals of
`State.blockRefusal`, the wrapper header and the drain before the block, the deferred byte that joins it, the move to `FINISH`
after the final block, and the status they answer. The choices are made so that what the spec says of every block holds of
these too: the header's bytes come before any bit of a block and the trailer's after the final block's padding (R149), nothing
is appended behind undelivered bytes (R71), and the final block is the last one (R110). -/

namespace Sys2Proof.Machine

/-- The deferred byte of the slow strategy joins the open block as a literal, as at the end of R265. There the lookahead is
empty, so the end of R265 need not say more than that `matchAvailable` falls. Here a match that was found at the deferred
position, which includes that byte, can still be waiting to be compared with the next one; it is forgotten: `matchLength` becomes
2, as in branch (a) of R265, while `prevLength`, `prevMatch` and `matchStart` stay (DESIGN CHOICE, log entry 6). -/
def settleDeferred : Proc State Unit := do
  let s ← get
  onlyIf s.mat.matchAvailable do
    let _ ← tallyDeferred
    onMatcher (modify fun m => { m with matchAvailable := false, matchLength := 2#9 })

/-- The open block is emitted as a stored block (R111, R236). `LEN` holds 16 bits, so a longer block has no stored form
(R111, R235). -/
def emitStored (eof : Bool) : Proc State Unit := do
  let s ← get
  let storedLen ← indexOf s.mat.blockLen
  require (decide (storedLen ≤ 65535))
  storedBlock s.mat.blockBuf storedLen eof

/-- The open block's trees are built and it is emitted as a dynamic block (R113, R239). -/
def emitDynamic (eof : Bool) : Proc State Unit := do
  let maxBlIndex ← onCoder buildTrees
  dynamicBlock eof maxBlIndex

/-- What a block header answers at once, changing nothing else; `none` when it is accepted (log entry 6). In `FINISH` the
final block is out, so no further one may follow (`ERR_PROTOCOL`, as check 2 of R283; R110, R296); a final block while there is
input that no block holds yet would not be the last one (`ERR_PROTOCOL`; R110, R296). -/
def State.blockRefusal (s : State) (eof : Bool) : Option Status :=
  if s.regs.sstate = .finish then some .errProtocol
  else if eof = true ∧ (s.regs.inAvail ≠ 0#32 ∨ s.mat.lookahead ≠ 0#17) then some .errProtocol
  else none

/-- The open block closed by one of the three emissions (log entry 6), ended as R235 and R241 end a block. -/
def closeBlock (emit : Bool → Proc State Unit) (eof : Bool) : Proc State Unit := do
  settleDeferred
  emit eof
  endBlockStats eof
  nextBlock
  onlyIf (eof = true) (modify fun s => { s with regs := { s.regs with sstate := .finish } })

/-- An accepted block header, up to the check of R34 (log entry 6): as in a `STEP` (R283), `fresh` falls, the wrapper header of
a new session is written and the pending bytes go first. `BUF` when they do not all fit: give more output room and repeat. -/
def closeAccepted (emit : Bool → Proc State Unit) (eof : Bool) : Proc State Status := do
  modify fun s => { s with regs := { s.regs with fresh := false } }
  stepHeader
  flushPending
  let s ← get
  if s.hasPending then pure .buf
  else
    closeBlock emit eof
    pure .ok

/-- The body of a block header (log entry 6). -/
def closeBody (emit : Bool → Proc State Unit) (eof : Bool) : Proc State Status := do
  let s ← get
  match s.blockRefusal eof with
  | some st => pure st
  | none => do
    let st ← closeAccepted emit eof
    checkBoundary
    pure st

/-- `BLOCK_STORED` (R111, R236). -/
def execBlockStored (bfinal : Bool) (s : State) : Host.Outcome State Fault Refusal :=
  execute (Instr.blockStored bfinal).wellFormed ⟨false, false⟩ (closeBody emitStored bfinal) s

/-- `BLOCK_STATIC` (R112, R238). -/
def execBlockStatic (bfinal : Bool) (s : State) : Host.Outcome State Fault Refusal :=
  execute (Instr.blockStatic bfinal).wellFormed ⟨false, false⟩ (closeBody staticBlock bfinal) s

/-- `BLOCK_DYNAMIC` (R113, R239). -/
def execBlockDynamic (bfinal : Bool) (s : State) : Host.Outcome State Fault Refusal :=
  execute (Instr.blockDynamic bfinal).wellFormed ⟨false, false⟩ (closeBody emitDynamic bfinal) s

/-- `BLOCK_RESERVED` (R130): reserved/invalid and never produced by the encoder. A model that checks for it treats its
appearance as `fault`, that is, it raises the fatal status (U1, R326). -/
def execBlockReserved (bfinal : Bool) (s : State) : Host.Outcome State Fault Refusal :=
  execute (Instr.blockReserved bfinal).wellFormed ⟨false, false⟩ raiseFatal s

end Sys2Proof.Machine
end

