-- ==== Sys2Proof/Machine/Dispatch.lean ====
section
/-! DEFINITION. The dispatch: one arm for each instruction. -/

namespace Sys2Proof.Machine

def exec (i : Instr) (s : State) : Host.Outcome State Fault Refusal :=
  match i with
  | .init level strategy windowBits memLevel wrap => Sys2Proof.Machine.execInit level strategy windowBits memLevel wrap s
  | .reset => Sys2Proof.Machine.execReset s
  | .setDict => Sys2Proof.Machine.execSetDict s
  | .setInput => Sys2Proof.Machine.execSetInput s
  | .setOutput => Sys2Proof.Machine.execSetOutput s
  | .step flush => Sys2Proof.Machine.execStep flush s
  | .params level strategy => Sys2Proof.Machine.execParams level strategy s
  | .endSession => Sys2Proof.Machine.execEndSession s
  | .blockStored bfinal => Sys2Proof.Machine.execBlockStored bfinal s
  | .blockStatic bfinal => Sys2Proof.Machine.execBlockStatic bfinal s
  | .blockDynamic bfinal => Sys2Proof.Machine.execBlockDynamic bfinal s
  | .blockReserved bfinal => Sys2Proof.Machine.execBlockReserved bfinal s

end Sys2Proof.Machine
end

