-- ==== Sys2Proof/Machine/Port.lean ====
section
/-! DEFINITION. What one event at the core's boundary does, apart from executing a decoded instruction: the fetch of a command
word (R21, R280), an illegal word (R96), register reads and writes (R20), the host's stores (R49), the reset input (R361). -/

namespace Sys2Proof.Machine

/-- The next event taken off the list. -/
def State.popEvent (s : State) (rest : List Event) : State := { s with events := rest }

/-- `CMD <- w` (R21, R280): the word stands in `CMD` whether or not it is legal. -/
def State.latchCommand (s : State) (w : Word) : State := { s with regs := { s.regs with cmd := w } }

/-- What an illegal command word does (R96): `STATUS.CODE <- ERR_PARAM` and nothing else. -/
def illegalCommand (s : State) : State := report .errParam s

/-- A host read (R20): the register's value is on the port's data lines; nothing else changes. -/
def State.hostRead (s : State) (index : BitVec 4) : State := { s with portData := s.readReg index }

/-- A hardware reset (R361): every element of the core takes its reset value; host memory, which is the host's (R49),
and what the host does next stay. -/
def State.hardwareReset (s : State) : State := { State.reset with hostMem := s.hostMem, events := s.events }

/-- What the next step decodes, if it decodes anything. -/
def State.fetch : State → Option (Encoded × List Event)
  | { events := .write 0#4 w :: rest, .. } => some (.command w, rest)
  | { events := .block h :: rest, .. } => some (.header h, rest)
  | _ => none

/-- The state in which a fetched encoding is executed: the event is consumed, and a command word stands in `CMD`. -/
def State.afterFetch (s : State) (e : Encoded) (rest : List Event) : State :=
  match e with
  | .command w => (s.popEvent rest).latchCommand w
  | .header _ => s.popEvent rest

/-- An event that executes no instruction; with no event the core is idle and holds its state (R339). -/
def State.otherEvent (s : State) : State :=
  match s.events with
  | [] => s
  | .write index data :: rest => (s.popEvent rest).writeReg index data
  | .read index :: rest => (s.popEvent rest).hostRead index
  | .store addr b :: rest => { s.popEvent rest with hostMem := s.hostMem.put addr.toNat b }
  | .hwReset :: rest => (s.popEvent rest).hardwareReset
  | .block _ :: rest => s.popEvent rest

end Sys2Proof.Machine
end

