-- ==== Sys2Proof/Machine/Step.lean ====
section
/-! DEFINITION. One step: the next event at the core's boundary (R5). A write of `CMD` executes the whole command. -/

namespace Sys2Proof.Machine

/-- One step. -/
def step (s : State) : Host.Outcome State Fault Refusal :=
  match s.fetch with
  | some (e, rest) =>
    match decodeEncoded e with
    | .ok i => exec i (s.afterFetch e rest)
    | .error _ => .next (illegalCommand (s.afterFetch e rest))
  | none => .next s.otherEvent

/-- `s` with the instruction of an opcode-table word as its next event: a word for the `CMD` register, or (3 bits, one byte)
a block header. -/
def State.withFetchWord (s : State) (nbits w : Nat) : State :=
  if nbits ≤ 8 then { s with events := .block (BitVec.ofNat 3 w) :: s.events }
  else { s with events := .write 0#4 (BitVec.ofNat 32 w) :: s.events }

end Sys2Proof.Machine
end

