-- ==== Sys2Proof/Safety.lean ====
section
/-! DEFINITION. The terms in which the model's claims are stated: the canonical form of every memory, the configurations a
session can have, the invariants of R34 and R140, what the engine may touch outside itself, the bits a bit-packer holds, and
for single rules the words in which their claims are put. -/

namespace Sys2Proof.Machine

/-! Canonical form: equal memories are equal data. -/

/-- The match finder's memories are canonical. -/
def Matcher.Canonical (m : Matcher) : Prop := m.window.wf = true ∧ m.head.wf = true ∧ m.prev.wf = true

/-- The pending buffer is canonical. -/
def Packer.Canonical (k : Packer) : Prop := k.pendingBuf.wf = true

/-- A tree's four tables are canonical. -/
def Tree.Canonical (x : Tree) : Prop := x.freq.wf = true ∧ x.code.wf = true ∧ x.len.wf = true ∧ x.dad.wf = true

/-- The symbol buffers, the trees and the builder's scratch memories are canonical. -/
structure Coder.Canonical (k : Coder) : Prop where
  dBuf : k.dBuf.wf = true
  lBuf : k.lBuf.wf = true
  dynL : k.dynL.Canonical
  dynD : k.dynD.Canonical
  bl : k.bl.Canonical
  heap : k.heap.wf = true
  depth : k.depth.wf = true
  blCount : k.blCount.wf = true
  nextCode : k.nextCode.wf = true

/-- Every memory of the state is canonical. -/
structure State.Canonical (s : State) : Prop where
  mat : s.mat.Canonical
  pk : s.pk.Canonical
  cod : s.cod.Canonical
  hostMem : s.hostMem.wf = true

/-! The invariants of a session. -/

/-- A configuration that an accepted `INIT`, with any later `PARAMS`, can have left (R7, R8, R10, R33): the fields are in
range, the sizes are those of R8 and the tuning values those of the level. -/
structure Conf.Consistent (c : Conf) : Prop where
  level : levelLegal c.level = true
  strategy : strategyLegal c.strategy = true
  windowBits : windowBitsLegal c.windowBits = true
  memLevel : memLevelLegal c.memLevel = true
  wrap : wrapLegal c.wrap = true
  sizes : c.ofFields c.level c.strategy c.windowBits c.memLevel c.wrap = c
  tuning : c.loadTuning = c

/-- The accumulator invariant of R140: at most 16 bits are valid, and every bit above them is 0. -/
def Packer.AccumulatorOk (k : Packer) : Prop := k.biValid.toNat ≤ 16 ∧ k.biBuf.toNat < 2 ^ k.biValid.toNat

/-- What holds at every command boundary of a session that has no fatal error (R8, R34, R140). -/
structure State.SessionOk (s : State) : Prop where
  conf : s.conf.Consistent
  cursors : s.boundaryOk = true
  accumulator : s.pk.AccumulatorOk

/-- The machine's invariant: a fatal error is flagged, or no session exists, or the session is in order. -/
def State.Inv (s : State) : Prop := s.regs.fault = true ∨ s.regs.sstate = .unconf ∨ s.SessionOk

/-! What the engine may touch outside itself. -/

/-- `a` is one of the `n` addresses from `base` on (address arithmetic wraps modulo 2^32, R61). -/
def inSpan (base : Word) (n a : Nat) : Prop := ∃ i, i < n ∧ a = (base + BitVec.ofNat 32 i).toNat

/-- `a` lies in the output span `[OUT_PTR, OUT_PTR + OUT_AVAIL)`. -/
def State.inOutput (s : State) (a : Nat) : Prop := inSpan s.regs.outPtr s.regs.outAvail.toNat a

/-- The host has stored every one of the `n` bytes from `base` on. -/
def State.readable (s : State) (base : Word) (n : Nat) : Prop :=
  ∀ i, i < n → (s.hostMem.get (base + BitVec.ofNat 32 i).toNat).isSome = true

/-- What a run of the engine inside one command does to everything that is not the engine's own working state, from `s` to
`t`: the registers the host writes, the flags it does not own, the configuration, what the host does next, and the unit
attached as checksum stay; the stream state only moves forward, `fresh` only falls and `trailerDone` only rises (R32, R296);
input is consumed from the front of its span, output is delivered to the front of its span, and
no byte of host memory outside the output span changes (R25, R26, R62, R70, R71). -/
structure EngineFrame (s t : State) : Prop where
  cmd : t.regs.cmd = s.regs.cmd
  code : t.regs.code = s.regs.code
  fault : t.regs.fault = s.regs.fault
  inValid : t.regs.inValid = s.regs.inValid
  outValid : t.regs.outValid = s.regs.outValid
  arg0 : t.regs.arg0 = s.regs.arg0
  arg1 : t.regs.arg1 = s.regs.arg1
  gzMtime : t.regs.gzMtime = s.regs.gzMtime
  gzOs : t.regs.gzOs = s.regs.gzOs
  conf : t.conf = s.conf
  unit : t.cks.unit = s.cks.unit
  events : t.events = s.events
  portData : t.portData = s.portData
  stage : s.regs.sstate.bits.toNat ≤ t.regs.sstate.bits.toNat
  fresh : t.regs.fresh = true → s.regs.fresh = true
  trailer : s.regs.trailerDone = true → t.regs.trailerDone = true
  input : ∃ n, n ≤ s.regs.inAvail.toNat ∧ t.regs.inPtr = s.regs.inPtr + BitVec.ofNat 32 n ∧
    t.regs.inAvail = s.regs.inAvail - BitVec.ofNat 32 n ∧ t.regs.totalIn = s.regs.totalIn + BitVec.ofNat 64 n
  output : ∃ n, n ≤ s.regs.outAvail.toNat ∧ t.regs.outPtr = s.regs.outPtr + BitVec.ofNat 32 n ∧
    t.regs.outAvail = s.regs.outAvail - BitVec.ofNat 32 n ∧ t.regs.totalOut = s.regs.totalOut + BitVec.ofNat 64 n
  memory : ∀ a, ¬ s.inOutput a → t.hostMem.get a = s.hostMem.get a

/-! The bits a bit-packer holds (R149): those of the bytes in the pending buffer from index 0 on, then those of the
accumulator, each low bit first (R12). -/

/-- The low `n` bits of a value, bit 0 first. -/
def lowBits (v n : Nat) : List Bool := (List.range n).map v.testBit

/-- The bits of a packer, in stream order. -/
def Packer.bits (k : Packer) : List Bool :=
  (List.range k.pending.toNat).flatMap (fun i => lowBits (k.pendingBuf.get i).toNat 8)
    ++ lowBits k.biBuf.toNat k.biValid.toNat

/-! Command words (R90 to R96). -/

/-- The causes 1 to 5 of R322, as R91 to R94 list them: an unknown opcode, a must-be-zero bit, a field outside its range. -/
def IllegalWord (w : Word) : Prop :=
  w.toNat % 256 = 0 ∨ 8 < w.toNat % 256
  ∨ (w.toNat % 256 = 1 ∧ (w &&& 0xFC00C000#32 ≠ 0#32 ∨ 9 < w.toNat / 2 ^ 8 % 16 ∨ w.toNat / 2 ^ 12 % 4 = 3
      ∨ w.toNat / 2 ^ 16 % 16 < 9 ∨ w.toNat / 2 ^ 20 % 16 = 0 ∨ 9 < w.toNat / 2 ^ 20 % 16 ∨ w.toNat / 2 ^ 24 % 4 = 3))
  ∨ (w.toNat % 256 = 6 ∧ (w &&& 0xFFFFF800#32 ≠ 0#32 ∨ 4 < w.toNat / 2 ^ 8 % 8))
  ∨ (w.toNat % 256 = 7 ∧ (w &&& 0xFFFFC000#32 ≠ 0#32 ∨ 9 < w.toNat / 2 ^ 8 % 16 ∨ w.toNat / 2 ^ 12 % 4 = 3))
  ∨ (w.toNat % 256 ≠ 1 ∧ w.toNat % 256 ≠ 6 ∧ w.toNat % 256 ≠ 7 ∧ w &&& 0xFFFFFF00#32 ≠ 0#32)

/-- One of the eight host commands of R90. -/
def hostCommand : Instr → Bool
  | .init _ _ _ _ _ => true
  | .reset => true
  | .setDict => true
  | .setInput => true
  | .setOutput => true
  | .step _ => true
  | .params _ _ => true
  | .endSession => true
  | .blockStored _ => false
  | .blockStatic _ => false
  | .blockDynamic _ => false
  | .blockReserved _ => false

/-- The command creates a session (R281). -/
def createsSession : Instr → Bool
  | .init _ _ _ _ _ => true
  | _ => false

/-- A session exists and no fatal error is flagged: the prologue of R280 lets every command through. -/
def State.live (s : State) : Prop := s.regs.fault = false ∧ s.regs.sstate ≠ .unconf

/-! Reset values (R361, R282). -/

/-- The values R361 gives the elements of the core after a hardware reset. -/
structure State.HardwareReset (t : State) : Prop where
  cmd : t.regs.cmd = 0#32
  status : t.regs.statusWord = 0#32
  cfg : t.conf.cfgWord = 0#32
  args : t.regs.arg0 = 0#32 ∧ t.regs.arg1 = 0#32
  spans : t.regs.inPtr = 0#32 ∧ t.regs.inAvail = 0#32 ∧ t.regs.outPtr = 0#32 ∧ t.regs.outAvail = 0#32
  totals : t.regs.totalIn = 0#64 ∧ t.regs.totalOut = 0#64
  cksum : t.readReg 0xD#4 = 0#32
  gzip : t.regs.gzMtime = 0#32 ∧ t.regs.gzOs = 0xFF#8
  cursors : t.mat.strStart = 0#17 ∧ t.mat.lookahead = 0#17 ∧ t.mat.blockStart = 0#32 ∧ t.mat.matchStart = 0#32
    ∧ t.mat.prevMatch = 0#32
  matching : t.mat.matchLength = 2#9 ∧ t.mat.prevLength = 2#9 ∧ t.mat.insH = 0#16 ∧ t.mat.matchAvailable = false
  packer : t.pk.biBuf = 0#16 ∧ t.pk.biValid = 0#5 ∧ t.pk.pending = 0#18 ∧ t.pk.pendingOut = 0#18
  coder : t.cod.lastEobLen = 8#4 ∧ t.cod.lastLit = 0#16 ∧ t.cod.matchCount = 0#16 ∧ t.cod.optLen = 0#32
    ∧ t.cod.staticLen = 0#32
  builder : t.cod.heapLen = 0#10 ∧ t.cod.heapMax = 573#10 ∧ t.cod.lMaxCode = -1#10 ∧ t.cod.dMaxCode = -1#10
    ∧ t.cod.blMaxCode = -1#10
  flush : t.lastFlush = 0#4
  memories : ∀ i, i < 65536 → t.mat.window.get i = 0#8 ∧ t.mat.head.get i = 0#16 ∧ t.mat.prev.get i = 0#16
  frequencies : ∀ n, n ≤ 572 → t.cod.dynL.freq.get n = (if n = 256 then 1#16 else 0#16) ∧ t.cod.dynD.freq.get n = 0#16
    ∧ t.cod.bl.freq.get n = 0#16

/-- What `SessionReset` (R282) leaves, in a session with the configuration `c`. -/
structure State.SessionStart (c : Conf) (t : State) : Prop where
  totals : t.regs.totalIn = 0#64 ∧ t.regs.totalOut = 0#64
  flags : t.regs.trailerDone = false ∧ t.regs.fresh = true
  stream : t.regs.sstate = if c.wrap = 0#2 then .busy else .init
  checksum : t.cks.ck = t.cks.unit.initial
  flush : t.lastFlush = 0#4
  packer : t.pk.pending = 0#18 ∧ t.pk.pendingOut = 0#18 ∧ t.pk.biBuf = 0#16 ∧ t.pk.biValid = 0#5
  coder : t.cod.lastEobLen = 8#4 ∧ t.cod.lMaxCode = -1#10 ∧ t.cod.dMaxCode = -1#10 ∧ t.cod.blMaxCode = -1#10
  block : t.cod.optLen = 0#32 ∧ t.cod.staticLen = 0#32 ∧ t.cod.lastLit = 0#16 ∧ t.cod.matchCount = 0#16
  literals : ∀ n, n < 286 → t.cod.dynL.freq.get n = if n = 256 then 1#16 else 0#16
  distances : ∀ n, n < 30 → t.cod.dynD.freq.get n = 0#16
  lengths : ∀ n, n < 19 → t.cod.bl.freq.get n = 0#16
  window : ∀ i, i < 2 * c.windowSize → t.mat.window.get i = 0#8
  head : ∀ i, i < c.hashSize → t.mat.head.get i = 0#16
  prev : ∀ i, i < c.windowSize → t.mat.prev.get i = 0#16
  cursors : t.mat.strStart = 0#17 ∧ t.mat.blockStart = 0#32 ∧ t.mat.lookahead = 0#17 ∧ t.mat.insH = 0#16
  matching : t.mat.matchLength = 2#9 ∧ t.mat.prevLength = 2#9 ∧ t.mat.matchAvailable = false ∧ t.mat.matchStart = 0#32
    ∧ t.mat.prevMatch = 0#32
  tuning : t.conf = c.loadTuning

/-! The spans. -/

/-- The `n` bytes the host last stored from `base` on. -/
def State.spanBytes (s : State) (base : Word) (n : Nat) : List Byte :=
  (List.range n).map fun i => (s.hostMem.get (base + BitVec.ofNat 32 i).toNat).getD 0#8

/-- A checksum over a list of bytes, from the value `ck` on (R78). -/
def ChecksumUnit.fold (u : ChecksumUnit) (ck : Word) (bs : List Byte) : Word := bs.foldl u.update ck

/-- `t` is `s` after the bytes `bs` were delivered to the front of the output span (R71): they stand in host memory from
`OUT_PTR` on, nothing else in host memory changed, and the three registers moved by their number. What the engine holds,
`mat`, `pk`, `cod`, `cks`, the flags and the configuration, is not spoken of. -/
structure State.Delivered (s t : State) (bs : List Byte) : Prop where
  bytes : ∀ i, (h : i < bs.length) → t.hostMem.get (s.regs.outPtr + BitVec.ofNat 32 i).toNat = some bs[i]
  elsewhere : ∀ a, ¬ inSpan s.regs.outPtr bs.length a → t.hostMem.get a = s.hostMem.get a
  outPtr : t.regs.outPtr = s.regs.outPtr + BitVec.ofNat 32 bs.length
  outAvail : t.regs.outAvail = s.regs.outAvail - BitVec.ofNat 32 bs.length
  totalOut : t.regs.totalOut = s.regs.totalOut + BitVec.ofNat 64 bs.length

/-- The `n` bytes of the pending buffer from index `i` on. -/
def Packer.bytesFrom (k : Packer) (i n : Nat) : List Byte := (List.range n).map fun j => k.pendingBuf.get (i + j)

/-- `r` with the three output registers of `r'`. -/
def HostRegs.withOutput (r r' : HostRegs) : HostRegs :=
  { r with outPtr := r'.outPtr, outAvail := r'.outAvail, totalOut := r'.totalOut }

/-- `r` after the `n` bytes at the front of the input span were consumed (R70). -/
def HostRegs.withInput (r : HostRegs) (n : Nat) : HostRegs :=
  { r with
    inPtr := r.inPtr + BitVec.ofNat 32 n, inAvail := r.inAvail - BitVec.ofNat 32 n
    totalIn := r.totalIn + BitVec.ofNat 64 n }

/-- What a command that runs the engine leaves: a state `u` that the engine's frame allows, with the status of the command
in `STATUS.CODE`, or with the fatal error flagged (R326). -/
def State.RanTo (s t : State) : Prop :=
  ∃ u, EngineFrame s u ∧ ((∃ st, t = { u with regs := { u.regs with code := st } })
    ∨ t = { u with regs := { u.regs with code := .errFatal, fault := true } })

/-- The block of a state `u` was ended as R241 ends one and the state `t` is what the block header leaves (log entry 6): the
pending bytes were delivered as far as there was room, the stream state is `FINISH` after a final block, and the status is `OK`. -/
def State.DeliveredThenOk (u t : State) (bfinal : Bool) : Prop :=
  ∃ v, flushPending u = (.ok (), v)
    ∧ t = { v with regs := { v.regs with code := .ok, sstate := if bfinal then .finish else v.regs.sstate } }

/-! Block headers (log entry 6). -/

/-- `i` is one of the three headers that close the open block, with `BFINAL = b`. -/
def closesBlock (i : Instr) (b : Bool) : Prop := i = .blockStored b ∨ i = .blockStatic b ∨ i = .blockDynamic b

/-- What goes before the emission of a block header's block: the wrapper header of a new session, the pending bytes, and the
deferred byte. -/
def beforeBlock : Proc State Unit := do
  stepHeader
  flushPending
  settleDeferred

/-! Code-length symbols as a decoder reads them (R114). -/

/-- The lengths that a list of code-length symbols stands for, `before` being those already read. -/
def expandItems : List BlItem → List Nat → Option (List Nat)
  | [], before => some before
  | x :: xs, before =>
    if x.sym ≤ 15 then expandItems xs (before ++ [x.sym])
    else if x.sym = 16 then
      match before.getLast? with
      | some v => expandItems xs (before ++ List.replicate (3 + x.extra) v)
      | none => none
    else if x.sym = 17 then expandItems xs (before ++ List.replicate (3 + x.extra) 0)
    else if x.sym = 18 then expandItems xs (before ++ List.replicate (11 + x.extra) 0)
    else none

/-- The static code of a literal/length symbol, most significant bit first (the four ranges of R118). -/
def staticSymbolBits (sym : Nat) : List Bool :=
  if sym ≤ 143 then (lowBits (0b00110000 + sym) 8).reverse
  else if sym ≤ 255 then (lowBits (0b110010000 + (sym - 144)) 9).reverse
  else if sym ≤ 279 then (lowBits (0b0000000 + (sym - 256)) 7).reverse
  else (lowBits (0b11000000 + (sym - 280)) 8).reverse

/-- One item of a static block's symbol stream (R121): a literal `lc`, or a match of distance `dist` and length `lc + 3`: its
length code and extra bits, then its 5-bit distance code (R119), most significant bit first, and extra bits. -/
def staticItemBits (dist lc : Nat) : List Bool :=
  if dist = 0 then staticSymbolBits lc
  else
    staticSymbolBits (257 + lengthCode lc)
      ++ lowBits (lc - tableAt baseLength (lengthCode lc)) (tableAt extraLBits (lengthCode lc))
      ++ (lowBits (distCode (dist - 1)) 5).reverse
      ++ lowBits (dist - 1 - tableAt baseDist (distCode (dist - 1))) (tableAt extraDBits (distCode (dist - 1)))

/-- Zero bits from a length of `n` bits up to the next byte boundary. -/
def zeroPad (n : Nat) : List Bool := List.replicate ((8 - n % 8) % 8) false

/-- The marker of a sync or full flush behind `biValid` bits (R131 (a)): the empty stored block. -/
def storedMarkerBits (biValid : Nat) : List Bool :=
  [false, false, false] ++ zeroPad (biValid + 3) ++ lowBits 0x0000 16 ++ lowBits 0xFFFF 16

/-- The empty static block, ten bits (R131 (b)). -/
def emptyStaticBits : List Bool := [false, true, false] ++ List.replicate 7 false

/-- The marker of a partial flush behind `biValid` bits (R240): one empty static block, and a second one when
`1 + lastEobLen + 10 - biValid' < 9`, where `biValid'` is what `BiFlush` leaves of the bits after the first. -/
def alignMarkerBits (lastEobLen biValid : Nat) : List Bool :=
  emptyStaticBits ++ if 1 + lastEobLen + 10 < 9 + (biValid + 10) % 8 then emptyStaticBits else []

/-- `p` begins `q`: the first `n` bits of a code of `m` bits, both stored first bit lowest (R12). -/
def beginsCode (p n q m : Nat) : Prop := n ≤ m ∧ q % 2 ^ n = p

/-! Canonical codes (R170, R172). -/

/-- How many of the first `N` symbols have the length `b`. -/
def lengthCount (len : Nat → Nat) (N b : Nat) : Nat := ((List.range N).filter fun n => len n = b).length

/-- The starting code value of the length `b` over the first `N` symbols, in closed form: `(previousStart + previousCount) << 1`
from 0 on (R170). -/
def startCode (len : Nat → Nat) (N b : Nat) : Nat :=
  ((List.range N).map fun n => if 0 < len n ∧ len n < b then 2 ^ (b - len n) else 0).sum

/-- The canonical code of symbol `n` among the first `N`, most significant bit first: codes of one length are consecutive
integers in symbol order (R170, R172). -/
def canonicalCode (len : Nat → Nat) (N n : Nat) : Nat := startCode len N (len n) + lengthCount len n (len n)

/-- The lengths of the first `N` symbols fit into a code: the Kraft sum is at most 1, in units of `2^-15`. -/
def kraftFits (len : Nat → Nat) (N : Nat) : Prop :=
  ((List.range N).map fun n => if len n = 0 then 0 else 2 ^ (15 - len n)).sum ≤ 2 ^ 15

end Sys2Proof.Machine
end

