-- ==== Sys2Proof/Certificates/Slice0/Obligations.lean ====
section
/-! DEFINITION. The statements for the provers, in the order of OBLIGATIONS.json. Each docstring names the rule of spec/ that
its statement puts into Lean; where a clause rests on a choice of the model, it names the log entry. -/

section Obligations

open Sys2Proof Sys2Proof.Machine

/-! Encodings and the boundary. -/

/-- The words that R91 to R94 write out, and the eight headers of R110, decode to the instructions they stand for. -/
def Obligations.DecodeSpecWords : Prop :=
  decode 0x018F0601#32 = .ok (.init 6#4 0#2 15#4 8#4 1#2)
  ∧ decode 0x00000002#32 = .ok .reset
  ∧ decode 0x00000003#32 = .ok .setDict
  ∧ decode 0x00000004#32 = .ok .setInput
  ∧ decode 0x00000005#32 = .ok .setOutput
  ∧ decode 0x00000006#32 = .ok (.step 0#3)
  ∧ decode 0x00000106#32 = .ok (.step 1#3)
  ∧ decode 0x00000206#32 = .ok (.step 2#3)
  ∧ decode 0x00000306#32 = .ok (.step 3#3)
  ∧ decode 0x00000406#32 = .ok (.step 4#3)
  ∧ decode 0x00001107#32 = .ok (.params 1#4 1#2)
  ∧ decode 0x00000008#32 = .ok .endSession
  ∧ decodeHeader 0b000#3 = .blockStored false
  ∧ decodeHeader 0b001#3 = .blockStored true
  ∧ decodeHeader 0b010#3 = .blockStatic false
  ∧ decodeHeader 0b011#3 = .blockStatic true
  ∧ decodeHeader 0b100#3 = .blockDynamic false
  ∧ decodeHeader 0b101#3 = .blockDynamic true
  ∧ decodeHeader 0b110#3 = .blockReserved false
  ∧ decodeHeader 0b111#3 = .blockReserved true

/-- Decoding the encoding of any instruction, with every operand at every value its field admits, gives it back
(R90 to R94, R110). -/
def Obligations.DecodeEncodeAgree : Prop := ∀ i : Instr, decodeEncoded (encode i) = .ok i

/-- A word, and a header, that decodes is the encoding of what it decodes to, so no two encodings mean the same (R90 to R94,
R110); and every word that R96 does not call illegal decodes, to a host command with legal fields. -/
def Obligations.EncodeDecodeAgree : Prop :=
  (∀ (w : Word) (i : Instr), decode w = .ok i → encode i = .command w)
  ∧ (∀ h : BitVec 3, encode (decodeHeader h) = .header h)
  ∧ ∀ w : Word, ¬ IllegalWord w → ∃ i, decode w = .ok i ∧ i.wellFormed = true ∧ hostCommand i = true

/-- R96: an illegal word written to `CMD` is reported as `ERR_PARAM`, in every state, and nothing else changes except that
`CMD` holds the word. -/
def Obligations.IllegalWordOnlyReports : Prop :=
  ∀ (s : State) (w : Word) (rest : List Event), s.events = .write 0#4 w :: rest → IllegalWord w →
    step s = .next { s with events := rest, regs := { s.regs with cmd := w, code := .errParam } }

/-- A step runs the decoded instruction: a write of `CMD` whose word decodes to `i` is `exec i` in the state where the write
is consumed and the word stands in `CMD` (R20, R21, R280); a block header is `exec` of what it decodes to (log entry 6). -/
def Obligations.StepRunsDecodedInstruction : Prop :=
  (∀ (s : State) (w : Word) (rest : List Event) (i : Instr), s.events = .write 0#4 w :: rest → decode w = .ok i →
    step s = exec i { s with events := rest, regs := { s.regs with cmd := w } })
  ∧ ∀ (s : State) (h : BitVec 3) (rest : List Event), s.events = .block h :: rest →
    step s = exec (decodeHeader h) { s with events := rest }

/-- The table of R20, read side: what a host read returns, and that it changes nothing (R20, R26, R27). -/
def Obligations.RegisterReads : Prop :=
  ∀ (s : State) (i : BitVec 4) (rest : List Event), s.events = .read i :: rest →
    ∃ d : Word, step s = .next { s with events := rest, portData := d }
      ∧ (i = 0x0#4 → d = s.regs.cmd)
      ∧ (i = 0x3#4 → d = s.regs.arg0)
      ∧ (i = 0x4#4 → d = s.regs.arg1)
      ∧ (i = 0x5#4 → d = s.regs.inPtr)
      ∧ (i = 0x6#4 → d = s.regs.inAvail)
      ∧ (i = 0x7#4 → d = s.regs.outPtr)
      ∧ (i = 0x8#4 → d = s.regs.outAvail)
      ∧ (i = 0x9#4 → d.toNat = s.regs.totalIn.toNat % 2 ^ 32)
      ∧ (i = 0xA#4 → d.toNat = s.regs.totalIn.toNat / 2 ^ 32)
      ∧ (i = 0xB#4 → d.toNat = s.regs.totalOut.toNat % 2 ^ 32)
      ∧ (i = 0xC#4 → d.toNat = s.regs.totalOut.toNat / 2 ^ 32)
      ∧ (i = 0xD#4 → d = s.cks.ck)
      ∧ (i = 0xE#4 → d = s.regs.gzMtime)
      ∧ (i = 0xF#4 → d.toNat = s.regs.gzOs.toNat)

/-- The layouts of `STATUS` (R22, with the codes of R97) and of `CFG` (R23): what a host read of registers 1 and 2 returns,
field by field. -/
def Obligations.StatusAndCfgLayout : Prop :=
  (∀ (s : State) (rest : List Event), s.events = .read 0x1#4 :: rest →
    ∃ d : Word, step s = .next { s with events := rest, portData := d }
      ∧ (d.extractLsb' 0 3).toNat = (match s.regs.code with
          | .ok => 0 | .streamEnd => 1 | .buf => 2 | .errParam => 3 | .errProtocol => 4 | .errFatal => 5)
      ∧ d.getLsbD 3 = s.regs.fault
      ∧ (d.extractLsb' 4 2).toNat = (match s.regs.sstate with | .unconf => 0 | .init => 1 | .busy => 2 | .finish => 3)
      ∧ d.getLsbD 6 = s.regs.inValid ∧ d.getLsbD 7 = s.regs.outValid
      ∧ d.getLsbD 8 = s.regs.fresh ∧ d.getLsbD 9 = s.regs.trailerDone
      ∧ d.extractLsb' 10 22 = 0#22)
  ∧ ∀ (s : State) (rest : List Event), s.events = .read 0x2#4 :: rest →
    ∃ d : Word, step s = .next { s with events := rest, portData := d }
      ∧ d.extractLsb' 0 8 = 0#8 ∧ d.extractLsb' 8 4 = s.conf.level ∧ d.extractLsb' 12 2 = s.conf.strategy
      ∧ d.extractLsb' 14 2 = 0#2 ∧ d.extractLsb' 16 4 = s.conf.windowBits ∧ d.extractLsb' 20 4 = s.conf.memLevel
      ∧ d.extractLsb' 24 2 = s.conf.wrap ∧ d.extractLsb' 26 6 = 0#6

/-- The table of R20, write side: the four writable registers take the word, `GZ_OS` its bits [7:0], and a write to a
read-only register is ignored (R20, R24, R27). -/
def Obligations.RegisterWrites : Prop :=
  ∀ (s : State) (i : BitVec 4) (d : Word) (rest : List Event), s.events = .write i d :: rest →
    (i = 0x3#4 → step s = .next { s with events := rest, regs := { s.regs with arg0 := d } })
    ∧ (i = 0x4#4 → step s = .next { s with events := rest, regs := { s.regs with arg1 := d } })
    ∧ (i = 0xE#4 → step s = .next { s with events := rest, regs := { s.regs with gzMtime := d } })
    ∧ (i = 0xF#4 → step s = .next { s with events := rest, regs := { s.regs with gzOs := d.extractLsb' 0 8 } })
    ∧ (i ≠ 0x0#4 → i ≠ 0x3#4 → i ≠ 0x4#4 → i ≠ 0xE#4 → i ≠ 0xF#4 → step s = .next { s with events := rest })

/-- Host memory is the host's (R49, R370): a store between commands changes the byte at its address and nothing else. With
nothing to do the core holds its state (R339). That both are steps is log entry 2. -/
def Obligations.HostStoresAndIdle : Prop :=
  (∀ (s : State) (a : Word) (b : Byte) (rest : List Event), s.events = .store a b :: rest →
    ∃ m, step s = .next { s with events := rest, hostMem := m }
      ∧ ∀ x, Memory.get m x = if x = a.toNat then some b else s.hostMem.get x)
  ∧ ∀ s : State, s.events = [] → step s = .next s

/-! Reset. -/

/-- R361: a hardware reset gives every element its reset value, and leaves no session: every host command but `INIT` then
reports `ERR_PROTOCOL` and changes nothing else. Host memory is the host's and stays (R49; log entry 2). -/
def Obligations.HardwareResetEvent : Prop :=
  ∀ (s : State) (rest : List Event), s.events = .hwReset :: rest →
    ∃ t, step s = .next t ∧ t.HardwareReset ∧ t.hostMem = s.hostMem ∧ t.events = rest
      ∧ ∀ i, hostCommand i = true → createsSession i = false → i.wellFormed = true →
        exec i t = .next { t with regs := { t.regs with code := .errProtocol } }

/-- The state the model starts in holds the reset values of R361 and meets both invariants of the model. -/
def Obligations.ResetMeetsInvariants : Prop := State.reset.HardwareReset ∧ State.reset.Inv ∧ State.reset.Canonical

/-! The prologue. -/

/-- The prologue of R280 in the order of R327, lines 1 to 3: an illegal field, then the sticky fault, then no session. Each
refusal changes nothing but `STATUS.CODE` (the step wrote `CMD` already). That the block headers, which are no host commands,
stand behind it too is log entry 6. -/
def Obligations.PrologueRefusals : Prop :=
  ∀ (i : Instr) (s : State),
    (i.wellFormed = false → exec i s = .next { s with regs := { s.regs with code := .errParam } })
    ∧ (i.wellFormed = true → s.regs.fault = true → createsSession i = false → i ≠ .endSession →
      exec i s = .next { s with regs := { s.regs with code := .errFatal } })
    ∧ (i.wellFormed = true → (s.regs.fault = false ∨ i = .endSession) → s.regs.sstate = .unconf → createsSession i = false →
      exec i s = .next { s with regs := { s.regs with code := .errProtocol } })

/-! Session commands. -/

/-- R281: `INIT` with legal fields answers `OK` in every state, faulted or not. The configuration takes the fields and the
sizes of R8, the checksum is chosen by `wrap`, the spans are cleared, and a session starts as R282 says; `ARG0`, `ARG1`,
`GZ_MTIME`, `GZ_OS` and host memory do not change. -/
def Obligations.InitResult : Prop :=
  ∀ (s : State) (level : BitVec 4) (strategy : BitVec 2) (windowBits memLevel : BitVec 4) (wrap : BitVec 2),
    (Instr.init level strategy windowBits memLevel wrap).wellFormed = true →
    ∃ (t : State) (c : Conf), exec (.init level strategy windowBits memLevel wrap) s = .next t ∧ t.SessionStart c
      ∧ c.level = level ∧ c.strategy = strategy ∧ c.windowBits = windowBits ∧ c.memLevel = memLevel ∧ c.wrap = wrap
      ∧ c.windowSize = 2 ^ windowBits.toNat ∧ c.windowMask = 2 ^ windowBits.toNat - 1
      ∧ c.hashBits = memLevel.toNat + 7 ∧ c.hashSize = 2 ^ (memLevel.toNat + 7) ∧ c.hashMask = 2 ^ (memLevel.toNat + 7) - 1
      ∧ c.hashShift = (memLevel.toNat + 9) / 3 ∧ c.literalBufferSize = 2 ^ (memLevel.toNat + 6)
      ∧ c.pendingBufSize = 4 * 2 ^ (memLevel.toNat + 6) ∧ c.maxDist = 2 ^ windowBits.toNat - 262
      ∧ t.cks.unit = (if wrap = 2#2 then .crc32 else .adler32)
      ∧ t.regs.code = .ok ∧ t.regs.fault = false ∧ t.regs.inValid = false ∧ t.regs.outValid = false
      ∧ t.regs.inPtr = 0#32 ∧ t.regs.inAvail = 0#32 ∧ t.regs.outPtr = 0#32 ∧ t.regs.outAvail = 0#32
      ∧ t.regs.cmd = s.regs.cmd ∧ t.regs.arg0 = s.regs.arg0 ∧ t.regs.arg1 = s.regs.arg1
      ∧ t.regs.gzMtime = s.regs.gzMtime ∧ t.regs.gzOs = s.regs.gzOs
      ∧ t.cod.heapLen = s.cod.heapLen ∧ t.cod.heapMax = s.cod.heapMax
      ∧ t.hostMem = s.hostMem ∧ t.events = s.events ∧ t.portData = s.portData

/-- R282: `RESET` in a live session answers `OK`; a session starts with the current configuration, and the spans, their valid
bits, `ARG0`, `ARG1`, `GZ_MTIME`, `GZ_OS` and `CMD` are kept. -/
def Obligations.ResetResult : Prop :=
  ∀ s : State, s.live →
    ∃ t, exec .reset s = .next t ∧ t.SessionStart s.conf
      ∧ t.regs = { s.regs with
          code := .ok, totalIn := 0#64, totalOut := 0#64, trailerDone := false, fresh := true
          sstate := if s.conf.wrap = 0#2 then .busy else .init }
      ∧ t.cks.unit = s.cks.unit ∧ t.cod.heapLen = s.cod.heapLen ∧ t.cod.heapMax = s.cod.heapMax
      ∧ t.hostMem = s.hostMem ∧ t.events = s.events ∧ t.portData = s.portData

/-- R288: `END` in a session, also a faulted one, answers `OK` and releases it; `TOTAL_IN`, `TOTAL_OUT`, `CKSUM`, `ARG0`,
`ARG1`, `GZ_MTIME`, `GZ_OS` are kept and no host memory is written. That the engine's own state stays is the
model's reading of R360's 'most registers as they were' (log entry 8). -/
def Obligations.EndResult : Prop :=
  ∀ s : State, s.regs.sstate ≠ .unconf →
    ∃ t, exec .endSession s = .next t ∧ t.conf.cfgWord = 0#32
      ∧ t.regs = { s.regs with
          code := .ok, sstate := .unconf, fault := false, inValid := false, outValid := false
          inPtr := 0#32, inAvail := 0#32, outPtr := 0#32, outAvail := 0#32 }
      ∧ t.cks = s.cks ∧ t.hostMem = s.hostMem
      ∧ t.mat = s.mat ∧ t.pk = s.pk ∧ t.cod = s.cod ∧ t.lastFlush = s.lastFlush
      ∧ t.events = s.events ∧ t.portData = s.portData

/-- R284 and R285: a span command in a live session answers `OK`, loads its span from `ARG0` and `ARG1`, sets the span's
valid bit, and changes nothing else. -/
def Obligations.SpanCommandsLoadSpans : Prop :=
  ∀ s : State, s.live →
    exec .setInput s = .next { s with
      regs := { s.regs with inPtr := s.regs.arg0, inAvail := s.regs.arg1, inValid := true, code := .ok } }
    ∧ exec .setOutput s = .next { s with
      regs := { s.regs with outPtr := s.regs.arg0, outAvail := s.regs.arg1, outValid := true, code := .ok } }

/-! The preset dictionary. -/

/-- The two checks of R286 in order: a gzip session refuses a dictionary with `ERR_PARAM`, a session that is no longer fresh
with `ERR_PROTOCOL`; nothing else changes (R322 cause 7, R323 cause 5). -/
def Obligations.SetDictRefusals : Prop :=
  ∀ s : State, s.live →
    (s.conf.wrap = 2#2 → exec .setDict s = .next { s with regs := { s.regs with code := .errParam } })
    ∧ (s.conf.wrap ≠ 2#2 → s.regs.fresh = false →
      exec .setDict s = .next { s with regs := { s.regs with code := .errProtocol } })

/-- R286, R72: a dictionary shorter than `MIN_MATCH` is accepted and, in a zlib session, checksummed; nothing is loaded. -/
def Obligations.SetDictShortIsAccepted : Prop :=
  ∀ s : State, s.live → s.conf.wrap ≠ 2#2 → s.regs.fresh = true → s.regs.arg1.toNat < 3 →
    s.readable s.regs.arg0 s.regs.arg1.toNat →
    exec .setDict s = .next { s with
      regs := { s.regs with fresh := false, code := .ok }
      cks := if s.conf.wrap = 1#2 then
          { s.cks with ck := s.cks.unit.fold s.cks.ck (s.spanBytes s.regs.arg0 s.regs.arg1.toNat) }
        else s.cks }

/-- R286, R72: a dictionary of at least `MIN_MATCH` bytes on a fresh session in order answers `OK`. The last
`min(n, maxDist)` of its `n` bytes stand at the front of the window, which is otherwise unchanged; `strStart` and `blockStart`
are their number, the checksum of a zlib session covers all `n`, and nothing else changes but `fresh`, the hash value and
the two hash memories. -/
def Obligations.SetDictLoadsWindow : Prop :=
  ∀ s : State, s.live → s.conf.Consistent → s.boundaryOk = true → s.conf.wrap ≠ 2#2 → s.regs.fresh = true →
    s.mat.lookahead = 0#17 → 3 ≤ s.regs.arg1.toNat → s.readable s.regs.arg0 s.regs.arg1.toNat →
    ∃ t, exec .setDict s = .next t
      ∧ t.regs = { s.regs with fresh := false, code := .ok }
      ∧ t.mat = { s.mat with
          window := t.mat.window, head := t.mat.head, prev := t.mat.prev, insH := t.mat.insH
          strStart := BitVec.ofNat 17 (min s.regs.arg1.toNat s.conf.maxDist)
          blockStart := BitVec.ofNat 32 (min s.regs.arg1.toNat s.conf.maxDist) }
      ∧ (∀ i, i < min s.regs.arg1.toNat s.conf.maxDist →
          some (t.mat.window.get i) = s.hostMem.get
            (s.regs.arg0 + BitVec.ofNat 32 (s.regs.arg1.toNat - min s.regs.arg1.toNat s.conf.maxDist + i)).toNat)
      ∧ (∀ i, i < 2 ^ 17 → min s.regs.arg1.toNat s.conf.maxDist ≤ i → t.mat.window.get i = s.mat.window.get i)
      ∧ t.cks = (if s.conf.wrap = 1#2 then
          { s.cks with ck := s.cks.unit.fold s.cks.ck (s.spanBytes s.regs.arg0 s.regs.arg1.toNat) } else s.cks)
      ∧ t.conf = s.conf ∧ t.pk = s.pk ∧ t.cod = s.cod ∧ t.lastFlush = s.lastFlush ∧ t.hostMem = s.hostMem
      ∧ t.events = s.events ∧ t.portData = s.portData

/-- The frame of `SET_DICT`, whatever it answers (R286, R72, R24, R25): no counter, no span, no byte of host memory, no bit
of the packer, no symbol of the block and no configuration register changes, and of the flags only `fresh` and, on a fatal
error, `fault`. -/
def Obligations.SetDictFrame : Prop :=
  ∀ s t : State, exec .setDict s = .next t →
    t.regs = { s.regs with code := t.regs.code, fresh := t.regs.fresh, fault := t.regs.fault }
    ∧ (t.regs.fresh = true → s.regs.fresh = true) ∧ (s.regs.fault = true → t.regs.fault = true)
    ∧ (t.regs.fault = true → s.regs.fault = false → t.regs.code = .errFatal)
    ∧ t.mat.lookahead = s.mat.lookahead ∧ t.mat.matchStart = s.mat.matchStart ∧ t.mat.prevMatch = s.mat.prevMatch
    ∧ t.mat.matchLength = s.mat.matchLength ∧ t.mat.prevLength = s.mat.prevLength
    ∧ t.mat.matchAvailable = s.mat.matchAvailable
    ∧ t.cks.unit = s.cks.unit ∧ t.conf = s.conf ∧ t.pk = s.pk ∧ t.cod = s.cod ∧ t.lastFlush = s.lastFlush
    ∧ t.hostMem = s.hostMem ∧ t.events = s.events ∧ t.portData = s.portData

/-! `STEP`. -/

/-- The four entry checks of R283 in order (R327 line 4): a failing one reports its status and changes nothing else. -/
def Obligations.StepEntryChecks : Prop :=
  ∀ (s : State) (flush : BitVec 3), s.live → flush.toNat ≤ 4 →
    (s.regs.outValid = false → exec (.step flush) s = .next { s with regs := { s.regs with code := .errParam } })
    ∧ (s.regs.outValid = true → s.regs.sstate = .finish → flush ≠ 4#3 →
      exec (.step flush) s = .next { s with regs := { s.regs with code := .errProtocol } })
    ∧ (s.regs.outValid = true → s.regs.sstate = .finish → flush = 4#3 → s.regs.inAvail ≠ 0#32 →
      exec (.step flush) s = .next { s with regs := { s.regs with code := .errProtocol } })
    ∧ (s.regs.outValid = true → (s.regs.sstate = .finish → flush = 4#3 ∧ s.regs.inAvail = 0#32) → s.regs.outAvail = 0#32 →
      exec (.step flush) s = .next { s with
        regs := { s.regs with code := if s.pk.pending ≠ s.pk.pendingOut then .errProtocol else .buf } })

/-- R297: a repeat (no input, a mode no stronger than `lastFlush`, not `FINISH`) does no encoding and appends nothing. With
nothing pending it answers `BUF`; otherwise it delivers what fits of the pending bytes and answers `OK`. -/
def Obligations.StepRepeatOnlyDelivers : Prop :=
  ∀ (s : State) (flush : BitVec 3), s.live → s.boundaryOk = true → s.regs.outValid = true → s.regs.sstate = .busy →
    s.regs.outAvail ≠ 0#32 → s.regs.inAvail = 0#32 → flush.toNat < 4 → (flush.toNat : Int) ≤ s.lastFlush.toInt →
    (s.pk.pending = s.pk.pendingOut →
      exec (.step flush) s = .next { s with regs := { s.regs with fresh := false, code := .buf } })
    ∧ (s.pk.pending ≠ s.pk.pendingOut →
      ∃ t, exec (.step flush) s = .next t
        ∧ s.Delivered t (s.pk.bytesFrom s.pk.pendingOut.toNat
            (min (s.pk.pending.toNat - s.pk.pendingOut.toNat) s.regs.outAvail.toNat))
        ∧ t.regs = { s.regs with fresh := false, code := .ok }.withOutput t.regs
        ∧ t.mat = s.mat ∧ t.cod = s.cod ∧ t.cks = s.cks ∧ t.conf = s.conf ∧ t.lastFlush = s.lastFlush
        ∧ t.pk.biBuf = s.pk.biBuf ∧ t.pk.biValid = s.pk.biValid ∧ t.pk.pendingBuf = s.pk.pendingBuf
        ∧ t.pk.pending.toNat - t.pk.pendingOut.toNat
          = s.pk.pending.toNat - s.pk.pendingOut.toNat - s.regs.outAvail.toNat
        ∧ t.events = s.events ∧ t.portData = s.portData)

/-- R283 note (g), R325: once the stream is delivered, trailer included, every further `STEP FINISH` with room answers
`STREAM_END` and adds nothing. -/
def Obligations.StepFinishAgainEndsStream : Prop :=
  ∀ s : State, s.live → s.boundaryOk = true → s.regs.outValid = true → s.regs.sstate = .finish → s.regs.inAvail = 0#32 →
    s.regs.outAvail ≠ 0#32 → s.pk.pending = s.pk.pendingOut → s.mat.lookahead = 0#17 →
    (s.conf.wrap = 0#2 ∨ s.regs.trailerDone = true) →
    exec (.step 4#3) s = .next { s with regs := { s.regs with fresh := false, code := .streamEnd }, lastFlush := 4#4 }

/-- R293, R126, R128: the `STEP FINISH` that finds the final block delivered writes the trailer: for zlib the checksum, most
significant byte first; for gzip the checksum and then `TOTAL_IN[31:0]`, least significant byte first. With room for all of
it, the answer is `STREAM_END`. -/
def Obligations.StepWritesTrailer : Prop :=
  ∀ s : State, s.live → s.conf.Consistent → s.boundaryOk = true → s.regs.outValid = true → s.regs.sstate = .finish →
    s.regs.inAvail = 0#32 → s.pk.pending = 0#18 → s.pk.pendingOut = 0#18 → s.mat.lookahead = 0#17 →
    s.regs.trailerDone = false →
    (s.conf.wrap = 1#2 → 4 ≤ s.regs.outAvail.toNat →
      ∃ t, exec (.step 4#3) s = .next t
        ∧ s.Delivered t [s.cks.ck.extractLsb' 24 8, s.cks.ck.extractLsb' 16 8, s.cks.ck.extractLsb' 8 8,
            s.cks.ck.extractLsb' 0 8]
        ∧ t.regs = { s.regs with fresh := false, trailerDone := true, code := .streamEnd }.withOutput t.regs
        ∧ t.mat = s.mat ∧ t.cod = s.cod ∧ t.cks = s.cks ∧ t.conf = s.conf ∧ t.lastFlush = 4#4
        ∧ t.pk.pending = 0#18 ∧ t.pk.pendingOut = 0#18 ∧ t.events = s.events ∧ t.portData = s.portData)
    ∧ (s.conf.wrap = 2#2 → 8 ≤ s.regs.outAvail.toNat →
      ∃ t, exec (.step 4#3) s = .next t
        ∧ s.Delivered t [s.cks.ck.extractLsb' 0 8, s.cks.ck.extractLsb' 8 8, s.cks.ck.extractLsb' 16 8,
            s.cks.ck.extractLsb' 24 8, s.regs.totalIn.extractLsb' 0 8, s.regs.totalIn.extractLsb' 8 8,
            s.regs.totalIn.extractLsb' 16 8, s.regs.totalIn.extractLsb' 24 8]
        ∧ t.regs = { s.regs with fresh := false, trailerDone := true, code := .streamEnd }.withOutput t.regs
        ∧ t.mat = s.mat ∧ t.cod = s.cod ∧ t.cks = s.cks ∧ t.conf = s.conf ∧ t.lastFlush = 4#4
        ∧ t.pk.pending = 0#18 ∧ t.pk.pendingOut = 0#18 ∧ t.events = s.events ∧ t.portData = s.portData)

/-- R290 to R292, R125, R127: the first `STEP` of a zlib or gzip session writes the header, and resets the checksum. With no
input and mode `NO_FLUSH` that is all it does: the header's bytes are delivered. The zlib header's 16-bit value, first byte
high, is a multiple of 31 with `FCHECK` in 1 .. 31 and carries the method, the window size, the level hint and the dictionary
bit; with a dictionary the dictionary's checksum follows, most significant byte first. -/
def Obligations.StepWritesHeader : Prop :=
  ∀ s : State, s.live → s.conf.Consistent → s.boundaryOk = true → s.regs.outValid = true → s.regs.sstate = .init →
    s.regs.inAvail = 0#32 → s.pk.pending = 0#18 → s.pk.pendingOut = 0#18 → s.lastFlush = 0#4 → 10 ≤ s.regs.outAvail.toNat →
    (s.conf.wrap = 1#2 →
      ∃ (t : State) (cmf flg : Byte), exec (.step 0#3) s = .next t
        ∧ cmf.toNat = 8 + 16 * (s.conf.windowBits.toNat - 8)
        ∧ (cmf.toNat * 256 + flg.toNat) % 31 = 0 ∧ 1 ≤ flg.toNat % 32
        ∧ flg.toNat / 64 = (if s.conf.strategy = 2#2 ∨ s.conf.level.toNat < 2 then 0 else if s.conf.level.toNat < 6 then 1
            else if s.conf.level.toNat = 6 then 2 else 3)
        ∧ flg.toNat / 32 % 2 = (if s.mat.strStart ≠ 0#17 then 1 else 0)
        ∧ s.Delivered t ([cmf, flg] ++ if s.mat.strStart ≠ 0#17 then
            [s.cks.ck.extractLsb' 24 8, s.cks.ck.extractLsb' 16 8, s.cks.ck.extractLsb' 8 8, s.cks.ck.extractLsb' 0 8]
            else [])
        ∧ t.regs = { s.regs with fresh := false, sstate := .busy, code := .ok }.withOutput t.regs
        ∧ t.mat = s.mat ∧ t.cod = s.cod ∧ t.cks = { s.cks with ck := s.cks.unit.initial } ∧ t.conf = s.conf
        ∧ t.lastFlush = 0#4 ∧ t.pk.pending = 0#18 ∧ t.pk.pendingOut = 0#18 ∧ t.events = s.events ∧ t.portData = s.portData)
    ∧ (s.conf.wrap = 2#2 →
      ∃ t, exec (.step 0#3) s = .next t
        ∧ s.Delivered t [0x1F#8, 0x8B#8, 0x08#8, 0x00#8, s.regs.gzMtime.extractLsb' 0 8, s.regs.gzMtime.extractLsb' 8 8,
            s.regs.gzMtime.extractLsb' 16 8, s.regs.gzMtime.extractLsb' 24 8,
            (if s.conf.level = 9#4 then 2#8 else if s.conf.level = 1#4 then 4#8 else 0#8), s.regs.gzOs]
        ∧ t.regs = { s.regs with fresh := false, sstate := .busy, code := .ok }.withOutput t.regs
        ∧ t.mat = s.mat ∧ t.cod = s.cod ∧ t.cks = { s.cks with ck := s.cks.unit.initial } ∧ t.conf = s.conf
        ∧ t.lastFlush = 0#4 ∧ t.pk.pending = 0#18 ∧ t.pk.pendingOut = 0#18 ∧ t.events = s.events ∧ t.portData = s.portData)

/-- R295, R205, R70: at levels 1 to 9 a `STEP NO_FLUSH` whose input leaves fewer than `MIN_LOOKAHEAD` bytes in the lookahead
consumes all of it into the window, appended at `strStart + lookahead`, folds it into the checksum of a wrapped session,
and encodes nothing. -/
def Obligations.StepBuffersSmallInput : Prop :=
  ∀ s : State, s.live → s.conf.Consistent → s.boundaryOk = true → 1 ≤ s.conf.level.toNat → s.regs.outValid = true →
    s.regs.sstate = .busy → s.regs.outAvail ≠ 0#32 → s.pk.pending = s.pk.pendingOut → s.regs.inAvail ≠ 0#32 →
    s.mat.lookahead.toNat + s.regs.inAvail.toNat ≤ 261 → s.mat.strStart.toNat < s.conf.windowSize + s.conf.maxDist →
    s.readable s.regs.inPtr s.regs.inAvail.toNat →
    ∃ t, exec (.step 0#3) s = .next t
      ∧ t.regs = { s.regs with fresh := false, code := .ok }.withInput s.regs.inAvail.toNat
      ∧ t.regs.inAvail = 0#32
      ∧ t.mat = { s.mat with
          window := t.mat.window, insH := t.mat.insH
          lookahead := BitVec.ofNat 17 (s.mat.lookahead.toNat + s.regs.inAvail.toNat) }
      ∧ (∀ i, i < s.regs.inAvail.toNat →
          some (t.mat.window.get (s.mat.strStart.toNat + s.mat.lookahead.toNat + i))
            = s.hostMem.get (s.regs.inPtr + BitVec.ofNat 32 i).toNat)
      ∧ (∀ i, i < 2 ^ 17 → (i < s.mat.strStart.toNat + s.mat.lookahead.toNat
            ∨ s.mat.strStart.toNat + s.mat.lookahead.toNat + s.regs.inAvail.toNat ≤ i) →
          t.mat.window.get i = s.mat.window.get i)
      ∧ t.cks = (if s.conf.wrap = 0#2 then s.cks else
          { s.cks with ck := s.cks.unit.fold s.cks.ck (s.spanBytes s.regs.inPtr s.regs.inAvail.toNat) })
      ∧ t.lastFlush = 0#4 ∧ t.conf = s.conf ∧ t.pk = s.pk ∧ t.cod = s.cod ∧ t.hostMem = s.hostMem
      ∧ t.events = s.events ∧ t.portData = s.portData

/-- R295, R131, R240, R213: a flush with no input and an empty open block appends its marker, at every level, behind the bits
the accumulator held. Partial: `Align`'s one or two empty static blocks, and up to 7 bits stay in the accumulator. Sync and full:
the empty stored block, and none stay; from a byte boundary that is `00 00 00 FF FF`. A full flush also clears `head`; the
window and `prev` stay. -/
def Obligations.StepFlushMarker : Prop :=
  ∀ (s : State) (flush : BitVec 3) (marker : List Bool), s.live → s.conf.Consistent → s.boundaryOk = true → s.pk.AccumulatorOk →
    s.regs.outValid = true → s.regs.sstate = .busy → s.regs.inAvail = 0#32 → s.pk.pending = 0#18 → s.pk.pendingOut = 0#18 →
    s.mat.lookahead = 0#17 → s.cod.lastLit = 0#16 → s.mat.matchAvailable = false →
    s.mat.blockStart.toInt = s.mat.strStart.toNat → s.mat.strStart.toNat < s.conf.windowSize + s.conf.maxDist →
    (flush = 1#3 ∨ flush = 2#3 ∨ flush = 3#3) → s.lastFlush.toInt < flush.toNat →
    marker = (if flush = 1#3 then alignMarkerBits s.cod.lastEobLen.toNat s.pk.biValid.toNat
      else storedMarkerBits s.pk.biValid.toNat) →
    (s.pk.biValid.toNat + marker.length) / 8 ≤ s.regs.outAvail.toNat →
    ∃ (t : State) (bs : List Byte), exec (.step flush) s = .next t
      ∧ s.Delivered t bs
      ∧ bs.flatMap (fun b => lowBits b.toNat 8) ++ lowBits t.pk.biBuf.toNat t.pk.biValid.toNat
        = lowBits s.pk.biBuf.toNat s.pk.biValid.toNat ++ marker
      ∧ t.pk.AccumulatorOk ∧ t.pk.biValid.toNat ≤ 7 ∧ (flush ≠ 1#3 → t.pk.biValid = 0#5)
      ∧ (flush ≠ 1#3 → s.pk.biValid = 0#5 → bs = [0x00#8, 0x00#8, 0x00#8, 0xFF#8, 0xFF#8])
      ∧ t.regs = { s.regs with fresh := false, code := .ok }.withOutput t.regs
      ∧ t.mat = { s.mat with head := t.mat.head }
      ∧ (flush ≠ 3#3 → t.mat.head = s.mat.head)
      ∧ (flush = 3#3 → ∀ i, i < s.conf.hashSize → t.mat.head.get i = 0#16)
      ∧ t.cod = { s.cod with lastEobLen := if flush = 1#3 then 7#4 else 8#4 } ∧ t.lastFlush.toNat = flush.toNat
      ∧ t.cks = s.cks ∧ t.conf = s.conf ∧ t.pk.pending = 0#18 ∧ t.pk.pendingOut = 0#18
      ∧ t.events = s.events ∧ t.portData = s.portData

/-- A whole raw level-0 stream in one `STEP FINISH` (R283, R261, R235, R236, R111): `n` bytes of input, few enough for one
block, become the final stored block: the byte `01`, `LEN` and its one's complement, each low byte first, and the input itself;
the answer is `STREAM_END`. -/
def Obligations.StoredStreamBytes : Prop :=
  ∀ s : State, s.live → s.conf.Consistent → s.boundaryOk = true → s.conf.level = 0#4 → s.conf.wrap = 0#2 →
    s.regs.outValid = true → s.regs.sstate = .busy → s.mat.strStart = 0#17 → s.mat.lookahead = 0#17 →
    s.mat.blockStart = 0#32 → s.pk.pending = 0#18 → s.pk.pendingOut = 0#18 → s.pk.biValid = 0#5 → s.pk.biBuf = 0#16 →
    s.regs.inAvail.toNat < s.conf.maxDist → s.regs.inAvail.toNat + 6 < s.conf.pendingBufSize →
    s.regs.inAvail.toNat + 5 < s.regs.outAvail.toNat → s.readable s.regs.inPtr s.regs.inAvail.toNat →
    ∃ t, exec (.step 4#3) s = .next t
      ∧ t.regs.code = .streamEnd ∧ t.regs.sstate = .finish ∧ t.regs.inAvail = 0#32
      ∧ t.regs.totalIn = s.regs.totalIn + s.regs.inAvail.setWidth 64
      ∧ s.Delivered t ([0x01#8, BitVec.ofNat 8 (s.regs.inAvail.toNat % 256), BitVec.ofNat 8 (s.regs.inAvail.toNat / 256),
          BitVec.ofNat 8 (255 - s.regs.inAvail.toNat % 256), BitVec.ofNat 8 (255 - s.regs.inAvail.toNat / 256)]
          ++ s.spanBytes s.regs.inPtr s.regs.inAvail.toNat)

/-- The frame of the commands that run the engine, whatever they answer (R24 to R27, R32, R62, R75): the engine writes no byte
of host memory outside `[OUT_PTR, OUT_PTR + OUT_AVAIL)` as they stood when the command began, and `EngineFrame` (Safety.lean)
says the rest. For the block headers, the reserved one among them, this is the model's reading (log entry 6). -/
def Obligations.EngineCommandsFrame : Prop :=
  (∀ (s t : State) (flush : BitVec 3), exec (.step flush) s = .next t → s.RanTo t)
  ∧ (∀ s t : State, exec .setDict s = .next t → s.RanTo t)
  ∧ (∀ (s t : State) (b : Bool), exec (.blockStored b) s = .next t → s.RanTo t)
  ∧ (∀ (s t : State) (b : Bool), exec (.blockStatic b) s = .next t → s.RanTo t)
  ∧ (∀ (s t : State) (b : Bool), exec (.blockDynamic b) s = .next t → s.RanTo t)
  ∧ ∀ (s t : State) (b : Bool), exec (.blockReserved b) s = .next t → s.RanTo t

/-! `PARAMS`. -/

/-- R287: when the strategy function stays the same, or no input was consumed yet, `PARAMS` takes effect at once: the level
with its tuning values (R10) and the strategy change, and nothing else. -/
def Obligations.ParamsImmediate : Prop :=
  ∀ (s : State) (level : BitVec 4) (strategy : BitVec 2), s.live → s.conf.Consistent →
    (Instr.params level strategy).wellFormed = true →
    ((levelRow level).fn = (levelRow s.conf.level).fn ∨ s.regs.totalIn = 0#64) →
    exec (.params level strategy) s = .next { s with
      regs := { s.regs with code := .ok }
      conf := { s.conf with
        level := level, strategy := strategy
        goodMatch := BitVec.ofNat 13 (levelRow level).goodMatch
        maxLazyMatch := BitVec.ofNat 13 (levelRow level).maxLazyMatch
        niceMatch := BitVec.ofNat 13 (levelRow level).niceMatch
        maxChainLength := BitVec.ofNat 13 (levelRow level).maxChainLength } }

/-- R287: a `PARAMS` that needs the partial flush meets the entry checks of `STEP` (R283): without an output span `ERR_PARAM`,
in `FINISH` `ERR_PROTOCOL`, with no room `ERR_PROTOCOL` or `BUF`; nothing else changes, the parameters included. -/
def Obligations.ParamsFlushRefused : Prop :=
  ∀ (s : State) (level : BitVec 4) (strategy : BitVec 2), s.live → (Instr.params level strategy).wellFormed = true →
    (levelRow level).fn ≠ (levelRow s.conf.level).fn → s.regs.totalIn ≠ 0#64 →
    (s.regs.outValid = false → exec (.params level strategy) s = .next { s with regs := { s.regs with code := .errParam } })
    ∧ (s.regs.outValid = true → s.regs.sstate = .finish →
      exec (.params level strategy) s = .next { s with regs := { s.regs with code := .errProtocol } })
    ∧ (s.regs.outValid = true → s.regs.sstate ≠ .finish → s.regs.outAvail = 0#32 →
      exec (.params level strategy) s = .next { s with
        regs := { s.regs with code := if s.pk.pending ≠ s.pk.pendingOut then .errProtocol else .buf } })

/-- R287: what `PARAMS` may leave, whatever it answers: `OK` means that the level and the strategy are the new ones, any other
status that the configuration is as it was; and apart from the configuration it is a run of the engine (R62, R24 to R27). -/
def Obligations.ParamsChangesOnOkOnly : Prop :=
  ∀ (s t : State) (level : BitVec 4) (strategy : BitVec 2), exec (.params level strategy) s = .next t →
    (t.regs.code = .ok → t.conf.level = level ∧ t.conf.strategy = strategy)
    ∧ (t.regs.code ≠ .ok → t.conf = s.conf)
    ∧ t.conf.wrap = s.conf.wrap ∧ t.conf.windowBits = s.conf.windowBits ∧ t.conf.memLevel = s.conf.memLevel
    ∧ s.RanTo { t with conf := s.conf }

/-! Block headers as instructions (log entry 6). The three statements about what is emitted speak of a session in `BUSY` with
nothing pending and no deferred byte; `BlockHeadersEntryAndFrame` says how every other state comes down to such a one, or what
it answers. -/

/-- R111, R236: `BLOCK_STORED` on an open block that is still in the window emits, after the bits already there, the header
`BFINAL, 0, 0`, zero bits up to the byte boundary, `LEN`, `NLEN` and the block's bytes; the next block starts at `strStart`
with fresh statistics, the pending bytes are delivered, and the answer is `OK`. That the header is an instruction, and that a
final one leads to `FINISH`, is log entry 6. -/
def Obligations.BlockStoredEmits : Prop :=
  ∀ (s : State) (bfinal : Bool) (n : Nat), s.live → s.conf.Consistent → s.boundaryOk = true → s.pk.AccumulatorOk →
    s.regs.sstate = .busy → s.pk.pending = s.pk.pendingOut →
    (bfinal = true → s.regs.inAvail = 0#32 ∧ s.mat.lookahead = 0#17) → s.mat.matchAvailable = false →
    0 ≤ s.mat.blockStart.toInt → s.mat.blockStart.toInt + n = s.mat.strStart.toNat → n ≤ 65535 →
    s.pk.pending.toNat + n + 8 ≤ s.conf.pendingBufSize →
    ∃ u t : State, exec (.blockStored bfinal) s = .next t ∧ u.DeliveredThenOk t bfinal
      ∧ u = { s with
          regs := { s.regs with fresh := false }, pk := u.pk, cod := { s.cod.initBlock with lastEobLen := 8#4 }
          mat := { s.mat with blockStart := s.mat.strStart.setWidth 32 } }
      ∧ u.pk.pendingOut = s.pk.pendingOut
      ∧ u.pk.bits = s.pk.bits ++ [bfinal, false, false] ++ zeroPad (s.pk.biValid.toNat + 3)
          ++ lowBits n 16 ++ lowBits (65535 - n) 16
          ++ (List.range n).flatMap (fun i => lowBits (s.mat.window.get (s.mat.blockStart.toNat + i)).toNat 8)

/-- R112, R118, R119, R121, R237, R238: `BLOCK_STATIC` emits, after the bits already there, the header `BFINAL, 1, 0`, each item
of the open block in order, a literal or a match of any length and distance, and the seven zero bits of the end-of-block code; a
final block is padded to a byte boundary. An empty block is ten bits. That the header is an instruction, and that a final one
leads to `FINISH`, is log entry 6. -/
def Obligations.BlockStaticEmits : Prop :=
  ∀ (s : State) (bfinal : Bool) (bits : List Bool), s.live → s.conf.Consistent → s.boundaryOk = true → s.pk.AccumulatorOk →
    s.regs.sstate = .busy → s.pk.pending = s.pk.pendingOut →
    (bfinal = true → s.regs.inAvail = 0#32 ∧ s.mat.lookahead = 0#17) → s.mat.matchAvailable = false →
    (∀ i, i < s.cod.lastLit.toNat → (s.cod.dBuf.get i).toNat ≤ 32768) →
    bits = (List.range s.cod.lastLit.toNat).flatMap
      (fun i => staticItemBits (s.cod.dBuf.get i).toNat (s.cod.lBuf.get i).toNat) →
    s.pk.pending.toNat + bits.length / 8 + 6 ≤ s.conf.pendingBufSize →
    ∃ u t : State, exec (.blockStatic bfinal) s = .next t ∧ u.DeliveredThenOk t bfinal
      ∧ u = { s with
          regs := { s.regs with fresh := false }, pk := u.pk, cod := { s.cod.initBlock with lastEobLen := 7#4 }
          mat := { s.mat with blockStart := s.mat.strStart.setWidth 32 } }
      ∧ u.pk.pendingOut = s.pk.pendingOut
      ∧ u.pk.bits = s.pk.bits ++ [bfinal, true, false] ++ bits ++ List.replicate 7 false
          ++ if bfinal then zeroPad (s.pk.biValid.toNat + 10 + bits.length) else []

/-- R113, R114, R115, R163, R239: `BLOCK_DYNAMIC` on an empty block, whatever older trees left in the tables. The literal/length
tree has the symbols 0 (padded in) and 256, the distance tree the padded symbols 0 and 1, each of length 1. On the wire: the
header `BFINAL, 0, 1`; `HLIT = 0`, `HDIST = 1`, `HCLEN = 14`; eighteen lengths in `BL_ORDER`, 1 for the symbols 18 and 1; the
lengths 1, 0 × 138, 0 × 117, 1 and then 1, 1, with the codes 0 for symbol 1 and 1 for symbol 18; the end-of-block code 1. That the
header is an instruction, and that a final one leads to `FINISH`, is log entry 6. -/
def Obligations.BlockDynamicEmptyEmits : Prop :=
  ∀ (s : State) (bfinal : Bool), s.live → s.conf.Consistent → s.boundaryOk = true → s.pk.AccumulatorOk →
    s.regs.sstate = .busy → s.pk.pending = s.pk.pendingOut →
    (bfinal = true → s.regs.inAvail = 0#32 ∧ s.mat.lookahead = 0#17) → s.mat.matchAvailable = false →
    s.cod.lastLit = 0#16 → (∀ n, n < 286 → s.cod.dynL.freq.get n = if n = 256 then 1#16 else 0#16) →
    (∀ n, n < 30 → s.cod.dynD.freq.get n = 0#16) → (∀ n, n < 19 → s.cod.bl.freq.get n = 0#16) →
    s.pk.pending.toNat + 16 ≤ s.conf.pendingBufSize →
    ∃ u t : State, exec (.blockDynamic bfinal) s = .next t ∧ u.DeliveredThenOk t bfinal
      ∧ u = { s with
          regs := { s.regs with fresh := false }, pk := u.pk, cod := u.cod
          mat := { s.mat with blockStart := s.mat.strStart.setWidth 32 } }
      ∧ u.cod.lastEobLen = 1#4 ∧ u.cod.lastLit = 0#16
      ∧ u.pk.pendingOut = s.pk.pendingOut
      ∧ u.pk.bits = s.pk.bits ++ [bfinal, false, true] ++ lowBits 0 5 ++ lowBits 1 5 ++ lowBits 14 4
          ++ lowBits 0 3 ++ lowBits 0 3 ++ lowBits 1 3 ++ (List.replicate 14 (lowBits 0 3)).flatten ++ lowBits 1 3
          ++ [false] ++ [true] ++ lowBits 127 7 ++ [true] ++ lowBits 106 7 ++ [false] ++ [false, false] ++ [true]
          ++ if bfinal then zeroPad (s.pk.biValid.toNat + 92) else []

/-- R130, U1, R326: `BTYPE = 3` is reserved/invalid and never produced; where it appears in a session without a fatal error, the
fatal status is raised: `fault` rises, `STATUS.CODE` is `ERR_FATAL`, and everything else stays. That it can appear at all, and behind
the prologue of a command (PrologueRefusals), is log entry 6. -/
def Obligations.BlockReservedRaisesFatal : Prop :=
  ∀ (s : State) (bfinal : Bool), s.live →
    exec (.blockReserved bfinal) s = .next { s with regs := { s.regs with code := .errFatal, fault := true } }

/-- How a block header is admitted, and its frame (all of it log entry 6). Behind a final block (`FINISH`), and as a final block
before all input is in a block, it is refused, and nothing else changes (as R110 and R296 want of the final block). Otherwise the
wrapper header of a new session, the pending bytes and the deferred byte go first (as R149, R71 and R265 want), and with all of
them out the header does what it does in the state they leave; while the pending bytes do not all fit it delivers what fits and
answers `BUF`. Whatever it answers: no input is consumed, the window, the hash memories and `lastFlush` stay, the checksum only
changes when the wrapper header is written, `fresh` can only fall and `fault` only rise. -/
def Obligations.BlockHeadersEntryAndFrame : Prop :=
  ∀ (s : State) (i : Instr) (b : Bool), closesBlock i b →
    (s.live → s.regs.sstate = .finish ∨ (b = true ∧ (s.regs.inAvail ≠ 0#32 ∨ s.mat.lookahead ≠ 0#17)) →
      exec i s = .next { s with regs := { s.regs with code := .errProtocol } })
    ∧ (s.live → s.regs.sstate ≠ .finish → (b = true → s.regs.inAvail = 0#32 ∧ s.mat.lookahead = 0#17) →
      (∀ v, beforeBlock s = (.ok (), v) → v.pk.pending = v.pk.pendingOut →
        v.regs.sstate = .busy ∧ v.mat.matchAvailable = false ∧ exec i s = exec i v)
      ∧ (s.regs.sstate = .busy → s.boundaryOk = true → s.regs.outAvail.toNat < s.pk.pending.toNat - s.pk.pendingOut.toNat →
        ∃ t, exec i s = .next t
          ∧ s.Delivered t (s.pk.bytesFrom s.pk.pendingOut.toNat s.regs.outAvail.toNat)
          ∧ t = { s with
              regs := { s.regs with fresh := false, code := .buf }.withOutput t.regs, hostMem := t.hostMem
              pk := { s.pk with pendingOut := t.pk.pendingOut } }
          ∧ t.pk.pendingOut.toNat = s.pk.pendingOut.toNat + s.regs.outAvail.toNat))
    ∧ ∀ t, exec i s = .next t →
      t.regs = { s.regs with
          code := t.regs.code, fault := t.regs.fault, fresh := t.regs.fresh, sstate := t.regs.sstate }.withOutput t.regs
      ∧ (s.regs.fault = true → t.regs.fault = true) ∧ (t.regs.fresh = true → s.regs.fresh = true)
      ∧ t.mat = { s.mat with
          blockStart := t.mat.blockStart, matchAvailable := t.mat.matchAvailable, matchLength := t.mat.matchLength }
      ∧ t.cks.unit = s.cks.unit ∧ (s.regs.sstate ≠ .init → t.cks = s.cks)
      ∧ t.conf = s.conf ∧ t.lastFlush = s.lastFlush ∧ t.events = s.events ∧ t.portData = s.portData

/-! The bit-packer. -/

/-- R141: `PutByte` appends one byte, or is `raise Fatal` when the pending buffer is full. -/
def Obligations.PutByteAppends : Prop :=
  ∀ (cap : Nat) (b : Byte) (k : Packer),
    (k.pending.toNat < cap → putByte cap b k
      = (.ok (), { k with pendingBuf := k.pendingBuf.set k.pending.toNat b, pending := k.pending + 1#18 }))
    ∧ (cap ≤ k.pending.toNat → putByte cap b k = (.error .fatal, k))

/-- R144 with R149: `SendBits` appends the `length` low bits of `value`, `value[0]` first, keeps the invariant of R140 and
leaves `biValid` in 1 .. 16 (`length = 0` changes nothing). A `value` with bits at or above `length` is `raise Fatal`. -/
def Obligations.SendBitsAppends : Prop :=
  ∀ (cap value length : Nat) (k : Packer), k.AccumulatorOk → length ≤ 16 → k.pending.toNat + 2 ≤ cap → cap ≤ 131072 →
    (value < 2 ^ length →
      ∃ l, sendBits cap value length k = (.ok (), l) ∧ l.bits = k.bits ++ lowBits value length ∧ l.AccumulatorOk
        ∧ (length = 0 → l = k) ∧ (length ≠ 0 → 1 ≤ l.biValid.toNat) ∧ l.pendingOut = k.pendingOut)
    ∧ (length ≠ 0 → 2 ^ length ≤ value → sendBits cap value length k = (.error .fatal, k))

/-- R147: `BiFlush` writes out whole bytes and keeps the rest: no bit is added or lost, and afterwards `biValid ≤ 7`. -/
def Obligations.BiFlushKeepsBits : Prop :=
  ∀ (cap : Nat) (k : Packer), k.AccumulatorOk → k.pending.toNat + 2 ≤ cap → cap ≤ 131072 →
    ∃ l, biFlush cap k = (.ok (), l) ∧ l.bits = k.bits ∧ l.biValid.toNat ≤ 7 ∧ l.AccumulatorOk ∧ l.pendingOut = k.pendingOut

/-- R148: `BiWindup` pads with zero bits to a byte boundary and writes everything out. -/
def Obligations.BiWindupPads : Prop :=
  ∀ (cap : Nat) (k : Packer), k.AccumulatorOk → k.pending.toNat + 2 ≤ cap → cap ≤ 131072 →
    ∃ l, biWindup cap k = (.ok (), l)
      ∧ l.bits = k.bits ++ List.replicate ((8 - k.biValid.toNat % 8) % 8) false
      ∧ l.biBuf = 0#16 ∧ l.biValid = 0#5 ∧ l.pendingOut = k.pendingOut

/-- R71: `FlushPending` delivers the first `min(pending - pendingOut, OUT_AVAIL)` pending bytes, moves the registers by that
number, returns both indices to 0 when they meet, and touches nothing else; afterwards `OUT_AVAIL ≠ 0` implies that nothing
is pending. -/
def Obligations.FlushPendingDelivers : Prop :=
  ∀ (s : State) (n : Nat), s.pk.pendingOut.toNat ≤ s.pk.pending.toNat → s.pk.pending.toNat ≤ s.conf.pendingBufSize →
    n = min (s.pk.pending.toNat - s.pk.pendingOut.toNat) s.regs.outAvail.toNat →
    ∃ t, flushPending s = (.ok (), t)
      ∧ s.Delivered t (s.pk.bytesFrom s.pk.pendingOut.toNat n)
      ∧ t = { s with
          regs := s.regs.withOutput t.regs, hostMem := t.hostMem
          pk := { s.pk with pending := t.pk.pending, pendingOut := t.pk.pendingOut } }
      ∧ (n = 0 → t.pk.pending = s.pk.pending ∧ t.pk.pendingOut = s.pk.pendingOut)
      ∧ (n ≠ 0 → s.pk.pendingOut.toNat + n = s.pk.pending.toNat → t.pk.pending = 0#18 ∧ t.pk.pendingOut = 0#18)
      ∧ (s.pk.pendingOut.toNat + n ≠ s.pk.pending.toNat →
          t.pk.pending = s.pk.pending ∧ t.pk.pendingOut.toNat = s.pk.pendingOut.toNat + n)
      ∧ (t.regs.outAvail ≠ 0#32 → t.pk.pending = t.pk.pendingOut)

/-- R70: `ReadBuf` consumes `n = min(IN_AVAIL, size)` bytes: they stand in the window from `start` on, the checksum of a
wrapped session covers them, the registers moved by `n`, and nothing else changed. -/
def Obligations.ReadBufConsumes : Prop :=
  ∀ (s : State) (start size n : Nat), n = min s.regs.inAvail.toNat size → start + n ≤ 2 * s.conf.windowSize →
    2 * s.conf.windowSize ≤ 2 ^ 17 → s.readable s.regs.inPtr n →
    ∃ t, readBuf start size s = (.ok n, t)
      ∧ t = { s with regs := s.regs.withInput n, mat := { s.mat with window := t.mat.window }, cks := t.cks }
      ∧ (∀ i, i < n → some (t.mat.window.get (start + i)) = s.hostMem.get (s.regs.inPtr + BitVec.ofNat 32 i).toNat)
      ∧ (∀ i, i < 2 ^ 17 → (i < start ∨ start + n ≤ i) → t.mat.window.get i = s.mat.window.get i)
      ∧ t.cks = (if s.conf.wrap = 0#2 then s.cks else
          { s.cks with ck := s.cks.unit.fold s.cks.ck (s.spanBytes s.regs.inPtr n) })

/-! Codes and trees. -/

/-- R171: bit `i` of `BiReverse(code, len)` is bit `len - 1 - i` of `code`, and no other bit is set. -/
def Obligations.BiReverseBits : Prop :=
  ∀ code len i : Nat, (biReverse code len).testBit i = (decide (i < len) && code.testBit (len - 1 - i))

/-- R161: what `InitBlock` leaves, and that it changes nothing else of the encoder's scalars. -/
def Obligations.InitBlockStatistics : Prop :=
  ∀ k : Coder,
    (∀ n, n < 286 → k.initBlock.dynL.freq.get n = if n = 256 then 1#16 else 0#16)
    ∧ (∀ n, n < 30 → k.initBlock.dynD.freq.get n = 0#16) ∧ (∀ n, n < 19 → k.initBlock.bl.freq.get n = 0#16)
    ∧ k.initBlock.optLen = 0#32 ∧ k.initBlock.staticLen = 0#32 ∧ k.initBlock.lastLit = 0#16 ∧ k.initBlock.matchCount = 0#16
    ∧ k.initBlock.lastEobLen = k.lastEobLen ∧ k.initBlock.lMaxCode = k.lMaxCode ∧ k.initBlock.dMaxCode = k.dMaxCode
    ∧ k.initBlock.blMaxCode = k.blMaxCode ∧ k.initBlock.heapLen = k.heapLen ∧ k.initBlock.heapMax = k.heapMax

/-- R120: the two classification functions: the largest code whose base does not exceed the value, and 28 for `lc = 255`. With
R116 and R117: what is left above the base always fits the code's extra bits. -/
def Obligations.ClassificationFunctions : Prop :=
  lengthCode 255 = 28
  ∧ (∀ lc, lc < 255 → lengthCode lc ≤ 27 ∧ tableAt baseLength (lengthCode lc) ≤ lc
      ∧ ∀ c, c ≤ 27 → tableAt baseLength c ≤ lc → c ≤ lengthCode lc)
  ∧ (∀ d, d < 32768 → distCode d ≤ 29 ∧ tableAt baseDist (distCode d) ≤ d
      ∧ ∀ c, c ≤ 29 → tableAt baseDist c ≤ d → c ≤ distCode d)
  ∧ (∀ lc, lc ≤ 255 → lc - tableAt baseLength (lengthCode lc) < 2 ^ tableAt extraLBits (lengthCode lc))
  ∧ ∀ d, d < 32768 → d - tableAt baseDist (distCode d) < 2 ^ tableAt extraDBits (distCode d)

/-- R118, R119: the values the spec writes out of the two static codes, and that neither has a code that begins another. -/
def Obligations.StaticCodes : Prop :=
  staticLCode 0 = 0x0C ∧ staticLCode 1 = 0x8C ∧ staticLCode 143 = 0xFD ∧ staticLCode 144 = 0x013 ∧ staticLCode 255 = 0x1FF
  ∧ staticLCode 256 = 0x00 ∧ staticLCode 257 = 0x40 ∧ staticLCode 279 = 0x74 ∧ staticLCode 280 = 0x03 ∧ staticLCode 285 = 0xA3
  ∧ (List.range 30).map staticDCode = [0, 16, 8, 24, 4, 20, 12, 28, 2, 18, 10, 26, 6, 22, 14, 30, 1, 17, 9, 25, 5, 21, 13, 29,
      3, 19, 11, 27, 7, 23]
  ∧ (∀ m n, m < 288 → n < 288 → m ≠ n → ¬ beginsCode (staticLCode m) (staticLLen m) (staticLCode n) (staticLLen n))
  ∧ ∀ m n, m < 30 → n < 30 → m ≠ n → ¬ beginsCode (staticDCode m) (staticDLen m) (staticDCode n) (staticDLen n)

/-- R170, R172 and the prefix property of R180: over lengths of at most 15 whose Kraft sum is at most 1, counted in `blCount`,
`GenCodes` answers; each symbol of non-zero length gets its canonical code, stored bit-reversed, which fits its length; no code
begins another; nothing but the codes and `nextCode` changes. -/
def Obligations.GenCodesCanonical : Prop :=
  ∀ (t : TreeId) (k : Coder) (N : Nat) (len : Nat → Nat), len = (k.tree t).lenOf → k.maxCode t + 1 = N → N ≤ t.elems →
    (∀ n, n < N → len n ≤ 15) → (k.blCount.get 0).toNat = 0 →
    (∀ b, 1 ≤ b → b ≤ 15 → (k.blCount.get b).toNat = lengthCount len N b) → kraftFits len N →
    ∃ l, genCodes t k = (.ok (), l)
      ∧ l = { k.setTree t { k.tree t with code := (l.tree t).code } with nextCode := l.nextCode }
      ∧ (∀ n, n < N → len n ≠ 0 →
          ((l.tree t).code.get n).toNat = biReverse (canonicalCode len N n) (len n)
          ∧ canonicalCode len N n < 2 ^ len n)
      ∧ (∀ n, n < N → len n = 0 → (l.tree t).code.get n = (k.tree t).code.get n)
      ∧ ∀ m n, m < N → n < N → m ≠ n → len m ≠ 0 → len n ≠ 0 →
          ¬ beginsCode ((l.tree t).code.get m).toNat (len m) ((l.tree t).code.get n).toNat (len n)

/-- R175, R176 against R114: the run-length walk loses nothing. For every list of code lengths of at most 15, the symbols it
emits, read as a decoder reads them, give the lengths back; every extra value fits its extra bits. -/
def Obligations.TreeItemsExpandToLengths : Prop :=
  ∀ (len : Nat → Nat) (maxCode : Nat), (∀ n, n ≤ maxCode → len n ≤ 15) →
    expandItems (treeItems len maxCode) [] = some ((List.range (maxCode + 1)).map len)
    ∧ ∀ x, x ∈ treeItems len maxCode → x.extraBits = tableAt extraBlBits x.sym ∧ x.extra < 2 ^ x.extraBits

/-! The match finder. -/

/-- R201: after three updates `insH` depends only on the last three bytes, by the closed form the spec derives. -/
def Obligations.HashClosedForm : Prop :=
  ∀ (c : Conf) (h : BitVec 16) (b0 b1 b2 : Byte), c.Consistent →
    (hashStep c (hashStep c (hashStep c h b0) b1) b2).toNat
      = ((b0.toNat <<< (2 * c.hashShift)) ^^^ (b1.toNat <<< c.hashShift) ^^^ b2.toNat) &&& c.hashMask

/-- R206: `Slide` copies the upper half of the window to the lower, lowers the three positions by `windowSize`, and rebases
every entry of `head` and `prev`, clamped to 0; nothing else changes. -/
def Obligations.SlideRebases : Prop :=
  ∀ (c : Conf) (m : Matcher), c.Consistent →
    (∀ i, i < c.windowSize → (m.slide c).window.get i = m.window.get (c.windowSize + i))
    ∧ (∀ i, c.windowSize ≤ i → i < 2 ^ 17 → (m.slide c).window.get i = m.window.get i)
    ∧ (m.slide c).matchStart = m.matchStart - BitVec.ofNat 32 c.windowSize
    ∧ (m.slide c).strStart = m.strStart - BitVec.ofNat 17 c.windowSize
    ∧ (m.slide c).blockStart = m.blockStart - BitVec.ofNat 32 c.windowSize
    ∧ (∀ i, i < c.hashSize → ((m.slide c).head.get i).toNat = (m.head.get i).toNat - c.windowSize)
    ∧ (∀ i, i < c.windowSize → ((m.slide c).prev.get i).toNat = (m.prev.get i).toNat - c.windowSize)
    ∧ m.slide c = { m with
        window := (m.slide c).window, head := (m.slide c).head, prev := (m.slide c).prev
        matchStart := (m.slide c).matchStart, strStart := (m.slide c).strStart, blockStart := (m.slide c).blockStart }

/-- R202: `InsertString(pos)` answers the old head of the chain of the string's hash, links it behind `pos`, makes `pos` the
head, and changes nothing else. -/
def Obligations.InsertStringLinks : Prop :=
  ∀ (c : Conf) (m : Matcher) (pos : Nat) (h : BitVec 16), c.Consistent → pos + 2 < 2 * c.windowSize →
    h.toNat = ((m.insH.toNat <<< c.hashShift) ^^^ (m.window.get (pos + 2)).toNat) &&& c.hashMask →
    ∃ m', insertString c pos m = (.ok (m.head.get h.toNat).toNat, m')
      ∧ m' = { m with insH := h, head := m'.head, prev := m'.prev }
      ∧ m'.prev.get (pos % c.windowSize) = m.head.get h.toNat
      ∧ m'.head.get h.toNat = BitVec.ofNat 16 pos
      ∧ (∀ i, i < c.windowSize → i ≠ pos % c.windowSize → m'.prev.get i = m.prev.get i)
      ∧ ∀ i, i < c.hashSize → i ≠ h.toNat → m'.head.get i = m.head.get i

/-- R210, R211: what `LongestMatch` answers is a match. It never exceeds the lookahead; when it beats `prevLength` it is at
most `MAX_MATCH`, and `matchStart` is a position before `strStart`, the candidate given or one within `maxDist`, whose bytes
agree with those at `strStart` over that length. Nothing but `matchStart` changes. -/
def Obligations.LongestMatchIsMatch : Prop :=
  ∀ (c : Conf) (m m' : Matcher) (curMatch n : Nat), longestMatch c curMatch m = (.ok n, m') →
    n ≤ m.lookahead.toNat
    ∧ m' = { m with matchStart := m'.matchStart }
    ∧ (m.prevLength.toNat < n →
        n ≤ 258 ∧ ∃ p, m'.matchStart = BitVec.ofNat 32 p ∧ p < m.strStart.toNat
          ∧ (p = curMatch ∨ m.strStart.toNat - p < c.maxDist)
          ∧ ∀ i, i < n → m.window.get (p + i) = m.window.get (m.strStart.toNat + i))
    ∧ (n ≤ m.prevLength.toNat → n = min m.prevLength.toNat m.lookahead.toNat)

/-! Checksums. -/

/-- R79. Adler-32 over any bytes: the low half is 1 plus their sum modulo 65521, the high half, below 65521, is the sum of
the successive low halves. CRC-32: the initial value and the spec's example. -/
def Obligations.ChecksumFunctions : Prop :=
  (∀ bs : List Byte,
    (ChecksumUnit.adler32.fold ChecksumUnit.adler32.initial bs).toNat % 65536 = (1 + (bs.map BitVec.toNat).sum) % 65521
    ∧ (ChecksumUnit.adler32.fold ChecksumUnit.adler32.initial bs).toNat / 65536
      = ((List.range bs.length).map fun i => 1 + ((bs.take (i + 1)).map BitVec.toNat).sum).sum % 65521)
  ∧ ChecksumUnit.adler32.fold ChecksumUnit.adler32.initial [0x61#8] = 0x00620062#32
  ∧ ChecksumUnit.crc32.initial = 0x00000000#32
  ∧ ChecksumUnit.crc32.fold ChecksumUnit.crc32.initial [0x61#8] = 0xE8B7BE43#32

/-! The whole machine. -/

/-- Every memory keeps its canonical form over every step, so equal memories stay equal data. -/
def Obligations.StepKeepsCanonical : Prop := ∀ s t : State, s.Canonical → step s = .next t → t.Canonical

/-- The invariant of the model holds over every step (R8, R33, R34, R140): a fatal error is flagged, or no session exists, or
the configuration is one that `INIT` and `PARAMS` can leave, the cursors are as R34 says and the accumulator as R140 says. -/
def Obligations.StepKeepsInvariant : Prop := ∀ s t : State, s.Inv → step s = .next t → t.Inv

/-- R32, R326, R329: only `INIT`, `END` and a hardware reset clear `fault`. -/
def Obligations.OnlyInitEndResetClearFault : Prop :=
  ∀ s t : State, step s = .next t → s.regs.fault = true → t.regs.fault = false →
    (∃ rest, s.events = .hwReset :: rest)
    ∨ ∃ w rest i, s.events = .write 0#4 w :: rest ∧ decode w = .ok i ∧ (createsSession i = true ∨ i = .endSession)

/-- R296: how a host command moves the stream state. That a block header, too, leads from `INIT` to `BUSY` with the wrapper header
and, with `BFINAL = 1`, to `FINISH` is log entry 6. -/
def Obligations.StreamStateTransitions : Prop :=
  ∀ (i : Instr) (s t : State), exec i s = .next t → t.regs.sstate ≠ s.regs.sstate →
    (∃ l st wb ml w, i = .init l st wb ml w ∧ t.regs.sstate = if w = 0#2 then .busy else .init)
    ∨ (i = .reset ∧ t.regs.sstate = if s.conf.wrap = 0#2 then .busy else .init)
    ∨ (i = .endSession ∧ t.regs.sstate = .unconf)
    ∨ (s.regs.sstate = .init ∧ t.regs.sstate = .busy
      ∧ ((∃ f, i = .step f) ∨ (∃ l st, i = .params l st) ∨ ∃ b, closesBlock i b))
    ∨ ((s.regs.sstate = .init ∨ s.regs.sstate = .busy) ∧ t.regs.sstate = .finish ∧ (i = .step 4#3 ∨ closesBlock i true))

/-- R23, R33: which steps change a configuration register: a hardware reset, and the commands `INIT`, `RESET` (which only reloads
the tuning values), `PARAMS` and `END`. -/
def Obligations.ConfigurationChangedBy : Prop :=
  ∀ s t : State, step s = .next t → t.conf ≠ s.conf →
    (∃ rest, s.events = .hwReset :: rest)
    ∨ ∃ w rest i, s.events = .write 0#4 w :: rest ∧ decode w = .ok i
      ∧ (createsSession i = true ∨ i = .endSession ∨ (∃ l st, i = .params l st)
        ∨ (i = .reset ∧ t.conf = s.conf.loadTuning))

/-- R62, R60, R75: over any one step a byte of host memory changes only where the host itself stores one, or inside the output
span as it stood when the step began. That the step of a hardware reset keeps host memory is log entry 2. -/
def Obligations.HostMemoryOutsideOutputKept : Prop :=
  ∀ (s t : State) (a : Nat), step s = .next t → t.hostMem.get a ≠ s.hostMem.get a →
    (∃ x b rest, s.events = .store x b :: rest ∧ x.toNat = a) ∨ s.inOutput a

end Obligations
end

