-- ==== Sys2Proof/Config.lean ====
section
/-! DEFINITION. What the platform fixes around the core.

The spec leaves three open parameters (92_eei_decisions.md, 'Open parameters, collected').
`REG_BASE` has no default and no rule uses it: it is the opaque constant below.
`LEVEL_TABLE` and `CHECKSUM_FN` have defaults (R10, R79), which stand in Sys2Proof/Machine/Tables.lean and
Sys2Proof/Machine/Checksum.lean, where a repair may reach them. -/

namespace Sys2Proof.Config

/-- `REG_BASE` (R66, decision D1, U17): where the register file sits on the host's bus.
The spec leaves it OPEN and no rule depends on it, so it has no body. -/
opaque regBase : Word

/-- The bus address of the register with word index `i`: byte offset = 4 × index (R20). -/
def regAddress (i : BitVec 4) : Word := regBase + 4#32 * i.setWidth 32

end Sys2Proof.Config
end

