-- ==== Sys2Proof/Laws/Proc.lean ====
section
/-! SUPPORT. How procedures run: one equation for each way of building one, and two predicates that pass through every way
of building one. `Rel R p`: from any state, `p` leaves an `R`-related state, whether it answers or is abandoned. `Keeps P p`:
when `p` answers, `P` is kept. -/

namespace Sys2Proof.Machine

namespace Proc

variable {σ α β : Type}

@[simp] theorem pure_run (a : α) (s : σ) : (pure a : Proc σ α) s = (.ok a, s) := rfl

@[simp] theorem get_run (s : σ) : (get : Proc σ σ) s = (.ok s, s) := rfl

@[simp] theorem set_run (t s : σ) : (set t : Proc σ PUnit) s = (.ok ⟨⟩, t) := rfl

@[simp] theorem modify_run (f : σ → σ) (s : σ) : (modify f : Proc σ PUnit) s = (.ok ⟨⟩, f s) := rfl

@[simp] theorem throw_run (e : Stop) (s : σ) : (throw e : Proc σ α) s = (.error e, s) := rfl

@[simp] theorem raiseFatal_run (s : σ) : (raiseFatal : Proc σ α) s = (.error .fatal, s) := rfl

/-- Sequencing: the second part runs from where the first part answered, or not at all. -/
theorem bind_run (p : Proc σ α) (f : α → Proc σ β) (s : σ) :
    (p >>= f) s = match p s with
      | (.ok a, t) => f a t
      | (.error e, t) => (.error e, t) := by
  have h : (p >>= f) s = (ExceptT.bindCont f (p s).1) (p s).2 := rfl
  rw [h]
  cases p s with
  | mk r t => cases r <;> rfl

theorem bind_ok {p : Proc σ α} {f : α → Proc σ β} {s t : σ} {a : α} (h : p s = (.ok a, t)) : (p >>= f) s = f a t := by
  rw [bind_run, h]

theorem bind_error {p : Proc σ α} {f : α → Proc σ β} {s t : σ} {e : Stop} (h : p s = (.error e, t)) :
    (p >>= f) s = (.error e, t) := by
  rw [bind_run, h]

/-- What an answer of a sequence says: both parts answered. -/
theorem of_bind_ok {p : Proc σ α} {f : α → Proc σ β} {s u : σ} {b : β} (h : (p >>= f) s = (.ok b, u)) :
    ∃ a t, p s = (.ok a, t) ∧ f a t = (.ok b, u) := by
  rw [bind_run] at h
  cases hp : p s with
  | mk r t =>
    rw [hp] at h
    cases r with
    | ok a => exact ⟨a, t, rfl, h⟩
    | error e => cases h

@[simp] theorem get_bind_run (f : σ → Proc σ β) (s : σ) : (get >>= f) s = f s s := by rw [bind_ok (get_run s)]

@[simp] theorem modify_bind_run (g : σ → σ) (f : PUnit → Proc σ β) (s : σ) :
    ((modify g : Proc σ PUnit) >>= f) s = f ⟨⟩ (g s) := by rw [bind_ok (modify_run g s)]

@[simp] theorem set_bind_run (t : σ) (f : PUnit → Proc σ β) (s : σ) :
    ((set t : Proc σ PUnit) >>= f) s = f ⟨⟩ t := by rw [bind_ok (set_run t s)]

@[simp] theorem pure_bind_run (a : α) (f : α → Proc σ β) (s : σ) : ((pure a : Proc σ α) >>= f) s = f a s := by
  rw [bind_ok (pure_run a s)]

@[simp] theorem raiseFatal_bind_run (f : α → Proc σ β) (s : σ) :
    ((raiseFatal : Proc σ α) >>= f) s = (.error .fatal, s) := by rw [bind_error (raiseFatal_run s)]

@[simp] theorem require_run (c : Bool) (s : σ) :
    (require c : Proc σ Unit) s = if c then (.ok (), s) else (.error .fatal, s) := by
  cases c <;> rfl

theorem onlyIf_run (c : Prop) [Decidable c] (p : Proc σ Unit) (s : σ) :
    onlyIf c p s = if c then p s else (.ok (), s) := by
  unfold onlyIf
  split <;> rfl

@[simp] theorem ite_run (c : Prop) [Decidable c] (p q : Proc σ α) (s : σ) :
    (if c then p else q) s = if c then p s else q s := by
  split <;> rfl

/-- Assertions pass or end the procedure. -/
theorem require_bind_run (c : Bool) (f : Unit → Proc σ β) (s : σ) :
    ((require c : Proc σ Unit) >>= f) s = if c then f () s else (.error .fatal, s) := by
  rw [bind_run]
  cases c <;> rfl

@[simp] theorem load_run {w : Nat} (size : Nat) (m : Ram w) (i : Nat) (s : σ) :
    (load size m i : Proc σ (BitVec w)) s = if i < size then (.ok (m.get i), s) else (.error .fatal, s) := by
  unfold load
  split <;> rfl

@[simp] theorem stored_run {w : Nat} (size : Nat) (m : Ram w) (i : Nat) (v : BitVec w) (s : σ) :
    (stored size m i v : Proc σ (Ram w)) s = if i < size then (.ok (m.set i v), s) else (.error .fatal, s) := by
  unfold stored
  split <;> rfl

@[simp] theorem indexOf_run (i : Int) (s : σ) :
    (indexOf i : Proc σ Nat) s = if 0 ≤ i then (.ok i.toNat, s) else (.error .fatal, s) := by
  unfold indexOf
  split <;> rfl

/-! A relation that every run establishes. -/

/-- From any state the procedure leaves a related state. -/
def Rel (R : σ → σ → Prop) (p : Proc σ α) : Prop := ∀ s, R s (p s).2

section Rel

variable {R : σ → σ → Prop}

theorem Rel.pure (hr : ∀ s, R s s) (a : α) : Rel R (pure a : Proc σ α) := fun s => hr s

theorem Rel.get (hr : ∀ s, R s s) : Rel R (get : Proc σ σ) := fun s => hr s

theorem Rel.throw (hr : ∀ s, R s s) (e : Stop) : Rel R (throw e : Proc σ α) := fun s => hr s

theorem Rel.raiseFatal (hr : ∀ s, R s s) : Rel R (raiseFatal : Proc σ α) := fun s => hr s

theorem Rel.modify {f : σ → σ} (h : ∀ s, R s (f s)) : Rel R (modify f : Proc σ PUnit) := h

theorem Rel.bind (ht : ∀ s t u, R s t → R t u → R s u) {p : Proc σ α} {f : α → Proc σ β} (hp : Rel R p)
    (hf : ∀ a, Rel R (f a)) : Rel R (p >>= f) := by
  intro s
  have h1 := hp s
  rw [bind_run]
  cases h : p s with
  | mk r t =>
    rw [h] at h1
    cases r with
    | ok a => exact ht _ _ _ h1 (hf a t)
    | error e => exact h1

/-- Sequencing after reading the state: the rest need only be related from the state that was read. -/
theorem Rel.get_bind {f : σ → Proc σ β} (h : ∀ s, R s (f s s).2) : Rel R ((MonadState.get : Proc σ σ) >>= f) := by
  intro s
  exact (get_bind_run f s) ▸ h s

theorem Rel.require (hr : ∀ s, R s s) (c : Bool) : Rel R (require c : Proc σ Unit) := by
  intro s
  rw [require_run]
  split <;> exact hr s

theorem Rel.load (hr : ∀ s, R s s) {w : Nat} (size : Nat) (m : Ram w) (i : Nat) : Rel R (load size m i : Proc σ _) := by
  intro s
  rw [load_run]
  split <;> exact hr s

theorem Rel.stored (hr : ∀ s, R s s) {w : Nat} (size : Nat) (m : Ram w) (i : Nat) (v : BitVec w) :
    Rel R (stored size m i v : Proc σ _) := by
  intro s
  rw [stored_run]
  split <;> exact hr s

theorem Rel.indexOf (hr : ∀ s, R s s) (i : Int) : Rel R (indexOf i : Proc σ Nat) := by
  intro s
  rw [indexOf_run]
  split <;> exact hr s

theorem Rel.ite {c : Prop} [Decidable c] {p q : Proc σ α} (hp : Rel R p) (hq : Rel R q) : Rel R (if c then p else q) := by
  split <;> assumption

theorem Rel.onlyIf (hr : ∀ s, R s s) {c : Prop} [Decidable c] {p : Proc σ Unit} (hp : c → Rel R p) : Rel R (onlyIf c p) := by
  unfold Machine.onlyIf
  split
  · exact hp ‹c›
  · exact Rel.pure hr ()

theorem Rel.forCount (hr : ∀ s, R s s) (ht : ∀ s t u, R s t → R t u → R s u) {body : Nat → Proc σ Unit}
    (hb : ∀ i, Rel R (body i)) : ∀ n lo, Rel R (forCount body n lo)
  | 0, _ => Rel.pure hr ()
  | n + 1, lo => Rel.bind ht (hb lo) fun _ => Rel.forCount hr ht hb n (lo + 1)

theorem Rel.forDown (hr : ∀ s, R s s) (ht : ∀ s t u, R s t → R t u → R s u) {body : Nat → Proc σ Unit}
    (hb : ∀ i, Rel R (body i)) : ∀ n, Rel R (forDown body n)
  | 0 => Rel.pure hr ()
  | n + 1 => Rel.bind ht (hb (n + 1)) fun _ => Rel.forDown hr ht hb n

end Rel

end Proc

end Sys2Proof.Machine
end

