-- ==== Sys2Proof/Laws/Ram.lean ====
section
/-! SUPPORT. The internal memories: a read after each way of writing, the canonical form, and that canonical memories which
read alike are equal data. -/

namespace Sys2Proof.Machine.Ram

variable {w : Nat}

@[simp] theorem valueOf_mkLeaf (v : BitVec w) : (mkLeaf v).valueOf = v := by
  unfold mkLeaf
  split
  · rename_i h; exact h.symm
  · rfl

@[simp] theorem left_mkNode (l r : Ram w) : (mkNode l r).left = l := by
  cases l <;> cases r <;> rfl

@[simp] theorem right_mkNode (l r : Ram w) : (mkNode l r).right = r := by
  cases l <;> cases r <;> rfl

@[simp] theorem getAt_zero (d i : Nat) : getAt d (.zero : Ram w) i = 0#w := by
  induction d with
  | zero => rfl
  | succ d ih => simp only [getAt]; split <;> exact ih

@[simp] theorem get_zero (i : Nat) : (.zero : Ram w).get i = 0#w := getAt_zero _ _

/-- The low `d + 1` bits of an index: bit `d` and the bits below it. -/
theorem mod_two_pow_succ (i d : Nat) : i % 2 ^ (d + 1) = (if i.testBit d then 2 ^ d else 0) + i % 2 ^ d := by
  rw [Nat.mod_pow_succ, Nat.testBit_eq_decide_div_mod_eq]
  rcases Nat.mod_two_eq_zero_or_one (i / 2 ^ d) with h | h <;> simp [h, Nat.add_comm]

theorem getAt_succ (d : Nat) (m : Ram w) (i : Nat) :
    getAt (d + 1) m i = if i.testBit d then getAt d m.right i else getAt d m.left i := rfl

/-- A read looks only at the low bits of the index. -/
theorem getAt_setAt (d : Nat) (m : Ram w) (i j : Nat) (v : BitVec w) :
    getAt d (setAt d m i v) j = if j % 2 ^ d = i % 2 ^ d then v else getAt d m j := by
  induction d generalizing m with
  | zero => simp [getAt, setAt, Nat.mod_one]
  | succ d ih =>
    have key : (j % 2 ^ (d + 1) = i % 2 ^ (d + 1)) ↔ (j.testBit d = i.testBit d ∧ j % 2 ^ d = i % 2 ^ d) := by
      have hj := mod_two_pow_succ j d
      have hi := mod_two_pow_succ i d
      rw [hj, hi]
      have h1 := Nat.mod_lt j (Nat.two_pow_pos d)
      have h2 := Nat.mod_lt i (Nat.two_pow_pos d)
      cases j.testBit d <;> cases i.testBit d <;> simp <;> omega
    simp only [getAt_succ, setAt]
    cases hi : i.testBit d <;> cases hj : j.testBit d <;> simp [ih, key, hi, hj]

/-- A read at the index just written gives the value written. -/
theorem get_set_self {i : Nat} (m : Ram w) (v : BitVec w) : (m.set i v).get i = v := by
  simp [get, set, getAt_setAt]

/-- A write leaves every other index alone. -/
theorem get_set_of_ne {i j : Nat} (hi : i < 2 ^ ramBits) (hj : j < 2 ^ ramBits) (h : j ≠ i) (m : Ram w) (v : BitVec w) :
    (m.set i v).get j = m.get j := by
  simp [get, set, getAt_setAt, Nat.mod_eq_of_lt hi, Nat.mod_eq_of_lt hj, h]

theorem get_set {i j : Nat} (hi : i < 2 ^ ramBits) (hj : j < 2 ^ ramBits) (m : Ram w) (v : BitVec w) :
    (m.set i v).get j = if j = i then v else m.get j := by
  split
  · subst j; exact get_set_self m v
  · exact get_set_of_ne hi hj ‹_› m v

theorem getAt_mapBelowAt {f : BitVec w → BitVec w} (hf : f 0#w = 0#w) (d : Nat) (m : Ram w) (n i : Nat) :
    getAt d (mapBelowAt f d m n) i = if i % 2 ^ d < n then f (getAt d m i) else getAt d m i := by
  induction d generalizing m n with
  | zero =>
    cases m <;> simp only [mapBelowAt, getAt, Nat.pow_zero, Nat.mod_one]
    · simp [valueOf, hf]
    all_goals
      by_cases hn : n = 0
      · simp [hn]
      · simp [hn, Nat.pos_of_ne_zero hn]
  | succ d ih =>
    cases m with
    | zero => simp [mapBelowAt, hf]
    | leaf v =>
      have hlt := Nat.mod_lt i (Nat.two_pow_pos d)
      simp only [mapBelowAt, getAt_succ, left_mkNode, right_mkNode, ih, mod_two_pow_succ i d]
      cases i.testBit d <;> simp [left, right, hf]
    | node l r =>
      have hlt := Nat.mod_lt i (Nat.two_pow_pos d)
      simp only [mapBelowAt, getAt_succ, left_mkNode, right_mkNode, ih, mod_two_pow_succ i d]
      cases i.testBit d
      · simp [left]
      · have hiff : i % 2 ^ d < n - 2 ^ d ↔ 2 ^ d + i % 2 ^ d < n := by omega
        simp [right, hiff]

/-- Mapping the entries below `n` maps exactly those. -/
theorem get_mapBelow {f : BitVec w → BitVec w} (hf : f 0#w = 0#w) (m : Ram w) (n : Nat) {i : Nat} (hi : i < 2 ^ ramBits) :
    (m.mapBelow n f).get i = if i < n then f (m.get i) else m.get i := by
  simp [get, mapBelow, getAt_mapBelowAt hf, Nat.mod_eq_of_lt hi]

/-- Clearing the entries below `n` clears exactly those. -/
theorem get_clearBelow (m : Ram w) (n : Nat) {i : Nat} (hi : i < 2 ^ ramBits) :
    (m.clearBelow n).get i = if i < n then 0#w else m.get i := by
  simp [clearBelow, get_mapBelow (f := fun _ => 0#w) rfl m n hi]

/-- Copying a range to a place below it copies exactly that range. -/
theorem get_copyFrom (n src dst : Nat) (m : Ram w) {i : Nat} (hsrc : dst + n ≤ src) (hn : src + n ≤ 2 ^ ramBits)
    (hi : i < 2 ^ ramBits) :
    (copyFrom n src dst m).get i = if dst ≤ i ∧ i < dst + n then m.get (src + (i - dst)) else m.get i := by
  induction n generalizing src dst m with
  | zero =>
    simp [copyFrom]
  | succ n ih =>
    rw [copyFrom, ih (src + 1) (dst + 1) _ (by omega) (by omega)]
    by_cases h1 : dst + 1 ≤ i ∧ i < dst + 1 + n
    · have h2 : dst ≤ i ∧ i < dst + (n + 1) := by omega
      have h3 : src + 1 + (i - (dst + 1)) = src + (i - dst) := by omega
      rw [if_pos h1, if_pos h2, h3]
      exact get_set_of_ne (by omega) (by omega) (by omega) _ _
    · rw [if_neg h1]
      by_cases h4 : i = dst
      · subst i
        rw [get_set_self, if_pos (by omega), Nat.sub_self, Nat.add_zero]
      · rw [get_set_of_ne (by omega) hi h4, if_neg (by omega)]

/-! The canonical form. -/

theorem wfAt_zero (d : Nat) : wfAt d (.zero : Ram w) = true := by cases d <;> rfl

@[simp] theorem wf_zero : (.zero : Ram w).wf = true := rfl

theorem wfAt_left {d : Nat} {m : Ram w} (h : wfAt (d + 1) m = true) : wfAt d m.left = true := by
  cases m with
  | zero => exact wfAt_zero d
  | leaf v => simp [wfAt] at h
  | node l r => simp only [wfAt, Bool.and_eq_true] at h; exact h.1.1

theorem wfAt_right {d : Nat} {m : Ram w} (h : wfAt (d + 1) m = true) : wfAt d m.right = true := by
  cases m with
  | zero => exact wfAt_zero d
  | leaf v => simp [wfAt] at h
  | node l r => simp only [wfAt, Bool.and_eq_true] at h; exact h.1.2

theorem wfAt_mkLeaf (v : BitVec w) : wfAt 0 (mkLeaf v) = true := by
  unfold mkLeaf
  split
  · rfl
  · simpa [wfAt] using ‹_›

theorem wfAt_mkNode {d : Nat} {l r : Ram w} (hl : wfAt d l = true) (hr : wfAt d r = true) :
    wfAt (d + 1) (mkNode l r) = true := by
  cases l <;> cases r <;> simp_all [mkNode, wfAt]

theorem wfAt_setAt {d : Nat} {m : Ram w} (h : wfAt d m = true) (i : Nat) (v : BitVec w) :
    wfAt d (setAt d m i v) = true := by
  induction d generalizing m with
  | zero => exact wfAt_mkLeaf v
  | succ d ih =>
    simp only [setAt]
    split
    · exact wfAt_mkNode (wfAt_left h) (ih (wfAt_right h))
    · exact wfAt_mkNode (ih (wfAt_left h)) (wfAt_right h)

theorem wf_set {m : Ram w} (h : m.wf = true) (i : Nat) (v : BitVec w) : (m.set i v).wf = true := wfAt_setAt h i v

theorem wfAt_mapBelowAt (f : BitVec w → BitVec w) {d : Nat} {m : Ram w} (h : wfAt d m = true) (n : Nat) :
    wfAt d (mapBelowAt f d m n) = true := by
  induction d generalizing m n with
  | zero =>
    cases m <;> simp only [mapBelowAt]
    · rfl
    all_goals
      split
      · exact h
      · exact wfAt_mkLeaf _
  | succ d ih =>
    cases m with
    | zero => exact wfAt_zero _
    | leaf v => simp [wfAt] at h
    | node l r => exact wfAt_mkNode (ih (wfAt_left h) n) (ih (wfAt_right h) _)

theorem wf_mapBelow {m : Ram w} (h : m.wf = true) (n : Nat) (f : BitVec w → BitVec w) : (m.mapBelow n f).wf = true :=
  wfAt_mapBelowAt f h n

theorem wf_clearBelow {m : Ram w} (h : m.wf = true) (n : Nat) : (m.clearBelow n).wf = true := wf_mapBelow h n _

theorem wf_copyFrom (n src dst : Nat) {m : Ram w} (h : m.wf = true) : (copyFrom n src dst m).wf = true := by
  induction n generalizing src dst m with
  | zero => exact h
  | succ n ih => exact ih _ _ (wf_set h _ _)

theorem ext_of_wfAt {d : Nat} {m n : Ram w} (hm : wfAt d m = true) (hn : wfAt d n = true)
    (h : ∀ i, getAt d m i = getAt d n i) : m = n := by
  induction d generalizing m n with
  | zero =>
    have h0 := h 0
    cases m <;> cases n <;> simp_all [wfAt, getAt, valueOf]
  | succ d ih =>
    have hl : m.left = n.left := by
      apply ih (wfAt_left hm) (wfAt_left hn)
      intro i
      have := h (i % 2 ^ d)
      have hb : (i % 2 ^ d).testBit d = false := Nat.testBit_lt_two_pow (Nat.mod_lt _ (Nat.two_pow_pos d))
      simp only [getAt_succ, hb] at this
      have hred : ∀ x : Ram w, ∀ e, e ≤ d → getAt e x (i % 2 ^ d) = getAt e x i := by
        intro x e he
        induction e generalizing x with
        | zero => rfl
        | succ e ihe =>
          have : (i % 2 ^ d).testBit e = i.testBit e := by
            rw [Nat.testBit_mod_two_pow]; simp; omega
          simp only [getAt_succ, this, ihe _ (by omega)]
      simpa [hred _ d (Nat.le_refl d)] using this
    have hr : m.right = n.right := by
      apply ih (wfAt_right hm) (wfAt_right hn)
      intro i
      have := h (2 ^ d + i % 2 ^ d)
      have hb : (2 ^ d + i % 2 ^ d).testBit d = true := by
        rw [Nat.testBit_two_pow_add_eq]
        simp [Nat.testBit_lt_two_pow (Nat.mod_lt i (Nat.two_pow_pos d))]
      simp only [getAt_succ, hb, if_true] at this
      have hred : ∀ x : Ram w, ∀ e, e ≤ d → getAt e x (2 ^ d + i % 2 ^ d) = getAt e x i := by
        intro x e he
        induction e generalizing x with
        | zero => rfl
        | succ e ihe =>
          have : (2 ^ d + i % 2 ^ d).testBit e = i.testBit e := by
            rw [Nat.testBit_two_pow_add_gt (by omega), Nat.testBit_mod_two_pow]; simp; omega
          simp only [getAt_succ, this, ihe _ (by omega)]
      simpa [hred _ d (Nat.le_refl d)] using this
    cases m <;> cases n <;> simp_all [wfAt, left, right]

/-- Equal memories are equal data: two canonical memories that read alike are the same tree. -/
theorem ext_of_wf {m n : Ram w} (hm : m.wf = true) (hn : n.wf = true) (h : ∀ i, m.get i = n.get i) : m = n :=
  ext_of_wfAt hm hn h

/-! The check over a prefix. -/

theorem allBelowAt_iff {p : BitVec w → Bool} (hp : p 0#w = true) (d : Nat) (m : Ram w) (n : Nat) :
    allBelowAt p d m n = true ↔ ∀ i, i < 2 ^ d → i < n → p (getAt d m i) = true := by
  induction d generalizing m n with
  | zero =>
    cases m <;> simp only [allBelowAt, getAt, valueOf, Nat.pow_zero, Bool.or_eq_true, decide_eq_true_eq]
    · simp [hp]
    all_goals
      constructor
      · intro h i hi hn
        rcases h with h | h
        · omega
        · exact h
      · intro h
        by_cases hn : n = 0
        · exact .inl hn
        · exact .inr (h 0 (by omega) (by omega))
  | succ d ih =>
    have step : ∀ x : Ram w, (allBelowAt p d x.left n = true ∧ allBelowAt p d x.right (n - 2 ^ d) = true) ↔
        ∀ i, i < 2 ^ (d + 1) → i < n → p (getAt (d + 1) x i) = true := by
      intro x
      rw [ih, ih]
      constructor
      · rintro ⟨hl, hr⟩ i hi hin
        rw [getAt_succ]
        by_cases hlt : i < 2 ^ d
        · rw [Nat.testBit_lt_two_pow hlt]; exact hl i hlt hin
        · have hb : i.testBit d = true := by
            rw [Nat.testBit_eq_decide_div_mod_eq]
            have : i / 2 ^ d = 1 := by
              rw [Nat.div_eq_iff (Nat.two_pow_pos d)]; constructor
              · omega
              · rw [Nat.pow_succ] at hi; omega
            simp [this]
          rw [hb, if_pos rfl]
          have hi' : i - 2 ^ d < 2 ^ d := by rw [Nat.pow_succ] at hi; omega
          have hred : ∀ y : Ram w, ∀ e, e ≤ d → getAt e y i = getAt e y (i - 2 ^ d) := by
            intro y e he
            induction e generalizing y with
            | zero => rfl
            | succ e ihe =>
              have hsplit : i = 2 ^ d + (i - 2 ^ d) := by omega
              have hbit : i.testBit e = (i - 2 ^ d).testBit e := by
                conv_lhs => rw [hsplit]
                exact Nat.testBit_two_pow_add_gt (by omega) _
              simp only [getAt_succ, hbit, ihe _ (by omega)]
          rw [hred _ d (Nat.le_refl d)]
          exact hr _ hi' (by omega)
      · intro h
        constructor
        · intro i hi hin
          have := h i (by rw [Nat.pow_succ]; omega) hin
          rw [getAt_succ, Nat.testBit_lt_two_pow hi] at this
          exact this
        · intro i hi hin
          have := h (2 ^ d + i) (by rw [Nat.pow_succ]; omega) (by omega)
          have hb : (2 ^ d + i).testBit d = true := by
            rw [Nat.testBit_two_pow_add_eq, Nat.testBit_lt_two_pow hi]; rfl
          rw [getAt_succ, hb, if_pos rfl] at this
          have hred : ∀ y : Ram w, ∀ e, e ≤ d → getAt e y (2 ^ d + i) = getAt e y i := by
            intro y e he
            induction e generalizing y with
            | zero => rfl
            | succ e ihe =>
              simp only [getAt_succ, Nat.testBit_two_pow_add_gt (show e < d by omega), ihe _ (by omega)]
          rw [hred _ d (Nat.le_refl d)] at this
          exact this
    cases m with
    | zero => simp [allBelowAt, hp]
    | leaf v =>
      rw [← step]
      simp [allBelowAt]
    | node l r =>
      rw [← step]
      simp [allBelowAt]

/-- What the check over the entries below `n` says. -/
theorem allBelow_iff {p : BitVec w → Bool} (hp : p 0#w = true) (m : Ram w) (n : Nat) :
    m.allBelow n p = true ↔ ∀ i, i < 2 ^ ramBits → i < n → p (m.get i) = true := allBelowAt_iff hp _ m n

end Sys2Proof.Machine.Ram
end

