-- ==== Sys2Proof/Laws/Packer.lean ====
section
/-! SUPPORT. What every procedure of the bit-packer does to its state: it appends to the pending buffer and leaves the read
index and the canonical form alone; and when it answers, the accumulator invariant of R140 is kept. -/

namespace Sys2Proof.Machine

namespace Proc

variable {σ α β : Type}

/-- When the procedure answers, `P` is kept. -/
def Keeps (P : σ → Prop) (p : Proc σ α) : Prop := ∀ s a t, p s = (.ok a, t) → P s → P t

section Keeps

variable {P : σ → Prop}

theorem Keeps.pure (a : α) : Keeps P (pure a : Proc σ α) := by
  intro s b t h hs; cases h; exact hs

theorem Keeps.get : Keeps P (get : Proc σ σ) := by
  intro s b t h hs; cases h; exact hs

theorem Keeps.raiseFatal : Keeps P (raiseFatal : Proc σ α) := by
  intro s b t h; cases h

theorem Keeps.throw (e : Stop) : Keeps P (throw e : Proc σ α) := by
  intro s b t h; cases h

theorem Keeps.modify {f : σ → σ} (hf : ∀ s, P s → P (f s)) : Keeps P (modify f : Proc σ PUnit) := by
  intro s b t h hs; cases h; exact hf s hs

theorem Keeps.bind {p : Proc σ α} {f : α → Proc σ β} (hp : Keeps P p) (hf : ∀ a, Keeps P (f a)) : Keeps P (p >>= f) := by
  intro s b u h hs
  obtain ⟨a, t, h1, h2⟩ := of_bind_ok h
  exact hf a t b u h2 (hp s a t h1 hs)

theorem Keeps.require (c : Bool) : Keeps P (require c : Proc σ Unit) := by
  intro s b t h hs
  rw [require_run] at h
  split at h
  · cases h; exact hs
  · cases h

theorem Keeps.load {w : Nat} (size : Nat) (m : Ram w) (i : Nat) : Keeps P (load size m i : Proc σ _) := by
  intro s b t h hs
  rw [load_run] at h
  split at h
  · cases h; exact hs
  · cases h

theorem Keeps.stored {w : Nat} (size : Nat) (m : Ram w) (i : Nat) (v : BitVec w) :
    Keeps P (stored size m i v : Proc σ _) := by
  intro s b t h hs
  rw [stored_run] at h
  split at h
  · cases h; exact hs
  · cases h

theorem Keeps.indexOf (i : Int) : Keeps P (indexOf i : Proc σ Nat) := by
  intro s b t h hs
  rw [indexOf_run] at h
  split at h
  · cases h; exact hs
  · cases h

theorem Keeps.onlyIf {c : Prop} [Decidable c] {p : Proc σ Unit} (hp : Keeps P p) : Keeps P (onlyIf c p) := by
  unfold Machine.onlyIf
  split
  · exact hp
  · exact Keeps.pure ()

theorem Keeps.ite {c : Prop} [Decidable c] {p q : Proc σ α} (hp : Keeps P p) (hq : Keeps P q) :
    Keeps P (if c then p else q) := by
  split <;> assumption

end Keeps

end Proc

open Proc

/-- From `k` to `l` a packer only appended. -/
def Packer.Appends (k l : Packer) : Prop := l.pendingOut = k.pendingOut ∧ (k.Canonical → l.Canonical)

theorem Packer.Appends.refl (k : Packer) : k.Appends k := ⟨rfl, id⟩

theorem Packer.Appends.trans (k l m : Packer) (h : k.Appends l) (h' : l.Appends m) : k.Appends m :=
  ⟨h'.1.trans h.1, fun hc => h'.2 (h.2 hc)⟩

/-! `Appends` for each procedure. -/

theorem putByte_appends (cap : Nat) (b : Byte) : Rel Packer.Appends (putByte cap b) := by
  refine Rel.get_bind fun k => ?_
  split
  · exact Packer.Appends.refl k
  · exact ⟨rfl, fun h => Ram.wf_set h _ _⟩

theorem putShort_appends (cap : Nat) (w : Half) : Rel Packer.Appends (putShort cap w) :=
  Rel.bind Packer.Appends.trans (putByte_appends cap _) fun _ => putByte_appends cap _

theorem putShortMSB_appends (cap : Nat) (w : Half) : Rel Packer.Appends (putShortMSB cap w) :=
  Rel.bind Packer.Appends.trans (putByte_appends cap _) fun _ => putByte_appends cap _

theorem putBytes_appends (cap : Nat) : ∀ bs, Rel Packer.Appends (putBytes cap bs)
  | [] => Rel.pure Packer.Appends.refl ()
  | b :: bs => Rel.bind Packer.Appends.trans (putByte_appends cap b) fun _ => putBytes_appends cap bs

theorem sendBits_appends (cap value length : Nat) : Rel Packer.Appends (sendBits cap value length) := by
  unfold sendBits
  refine Rel.ite (Rel.pure Packer.Appends.refl ()) (Rel.ite (Rel.raiseFatal Packer.Appends.refl) ?_)
  refine Rel.bind Packer.Appends.trans (Rel.get Packer.Appends.refl) fun k => Rel.ite ?_ (Rel.modify fun l => ⟨rfl, id⟩)
  exact Rel.bind Packer.Appends.trans (Rel.modify fun l => ⟨rfl, id⟩) fun _ =>
    Rel.bind Packer.Appends.trans (putShort_appends cap _) fun _ => Rel.modify fun l => ⟨rfl, id⟩

theorem sendField_appends (cap : Nat) (value : Int) (length : Nat) : Rel Packer.Appends (sendField cap value length) :=
  Rel.bind Packer.Appends.trans (Rel.indexOf Packer.Appends.refl value) fun v => sendBits_appends cap v length

theorem sendCode_appends (cap c : Nat) (t : CodeTable) : Rel Packer.Appends (sendCode cap c t) :=
  Rel.ite (Rel.raiseFatal Packer.Appends.refl) (sendBits_appends cap _ _)

theorem biFlush_appends (cap : Nat) : Rel Packer.Appends (biFlush cap) := by
  refine Rel.bind Packer.Appends.trans (Rel.get Packer.Appends.refl) fun k => ?_
  refine Rel.ite ?_ (Rel.ite ?_ (Rel.pure Packer.Appends.refl ()))
  · exact Rel.bind Packer.Appends.trans (putShort_appends cap _) fun _ => Rel.modify fun l => ⟨rfl, id⟩
  · exact Rel.bind Packer.Appends.trans (putByte_appends cap _) fun _ => Rel.modify fun l => ⟨rfl, id⟩

theorem biWindup_appends (cap : Nat) : Rel Packer.Appends (biWindup cap) := by
  refine Rel.bind Packer.Appends.trans (Rel.get Packer.Appends.refl) fun k => ?_
  refine Rel.bind Packer.Appends.trans ?_ fun _ => Rel.modify fun l => ⟨rfl, id⟩
  unfold windupBytes
  exact Rel.ite (putShort_appends cap _) (Rel.ite (putByte_appends cap _) (Rel.pure Packer.Appends.refl ()))

/-! The accumulator invariant. -/

theorem putByte_state {cap : Nat} {b : Byte} {k l : Packer} (h : putByte cap b k = (.ok (), l)) :
    k.pending.toNat < cap ∧ l = { k with pendingBuf := k.pendingBuf.set k.pending.toNat b, pending := k.pending + 1#18 } := by
  unfold putByte at h
  rw [get_bind_run] at h
  split at h
  · cases h
  · rw [set_run] at h
    cases h
    exact ⟨by omega, rfl⟩

theorem putByte_keeps {P : Packer → Prop} (hP : ∀ k b n, P k → P { k with pendingBuf := b, pending := n }) (cap : Nat) (b : Byte) :
    Keeps P (putByte cap b) := by
  intro k _ l h hk
  rw [(putByte_state h).2]
  exact hP k _ _ hk

theorem putByte_accumulator (cap : Nat) (b : Byte) : Keeps Packer.AccumulatorOk (putByte cap b) :=
  putByte_keeps (fun _ _ _ h => h) cap b

theorem putShort_accumulator (cap : Nat) (w : Half) : Keeps Packer.AccumulatorOk (putShort cap w) :=
  Keeps.bind (putByte_accumulator cap _) fun _ => putByte_accumulator cap _

theorem putShortMSB_accumulator (cap : Nat) (w : Half) : Keeps Packer.AccumulatorOk (putShortMSB cap w) :=
  Keeps.bind (putByte_accumulator cap _) fun _ => putByte_accumulator cap _

theorem putBytes_accumulator (cap : Nat) : ∀ bs, Keeps Packer.AccumulatorOk (putBytes cap bs)
  | [] => Keeps.pure ()
  | b :: bs => Keeps.bind (putByte_accumulator cap b) fun _ => putBytes_accumulator cap bs

/-- What `PutShort` leaves in the accumulator is what it found there. -/
theorem putShort_acc_eq {cap : Nat} {w : Half} {k l : Packer} (h : putShort cap w k = (.ok (), l)) :
    l.biBuf = k.biBuf ∧ l.biValid = k.biValid := by
  obtain ⟨_, m, h1, h2⟩ := of_bind_ok h
  rw [(putByte_state h2).2, (putByte_state h1).2]
  exact ⟨rfl, rfl⟩

theorem sendBits_accumulator (cap value length : Nat) : Keeps Packer.AccumulatorOk (sendBits cap value length) := by
  intro k _ l h hk
  unfold sendBits at h
  split at h
  · cases h; exact hk
  · split at h
    · cases h
    · rename_i h0 h1
      rw [not_or, Nat.not_lt, Nat.not_le] at h1
      obtain ⟨hlen, hval⟩ := h1
      rw [get_bind_run] at h
      obtain ⟨hv, hb⟩ := hk
      rw [ite_run] at h
      split at h
      · rename_i hfull
        rw [modify_bind_run] at h
        obtain ⟨_, m, h1, h2⟩ := of_bind_ok h
        obtain ⟨e1, e2⟩ := putShort_acc_eq h1
        rw [modify_run] at h2
        cases h2
        constructor
        · simp; omega
        · have hlt : k.biValid.toNat + length - 16 ≤ 16 := by omega
          have hs : value >>> (16 - k.biValid.toNat) < 2 ^ (k.biValid.toNat + length - 16) := by
            rw [Nat.shiftRight_eq_div_pow, Nat.div_lt_iff_lt_mul (Nat.two_pow_pos _), ← Nat.pow_add]
            have : k.biValid.toNat + length - 16 + (16 - k.biValid.toNat) = length := by omega
            rw [this]; exact hval
          have hm : (k.biValid.toNat + length - 16) % 2 ^ 5 = k.biValid.toNat + length - 16 := by
            apply Nat.mod_eq_of_lt; omega
          simp only [BitVec.toNat_ofNat, hm]
          exact Nat.lt_of_le_of_lt (Nat.mod_le _ _) hs
      · rename_i hfit
        rw [modify_run] at h
        cases h
        have hm : (k.biValid.toNat + length) % 2 ^ 5 = k.biValid.toNat + length := by
          apply Nat.mod_eq_of_lt; omega
        constructor
        · simp only [BitVec.toNat_ofNat, hm]; omega
        · simp only [BitVec.toNat_ofNat, hm, BitVec.toNat_or]
          apply Nat.or_lt_two_pow
          · exact Nat.lt_of_lt_of_le hb (Nat.pow_le_pow_right (by omega) (by omega))
          · apply Nat.lt_of_le_of_lt (Nat.mod_le _ _)
            rw [Nat.shiftLeft_eq, Nat.add_comm, Nat.pow_add]
            exact Nat.mul_lt_mul_of_pos_right hval (Nat.two_pow_pos _)

theorem sendField_accumulator (cap : Nat) (value : Int) (length : Nat) :
    Keeps Packer.AccumulatorOk (sendField cap value length) :=
  Keeps.bind (Keeps.indexOf value) fun v => sendBits_accumulator cap v length

theorem sendCode_accumulator (cap c : Nat) (t : CodeTable) : Keeps Packer.AccumulatorOk (sendCode cap c t) :=
  Keeps.ite Keeps.raiseFatal (sendBits_accumulator cap _ _)

theorem biFlush_accumulator (cap : Nat) : Keeps Packer.AccumulatorOk (biFlush cap) := by
  intro k _ l h hk
  unfold biFlush at h
  rw [get_bind_run] at h
  split at h
  · obtain ⟨_, m, h1, h2⟩ := of_bind_ok h
    rw [modify_run] at h2
    cases h2
    exact ⟨by simp, by simp⟩
  · split at h
    · rename_i h8
      obtain ⟨_, m, h1, h2⟩ := of_bind_ok h
      rw [modify_run] at h2
      cases h2
      rw [(putByte_state h1).2]
      obtain ⟨hv, hb⟩ := hk
      have hsub : (k.biValid - 8#5).toNat = k.biValid.toNat - 8 := by
        rw [BitVec.toNat_sub_of_le (by rw [BitVec.le_def]; simpa using h8)]; rfl
      constructor
      · simp only [hsub]; omega
      · simp only [hsub, BitVec.toNat_ushiftRight]
        rw [Nat.shiftRight_eq_div_pow, Nat.div_lt_iff_lt_mul (Nat.two_pow_pos _), ← Nat.pow_add]
        have : k.biValid.toNat - 8 + 8 = k.biValid.toNat := by omega
        rw [this]; exact hb
    · cases h; exact hk

theorem biWindup_accumulator (cap : Nat) : Keeps Packer.AccumulatorOk (biWindup cap) := by
  intro k _ l h hk
  unfold biWindup at h
  rw [get_bind_run] at h
  obtain ⟨_, m, h1, h2⟩ := of_bind_ok h
  rw [modify_run] at h2
  cases h2
  exact ⟨by simp, by simp⟩

end Sys2Proof.Machine
end

