-- ==== Sys2Proof/Laws/Bits.lean ====
section
/-! SUPPORT. Lists of bits, and the bits that the byte procedures of the bit-packer append (R141, R142). -/

namespace Sys2Proof.Machine

/-! Lists of bits. -/

theorem lowBits_add (v a b : Nat) : lowBits v (a + b) = lowBits v a ++ lowBits (v >>> a) b := by
  unfold lowBits
  rw [List.range_add, List.map_append, List.map_map]
  congr 1
  apply List.map_congr_left
  intro i _
  simp [Nat.testBit_shiftRight]

theorem lowBits_split {v n a : Nat} (b : Nat) (h : n = a + b) : lowBits v n = lowBits v a ++ lowBits (v >>> a) b := by
  rw [h, lowBits_add]

theorem lowBits_congr {v w n : Nat} (h : ∀ i, i < n → v.testBit i = w.testBit i) : lowBits v n = lowBits w n :=
  List.map_congr_left fun i hi => h i (List.mem_range.1 hi)

theorem lowBits_zero (n : Nat) : lowBits 0 n = List.replicate n false := by
  unfold lowBits
  apply List.ext_getElem <;> simp

/-- Above a value's width its bits are zero. -/
theorem lowBits_pad {v n m : Nat} (h : v < 2 ^ n) : lowBits v (n + m) = lowBits v n ++ List.replicate m false := by
  rw [lowBits_add, ← lowBits_zero, Nat.shiftRight_eq_div_pow, Nat.div_eq_of_lt h]

/-- The bits of one byte of a half word. -/
theorem lowBits_extract (w : Half) (at_ : Nat) : lowBits (w.extractLsb' at_ 8).toNat 8 = lowBits (w.toNat >>> at_) 8 := by
  rw [BitVec.extractLsb'_toNat]
  refine lowBits_congr fun i hi => ?_
  rw [Nat.testBit_mod_two_pow]
  simp [hi]

/-- The bits of an accumulator of `h` bits with a value placed above them. -/
theorem testBit_placed {h v buf : Nat} (hb : buf < 2 ^ h) (i : Nat) :
    (buf ||| (v <<< h)).testBit i = if i < h then buf.testBit i else v.testBit (i - h) := by
  rw [Nat.testBit_or, Nat.testBit_shiftLeft]
  by_cases hi : i < h
  · simp [hi]
  · have : buf.testBit i = false :=
      Nat.testBit_lt_two_pow (Nat.lt_of_lt_of_le hb (Nat.pow_le_pow_right (by decide) (by omega)))
    simp [hi, this]
    omega

theorem flatMap_range_congr {α : Type} {n : Nat} {f g : Nat → List α} (h : ∀ i, i < n → f i = g i) :
    (List.range n).flatMap f = (List.range n).flatMap g := by
  induction n with
  | zero => rfl
  | succ n ih =>
    rw [List.range_succ, List.flatMap_append, List.flatMap_append, ih (fun i hi => h i (by omega))]
    simp [h n (by omega)]

/-! The bits in the pending buffer. -/

/-- The bits of the bytes in the pending buffer. -/
def Packer.byteBits (k : Packer) : List Bool :=
  (List.range k.pending.toNat).flatMap fun i => lowBits (k.pendingBuf.get i).toNat 8

theorem Packer.bits_eq (k : Packer) : k.bits = k.byteBits ++ lowBits k.biBuf.toNat k.biValid.toNat := rfl

/-- A byte stored behind the first `n` bytes of a memory. -/
theorem byteBits_set (buf : Ram 8) (n : Nat) (b : Byte) (h : n < 2 ^ ramBits) :
    (List.range (n + 1)).flatMap (fun i => lowBits ((buf.set n b).get i).toNat 8)
      = (List.range n).flatMap (fun i => lowBits (buf.get i).toNat 8) ++ lowBits b.toNat 8 := by
  rw [List.range_succ, List.flatMap_append, List.flatMap_singleton, Ram.get_set_self]
  refine congrArg (fun x => x ++ lowBits b.toNat 8) (flatMap_range_congr fun i hi => ?_)
  rw [Ram.get_set h (by omega), if_neg (by omega)]

/-- `l` is `k` after `n` bytes with the bits `bs` were appended to the pending buffer; what stood there stays. -/
structure Packer.Grew (k l : Packer) (n : Nat) (bs : List Bool) : Prop where
  byteBits : l.byteBits = k.byteBits ++ bs
  pending : l.pending.toNat = k.pending.toNat + n
  biBuf : l.biBuf = k.biBuf
  biValid : l.biValid = k.biValid
  pendingOut : l.pendingOut = k.pendingOut
  below : ∀ i, i < k.pending.toNat → l.pendingBuf.get i = k.pendingBuf.get i

theorem Packer.Grew.trans {k l m : Packer} {a b : Nat} {x y : List Bool} (h : k.Grew l a x) (h' : l.Grew m b y) :
    k.Grew m (a + b) (x ++ y) where
  byteBits := by rw [h'.byteBits, h.byteBits, List.append_assoc]
  pending := by rw [h'.pending, h.pending, Nat.add_assoc]
  biBuf := h'.biBuf.trans h.biBuf
  biValid := h'.biValid.trans h.biValid
  pendingOut := h'.pendingOut.trans h.pendingOut
  below := fun i hi => (h'.below i (by rw [h.pending]; omega)).trans (h.below i hi)

/-- `PutByte` with room: the byte's bits, and nothing else (R141). -/
theorem putByte_grew {cap : Nat} {b : Byte} {k : Packer} (h : k.pending.toNat < cap) (hc : cap ≤ 2 ^ 17) :
    ∃ l, putByte cap b k = (.ok (), l) ∧ k.Grew l 1 (lowBits b.toNat 8) := by
  have e : (k.pending + 1#18).toNat = k.pending.toNat + 1 := by
    rw [BitVec.toNat_add]
    exact Nat.mod_eq_of_lt (by simp only [BitVec.toNat_ofNat]; omega)
  have hr : k.pending.toNat < 2 ^ ramBits := Nat.lt_of_lt_of_le h hc
  refine ⟨{ k with pendingBuf := k.pendingBuf.set k.pending.toNat b, pending := k.pending + 1#18 }, ?_, ?_, e, rfl, rfl, rfl,
    fun i hi => ?_⟩
  · unfold putByte
    rw [Proc.get_bind_run, if_neg (by omega)]
    rfl
  · unfold Packer.byteBits
    rw [e]
    exact byteBits_set _ _ _ hr
  · show (k.pendingBuf.set k.pending.toNat b).get i = _
    rw [Ram.get_set hr (by omega), if_neg (by omega)]

/-- `PutShort` with room: the half word's bits (R142). -/
theorem putShort_grew {cap : Nat} {w : Half} {k : Packer} (h : k.pending.toNat + 2 ≤ cap) (hc : cap ≤ 2 ^ 17) :
    ∃ l, putShort cap w k = (.ok (), l) ∧ k.Grew l 2 (lowBits w.toNat 16) := by
  obtain ⟨l, hl, gl⟩ := putByte_grew (b := w.extractLsb' 0 8) (show k.pending.toNat < cap by omega) hc
  obtain ⟨m, hm, gm⟩ := putByte_grew (b := w.extractLsb' 8 8) (show l.pending.toNat < cap by rw [gl.pending]; omega) hc
  refine ⟨m, by unfold putShort; rw [Proc.bind_run, hl]; exact hm, ?_⟩
  have e : lowBits w.toNat 16 = lowBits (w.extractLsb' 0 8).toNat 8 ++ lowBits (w.extractLsb' 8 8).toNat 8 := by
    rw [lowBits_extract, lowBits_extract]
    exact lowBits_split (n := 16) (a := 8) 8 rfl
  rw [e]
  exact gl.trans gm

end Sys2Proof.Machine
end

