-- ==== Sys2Proof/Laws/Coder.lean ====
section
/-! SUPPORT. Every procedure of the tree builder and of the symbol recorder keeps the coder's memories canonical, whether it
answers or is abandoned. -/

namespace Sys2Proof.Machine

open Proc

/-- From `k` to `l` the canonical form is kept. -/
def Coder.Stays (k l : Coder) : Prop := k.Canonical → l.Canonical

theorem Coder.Stays.refl (k : Coder) : k.Stays k := id

theorem Coder.Stays.trans (k l m : Coder) (h : k.Stays l) (h' : l.Stays m) : k.Stays m := fun hc => h' (h hc)

/-- A change that leaves the nine memories alone keeps their form. -/
theorem Coder.stays_of_mem {k l : Coder} (h : (l.dBuf, l.lBuf, l.dynL, l.dynD, l.bl) = (k.dBuf, k.lBuf, k.dynL, k.dynD, k.bl))
    (h' : (l.heap, l.depth, l.blCount, l.nextCode) = (k.heap, k.depth, k.blCount, k.nextCode)) : k.Stays l := by
  simp only [Prod.mk.injEq] at h h'
  intro hc
  obtain ⟨a1, a2, a3, a4, a5⟩ := h
  obtain ⟨b1, b2, b3, b4⟩ := h'
  constructor
  · rw [a1]; exact hc.dBuf
  · rw [a2]; exact hc.lBuf
  · rw [a3]; exact hc.dynL
  · rw [a4]; exact hc.dynD
  · rw [a5]; exact hc.bl
  · rw [b1]; exact hc.heap
  · rw [b2]; exact hc.depth
  · rw [b3]; exact hc.blCount
  · rw [b4]; exact hc.nextCode

theorem Coder.Canonical.tree {k : Coder} (h : k.Canonical) (t : TreeId) : (k.tree t).Canonical := by
  cases t
  · exact h.dynL
  · exact h.dynD
  · exact h.bl

theorem Coder.Canonical.setTree {k : Coder} (h : k.Canonical) (t : TreeId) {x : Tree} (hx : x.Canonical) :
    (k.setTree t x).Canonical := by
  cases t
  · exact ⟨h.dBuf, h.lBuf, hx, h.dynD, h.bl, h.heap, h.depth, h.blCount, h.nextCode⟩
  · exact ⟨h.dBuf, h.lBuf, h.dynL, hx, h.bl, h.heap, h.depth, h.blCount, h.nextCode⟩
  · exact ⟨h.dBuf, h.lBuf, h.dynL, h.dynD, hx, h.heap, h.depth, h.blCount, h.nextCode⟩

theorem Coder.setMaxCode_stays (k : Coder) (t : TreeId) (v : Int) : k.Stays (k.setMaxCode t v) := by
  cases t <;> exact Coder.stays_of_mem rfl rfl

/-- After a bounds-checked store the memory stored back is canonical. -/
theorem stored_bind_stays {w : Nat} {size : Nat} {m : Ram w} {i : Nat} {v : BitVec w} {f : Ram w → Proc Coder Unit} {k : Coder}
    (h : k.Stays (f (m.set i v) k).2) : k.Stays ((stored size m i v >>= f) k).2 := by
  rw [bind_run, stored_run]
  by_cases hi : i < size
  · rw [if_pos hi]; exact h
  · rw [if_neg hi]; exact Coder.Stays.refl k

/-! Table accesses. -/

theorem getFreq_stays (t : TreeId) (n : Nat) : Rel Coder.Stays (getFreq t n) :=
  Rel.bind Coder.Stays.trans (Rel.get Coder.Stays.refl) fun _ =>
    Rel.bind Coder.Stays.trans (Rel.load Coder.Stays.refl _ _ _) fun _ => Rel.pure Coder.Stays.refl _

theorem getLen_stays (t : TreeId) (n : Nat) : Rel Coder.Stays (getLen t n) :=
  Rel.bind Coder.Stays.trans (Rel.get Coder.Stays.refl) fun _ =>
    Rel.bind Coder.Stays.trans (Rel.load Coder.Stays.refl _ _ _) fun _ => Rel.pure Coder.Stays.refl _

theorem getDad_stays (t : TreeId) (n : Nat) : Rel Coder.Stays (getDad t n) :=
  Rel.bind Coder.Stays.trans (Rel.get Coder.Stays.refl) fun _ =>
    Rel.bind Coder.Stays.trans (Rel.load Coder.Stays.refl _ _ _) fun _ => Rel.pure Coder.Stays.refl _

theorem getHeap_stays (i : Nat) : Rel Coder.Stays (getHeap i) :=
  Rel.bind Coder.Stays.trans (Rel.get Coder.Stays.refl) fun _ =>
    Rel.bind Coder.Stays.trans (Rel.load Coder.Stays.refl _ _ _) fun _ => Rel.pure Coder.Stays.refl _

theorem getDepth_stays (n : Nat) : Rel Coder.Stays (getDepth n) :=
  Rel.bind Coder.Stays.trans (Rel.get Coder.Stays.refl) fun _ =>
    Rel.bind Coder.Stays.trans (Rel.load Coder.Stays.refl _ _ _) fun _ => Rel.pure Coder.Stays.refl _

theorem getBlCount_stays (b : Nat) : Rel Coder.Stays (getBlCount b) :=
  Rel.bind Coder.Stays.trans (Rel.get Coder.Stays.refl) fun _ =>
    Rel.bind Coder.Stays.trans (Rel.load Coder.Stays.refl _ _ _) fun _ => Rel.pure Coder.Stays.refl _

theorem getNextCode_stays (b : Nat) : Rel Coder.Stays (getNextCode b) :=
  Rel.bind Coder.Stays.trans (Rel.get Coder.Stays.refl) fun _ =>
    Rel.bind Coder.Stays.trans (Rel.load Coder.Stays.refl _ _ _) fun _ => Rel.pure Coder.Stays.refl _

theorem setFreq_stays (t : TreeId) (n v : Nat) : Rel Coder.Stays (setFreq t n v) :=
  Rel.get_bind fun _ => stored_bind_stays fun hc =>
    hc.setTree t ⟨Ram.wf_set (hc.tree t).1 _ _, (hc.tree t).2.1, (hc.tree t).2.2.1, (hc.tree t).2.2.2⟩

theorem setCode_stays (t : TreeId) (n v : Nat) : Rel Coder.Stays (setCode t n v) :=
  Rel.get_bind fun _ => stored_bind_stays fun hc =>
    hc.setTree t ⟨(hc.tree t).1, Ram.wf_set (hc.tree t).2.1 _ _, (hc.tree t).2.2.1, (hc.tree t).2.2.2⟩

theorem setLen_stays (t : TreeId) (n v : Nat) : Rel Coder.Stays (setLen t n v) :=
  Rel.get_bind fun _ => stored_bind_stays fun hc =>
    hc.setTree t ⟨(hc.tree t).1, (hc.tree t).2.1, Ram.wf_set (hc.tree t).2.2.1 _ _, (hc.tree t).2.2.2⟩

theorem setDad_stays (t : TreeId) (n v : Nat) : Rel Coder.Stays (setDad t n v) :=
  Rel.get_bind fun _ => stored_bind_stays fun hc =>
    hc.setTree t ⟨(hc.tree t).1, (hc.tree t).2.1, (hc.tree t).2.2.1, Ram.wf_set (hc.tree t).2.2.2 _ _⟩

theorem setHeap_stays (i v : Nat) : Rel Coder.Stays (setHeap i v) :=
  Rel.get_bind fun _ => stored_bind_stays fun hc => { hc with heap := Ram.wf_set hc.heap _ _ }

theorem setDepth_stays (n v : Nat) : Rel Coder.Stays (setDepth n v) :=
  Rel.get_bind fun _ => stored_bind_stays fun hc => { hc with depth := Ram.wf_set hc.depth _ _ }

theorem setBlCount_stays (b v : Nat) : Rel Coder.Stays (setBlCount b v) :=
  Rel.get_bind fun _ => stored_bind_stays fun hc => { hc with blCount := Ram.wf_set hc.blCount _ _ }

theorem setNextCode_stays (b v : Nat) : Rel Coder.Stays (setNextCode b v) :=
  Rel.get_bind fun _ => stored_bind_stays fun hc => { hc with nextCode := Ram.wf_set hc.nextCode _ _ }

theorem bumpFreq_stays (t : TreeId) (n : Nat) : Rel Coder.Stays (bumpFreq t n) :=
  Rel.bind Coder.Stays.trans (getFreq_stays t n) fun _ => setFreq_stays t n _

theorem addOptLen_stays (d : Int) : Rel Coder.Stays (addOptLen d) := Rel.modify fun _ => Coder.stays_of_mem rfl rfl

theorem addStaticLen_stays (d : Int) : Rel Coder.Stays (addStaticLen d) := Rel.modify fun _ => Coder.stays_of_mem rfl rfl

theorem addStaticIf_stays (c : Prop) [Decidable c] (d : Int) : Rel Coder.Stays (onlyIf c (addStaticLen d)) :=
  Rel.onlyIf Coder.Stays.refl fun _ => addStaticLen_stays d

theorem Coder.initBlock_stays (k : Coder) : k.Stays k.initBlock := fun hc =>
  { hc with
    dynL := ⟨Ram.wf_set (Ram.wf_clearBelow hc.dynL.1 lCodes) endBlock 1#16, hc.dynL.2⟩
    dynD := ⟨Ram.wf_clearBelow hc.dynD.1 dCodes, hc.dynD.2⟩
    bl := ⟨Ram.wf_clearBelow hc.bl.1 blCodes, hc.bl.2⟩ }

/-! Tree construction. -/

theorem smaller_stays (t : TreeId) (n m : Nat) : Rel Coder.Stays (smaller t n m) :=
  Rel.bind Coder.Stays.trans (getFreq_stays t n) fun _ => Rel.bind Coder.Stays.trans (getFreq_stays t m) fun _ =>
    Rel.bind Coder.Stays.trans (getDepth_stays n) fun _ => Rel.bind Coder.Stays.trans (getDepth_stays m) fun _ =>
      Rel.pure Coder.Stays.refl _

theorem smallerChild_stays (t : TreeId) (h j : Nat) : Rel Coder.Stays (smallerChild t h j) :=
  Rel.bind Coder.Stays.trans (getHeap_stays j) fun _ => Rel.ite
    (Rel.bind Coder.Stays.trans (getHeap_stays _) fun _ => Rel.bind Coder.Stays.trans (smaller_stays t _ _) fun _ =>
      Rel.pure Coder.Stays.refl _)
    (Rel.pure Coder.Stays.refl _)

theorem siftDown_stays (t : TreeId) (v : Nat) : ∀ fuel k j, Rel Coder.Stays (siftDown t v fuel k j)
  | 0, k, _ => setHeap_stays k v
  | fuel + 1, k, j =>
    Rel.bind Coder.Stays.trans (Rel.get Coder.Stays.refl) fun _ => Rel.ite
      (Rel.bind Coder.Stays.trans (smallerChild_stays t _ j) fun _ =>
        Rel.bind Coder.Stays.trans (getHeap_stays _) fun _ =>
          Rel.bind Coder.Stays.trans (smaller_stays t v _) fun _ => Rel.ite (setHeap_stays k v)
            (Rel.bind Coder.Stays.trans (setHeap_stays k _) fun _ => siftDown_stays t v fuel _ _))
      (setHeap_stays k v)

theorem pqDownHeap_stays (t : TreeId) (k : Nat) : Rel Coder.Stays (pqDownHeap t k) :=
  Rel.bind Coder.Stays.trans (getHeap_stays k) fun _ => siftDown_stays t _ 11 k _

theorem pushHeap_stays (n : Nat) : Rel Coder.Stays (pushHeap n) :=
  Rel.bind Coder.Stays.trans (Rel.modify fun _ => Coder.stays_of_mem rfl rfl) fun _ =>
    Rel.bind Coder.Stays.trans (Rel.get Coder.Stays.refl) fun _ => setHeap_stays _ n

theorem placeSorted_stays (n : Nat) : Rel Coder.Stays (placeSorted n) :=
  Rel.bind Coder.Stays.trans (Rel.modify fun _ => Coder.stays_of_mem rfl rfl) fun _ =>
    Rel.bind Coder.Stays.trans (Rel.get Coder.Stays.refl) fun _ => setHeap_stays _ n

theorem collectSymbols_stays (t : TreeId) : ∀ r n maxCode, Rel Coder.Stays (collectSymbols t r n maxCode)
  | 0, _, _ => Rel.pure Coder.Stays.refl _
  | r + 1, n, maxCode =>
    Rel.bind Coder.Stays.trans (getFreq_stays t n) fun _ => Rel.ite
      (Rel.bind Coder.Stays.trans (pushHeap_stays n) fun _ => Rel.bind Coder.Stays.trans (setDepth_stays n 0) fun _ =>
        collectSymbols_stays t r (n + 1) _)
      (Rel.bind Coder.Stays.trans (setLen_stays t n 0) fun _ => collectSymbols_stays t r (n + 1) maxCode)

theorem padSymbols_stays (t : TreeId) : ∀ fuel maxCode, Rel Coder.Stays (padSymbols t fuel maxCode)
  | 0, _ => Rel.pure Coder.Stays.refl _
  | fuel + 1, _ =>
    Rel.bind Coder.Stays.trans (Rel.get Coder.Stays.refl) fun _ => Rel.ite
      (Rel.bind Coder.Stays.trans (pushHeap_stays _) fun _ => Rel.bind Coder.Stays.trans (setFreq_stays t _ 1) fun _ =>
        Rel.bind Coder.Stays.trans (setDepth_stays _ 0) fun _ => Rel.bind Coder.Stays.trans (addOptLen_stays _) fun _ =>
          Rel.bind Coder.Stays.trans (addStaticIf_stays _ _) fun _ => padSymbols_stays t fuel _)
      (Rel.pure Coder.Stays.refl _)

theorem combineNodes_stays (t : TreeId) : ∀ fuel node, Rel Coder.Stays (combineNodes t fuel node)
  | 0, _ => Rel.pure Coder.Stays.refl _
  | fuel + 1, node =>
    Rel.bind Coder.Stays.trans (getHeap_stays 1) fun n => Rel.bind Coder.Stays.trans (Rel.get Coder.Stays.refl) fun _ =>
    Rel.bind Coder.Stays.trans (getHeap_stays _) fun _ => Rel.bind Coder.Stays.trans (setHeap_stays 1 _) fun _ =>
    Rel.bind Coder.Stays.trans (Rel.modify fun _ => Coder.stays_of_mem rfl rfl) fun _ =>
    Rel.bind Coder.Stays.trans (pqDownHeap_stays t 1) fun _ => Rel.bind Coder.Stays.trans (getHeap_stays 1) fun m =>
    Rel.bind Coder.Stays.trans (placeSorted_stays n) fun _ => Rel.bind Coder.Stays.trans (placeSorted_stays m) fun _ =>
    Rel.bind Coder.Stays.trans (getFreq_stays t n) fun _ => Rel.bind Coder.Stays.trans (getFreq_stays t m) fun _ =>
    Rel.bind Coder.Stays.trans (setFreq_stays t node _) fun _ => Rel.bind Coder.Stays.trans (getDepth_stays n) fun _ =>
    Rel.bind Coder.Stays.trans (getDepth_stays m) fun _ => Rel.bind Coder.Stays.trans (setDepth_stays node _) fun _ =>
    Rel.bind Coder.Stays.trans (setDad_stays t n node) fun _ => Rel.bind Coder.Stays.trans (setDad_stays t m node) fun _ =>
    Rel.bind Coder.Stays.trans (setHeap_stays 1 node) fun _ => Rel.bind Coder.Stays.trans (pqDownHeap_stays t 1) fun _ =>
    Rel.bind Coder.Stays.trans (Rel.get Coder.Stays.refl) fun _ =>
      Rel.ite (Rel.pure Coder.Stays.refl _) (combineNodes_stays t fuel (node + 1))

/-! Code lengths and codes. -/

theorem assignDepths_stays (t : TreeId) (maxCode : Int) : ∀ r h overflow, Rel Coder.Stays (assignDepths t maxCode r h overflow)
  | 0, _, _ => Rel.pure Coder.Stays.refl _
  | r + 1, h, _ =>
    Rel.bind Coder.Stays.trans (getHeap_stays h) fun n => Rel.bind Coder.Stays.trans (getDad_stays t n) fun _ =>
    Rel.bind Coder.Stays.trans (getLen_stays t _) fun _ => Rel.bind Coder.Stays.trans (setLen_stays t n _) fun _ =>
      Rel.ite (assignDepths_stays t maxCode r (h + 1) _)
        (Rel.bind Coder.Stays.trans (getBlCount_stays _) fun _ => Rel.bind Coder.Stays.trans (setBlCount_stays _ _) fun _ =>
          Rel.bind Coder.Stays.trans (getFreq_stays t n) fun _ => Rel.bind Coder.Stays.trans (addOptLen_stays _) fun _ =>
          Rel.bind Coder.Stays.trans (addStaticIf_stays _ _) fun _ => assignDepths_stays t maxCode r (h + 1) _)

theorem findBucket_stays : ∀ b, Rel Coder.Stays (findBucket b)
  | 0 => Rel.raiseFatal Coder.Stays.refl
  | b + 1 => Rel.bind Coder.Stays.trans (getBlCount_stays _) fun _ =>
      Rel.ite (Rel.pure Coder.Stays.refl _) (findBucket_stays b)

theorem fixOverflow_stays (t : TreeId) : ∀ fuel overflow, Rel Coder.Stays (fixOverflow t fuel overflow)
  | 0, _ => Rel.pure Coder.Stays.refl _
  | fuel + 1, overflow =>
    Rel.bind Coder.Stays.trans (findBucket_stays _) fun _ => Rel.bind Coder.Stays.trans (getBlCount_stays _) fun _ =>
    Rel.bind Coder.Stays.trans (setBlCount_stays _ _) fun _ => Rel.bind Coder.Stays.trans (getBlCount_stays _) fun _ =>
    Rel.bind Coder.Stays.trans (setBlCount_stays _ _) fun _ => Rel.bind Coder.Stays.trans (getBlCount_stays _) fun _ =>
    Rel.bind Coder.Stays.trans (setBlCount_stays _ _) fun _ =>
      Rel.ite (Rel.pure Coder.Stays.refl _) (fixOverflow_stays t fuel (overflow - 2))

theorem relengthen_stays (t : TreeId) (maxCode : Int) (bits : Nat) : ∀ h n, Rel Coder.Stays (relengthen t maxCode bits h n)
  | 0, _ => Rel.ite (Rel.pure Coder.Stays.refl _) (Rel.raiseFatal Coder.Stays.refl)
  | h + 1, n => Rel.ite (Rel.pure Coder.Stays.refl _)
      (Rel.bind Coder.Stays.trans (getHeap_stays h) fun m => Rel.ite (relengthen_stays t maxCode bits h n)
        (Rel.bind Coder.Stays.trans (getLen_stays t m) fun _ =>
          Rel.bind Coder.Stays.trans (Rel.onlyIf Coder.Stays.refl fun _ =>
            Rel.bind Coder.Stays.trans (getFreq_stays t m) fun _ => Rel.bind Coder.Stays.trans (addOptLen_stays _) fun _ =>
              setLen_stays t m bits) fun _ => relengthen_stays t maxCode bits h (n - 1)))

theorem reassignLengths_stays (t : TreeId) (maxCode : Int) : ∀ b h, Rel Coder.Stays (reassignLengths t maxCode b h)
  | 0, _ => Rel.pure Coder.Stays.refl _
  | b + 1, h => Rel.bind Coder.Stays.trans (getBlCount_stays _) fun _ =>
      Rel.bind Coder.Stays.trans (relengthen_stays t maxCode _ h _) fun _ => reassignLengths_stays t maxCode b _

theorem genBitLen_stays (t : TreeId) : Rel Coder.Stays (genBitLen t) :=
  Rel.bind Coder.Stays.trans (Rel.forCount Coder.Stays.refl Coder.Stays.trans (fun b => setBlCount_stays b 0) 16 0) fun _ =>
    Rel.bind Coder.Stays.trans (Rel.get Coder.Stays.refl) fun _ => Rel.bind Coder.Stays.trans (getHeap_stays _) fun _ =>
    Rel.bind Coder.Stays.trans (setLen_stays t _ 0) fun _ =>
    Rel.bind Coder.Stays.trans (assignDepths_stays t _ _ _ _) fun _ => Rel.ite (Rel.pure Coder.Stays.refl _)
      (Rel.bind Coder.Stays.trans (fixOverflow_stays t _ _) fun _ => reassignLengths_stays t _ _ _)

theorem startCodes_stays : ∀ r bits code, Rel Coder.Stays (startCodes r bits code)
  | 0, _, _ => Rel.pure Coder.Stays.refl _
  | r + 1, bits, _ => Rel.bind Coder.Stays.trans (getBlCount_stays _) fun _ =>
      Rel.bind Coder.Stays.trans (setNextCode_stays bits _) fun _ => startCodes_stays r (bits + 1) _

theorem assignCode_stays (t : TreeId) (n : Nat) : Rel Coder.Stays (assignCode t n) :=
  Rel.bind Coder.Stays.trans (getLen_stays t n) fun _ => Rel.ite (Rel.pure Coder.Stays.refl _)
    (Rel.bind Coder.Stays.trans (getNextCode_stays _) fun _ => Rel.bind Coder.Stays.trans (setCode_stays t n _) fun _ =>
      setNextCode_stays _ _)

theorem genCodes_stays (t : TreeId) : Rel Coder.Stays (genCodes t) :=
  Rel.bind Coder.Stays.trans (startCodes_stays _ _ _) fun _ => Rel.bind Coder.Stays.trans (Rel.get Coder.Stays.refl) fun _ =>
    Rel.forCount Coder.Stays.refl Coder.Stays.trans (assignCode_stays t) _ _

theorem buildTree_stays (t : TreeId) : Rel Coder.Stays (buildTree t) :=
  Rel.bind Coder.Stays.trans (Rel.modify fun _ => Coder.stays_of_mem rfl rfl) fun _ =>
  Rel.bind Coder.Stays.trans (collectSymbols_stays t _ _ _) fun _ => Rel.bind Coder.Stays.trans (padSymbols_stays t _ _) fun _ =>
  Rel.bind Coder.Stays.trans (Rel.modify fun k => Coder.setMaxCode_stays k t _) fun _ =>
  Rel.bind Coder.Stays.trans (Rel.get Coder.Stays.refl) fun _ =>
  Rel.bind Coder.Stays.trans (Rel.forDown Coder.Stays.refl Coder.Stays.trans (pqDownHeap_stays t) _) fun _ =>
  Rel.bind Coder.Stays.trans (combineNodes_stays t _ _) fun _ => Rel.bind Coder.Stays.trans (getHeap_stays 1) fun _ =>
  Rel.bind Coder.Stays.trans (placeSorted_stays _) fun _ => Rel.bind Coder.Stays.trans (genBitLen_stays t) fun _ =>
    genCodes_stays t

theorem countItems_stays : ∀ xs, Rel Coder.Stays (countItems xs)
  | [] => Rel.pure Coder.Stays.refl _
  | x :: xs => Rel.bind Coder.Stays.trans (bumpFreq_stays .bl x.sym) fun _ => countItems_stays xs

theorem scanTree_stays (t : TreeId) (maxCode : Int) : Rel Coder.Stays (scanTree t maxCode) :=
  Rel.bind Coder.Stays.trans (Rel.indexOf Coder.Stays.refl maxCode) fun _ =>
    Rel.bind Coder.Stays.trans (Rel.get Coder.Stays.refl) fun _ =>
    Rel.bind Coder.Stays.trans (Rel.require Coder.Stays.refl _) fun _ => countItems_stays _

theorem buildBlTree_stays : Rel Coder.Stays buildBlTree :=
  Rel.bind Coder.Stays.trans (Rel.get Coder.Stays.refl) fun _ =>
  Rel.bind Coder.Stays.trans (scanTree_stays _ _) fun _ => Rel.bind Coder.Stays.trans (scanTree_stays _ _) fun _ =>
  Rel.bind Coder.Stays.trans (buildTree_stays _) fun _ => Rel.bind Coder.Stays.trans (Rel.get Coder.Stays.refl) fun _ =>
  Rel.bind Coder.Stays.trans (addOptLen_stays _) fun _ => Rel.pure Coder.Stays.refl _

end Sys2Proof.Machine
end

