-- ==== Sys2Proof/Laws/HostMem.lean ====
section
/-! SUPPORT. Host memory: a read after a write, and the canonical form. -/

namespace Sys2Proof.Machine.Memory

/-- A read at the address just written gives the value written. -/
@[simp] theorem get_put_self (m : Memory) (x : Nat) (v : Byte) : (m.put x v).get x = some v := by
  induction m with
  | nil => simp [put, get]
  | cons c m ih =>
    obtain ⟨a, b⟩ := c
    unfold put
    split
    · simp [get]
    · split
      · simp [get, *]
      · simp [get, *]

/-- A write leaves every other address alone. -/
theorem get_put_of_ne {x y : Nat} (h : y ≠ x) (m : Memory) (v : Byte) : (m.put x v).get y = m.get y := by
  induction m with
  | nil => simp [put, get, h]
  | cons c m ih =>
    obtain ⟨a, b⟩ := c
    unfold put
    split
    · simp [get, h]
    · split
      · subst x; simp [get, h]
      · simp [get, ih]

theorem get_put (m : Memory) (x y : Nat) (v : Byte) : (m.put x v).get y = if y = x then some v else m.get y := by
  split
  · subst y; exact get_put_self m x v
  · exact get_put_of_ne ‹_› m v

theorem risingFrom_mono {lo lo' : Nat} (h : lo' ≤ lo) {m : Memory} (hm : risingFrom lo m = true) :
    risingFrom lo' m = true := by
  cases m with
  | nil => rfl
  | cons c m =>
    obtain ⟨a, b⟩ := c
    simp only [risingFrom, Bool.and_eq_true, decide_eq_true_eq] at hm ⊢
    exact ⟨⟨by omega, hm.1.2⟩, hm.2⟩

theorem risingFrom_put {x : Nat} (hx : x < 2 ^ 32) (v : Byte) {m : Memory} {lo : Nat} (hlo : lo ≤ x)
    (hm : risingFrom lo m = true) : risingFrom lo (m.put x v) = true := by
  induction m generalizing lo with
  | nil => simp [put, risingFrom, hlo]; omega
  | cons c m ih =>
    obtain ⟨a, b⟩ := c
    simp only [risingFrom, Bool.and_eq_true, decide_eq_true_eq] at hm
    unfold put
    split
    · simp only [risingFrom, Bool.and_eq_true, decide_eq_true_eq]
      exact ⟨⟨hlo, hx⟩, ⟨by omega, hm.1.2⟩, hm.2⟩
    · split
      · subst x
        simp only [risingFrom, Bool.and_eq_true, decide_eq_true_eq]
        exact ⟨⟨hlo, hx⟩, hm.2⟩
      · simp only [risingFrom, Bool.and_eq_true, decide_eq_true_eq]
        exact ⟨hm.1, ih (by omega) hm.2⟩

/-- Storing a byte at a 32-bit address keeps the canonical form. -/
theorem wf_put {m : Memory} (hm : m.wf = true) (a : Word) (v : Byte) : (m.put a.toNat v).wf = true :=
  risingFrom_put a.isLt v (Nat.zero_le _) hm

theorem get_eq_none_of_lt {m : Memory} {lo x : Nat} (hm : risingFrom lo m = true) (h : x < lo) : m.get x = none := by
  induction m generalizing lo with
  | nil => rfl
  | cons c m ih =>
    obtain ⟨a, b⟩ := c
    simp only [risingFrom, Bool.and_eq_true, decide_eq_true_eq] at hm
    have hne : x ≠ a := by omega
    simp only [get, hne, if_false]
    exact ih hm.2 (by omega)

theorem ext_of_risingFrom {m n : Memory} {lo : Nat} (hm : risingFrom lo m = true) (hn : risingFrom lo n = true)
    (h : ∀ x, m.get x = n.get x) : m = n := by
  induction m generalizing n lo with
  | nil =>
    cases n with
    | nil => rfl
    | cons d n => have := h d.1; simp [get] at this
  | cons c m ih =>
    obtain ⟨a, b⟩ := c
    simp only [risingFrom, Bool.and_eq_true, decide_eq_true_eq] at hm
    cases n with
    | nil => have := h a; simp [get] at this
    | cons d n =>
      obtain ⟨a', b'⟩ := d
      simp only [risingFrom, Bool.and_eq_true, decide_eq_true_eq] at hn
      have haa : a = a' := by
        rcases Nat.lt_trichotomy a a' with hlt | heq | hgt
        · have := h a
          have hne : a ≠ a' := by omega
          simp only [get, if_true, hne, if_false, get_eq_none_of_lt hn.2 (show a < a' + 1 by omega)] at this
          exact absurd this (by simp)
        · exact heq
        · have := h a'
          have hne : a' ≠ a := by omega
          simp only [get, if_true, hne, if_false, get_eq_none_of_lt hm.2 (show a' < a + 1 by omega)] at this
          exact absurd this.symm (by simp)
      subst haa
      have hb : b = b' := by have := h a; simpa [get] using this
      subst hb
      congr 1
      apply ih hm.2 hn.2
      intro x
      have hx := h x
      by_cases hxa : x = a
      · subst x
        rw [get_eq_none_of_lt hm.2 (Nat.lt_succ_self a), get_eq_none_of_lt hn.2 (Nat.lt_succ_self a)]
      · simpa [get, hxa] using hx

/-- Equal memories are equal data: two canonical memories that read alike are the same list. -/
theorem ext_of_wf {m n : Memory} (hm : m.wf = true) (hn : n.wf = true) (h : ∀ x, m.get x = n.get x) : m = n :=
  ext_of_risingFrom hm hn h

end Sys2Proof.Machine.Memory
end

