-- ==== Sys2Proof/Laws/Matcher.lean ====
section
/-! SUPPORT. Every procedure over the match finder keeps its memories canonical, whether it answers or is abandoned, and the
searching ones change nothing but `matchStart`. -/

namespace Sys2Proof.Machine

open Proc

/-- From `m` to `l` the canonical form is kept. -/
def Matcher.Stays (m l : Matcher) : Prop := m.Canonical → l.Canonical

theorem Matcher.Stays.refl (m : Matcher) : m.Stays m := id

theorem Matcher.Stays.trans (k l m : Matcher) (h : k.Stays l) (h' : l.Stays m) : k.Stays m := fun hc => h' (h hc)

theorem getWindow_stays (c : Conf) (i : Nat) : Rel Matcher.Stays (getWindow c i) :=
  Rel.bind Matcher.Stays.trans (Rel.get Matcher.Stays.refl) fun _ => Rel.load Matcher.Stays.refl _ _ _

theorem updateHash_stays (c : Conf) (b : Byte) : Rel Matcher.Stays (updateHash c b) := Rel.modify fun _ => id

/-- `InsertString` from its byte on, in a state that is at hand. -/
theorem insertString_stays (c : Conf) (pos : Nat) : Rel Matcher.Stays (insertString c pos) := by
  refine Rel.bind Matcher.Stays.trans (getWindow_stays c _) fun b => ?_
  refine Rel.bind Matcher.Stays.trans (updateHash_stays c b) fun _ => ?_
  refine Rel.get_bind fun m => ?_
  rw [bind_run, load_run]
  by_cases h1 : m.insH.toNat < c.hashSize
  · rw [if_pos h1]
    dsimp only
    rw [bind_run, stored_run]
    by_cases h2 : pos &&& c.windowMask < c.windowSize
    · rw [if_pos h2]
      dsimp only
      rw [bind_run, stored_run, if_pos h1]
      exact fun hc => ⟨hc.1, Ram.wf_set hc.2.1 _ _, Ram.wf_set hc.2.2 _ _⟩
    · rw [if_neg h2]; exact Matcher.Stays.refl m
  · rw [if_neg h1]; exact Matcher.Stays.refl m

theorem clearHash_stays (c : Conf) : Rel Matcher.Stays (clearHash c) :=
  Rel.modify fun _ hc => ⟨hc.1, Ram.wf_clearBelow hc.2.1 _, hc.2.2⟩

theorem Matcher.slide_stays (c : Conf) (m : Matcher) : m.Stays (m.slide c) := fun hc =>
  ⟨Ram.wf_copyFrom _ _ _ hc.1, Ram.wf_mapBelow hc.2.1 _ _, Ram.wf_mapBelow hc.2.2 _ _⟩

theorem seedHash_stays (c : Conf) (pos : Nat) : Rel Matcher.Stays (seedHash c pos) :=
  Rel.bind Matcher.Stays.trans (getWindow_stays c _) fun _ => Rel.bind Matcher.Stays.trans (Rel.modify fun _ => id) fun _ =>
    Rel.bind Matcher.Stays.trans (getWindow_stays c _) fun _ => updateHash_stays c _

/-! The search: nothing but `matchStart` changes. -/

/-- From `m` to `l` nothing but `matchStart` changed. -/
def Matcher.OnlyMatchStart (m l : Matcher) : Prop := l = { m with matchStart := l.matchStart }

theorem Matcher.OnlyMatchStart.refl (m : Matcher) : m.OnlyMatchStart m := rfl

theorem Matcher.OnlyMatchStart.trans (k l m : Matcher) (h : k.OnlyMatchStart l) (h' : l.OnlyMatchStart m) :
    k.OnlyMatchStart m := by
  unfold Matcher.OnlyMatchStart at *
  rw [h'] ; rw [h]

theorem Matcher.OnlyMatchStart.stays {m l : Matcher} (h : m.OnlyMatchStart l) : m.Stays l := by
  intro hc
  unfold Matcher.OnlyMatchStart at h
  rw [h]
  exact hc

theorem getWindow_search (c : Conf) (i : Nat) : Rel Matcher.OnlyMatchStart (getWindow c i) :=
  Rel.bind Matcher.OnlyMatchStart.trans (Rel.get Matcher.OnlyMatchStart.refl) fun _ => Rel.load Matcher.OnlyMatchStart.refl _ _ _

theorem matchRun_search (c : Conf) (a b : Nat) : ∀ k len, Rel Matcher.OnlyMatchStart (matchRun c a b k len)
  | 0, _ => Rel.pure Matcher.OnlyMatchStart.refl _
  | k + 1, len =>
    Rel.bind Matcher.OnlyMatchStart.trans (getWindow_search c _) fun _ =>
      Rel.bind Matcher.OnlyMatchStart.trans (getWindow_search c _) fun _ =>
        Rel.ite (matchRun_search c a b k (len + 1)) (Rel.pure Matcher.OnlyMatchStart.refl _)

theorem walkChain_search (c : Conf) (limit nice maxLen : Nat) :
    ∀ budget curMatch bestLen, Rel Matcher.OnlyMatchStart (walkChain c limit nice maxLen budget curMatch bestLen)
  | 0, _, _ => Rel.pure Matcher.OnlyMatchStart.refl _
  | budget + 1, _, _ =>
    Rel.bind Matcher.OnlyMatchStart.trans (Rel.get Matcher.OnlyMatchStart.refl) fun _ =>
    Rel.bind Matcher.OnlyMatchStart.trans (Rel.require Matcher.OnlyMatchStart.refl _) fun _ =>
    Rel.bind Matcher.OnlyMatchStart.trans (matchRun_search c _ _ _ _) fun _ =>
    Rel.bind Matcher.OnlyMatchStart.trans (Rel.onlyIf Matcher.OnlyMatchStart.refl fun _ => Rel.modify fun _ => rfl) fun _ =>
      Rel.ite (Rel.pure Matcher.OnlyMatchStart.refl _)
        (Rel.bind Matcher.OnlyMatchStart.trans (Rel.load Matcher.OnlyMatchStart.refl _ _ _) fun _ =>
          Rel.ite (Rel.pure Matcher.OnlyMatchStart.refl _) (Rel.ite (Rel.pure Matcher.OnlyMatchStart.refl _)
            (walkChain_search c limit nice maxLen budget _ _)))

theorem longestMatch_search (c : Conf) (curMatch : Nat) : Rel Matcher.OnlyMatchStart (longestMatch c curMatch) :=
  Rel.bind Matcher.OnlyMatchStart.trans (Rel.get Matcher.OnlyMatchStart.refl) fun _ =>
    Rel.bind Matcher.OnlyMatchStart.trans (walkChain_search c _ _ _ _ _ _) fun _ => Rel.pure Matcher.OnlyMatchStart.refl _

theorem longestMatch_stays (c : Conf) (curMatch : Nat) : Rel Matcher.Stays (longestMatch c curMatch) :=
  fun m => (longestMatch_search c curMatch m).stays

/-- The search and the length it leaves in `matchLength`. -/
theorem searchInto_stays (c : Conf) (h : Nat) :
    Rel Matcher.Stays (longestMatch c h >>= fun len => (modify fun m => { m with matchLength := BitVec.ofNat 9 len } : Proc Matcher Unit)) :=
  Rel.bind Matcher.Stays.trans (longestMatch_stays c h) fun _ => Rel.modify fun _ => id

/-! The two matching strategies' work on the match finder. -/

theorem enterString_stays (c : Conf) : Rel Matcher.Stays (enterString c) :=
  Rel.bind Matcher.Stays.trans (Rel.get Matcher.Stays.refl) fun _ =>
    Rel.ite (insertString_stays c _) (Rel.pure Matcher.Stays.refl _)

theorem advance_stays : Rel Matcher.Stays advance := Rel.modify fun _ => id

theorem insertInterior_stays (c : Conf) : ∀ r, Rel Matcher.Stays (insertInterior c r)
  | 0 => Rel.pure Matcher.Stays.refl _
  | r + 1 =>
    Rel.bind Matcher.Stays.trans advance_stays fun _ => Rel.bind Matcher.Stays.trans (Rel.get Matcher.Stays.refl) fun _ =>
    Rel.bind Matcher.Stays.trans (insertString_stays c _) fun _ => Rel.bind Matcher.Stays.trans (Rel.modify fun _ => id) fun _ =>
      insertInterior_stays c r

theorem passMatch_stays (c : Conf) : Rel Matcher.Stays (passMatch c) :=
  Rel.bind Matcher.Stays.trans (Rel.modify fun _ => id) fun _ => Rel.bind Matcher.Stays.trans (Rel.get Matcher.Stays.refl) fun _ =>
    Rel.ite
      (Rel.bind Matcher.Stays.trans (Rel.modify fun _ => id) fun _ =>
        Rel.bind Matcher.Stays.trans (insertInterior_stays c _) fun _ => advance_stays)
      (Rel.bind Matcher.Stays.trans (Rel.modify fun _ => id) fun _ =>
        Rel.bind Matcher.Stays.trans (Rel.get Matcher.Stays.refl) fun _ => seedHash_stays c _)

theorem fastSearch_stays (c : Conf) : Rel Matcher.Stays (fastSearch c) :=
  Rel.bind Matcher.Stays.trans (enterString_stays c) fun _ => Rel.bind Matcher.Stays.trans (Rel.get Matcher.Stays.refl) fun _ =>
    Rel.ite (searchInto_stays c _) (Rel.pure Matcher.Stays.refl _)

theorem slowSearch_stays (c : Conf) : Rel Matcher.Stays (slowSearch c) := by
  refine Rel.bind Matcher.Stays.trans (enterString_stays c) fun _ => Rel.bind Matcher.Stays.trans (Rel.modify fun _ => id) fun _ =>
    Rel.bind Matcher.Stays.trans (Rel.get Matcher.Stays.refl) fun _ => Rel.ite ?_ (Rel.pure Matcher.Stays.refl _)
  refine Rel.bind Matcher.Stays.trans (Rel.onlyIf Matcher.Stays.refl fun _ => searchInto_stays c _) fun _ => Rel.modify fun m => ?_
  split <;> exact id

theorem insertMatched_stays (c : Conf) (maxInsert : Int) : ∀ r, Rel Matcher.Stays (insertMatched c maxInsert r)
  | 0 => Rel.pure Matcher.Stays.refl _
  | r + 1 =>
    Rel.bind Matcher.Stays.trans advance_stays fun _ => Rel.bind Matcher.Stays.trans (Rel.get Matcher.Stays.refl) fun _ =>
    Rel.bind Matcher.Stays.trans (Rel.onlyIf Matcher.Stays.refl fun _ =>
      Rel.bind Matcher.Stays.trans (insertString_stays c _) fun _ => Rel.pure Matcher.Stays.refl _) fun _ =>
    Rel.bind Matcher.Stays.trans (Rel.modify fun _ => id) fun _ => insertMatched_stays c maxInsert r

theorem passEarlier_stays (c : Conf) (maxInsert : Int) : Rel Matcher.Stays (passEarlier c maxInsert) :=
  Rel.bind Matcher.Stays.trans (Rel.modify fun _ => id) fun _ => Rel.bind Matcher.Stays.trans (Rel.get Matcher.Stays.refl) fun _ =>
    Rel.bind Matcher.Stays.trans (insertMatched_stays c maxInsert _) fun _ =>
    Rel.bind Matcher.Stays.trans (Rel.modify fun _ => id) fun _ => advance_stays

theorem insertAll_stays (c : Conf) : ∀ r p, Rel Matcher.Stays (insertAll c r p)
  | 0, _ => Rel.pure Matcher.Stays.refl _
  | r + 1, p => Rel.bind Matcher.Stays.trans (insertString_stays c p) fun _ => insertAll_stays c r (p + 1)

theorem Matcher.sessionReset_stays (c : Conf) (m : Matcher) : m.Stays (m.sessionReset c) := fun hc =>
  ⟨Ram.wf_clearBelow hc.1 _, Ram.wf_clearBelow hc.2.1 _, Ram.wf_clearBelow hc.2.2 _⟩

end Sys2Proof.Machine
end

