-- ==== Sys2Proof/Laws/Sending.lean ====
section
/-! SUPPORT. The block encoder's procedures over one part of the state: recording a symbol keeps the coder's memories
canonical; sending headers, symbols, trees, stored bytes and the stream's header only appends to the pending buffer, and keeps
the accumulator invariant of R140. -/

namespace Sys2Proof.Machine

open Proc

theorem countSymbol_stays (dist : Half) (lc : Byte) : Rel Coder.Stays (countSymbol dist lc) :=
  Rel.ite (bumpFreq_stays .dynL lc.toNat)
    (Rel.bind Coder.Stays.trans (Rel.modify fun _ => Coder.stays_of_mem rfl rfl) fun _ =>
      Rel.bind Coder.Stays.trans (bumpFreq_stays _ _) fun _ => bumpFreq_stays _ _)

theorem recordSymbol_stays (c : Conf) (dist : Half) (lc : Byte) : Rel Coder.Stays (recordSymbol c dist lc) := by
  refine Rel.get_bind fun k => ?_
  rw [require_bind_run]
  by_cases h : decide (k.lastLit.toNat < c.literalBufferSize) = true
  · have h' : k.lastLit.toNat < c.literalBufferSize := of_decide_eq_true h
    rw [if_pos h, bind_run, stored_run, if_pos h']
    dsimp only
    rw [bind_run, stored_run, if_pos h']
    dsimp only
    rw [set_bind_run]
    intro hc
    refine countSymbol_stays dist lc _ ?_
    exact { hc with dBuf := Ram.wf_set hc.dBuf _ _, lBuf := Ram.wf_set hc.lBuf _ _ }
  · rw [if_neg h]
    exact Coder.Stays.refl k

/-! What is sent is appended. -/

theorem windupBytes_appends (cap : Nat) (k : Packer) : Rel Packer.Appends (windupBytes cap k) :=
  Rel.ite (putShort_appends cap _) (Rel.ite (putByte_appends cap _) (Rel.pure Packer.Appends.refl ()))

theorem sendHeader_appends (cap : Nat) (b : BlockType) (eof : Bool) : Rel Packer.Appends (sendHeader cap b eof) :=
  sendBits_appends cap _ 3

theorem putWindow_appends (c : Conf) (window : Ram 8) : ∀ n buf, Rel Packer.Appends (putWindow c window n buf)
  | 0, _ => Rel.pure Packer.Appends.refl ()
  | n + 1, buf =>
    Rel.bind Packer.Appends.trans (Rel.indexOf Packer.Appends.refl buf) fun _ =>
    Rel.bind Packer.Appends.trans (Rel.load Packer.Appends.refl _ _ _) fun _ =>
    Rel.bind Packer.Appends.trans (putByte_appends _ _) fun _ => putWindow_appends c window n (buf + 1)

theorem sendSymbol_appends (cap dist lc : Nat) (lit dst : CodeTable) : Rel Packer.Appends (sendSymbol cap dist lc lit dst) :=
  Rel.ite (sendCode_appends cap lc lit)
    (Rel.bind Packer.Appends.trans (sendCode_appends cap _ lit) fun _ =>
      Rel.bind Packer.Appends.trans (Rel.onlyIf Packer.Appends.refl fun _ => sendField_appends cap _ _) fun _ =>
      Rel.bind Packer.Appends.trans (sendCode_appends cap _ dst) fun _ =>
        Rel.onlyIf Packer.Appends.refl fun _ => sendField_appends cap _ _)

theorem sendSymbols_appends (c : Conf) (k : Coder) (lit dst : CodeTable) :
    ∀ r lx, Rel Packer.Appends (sendSymbols c k lit dst r lx)
  | 0, _ => sendCode_appends _ endBlock lit
  | r + 1, lx =>
    Rel.bind Packer.Appends.trans (Rel.load Packer.Appends.refl _ _ _) fun _ =>
    Rel.bind Packer.Appends.trans (Rel.load Packer.Appends.refl _ _ _) fun _ =>
    Rel.bind Packer.Appends.trans (sendSymbol_appends _ _ _ lit dst) fun _ => sendSymbols_appends c k lit dst r (lx + 1)

theorem sendItems_appends (cap : Nat) (bl : CodeTable) : ∀ xs, Rel Packer.Appends (sendItems cap bl xs)
  | [] => Rel.pure Packer.Appends.refl ()
  | x :: xs => Rel.bind Packer.Appends.trans (sendCode_appends cap x.sym bl) fun _ =>
      Rel.bind Packer.Appends.trans (sendBits_appends cap _ _) fun _ => sendItems_appends cap bl xs

theorem sendTree_appends (cap : Nat) (k : Coder) (t : TreeId) (maxCode : Int) : Rel Packer.Appends (sendTree cap k t maxCode) :=
  Rel.bind Packer.Appends.trans (Rel.indexOf Packer.Appends.refl _) fun _ =>
    Rel.bind Packer.Appends.trans (Rel.require Packer.Appends.refl _) fun _ => sendItems_appends cap _ _

theorem sendBlLengths_appends (cap : Nat) (len : Nat → Nat) : ∀ xs, Rel Packer.Appends (sendBlLengths cap len xs)
  | [] => Rel.pure Packer.Appends.refl ()
  | _ :: xs => Rel.bind Packer.Appends.trans (sendBits_appends cap _ 3) fun _ => sendBlLengths_appends cap len xs

theorem sendAllTrees_appends (cap : Nat) (k : Coder) (l d : Int) (b : Nat) : Rel Packer.Appends (sendAllTrees cap k l d b) :=
  Rel.bind Packer.Appends.trans (sendField_appends cap _ _) fun _ =>
    Rel.bind Packer.Appends.trans (sendField_appends cap _ _) fun _ =>
    Rel.bind Packer.Appends.trans (sendField_appends cap _ _) fun _ =>
    Rel.bind Packer.Appends.trans (sendBlLengths_appends cap _ _) fun _ =>
    Rel.bind Packer.Appends.trans (sendTree_appends cap k _ _) fun _ => sendTree_appends cap k _ _

theorem emptyStatic_appends (cap : Nat) : Rel Packer.Appends (emptyStatic cap) :=
  Rel.bind Packer.Appends.trans (sendHeader_appends cap _ _) fun _ =>
    Rel.bind Packer.Appends.trans (sendCode_appends cap _ _) fun _ => biFlush_appends cap

theorem putWordMSB_appends (cap : Nat) (w : Word) : Rel Packer.Appends (putWordMSB cap w) :=
  Rel.bind Packer.Appends.trans (putShortMSB_appends cap _) fun _ => putShortMSB_appends cap _

/-! The accumulator. -/

theorem sendHeader_accumulator (cap : Nat) (b : BlockType) (eof : Bool) : Keeps Packer.AccumulatorOk (sendHeader cap b eof) :=
  sendBits_accumulator cap _ 3

theorem putWindow_accumulator (c : Conf) (window : Ram 8) : ∀ n buf, Keeps Packer.AccumulatorOk (putWindow c window n buf)
  | 0, _ => Keeps.pure ()
  | n + 1, buf =>
    Keeps.bind (Keeps.indexOf buf) fun _ => Keeps.bind (Keeps.load _ _ _) fun _ =>
      Keeps.bind (putByte_accumulator _ _) fun _ => putWindow_accumulator c window n (buf + 1)

theorem sendSymbol_accumulator (cap dist lc : Nat) (lit dst : CodeTable) :
    Keeps Packer.AccumulatorOk (sendSymbol cap dist lc lit dst) :=
  Keeps.ite (sendCode_accumulator cap lc lit)
    (Keeps.bind (sendCode_accumulator cap _ lit) fun _ =>
      Keeps.bind (Keeps.onlyIf (sendField_accumulator cap _ _)) fun _ =>
      Keeps.bind (sendCode_accumulator cap _ dst) fun _ => Keeps.onlyIf (sendField_accumulator cap _ _))

theorem sendSymbols_accumulator (c : Conf) (k : Coder) (lit dst : CodeTable) :
    ∀ r lx, Keeps Packer.AccumulatorOk (sendSymbols c k lit dst r lx)
  | 0, _ => sendCode_accumulator _ endBlock lit
  | r + 1, lx =>
    Keeps.bind (Keeps.load _ _ _) fun _ => Keeps.bind (Keeps.load _ _ _) fun _ =>
    Keeps.bind (sendSymbol_accumulator _ _ _ lit dst) fun _ => sendSymbols_accumulator c k lit dst r (lx + 1)

theorem sendItems_accumulator (cap : Nat) (bl : CodeTable) : ∀ xs, Keeps Packer.AccumulatorOk (sendItems cap bl xs)
  | [] => Keeps.pure ()
  | x :: xs => Keeps.bind (sendCode_accumulator cap x.sym bl) fun _ =>
      Keeps.bind (sendBits_accumulator cap _ _) fun _ => sendItems_accumulator cap bl xs

theorem sendTree_accumulator (cap : Nat) (k : Coder) (t : TreeId) (maxCode : Int) :
    Keeps Packer.AccumulatorOk (sendTree cap k t maxCode) :=
  Keeps.bind (Keeps.indexOf _) fun _ => Keeps.bind (Keeps.require _) fun _ => sendItems_accumulator cap _ _

theorem sendBlLengths_accumulator (cap : Nat) (len : Nat → Nat) : ∀ xs, Keeps Packer.AccumulatorOk (sendBlLengths cap len xs)
  | [] => Keeps.pure ()
  | _ :: xs => Keeps.bind (sendBits_accumulator cap _ 3) fun _ => sendBlLengths_accumulator cap len xs

theorem sendAllTrees_accumulator (cap : Nat) (k : Coder) (l d : Int) (b : Nat) :
    Keeps Packer.AccumulatorOk (sendAllTrees cap k l d b) :=
  Keeps.bind (sendField_accumulator cap _ _) fun _ => Keeps.bind (sendField_accumulator cap _ _) fun _ =>
    Keeps.bind (sendField_accumulator cap _ _) fun _ => Keeps.bind (sendBlLengths_accumulator cap _ _) fun _ =>
    Keeps.bind (sendTree_accumulator cap k _ _) fun _ => sendTree_accumulator cap k _ _

theorem emptyStatic_accumulator (cap : Nat) : Keeps Packer.AccumulatorOk (emptyStatic cap) :=
  Keeps.bind (sendHeader_accumulator cap _ _) fun _ => Keeps.bind (sendCode_accumulator cap _ _) fun _ => biFlush_accumulator cap

theorem putWordMSB_accumulator (cap : Nat) (w : Word) : Keeps Packer.AccumulatorOk (putWordMSB cap w) :=
  Keeps.bind (putShortMSB_accumulator cap _) fun _ => putShortMSB_accumulator cap _

end Sys2Proof.Machine
end

