-- ==== Sys2Proof/Laws/Engine.lean ====
section
/-! SUPPORT. What a run of the engine can do, said once: `Engine s t` is the frame of Sys2Proof/Safety.lean together with the
canonical form of every memory; `Safe p` says that `p` establishes it whether it answers or is abandoned, and that it keeps
the accumulator invariant when it answers. Every state-level procedure up to the bodies of the commands is `Safe`. -/

namespace Sys2Proof.Machine

open Proc

/-! The relation. -/

/-- The engine's frame, and the canonical form kept. -/
structure Engine (s t : State) : Prop where
  frame : EngineFrame s t
  canonical : s.Canonical → t.Canonical

/-- A change confined to the engine's working state. -/
theorem EngineFrame.of_inside {s t : State} (hr : t.regs = s.regs) (hc : t.conf = s.conf) (hu : t.cks.unit = s.cks.unit)
    (hm : t.hostMem = s.hostMem) (he : t.events = s.events) (hp : t.portData = s.portData) : EngineFrame s t where
  cmd := by rw [hr]
  code := by rw [hr]
  fault := by rw [hr]
  inValid := by rw [hr]
  outValid := by rw [hr]
  arg0 := by rw [hr]
  arg1 := by rw [hr]
  gzMtime := by rw [hr]
  gzOs := by rw [hr]
  conf := hc
  unit := hu
  events := he
  portData := hp
  stage := by rw [hr]
  fresh := by rw [hr]; exact id
  trailer := by rw [hr]; exact id
  input := ⟨0, Nat.zero_le _, by rw [hr]; simp⟩
  output := ⟨0, Nat.zero_le _, by rw [hr]; simp⟩
  memory := fun _ _ => by rw [hm]

theorem EngineFrame.refl (s : State) : EngineFrame s s := .of_inside rfl rfl rfl rfl rfl rfl

/-- After `n` addresses of a span were used, what is left of it lies inside it. -/
theorem inSpan_of_rest {base avail : Word} {n a : Nat} (hn : n ≤ avail.toNat)
    (h : inSpan (base + BitVec.ofNat 32 n) (avail - BitVec.ofNat 32 n).toNat a) : inSpan base avail.toNat a := by
  obtain ⟨i, hi, rfl⟩ := h
  have hsub : (avail - BitVec.ofNat 32 n).toNat = avail.toNat - n := by
    have := avail.isLt
    rw [BitVec.toNat_sub_of_le]
    · rw [BitVec.toNat_ofNat, Nat.mod_eq_of_lt (by omega)]
    · rw [BitVec.le_def, BitVec.toNat_ofNat, Nat.mod_eq_of_lt (by omega)]; exact hn
  refine ⟨n + i, by omega, ?_⟩
  rw [BitVec.add_assoc, BitVec.ofNat_add]

theorem EngineFrame.trans {s t u : State} (h : EngineFrame s t) (h' : EngineFrame t u) : EngineFrame s u where
  cmd := h'.cmd.trans h.cmd
  code := h'.code.trans h.code
  fault := h'.fault.trans h.fault
  inValid := h'.inValid.trans h.inValid
  outValid := h'.outValid.trans h.outValid
  arg0 := h'.arg0.trans h.arg0
  arg1 := h'.arg1.trans h.arg1
  gzMtime := h'.gzMtime.trans h.gzMtime
  gzOs := h'.gzOs.trans h.gzOs
  conf := h'.conf.trans h.conf
  unit := h'.unit.trans h.unit
  events := h'.events.trans h.events
  portData := h'.portData.trans h.portData
  stage := Nat.le_trans h.stage h'.stage
  fresh := fun x => h.fresh (h'.fresh x)
  trailer := fun x => h'.trailer (h.trailer x)
  input := by
    obtain ⟨n, hn, h1, h2, h3⟩ := h.input
    obtain ⟨m, hm, k1, k2, k3⟩ := h'.input
    have hlt := s.regs.inAvail.isLt
    have hsub : t.regs.inAvail.toNat = s.regs.inAvail.toNat - n := by
      rw [h2, BitVec.toNat_sub_of_le]
      · rw [BitVec.toNat_ofNat, Nat.mod_eq_of_lt (by omega)]
      · rw [BitVec.le_def, BitVec.toNat_ofNat, Nat.mod_eq_of_lt (by omega)]; exact hn
    refine ⟨n + m, by omega, ?_, ?_, ?_⟩
    · rw [k1, h1, BitVec.ofNat_add, BitVec.add_assoc]
    · rw [k2, h2, BitVec.ofNat_add, BitVec.sub_sub]
    · rw [k3, h3, BitVec.ofNat_add, BitVec.add_assoc]
  output := by
    obtain ⟨n, hn, h1, h2, h3⟩ := h.output
    obtain ⟨m, hm, k1, k2, k3⟩ := h'.output
    have hlt := s.regs.outAvail.isLt
    have hsub : t.regs.outAvail.toNat = s.regs.outAvail.toNat - n := by
      rw [h2, BitVec.toNat_sub_of_le]
      · rw [BitVec.toNat_ofNat, Nat.mod_eq_of_lt (by omega)]
      · rw [BitVec.le_def, BitVec.toNat_ofNat, Nat.mod_eq_of_lt (by omega)]; exact hn
    refine ⟨n + m, by omega, ?_, ?_, ?_⟩
    · rw [k1, h1, BitVec.ofNat_add, BitVec.add_assoc]
    · rw [k2, h2, BitVec.ofNat_add, BitVec.sub_sub]
    · rw [k3, h3, BitVec.ofNat_add, BitVec.add_assoc]
  memory := by
    intro a ha
    obtain ⟨n, hn, h1, h2, -⟩ := h.output
    rw [h'.memory a ?_, h.memory a ha]
    intro hin
    apply ha
    unfold State.inOutput at hin ⊢
    rw [h1, h2] at hin
    exact inSpan_of_rest hn hin

theorem Engine.refl (s : State) : Engine s s := ⟨.refl s, id⟩

theorem Engine.trans (s t u : State) (h : Engine s t) (h' : Engine t u) : Engine s u :=
  ⟨h.frame.trans h'.frame, fun hc => h'.canonical (h.canonical hc)⟩

/-- A change of the registers alone that moves the stream state forward and leaves what the frame fixes. -/
theorem Engine.of_stage {s : State} {x : StreamState} (h : s.regs.sstate.bits.toNat ≤ x.bits.toNat) :
    Engine s { s with regs := { s.regs with sstate := x } } where
  frame := { EngineFrame.refl s with stage := h }
  canonical := fun hc => ⟨hc.mat, hc.pk, hc.cod, hc.hostMem⟩

/-! Safe procedures. -/

/-- `p` establishes `Engine`, and keeps the accumulator invariant when it answers. -/
structure Safe {α : Type} (p : Proc State α) : Prop where
  engine : Rel Engine p
  accumulator : Keeps (fun s : State => s.pk.AccumulatorOk) p

namespace Safe

variable {α β : Type}

theorem pure (a : α) : Safe (pure a) := ⟨Rel.pure Engine.refl a, Keeps.pure a⟩

theorem get : Safe get := ⟨Rel.get Engine.refl, Keeps.get⟩

theorem raiseFatal : Safe (raiseFatal : Proc State α) := ⟨Rel.raiseFatal Engine.refl, Keeps.raiseFatal⟩

theorem throw (e : Stop) : Safe (throw e : Proc State α) := ⟨Rel.throw Engine.refl e, Keeps.throw e⟩

theorem bind {p : Proc State α} {f : α → Proc State β} (hp : Safe p) (hf : ∀ a, Safe (f a)) : Safe (p >>= f) :=
  ⟨Rel.bind Engine.trans hp.engine fun a => (hf a).engine, Keeps.bind hp.accumulator fun a => (hf a).accumulator⟩

theorem ite {c : Prop} [Decidable c] {p q : Proc State α} (hp : Safe p) (hq : Safe q) : Safe (if c then p else q) := by
  split <;> assumption

theorem onlyIf {c : Prop} [Decidable c] {p : Proc State Unit} (hp : Safe p) : Safe (onlyIf c p) := ite hp (pure ())

theorem require (c : Bool) : Safe (require c) := ⟨Rel.require Engine.refl c, Keeps.require c⟩

theorem load {w : Nat} (size : Nat) (m : Ram w) (i : Nat) : Safe (load size m i) :=
  ⟨Rel.load Engine.refl size m i, Keeps.load size m i⟩

theorem indexOf (i : Int) : Safe (indexOf i) := ⟨Rel.indexOf Engine.refl i, Keeps.indexOf i⟩

/-- A change inside the engine that leaves the bit-packer and the memories alone. -/
theorem modify_quiet {f : State → State} (h : ∀ s, Engine s (f s)) (hk : ∀ s, (f s).pk = s.pk) :
    Safe (modify f : Proc State PUnit) :=
  ⟨Rel.modify h, Keeps.modify fun s hs => by rw [hk s]; exact hs⟩

theorem onMatcher {p : Proc Matcher α} (h : Rel Matcher.Stays p) : Safe (onMatcher p) where
  engine := fun s => ⟨.of_inside rfl rfl rfl rfl rfl rfl, fun hc => ⟨h s.mat hc.mat, hc.pk, hc.cod, hc.hostMem⟩⟩
  accumulator := by
    intro s a t ht hs
    have h2 := congrArg Prod.snd ht
    dsimp only at h2
    rw [← h2]
    exact hs

theorem onCoder {p : Proc Coder α} (h : Rel Coder.Stays p) : Safe (onCoder p) where
  engine := fun s => ⟨.of_inside rfl rfl rfl rfl rfl rfl, fun hc => ⟨hc.mat, hc.pk, h s.cod hc.cod, hc.hostMem⟩⟩
  accumulator := by
    intro s a t ht hs
    have h2 := congrArg Prod.snd ht
    dsimp only at h2
    rw [← h2]
    exact hs

theorem onPacker {p : Proc Packer α} (h : Rel Packer.Appends p) (ha : Keeps Packer.AccumulatorOk p) : Safe (onPacker p) where
  engine := fun s => ⟨.of_inside rfl rfl rfl rfl rfl rfl, fun hc => ⟨hc.mat, (h s.pk).2 hc.pk, hc.cod, hc.hostMem⟩⟩
  accumulator := by
    intro s a t ht hs
    have hp : p s.pk = (.ok a, t.pk) := by
      rw [Prod.ext_iff] at ht
      obtain ⟨h1, h2⟩ := ht
      rw [Prod.ext_iff]
      exact ⟨h1, congrArg State.pk h2⟩
    exact ha s.pk a t.pk hp hs

end Safe

/-! The input side. -/

/-- The registers stay, and the engine's frame holds. -/
def Quiet (s t : State) : Prop := t.regs = s.regs ∧ Engine s t

theorem Quiet.refl (s : State) : Quiet s s := ⟨rfl, Engine.refl s⟩

theorem Quiet.trans (s t u : State) (h : Quiet s t) (h' : Quiet t u) : Quiet s u :=
  ⟨h'.1.trans h.1, Engine.trans s t u h.2 h'.2⟩

theorem memRead_quiet (addr : Word) : Rel Quiet (memRead addr) := by
  refine Rel.get_bind fun s => ?_
  cases s.hostMem.get addr.toNat <;> exact Quiet.refl s

theorem memRead_safe (addr : Word) : Safe (memRead addr) where
  engine := fun s => (memRead_quiet addr s).2
  accumulator := by
    refine Keeps.bind Keeps.get fun s => ?_
    cases s.hostMem.get addr.toNat
    · exact Keeps.throw _
    · exact Keeps.pure _

theorem ckUpdate_quiet (b : Byte) : Rel Quiet (ckUpdate b) :=
  Rel.modify fun _ => ⟨rfl, .of_inside rfl rfl rfl rfl rfl rfl, fun hc => ⟨hc.mat, hc.pk, hc.cod, hc.hostMem⟩⟩

theorem ckUpdate_safe (b : Byte) : Safe (ckUpdate b) :=
  ⟨fun s => (ckUpdate_quiet b s).2, Keeps.modify fun _ hs => hs⟩

theorem ckReset_quiet : Rel Quiet ckReset :=
  Rel.modify fun _ => ⟨rfl, .of_inside rfl rfl rfl rfl rfl rfl, fun hc => ⟨hc.mat, hc.pk, hc.cod, hc.hostMem⟩⟩

theorem ckReset_safe : Safe ckReset := ⟨fun s => (ckReset_quiet s).2, Keeps.modify fun _ hs => hs⟩

theorem onMatcher_quiet {α : Type} {p : Proc Matcher α} (h : Rel Matcher.Stays p) : Rel Quiet (onMatcher p) :=
  fun s => ⟨rfl, (Safe.onMatcher h).engine s⟩

theorem onPacker_quiet {α : Type} {p : Proc Packer α} (h : Rel Packer.Appends p) : Rel Quiet (onPacker p) :=
  fun s => ⟨rfl, .of_inside rfl rfl rfl rfl rfl rfl, fun hc => ⟨hc.mat, (h s.pk).2 hc.pk, hc.cod, hc.hostMem⟩⟩

theorem setWindow_stays (dst : Nat) (b : Byte) :
    Rel Matcher.Stays (modify fun m => { m with window := m.window.set dst b } : Proc Matcher PUnit) :=
  Rel.modify fun _ hc => ⟨Ram.wf_set hc.1 _ _, hc.2⟩

theorem readBytes_quiet : ∀ n src dst, Rel Quiet (readBytes n src dst)
  | 0, _, _ => Rel.pure Quiet.refl ()
  | n + 1, src, dst =>
    Rel.bind Quiet.trans (memRead_quiet src) fun b => Rel.bind Quiet.trans (Rel.get Quiet.refl) fun _ =>
      Rel.ite (Rel.raiseFatal Quiet.refl)
        (Rel.bind Quiet.trans (onMatcher_quiet (setWindow_stays dst b)) fun _ =>
          Rel.bind Quiet.trans (Rel.onlyIf Quiet.refl fun _ => ckUpdate_quiet b) fun _ => readBytes_quiet n _ _)

theorem readBytes_accumulator : ∀ n src dst, Keeps (fun s : State => s.pk.AccumulatorOk) (readBytes n src dst)
  | 0, _, _ => Keeps.pure ()
  | n + 1, src, dst =>
    Keeps.bind (memRead_safe src).accumulator fun b => Keeps.bind Keeps.get fun _ =>
      Keeps.ite Keeps.raiseFatal
        (Keeps.bind (Safe.onMatcher (setWindow_stays dst b)).accumulator fun _ =>
          Keeps.bind (Keeps.onlyIf (ckUpdate_safe b).accumulator) fun _ => readBytes_accumulator n _ _)

theorem consumed_engine {s : State} {n : Nat} (h : n ≤ s.regs.inAvail.toNat) : Engine s (s.consumed n) where
  frame := { EngineFrame.refl s with input := ⟨n, h, rfl, rfl, rfl⟩ }
  canonical := fun hc => ⟨hc.mat, hc.pk, hc.cod, hc.hostMem⟩

theorem readBuf_safe (start size : Nat) : Safe (readBuf start size) where
  engine := by
    refine Rel.get_bind fun s => ?_
    rw [ite_run]
    split
    · exact Engine.refl s
    · have hq := readBytes_quiet (min s.regs.inAvail.toNat size) s.regs.inPtr start s
      rw [bind_run]
      cases hr : readBytes (min s.regs.inAvail.toNat size) s.regs.inPtr start s with
      | mk r t =>
        rw [hr] at hq
        cases r with
        | error e => exact hq.2
        | ok a =>
          refine Engine.trans _ _ _ hq.2 (consumed_engine ?_)
          rw [hq.1]
          exact Nat.min_le_left _ _
  accumulator := Keeps.bind Keeps.get fun _ => Keeps.ite (Keeps.pure _)
    (Keeps.bind (readBytes_accumulator _ _ _) fun _ => Keeps.bind (Keeps.modify fun _ hs => hs) fun _ => Keeps.pure _)

theorem fillLoop_safe : ∀ fuel, Safe (fillLoop fuel)
  | 0 => Safe.raiseFatal
  | fuel + 1 =>
    Safe.bind Safe.get fun s => Safe.bind (Safe.onlyIf (Safe.onMatcher (Rel.modify fun m => m.slide_stays s.conf))) fun _ =>
      Safe.ite (Safe.pure _)
        (Safe.bind Safe.get fun _ => Safe.bind (readBuf_safe _ _) fun _ =>
          Safe.bind (Safe.onMatcher (Rel.modify fun _ => id)) fun _ => Safe.bind Safe.get fun _ =>
          Safe.bind (Safe.onlyIf (Safe.onMatcher (seedHash_stays _ _))) fun _ => Safe.ite (fillLoop_safe fuel) (Safe.pure _))

theorem fillWindow_safe : Safe fillWindow := Safe.bind Safe.get fun _ => fillLoop_safe _

/-! The output side. -/

/-- `t` is `s` with some bytes stored at the `n` addresses from `dst` on, and nothing else. -/
structure Stores (dst : Word) (n : Nat) (s t : State) : Prop where
  only : t = { s with hostMem := t.hostMem }
  outside : ∀ a, ¬ inSpan dst n a → t.hostMem.get a = s.hostMem.get a
  wf : s.hostMem.wf = true → t.hostMem.wf = true

theorem Stores.regs {dst : Word} {n : Nat} {s t : State} (h : Stores dst n s t) : t.regs = s.regs := by rw [h.only]

theorem Stores.pk {dst : Word} {n : Nat} {s t : State} (h : Stores dst n s t) : t.pk = s.pk := by rw [h.only]

theorem Stores.refl (dst : Word) (n : Nat) (s : State) : Stores dst n s s := ⟨rfl, fun _ _ => rfl, id⟩

theorem inSpan_succ {dst : Word} {n a : Nat} (h : inSpan (dst + 1#32) n a) : inSpan dst (n + 1) a := by
  obtain ⟨i, hi, rfl⟩ := h
  refine ⟨1 + i, by omega, ?_⟩
  rw [BitVec.ofNat_add, BitVec.add_assoc]

theorem Stores.cons {dst : Word} {n : Nat} {s t : State} {v : Byte} (h : Stores (dst + 1#32) n (s.storeByte dst v) t) :
    Stores dst (n + 1) s t where
  only := by
    have := h.only
    rw [this]
    rfl
  outside := by
    intro a ha
    rw [h.outside a fun hin => ha (inSpan_succ hin)]
    refine Memory.get_put_of_ne (fun he => ha ⟨0, by omega, ?_⟩) _ _
    rw [he, BitVec.add_zero]
  wf := fun hw => h.wf (Memory.wf_put hw dst _)

theorem writeBytes_stores : ∀ n i dst s, Stores dst n s (writeBytes n i dst s).2
  | 0, _, dst, s => Stores.refl dst 0 s
  | n + 1, i, dst, s => by
    have h : writeBytes (n + 1) i dst s = ((load s.conf.pendingBufSize s.pk.pendingBuf i : Proc State Byte) >>= fun b =>
        memWrite dst b >>= fun _ => writeBytes n (i + 1) (dst + 1#32)) s := rfl
    rw [h, bind_run, load_run]
    by_cases hi : i < s.conf.pendingBufSize
    · rw [if_pos hi]
      exact Stores.cons (writeBytes_stores n (i + 1) (dst + 1#32) _)
    · rw [if_neg hi]
      exact Stores.refl dst (n + 1) s

/-- Bytes stored inside the output span only. -/
theorem Stores.engine {n : Nat} {s t : State} (hn : n ≤ s.regs.outAvail.toNat) (h : Stores s.regs.outPtr n s t) :
    Engine s t := by
  have ho := h.only
  have hr : t.regs = s.regs := by rw [ho]
  have hc : t.conf = s.conf := by rw [ho]
  have hu : t.cks.unit = s.cks.unit := by rw [ho]
  have he : t.events = s.events := by rw [ho]
  have hp : t.portData = s.portData := by rw [ho]
  refine ⟨?_, fun hk => ⟨?_, ?_, ?_, h.wf hk.hostMem⟩⟩
  · have base : EngineFrame s { t with hostMem := s.hostMem } := .of_inside hr hc hu rfl he hp
    refine { base with memory := fun a ha => h.outside a fun hin => ha ?_ }
    obtain ⟨i, hi, rfl⟩ := hin
    exact ⟨i, by omega, rfl⟩
  · rw [ho]; exact hk.mat
  · rw [ho]; exact hk.pk
  · rw [ho]; exact hk.cod

theorem delivered_engine {s : State} {n : Nat} (h : n ≤ s.regs.outAvail.toNat) : Engine s (s.delivered n) where
  frame := { EngineFrame.refl s with output := ⟨n, h, rfl, rfl, rfl⟩ }
  canonical := fun hc => ⟨hc.mat, hc.pk, hc.cod, hc.hostMem⟩

theorem drained_engine (s : State) (n : Nat) : Engine s { s with pk := s.pk.drained n } where
  frame := .of_inside rfl rfl rfl rfl rfl rfl
  canonical := fun hc => ⟨hc.mat, by unfold Packer.drained; split <;> exact hc.pk, hc.cod, hc.hostMem⟩

theorem Packer.drained_accumulator (k : Packer) (n : Nat) (h : k.AccumulatorOk) : (k.drained n).AccumulatorOk := by
  unfold Packer.drained
  split <;> exact h

theorem flushPending_safe : Safe flushPending where
  engine := by
    refine Rel.get_bind fun s => ?_
    rw [ite_run]
    split
    · exact Engine.refl s
    · have hs := writeBytes_stores (min s.pk.owed s.regs.outAvail.toNat) s.pk.pendingOut.toNat s.regs.outPtr s
      rw [bind_run]
      cases hr : writeBytes (min s.pk.owed s.regs.outAvail.toNat) s.pk.pendingOut.toNat s.regs.outPtr s with
      | mk r t =>
        rw [hr] at hs
        have hle : min s.pk.owed s.regs.outAvail.toNat ≤ s.regs.outAvail.toNat := Nat.min_le_right _ _
        have h1 := Stores.engine hle hs
        cases r with
        | error e => exact h1
        | ok a =>
          refine Engine.trans _ _ _ h1 (Engine.trans _ _ _ (delivered_engine (n := min s.pk.owed s.regs.outAvail.toNat) ?_)
            (drained_engine _ _))
          have : t.regs = s.regs := hs.regs
          rw [this]
          exact hle
  accumulator := by
    intro s a t h hacc
    unfold flushPending at h
    rw [get_bind_run] at h
    rw [ite_run] at h
    split at h
    · cases h; exact hacc
    · obtain ⟨_, u, h1, h2⟩ := of_bind_ok h
      have hs := writeBytes_stores (min s.pk.owed s.regs.outAvail.toNat) s.pk.pendingOut.toNat s.regs.outPtr s
      rw [h1] at hs
      have hk : u.pk = s.pk := hs.pk
      cases h2
      show (u.pk.drained _).AccumulatorOk
      rw [hk]
      exact Packer.drained_accumulator _ _ hacc

/-! The block encoder. -/

theorem tally_safe (dist : Int) (lc : Byte) : Safe (tally dist lc) :=
  Safe.bind Safe.get fun _ => Safe.bind (Safe.onCoder (recordSymbol_stays _ _ _)) fun _ => Safe.bind Safe.get fun _ =>
    Safe.ite (Safe.pure _) (Safe.pure _)

theorem setLastEobLen_safe (n : Nat) : Safe (setLastEobLen n) := Safe.onCoder (Rel.modify fun _ => Coder.stays_of_mem rfl rfl)

theorem sendHeader_safe (cap : Nat) (b : BlockType) (eof : Bool) : Safe (onPacker (sendHeader cap b eof)) :=
  Safe.onPacker (sendHeader_appends cap b eof) (sendHeader_accumulator cap b eof)

theorem putShort_safe (cap : Nat) (w : Half) : Safe (onPacker (putShort cap w)) :=
  Safe.onPacker (putShort_appends cap w) (putShort_accumulator cap w)

theorem biWindup_safe (cap : Nat) : Safe (onPacker (biWindup cap)) :=
  Safe.onPacker (biWindup_appends cap) (biWindup_accumulator cap)

theorem storedBlock_safe (buf : Int) (storedLen : Nat) (eof : Bool) : Safe (storedBlock buf storedLen eof) :=
  Safe.bind Safe.get fun _ => Safe.bind (sendHeader_safe _ _ _) fun _ => Safe.bind (biWindup_safe _) fun _ =>
    Safe.bind (setLastEobLen_safe 8) fun _ => Safe.bind (putShort_safe _ _) fun _ => Safe.bind (putShort_safe _ _) fun _ =>
      Safe.onPacker (putWindow_appends _ _ _ _) (putWindow_accumulator _ _ _ _)

theorem compressBlock_safe (lit dst : CodeTable) : Safe (compressBlock lit dst) :=
  Safe.bind Safe.get fun _ =>
    Safe.bind (Safe.onPacker (sendSymbols_appends _ _ _ _ _ _) (sendSymbols_accumulator _ _ _ _ _ _)) fun _ =>
      setLastEobLen_safe _

theorem staticBlock_safe (eof : Bool) : Safe (staticBlock eof) :=
  Safe.bind Safe.get fun _ => Safe.bind (sendHeader_safe _ _ _) fun _ => compressBlock_safe _ _

theorem dynamicBlock_safe (eof : Bool) (maxBlIndex : Nat) : Safe (dynamicBlock eof maxBlIndex) :=
  Safe.bind Safe.get fun _ => Safe.bind (sendHeader_safe _ _ _) fun _ =>
    Safe.bind (Safe.onPacker (sendAllTrees_appends _ _ _ _ _) (sendAllTrees_accumulator _ _ _ _ _)) fun _ =>
      compressBlock_safe _ _

theorem buildTrees_stays : Rel Coder.Stays buildTrees :=
  Rel.bind Coder.Stays.trans (buildTree_stays _) fun _ => Rel.bind Coder.Stays.trans (buildTree_stays _) fun _ => buildBlTree_stays

theorem endBlockStats_safe (eof : Bool) : Safe (endBlockStats eof) :=
  Safe.bind (Safe.onCoder (Rel.modify Coder.initBlock_stays)) fun _ => Safe.bind Safe.get fun _ => Safe.onlyIf (biWindup_safe _)

theorem costBlock_safe (buf : Int) (storedLen : Nat) : Safe (costBlock buf storedLen) :=
  Safe.bind Safe.get fun _ => Safe.ite
    (Safe.bind (Safe.onCoder buildTrees_stays) fun _ => Safe.bind Safe.get fun _ => Safe.pure _)
    (Safe.bind (Safe.require _) fun _ => Safe.pure _)

theorem emitBlock_safe (b : BlockType) (buf : Int) (storedLen : Nat) (eof : Bool) (maxBlIndex : Nat) :
    Safe (emitBlock b buf storedLen eof maxBlIndex) := by
  cases b
  · exact storedBlock_safe buf storedLen eof
  · exact staticBlock_safe eof
  · exact dynamicBlock_safe eof maxBlIndex

theorem flushBlock_safe (buf : Int) (storedLen : Nat) (eof : Bool) : Safe (flushBlock buf storedLen eof) :=
  Safe.bind (costBlock_safe _ _) fun _ => Safe.bind (emitBlock_safe _ _ _ _ _) fun _ => endBlockStats_safe _

theorem emptyStatic_safe (cap : Nat) : Safe (onPacker (emptyStatic cap)) :=
  Safe.onPacker (emptyStatic_appends cap) (emptyStatic_accumulator cap)

theorem align_safe : Safe align :=
  Safe.bind Safe.get fun _ => Safe.bind (emptyStatic_safe _) fun _ => Safe.bind Safe.get fun _ =>
    Safe.bind (Safe.onlyIf (emptyStatic_safe _)) fun _ => setLastEobLen_safe _

theorem nextBlock_safe : Safe nextBlock := Safe.bind (Safe.onMatcher (Rel.modify fun _ => id)) fun _ => flushPending_safe

theorem flushBlockOnly_safe (eof : Bool) : Safe (flushBlockOnly eof) :=
  Safe.bind Safe.get fun _ => Safe.bind (Safe.indexOf _) fun _ => Safe.bind (flushBlock_safe _ _ _) fun _ => nextBlock_safe

/-! The strategies. -/

theorem outputFull_safe : Safe outputFull := Safe.bind Safe.get fun _ => Safe.pure _

theorem tail_safe (flush : BitVec 3) (nonEmpty : Bool) : Safe (tail flush nonEmpty) :=
  Safe.ite (Safe.bind (flushBlockOnly_safe _) fun _ => Safe.bind outputFull_safe fun _ => Safe.pure _)
    (Safe.ite (Safe.bind (flushBlockOnly_safe _) fun _ => Safe.bind outputFull_safe fun _ => Safe.pure _) (Safe.pure _))

theorem distTrigger_safe : Safe distTrigger :=
  Safe.bind Safe.get fun _ => Safe.ite (Safe.bind (flushBlockOnly_safe _) fun _ => outputFull_safe) (Safe.pure _)

theorem sizeTrigger_safe : Safe sizeTrigger :=
  Safe.bind Safe.get fun _ => Safe.ite
    (Safe.bind (Safe.onMatcher (Rel.modify fun _ => id)) fun _ => Safe.bind (flushBlockOnly_safe _) fun _ => outputFull_safe)
    (Safe.pure _)

theorem takeLookahead_safe : Safe takeLookahead := Safe.onMatcher (Rel.modify fun _ => id)

theorem storedLoop_safe (flush : BitVec 3) : ∀ fuel, Safe (storedLoop flush fuel)
  | 0 => Safe.raiseFatal
  | fuel + 1 =>
    Safe.bind Safe.get fun _ => Safe.bind (Safe.onlyIf fillWindow_safe) fun _ => Safe.bind Safe.get fun _ =>
      Safe.ite (Safe.pure _)
        (Safe.bind takeLookahead_safe fun _ => Safe.bind sizeTrigger_safe fun _ => Safe.ite (Safe.pure _)
          (Safe.bind distTrigger_safe fun _ => Safe.ite (Safe.pure _) (storedLoop_safe flush fuel)))

theorem deflateStored_safe (flush : BitVec 3) : Safe (deflateStored flush) :=
  Safe.bind Safe.get fun _ => Safe.bind (storedLoop_safe _ _) fun r => by
    cases r
    · exact Safe.bind Safe.get fun _ => tail_safe _ _
    · exact Safe.pure _

theorem refill_safe (flush : BitVec 3) : Safe (refill flush) :=
  Safe.bind Safe.get fun _ => Safe.ite
    (Safe.bind fillWindow_safe fun _ => Safe.bind Safe.get fun _ => Safe.ite (Safe.pure _) (Safe.ite (Safe.pure _) (Safe.pure _)))
    (Safe.pure _)

theorem fastSymbol_safe : Safe fastSymbol :=
  Safe.bind Safe.get fun _ => Safe.ite
    (Safe.bind (tally_safe _ _) fun _ => Safe.bind (Safe.onMatcher (passMatch_stays _)) fun _ => Safe.pure _)
    (Safe.bind (Safe.onMatcher (getWindow_stays _ _)) fun _ => Safe.bind (tally_safe _ _) fun _ =>
      Safe.bind (Safe.onMatcher (Rel.modify fun _ => id)) fun _ => Safe.pure _)

theorem fastLoop_safe (flush : BitVec 3) : ∀ fuel, Safe (fastLoop flush fuel)
  | 0 => Safe.raiseFatal
  | fuel + 1 => Safe.bind (refill_safe flush) fun r => by
    cases r
    · exact Safe.bind Safe.get fun _ => Safe.bind (Safe.onMatcher (fastSearch_stays _)) fun _ =>
        Safe.bind fastSymbol_safe fun _ => Safe.ite
          (Safe.bind (flushBlockOnly_safe _) fun _ => Safe.bind outputFull_safe fun _ =>
            Safe.ite (Safe.pure _) (fastLoop_safe flush fuel))
          (fastLoop_safe flush fuel)
    · exact Safe.pure _
    · exact Safe.pure _

theorem deflateFast_safe (flush : BitVec 3) : Safe (deflateFast flush) :=
  Safe.bind Safe.get fun _ => Safe.bind (fastLoop_safe _ _) fun r => by
    cases r
    · exact Safe.bind Safe.get fun _ => tail_safe _ _
    · exact Safe.pure _

theorem emitEarlier_safe : Safe emitEarlier :=
  Safe.bind Safe.get fun _ => Safe.bind (tally_safe _ _) fun _ => Safe.bind (Safe.onMatcher (passEarlier_stays _ _)) fun _ =>
    Safe.ite (Safe.bind (flushBlockOnly_safe _) fun _ => outputFull_safe) (Safe.pure _)

theorem tallyDeferred_safe : Safe tallyDeferred :=
  Safe.bind Safe.get fun _ => Safe.bind (Safe.indexOf _) fun _ => Safe.bind (Safe.onMatcher (getWindow_stays _ _)) fun _ =>
    tally_safe _ _

theorem passOne_safe : Safe passOne := Safe.onMatcher (Rel.modify fun _ => id)

theorem emitDeferred_safe : Safe emitDeferred :=
  Safe.bind tallyDeferred_safe fun _ => Safe.bind (Safe.onlyIf (flushBlockOnly_safe _)) fun _ => Safe.bind passOne_safe fun _ =>
    outputFull_safe

theorem deferFirst_safe : Safe deferFirst :=
  Safe.bind (Safe.onMatcher (Rel.modify fun _ => id)) fun _ => Safe.bind passOne_safe fun _ => Safe.pure _

theorem slowSymbol_safe : Safe slowSymbol :=
  Safe.bind Safe.get fun _ => Safe.ite emitEarlier_safe (Safe.ite emitDeferred_safe deferFirst_safe)

theorem slowLoop_safe (flush : BitVec 3) : ∀ fuel, Safe (slowLoop flush fuel)
  | 0 => Safe.raiseFatal
  | fuel + 1 => Safe.bind (refill_safe flush) fun r => by
    cases r
    · exact Safe.bind Safe.get fun _ => Safe.bind (Safe.onMatcher (slowSearch_stays _)) fun _ =>
        Safe.bind slowSymbol_safe fun _ => Safe.ite (Safe.pure _) (slowLoop_safe flush fuel)
    · exact Safe.pure _
    · exact Safe.pure _

theorem deflateSlow_safe (flush : BitVec 3) : Safe (deflateSlow flush) :=
  Safe.bind Safe.get fun _ => Safe.bind (slowLoop_safe _ _) fun r => by
    cases r
    · exact Safe.bind Safe.get fun _ => Safe.bind (Safe.onlyIf (Safe.bind tallyDeferred_safe fun _ =>
        Safe.onMatcher (Rel.modify fun _ => id))) fun _ => Safe.bind Safe.get fun _ => tail_safe _ _
    · exact Safe.pure _

theorem deflate_safe (flush : BitVec 3) : Safe (deflate flush) :=
  Safe.bind Safe.get fun s => by
    cases s.conf.fn
    · exact deflateStored_safe flush
    · exact deflateFast_safe flush
    · exact deflateSlow_safe flush

/-! `STEP`. -/

theorem putWordMSB_safe (cap : Nat) (w : Word) : Safe (onPacker (putWordMSB cap w)) :=
  Safe.onPacker (putWordMSB_appends cap w) (putWordMSB_accumulator cap w)

theorem putBytes_safe (cap : Nat) (bs : List Byte) : Safe (onPacker (putBytes cap bs)) :=
  Safe.onPacker (putBytes_appends cap bs) (putBytes_accumulator cap bs)

theorem putHeaderZlib_quiet : Rel Quiet putHeaderZlib :=
  Rel.bind Quiet.trans (Rel.get Quiet.refl) fun _ => Rel.bind Quiet.trans (onPacker_quiet (putShortMSB_appends _ _)) fun _ =>
    Rel.onlyIf Quiet.refl fun _ => onPacker_quiet (putWordMSB_appends _ _)

theorem putHeader_quiet : Rel Quiet putHeader :=
  Rel.bind Quiet.trans
    (Rel.bind Quiet.trans (Rel.get Quiet.refl) fun _ => Rel.ite putHeaderZlib_quiet
      (Rel.onlyIf Quiet.refl fun _ => onPacker_quiet (putBytes_appends _ _)))
    fun _ => ckReset_quiet

theorem putHeader_accumulator : Keeps (fun s : State => s.pk.AccumulatorOk) putHeader :=
  (Safe.bind (Safe.bind Safe.get fun _ => Safe.ite
    (Safe.bind Safe.get fun _ => Safe.bind (Safe.onPacker (putShortMSB_appends _ _) (putShortMSB_accumulator _ _)) fun _ =>
      Safe.onlyIf (putWordMSB_safe _ _))
    (Safe.onlyIf (putBytes_safe _ _))) fun _ => ckReset_safe).accumulator

theorem putTrailer_safe : Safe putTrailer :=
  Safe.bind Safe.get fun _ => Safe.ite (putWordMSB_safe _ _) (Safe.onlyIf (putBytes_safe _ _))

theorem setLastFlush_safe (v : BitVec 4) : Safe (setLastFlush v) :=
  Safe.modify_quiet (fun _ => ⟨.of_inside rfl rfl rfl rfl rfl rfl, fun hc => ⟨hc.mat, hc.pk, hc.cod, hc.hostMem⟩⟩) fun _ => rfl

theorem flushMarker_safe (flush : BitVec 3) : Safe (flushMarker flush) :=
  Safe.ite align_safe (Safe.bind (storedBlock_safe _ _ _) fun _ => Safe.bind Safe.get fun _ =>
    Safe.onlyIf (Safe.onMatcher (clearHash_stays _)))

theorem trailerDone_safe :
    Safe (modify fun s : State => { s with regs := { s.regs with trailerDone := true } } : Proc State PUnit) :=
  Safe.modify_quiet
    (fun s => ⟨{ EngineFrame.refl s with trailer := fun _ => rfl }, fun hc => ⟨hc.mat, hc.pk, hc.cod, hc.hostMem⟩⟩) fun _ => rfl

theorem finishStep_safe (flush : BitVec 3) : Safe (finishStep flush) :=
  Safe.bind Safe.get fun _ => Safe.ite (Safe.pure _) (Safe.ite (Safe.pure _)
    (Safe.bind putTrailer_safe fun _ => Safe.bind trailerDone_safe fun _ => Safe.bind flushPending_safe fun _ =>
      Safe.bind Safe.get fun _ => Safe.pure _))

theorem StreamState.bits_le_finish (x : StreamState) : x.bits.toNat ≤ StreamState.finish.bits.toNat := by
  cases x <;> decide

theorem toFinish_safe :
    Safe (modify fun s : State => { s with regs := { s.regs with sstate := .finish } } : Proc State PUnit) :=
  Safe.modify_quiet (fun s => Engine.of_stage s.regs.sstate.bits_le_finish) fun _ => rfl

theorem afterStrategy_safe (flush : BitVec 3) (b : BlockState) : Safe (afterStrategy flush b) :=
  Safe.bind (Safe.onlyIf toFinish_safe) fun _ => by
    cases b
    · exact Safe.bind outputFull_safe fun _ => Safe.bind (Safe.onlyIf (setLastFlush_safe _)) fun _ => Safe.pure _
    · exact Safe.bind (flushMarker_safe flush) fun _ => Safe.bind flushPending_safe fun _ => Safe.pure _
    · exact Safe.bind outputFull_safe fun _ => Safe.bind (Safe.onlyIf (setLastFlush_safe _)) fun _ => Safe.pure _
    · exact finishStep_safe flush

theorem stepWork_safe (flush : BitVec 3) : Safe (stepWork flush) :=
  Safe.bind Safe.get fun _ => Safe.ite (Safe.bind (deflate_safe flush) fun _ => afterStrategy_safe flush _) (finishStep_safe flush)

theorem stepFresh_safe (flush : BitVec 3) (hadPending : Bool) : Safe (stepFresh flush hadPending) :=
  Safe.bind (setLastFlush_safe _) fun _ => Safe.ite
    (Safe.bind flushPending_safe fun _ => Safe.bind outputFull_safe fun _ => Safe.ite
      (Safe.bind (setLastFlush_safe _) fun _ => Safe.pure _) (stepWork_safe flush))
    (stepWork_safe flush)

theorem stepHeader_safe : Safe stepHeader where
  engine := by
    refine Rel.get_bind fun s => ?_
    rw [ite_run]
    split
    · rename_i hi
      have hq := putHeader_quiet s
      rw [bind_run]
      cases hr : putHeader s with
      | mk r t =>
        rw [hr] at hq
        cases r with
        | error e => exact hq.2
        | ok a =>
          refine Engine.trans _ _ _ hq.2 (Engine.of_stage ?_)
          rw [hq.1, hi]
          decide
    · exact Engine.refl s
  accumulator := Keeps.bind Keeps.get fun _ => Keeps.ite
    (Keeps.bind putHeader_accumulator fun _ => Keeps.modify fun _ hs => hs) (Keeps.pure _)

theorem notFresh_engine (s : State) : Engine s { s with regs := { s.regs with fresh := false } } where
  frame := { EngineFrame.refl s with fresh := fun h => by cases h }
  canonical := fun hc => ⟨hc.mat, hc.pk, hc.cod, hc.hostMem⟩

theorem stepAccepted_safe (flush : BitVec 3) : Safe (stepAccepted flush) :=
  Safe.bind (Safe.modify_quiet notFresh_engine fun _ => rfl) fun _ => Safe.bind stepHeader_safe fun _ =>
    Safe.bind Safe.get fun _ => Safe.ite (Safe.bind flushPending_safe fun _ => Safe.pure _) (stepFresh_safe flush _)

theorem checkBoundary_safe : Safe checkBoundary := Safe.bind Safe.get fun _ => Safe.require _

theorem stepBody_safe (flush : BitVec 3) : Safe (stepBody flush) :=
  Safe.bind Safe.get fun s => by
    cases s.stepRefusal flush
    · exact Safe.bind (stepAccepted_safe flush) fun _ => Safe.bind checkBoundary_safe fun _ => Safe.pure _
    · exact Safe.pure _

/-! `SET_DICT`. -/

theorem readDict_safe (addr : Word) (index : Nat) : ∀ r i, Safe (readDict addr index r i)
  | 0, _ => Safe.pure _
  | r + 1, i =>
    Safe.bind (memRead_safe _) fun b => Safe.bind Safe.get fun _ => Safe.bind (Safe.onlyIf (ckUpdate_safe b)) fun _ =>
      Safe.bind (Safe.onlyIf (Safe.bind (Safe.require _) fun _ => Safe.onMatcher (setWindow_stays _ b))) fun _ =>
        readDict_safe addr index r (i + 1)

theorem setDictBody_safe : Safe setDictBody :=
  Safe.bind Safe.get fun _ => Safe.ite (Safe.pure _) (Safe.ite (Safe.pure _)
    (Safe.bind (Safe.modify_quiet notFresh_engine fun _ => rfl) fun _ => Safe.bind (readDict_safe _ _ _ _) fun _ =>
      Safe.ite (Safe.pure _)
        (Safe.bind (Safe.onMatcher (Rel.modify fun _ => id)) fun _ => Safe.bind (Safe.onMatcher (seedHash_stays _ _)) fun _ =>
          Safe.bind (Safe.onMatcher (insertAll_stays _ _ _)) fun _ => Safe.bind checkBoundary_safe fun _ => Safe.pure _)))

/-! The block headers. -/

theorem settleDeferred_safe : Safe settleDeferred :=
  Safe.bind Safe.get fun _ => Safe.onlyIf (Safe.bind tallyDeferred_safe fun _ => Safe.onMatcher (Rel.modify fun _ => id))

theorem emitStored_safe (eof : Bool) : Safe (emitStored eof) :=
  Safe.bind Safe.get fun _ => Safe.bind (Safe.indexOf _) fun _ => Safe.bind (Safe.require _) fun _ => storedBlock_safe _ _ _

theorem emitDynamic_safe (eof : Bool) : Safe (emitDynamic eof) :=
  Safe.bind (Safe.onCoder buildTrees_stays) fun _ => dynamicBlock_safe _ _

theorem closeBlock_safe {emit : Bool → Proc State Unit} (h : ∀ eof, Safe (emit eof)) (eof : Bool) : Safe (closeBlock emit eof) :=
  Safe.bind settleDeferred_safe fun _ => Safe.bind (h eof) fun _ => Safe.bind (endBlockStats_safe eof) fun _ =>
    Safe.bind nextBlock_safe fun _ => Safe.onlyIf toFinish_safe

theorem closeAccepted_safe {emit : Bool → Proc State Unit} (h : ∀ eof, Safe (emit eof)) (eof : Bool) :
    Safe (closeAccepted emit eof) :=
  Safe.bind (Safe.modify_quiet notFresh_engine fun _ => rfl) fun _ => Safe.bind stepHeader_safe fun _ =>
    Safe.bind flushPending_safe fun _ => Safe.bind Safe.get fun _ => Safe.ite (Safe.pure _)
      (Safe.bind (closeBlock_safe h eof) fun _ => Safe.pure _)

/-- Whatever a block header does is within the frame of the engine, and keeps the canonical forms and the accumulator in order. -/
theorem closeBody_safe {emit : Bool → Proc State Unit} (h : ∀ eof, Safe (emit eof)) (eof : Bool) : Safe (closeBody emit eof) :=
  Safe.bind Safe.get fun s => by
    cases s.blockRefusal eof
    · exact Safe.bind (closeAccepted_safe h eof) fun _ => Safe.bind checkBoundary_safe fun _ => Safe.pure _
    · exact Safe.pure _

end Sys2Proof.Machine
end

