-- ==== Sys2Proof/Laws/State.lean ====
section
/-! SUPPORT. What each named change of the state leaves as it was, and what it sets: one equation for each part of the state
and each change, true by definition, so that no later proof unfolds a record update. -/

namespace Sys2Proof.Machine

/-! `report`. -/

@[simp] theorem report_conf (st : Status) (s : State) : (report st s).conf = s.conf := rfl
@[simp] theorem report_cks (st : Status) (s : State) : (report st s).cks = s.cks := rfl
@[simp] theorem report_mat (st : Status) (s : State) : (report st s).mat = s.mat := rfl
@[simp] theorem report_pk (st : Status) (s : State) : (report st s).pk = s.pk := rfl
@[simp] theorem report_cod (st : Status) (s : State) : (report st s).cod = s.cod := rfl
@[simp] theorem report_lastFlush (st : Status) (s : State) : (report st s).lastFlush = s.lastFlush := rfl
@[simp] theorem report_hostMem (st : Status) (s : State) : (report st s).hostMem = s.hostMem := rfl
@[simp] theorem report_events (st : Status) (s : State) : (report st s).events = s.events := rfl
@[simp] theorem report_portData (st : Status) (s : State) : (report st s).portData = s.portData := rfl
@[simp] theorem report_cmd (st : Status) (s : State) : (report st s).regs.cmd = s.regs.cmd := rfl
@[simp] theorem report_code (st : Status) (s : State) : (report st s).regs.code = st := rfl
@[simp] theorem report_fault (st : Status) (s : State) : (report st s).regs.fault = s.regs.fault := rfl
@[simp] theorem report_sstate (st : Status) (s : State) : (report st s).regs.sstate = s.regs.sstate := rfl
@[simp] theorem report_inValid (st : Status) (s : State) : (report st s).regs.inValid = s.regs.inValid := rfl
@[simp] theorem report_outValid (st : Status) (s : State) : (report st s).regs.outValid = s.regs.outValid := rfl
@[simp] theorem report_fresh (st : Status) (s : State) : (report st s).regs.fresh = s.regs.fresh := rfl
@[simp] theorem report_trailerDone (st : Status) (s : State) : (report st s).regs.trailerDone = s.regs.trailerDone := rfl
@[simp] theorem report_arg0 (st : Status) (s : State) : (report st s).regs.arg0 = s.regs.arg0 := rfl
@[simp] theorem report_arg1 (st : Status) (s : State) : (report st s).regs.arg1 = s.regs.arg1 := rfl
@[simp] theorem report_inPtr (st : Status) (s : State) : (report st s).regs.inPtr = s.regs.inPtr := rfl
@[simp] theorem report_inAvail (st : Status) (s : State) : (report st s).regs.inAvail = s.regs.inAvail := rfl
@[simp] theorem report_outPtr (st : Status) (s : State) : (report st s).regs.outPtr = s.regs.outPtr := rfl
@[simp] theorem report_outAvail (st : Status) (s : State) : (report st s).regs.outAvail = s.regs.outAvail := rfl
@[simp] theorem report_totalIn (st : Status) (s : State) : (report st s).regs.totalIn = s.regs.totalIn := rfl
@[simp] theorem report_totalOut (st : Status) (s : State) : (report st s).regs.totalOut = s.regs.totalOut := rfl
@[simp] theorem report_gzMtime (st : Status) (s : State) : (report st s).regs.gzMtime = s.regs.gzMtime := rfl
@[simp] theorem report_gzOs (st : Status) (s : State) : (report st s).regs.gzOs = s.regs.gzOs := rfl

/-! `takeFatal`. -/

@[simp] theorem takeFatal_conf (s : State) : (takeFatal s).conf = s.conf := rfl
@[simp] theorem takeFatal_cks (s : State) : (takeFatal s).cks = s.cks := rfl
@[simp] theorem takeFatal_mat (s : State) : (takeFatal s).mat = s.mat := rfl
@[simp] theorem takeFatal_pk (s : State) : (takeFatal s).pk = s.pk := rfl
@[simp] theorem takeFatal_cod (s : State) : (takeFatal s).cod = s.cod := rfl
@[simp] theorem takeFatal_lastFlush (s : State) : (takeFatal s).lastFlush = s.lastFlush := rfl
@[simp] theorem takeFatal_hostMem (s : State) : (takeFatal s).hostMem = s.hostMem := rfl
@[simp] theorem takeFatal_events (s : State) : (takeFatal s).events = s.events := rfl
@[simp] theorem takeFatal_portData (s : State) : (takeFatal s).portData = s.portData := rfl
@[simp] theorem takeFatal_cmd (s : State) : (takeFatal s).regs.cmd = s.regs.cmd := rfl
@[simp] theorem takeFatal_code (s : State) : (takeFatal s).regs.code = .errFatal := rfl
@[simp] theorem takeFatal_fault (s : State) : (takeFatal s).regs.fault = true := rfl
@[simp] theorem takeFatal_sstate (s : State) : (takeFatal s).regs.sstate = s.regs.sstate := rfl
@[simp] theorem takeFatal_inValid (s : State) : (takeFatal s).regs.inValid = s.regs.inValid := rfl
@[simp] theorem takeFatal_outValid (s : State) : (takeFatal s).regs.outValid = s.regs.outValid := rfl
@[simp] theorem takeFatal_fresh (s : State) : (takeFatal s).regs.fresh = s.regs.fresh := rfl
@[simp] theorem takeFatal_trailerDone (s : State) : (takeFatal s).regs.trailerDone = s.regs.trailerDone := rfl
@[simp] theorem takeFatal_arg0 (s : State) : (takeFatal s).regs.arg0 = s.regs.arg0 := rfl
@[simp] theorem takeFatal_arg1 (s : State) : (takeFatal s).regs.arg1 = s.regs.arg1 := rfl
@[simp] theorem takeFatal_inPtr (s : State) : (takeFatal s).regs.inPtr = s.regs.inPtr := rfl
@[simp] theorem takeFatal_inAvail (s : State) : (takeFatal s).regs.inAvail = s.regs.inAvail := rfl
@[simp] theorem takeFatal_outPtr (s : State) : (takeFatal s).regs.outPtr = s.regs.outPtr := rfl
@[simp] theorem takeFatal_outAvail (s : State) : (takeFatal s).regs.outAvail = s.regs.outAvail := rfl
@[simp] theorem takeFatal_totalIn (s : State) : (takeFatal s).regs.totalIn = s.regs.totalIn := rfl
@[simp] theorem takeFatal_totalOut (s : State) : (takeFatal s).regs.totalOut = s.regs.totalOut := rfl
@[simp] theorem takeFatal_gzMtime (s : State) : (takeFatal s).regs.gzMtime = s.regs.gzMtime := rfl
@[simp] theorem takeFatal_gzOs (s : State) : (takeFatal s).regs.gzOs = s.regs.gzOs := rfl

/-! `clearFault`. -/

@[simp] theorem clearFault_conf (s : State) : (clearFault s).conf = s.conf := rfl
@[simp] theorem clearFault_cks (s : State) : (clearFault s).cks = s.cks := rfl
@[simp] theorem clearFault_mat (s : State) : (clearFault s).mat = s.mat := rfl
@[simp] theorem clearFault_pk (s : State) : (clearFault s).pk = s.pk := rfl
@[simp] theorem clearFault_cod (s : State) : (clearFault s).cod = s.cod := rfl
@[simp] theorem clearFault_lastFlush (s : State) : (clearFault s).lastFlush = s.lastFlush := rfl
@[simp] theorem clearFault_hostMem (s : State) : (clearFault s).hostMem = s.hostMem := rfl
@[simp] theorem clearFault_events (s : State) : (clearFault s).events = s.events := rfl
@[simp] theorem clearFault_portData (s : State) : (clearFault s).portData = s.portData := rfl
@[simp] theorem clearFault_cmd (s : State) : (clearFault s).regs.cmd = s.regs.cmd := rfl
@[simp] theorem clearFault_code (s : State) : (clearFault s).regs.code = s.regs.code := rfl
@[simp] theorem clearFault_fault (s : State) : (clearFault s).regs.fault = false := rfl
@[simp] theorem clearFault_sstate (s : State) : (clearFault s).regs.sstate = s.regs.sstate := rfl
@[simp] theorem clearFault_inValid (s : State) : (clearFault s).regs.inValid = s.regs.inValid := rfl
@[simp] theorem clearFault_outValid (s : State) : (clearFault s).regs.outValid = s.regs.outValid := rfl
@[simp] theorem clearFault_fresh (s : State) : (clearFault s).regs.fresh = s.regs.fresh := rfl
@[simp] theorem clearFault_trailerDone (s : State) : (clearFault s).regs.trailerDone = s.regs.trailerDone := rfl
@[simp] theorem clearFault_arg0 (s : State) : (clearFault s).regs.arg0 = s.regs.arg0 := rfl
@[simp] theorem clearFault_arg1 (s : State) : (clearFault s).regs.arg1 = s.regs.arg1 := rfl
@[simp] theorem clearFault_inPtr (s : State) : (clearFault s).regs.inPtr = s.regs.inPtr := rfl
@[simp] theorem clearFault_inAvail (s : State) : (clearFault s).regs.inAvail = s.regs.inAvail := rfl
@[simp] theorem clearFault_outPtr (s : State) : (clearFault s).regs.outPtr = s.regs.outPtr := rfl
@[simp] theorem clearFault_outAvail (s : State) : (clearFault s).regs.outAvail = s.regs.outAvail := rfl
@[simp] theorem clearFault_totalIn (s : State) : (clearFault s).regs.totalIn = s.regs.totalIn := rfl
@[simp] theorem clearFault_totalOut (s : State) : (clearFault s).regs.totalOut = s.regs.totalOut := rfl
@[simp] theorem clearFault_gzMtime (s : State) : (clearFault s).regs.gzMtime = s.regs.gzMtime := rfl
@[simp] theorem clearFault_gzOs (s : State) : (clearFault s).regs.gzOs = s.regs.gzOs := rfl

/-! `State.setInputSpan`. -/

@[simp] theorem setInputSpan_conf (s : State) (ptr n : Word) (v : Bool) : (s.setInputSpan ptr n v).conf = s.conf := rfl
@[simp] theorem setInputSpan_cks (s : State) (ptr n : Word) (v : Bool) : (s.setInputSpan ptr n v).cks = s.cks := rfl
@[simp] theorem setInputSpan_mat (s : State) (ptr n : Word) (v : Bool) : (s.setInputSpan ptr n v).mat = s.mat := rfl
@[simp] theorem setInputSpan_pk (s : State) (ptr n : Word) (v : Bool) : (s.setInputSpan ptr n v).pk = s.pk := rfl
@[simp] theorem setInputSpan_cod (s : State) (ptr n : Word) (v : Bool) : (s.setInputSpan ptr n v).cod = s.cod := rfl
@[simp] theorem setInputSpan_lastFlush (s : State) (ptr n : Word) (v : Bool) : (s.setInputSpan ptr n v).lastFlush = s.lastFlush := rfl
@[simp] theorem setInputSpan_hostMem (s : State) (ptr n : Word) (v : Bool) : (s.setInputSpan ptr n v).hostMem = s.hostMem := rfl
@[simp] theorem setInputSpan_events (s : State) (ptr n : Word) (v : Bool) : (s.setInputSpan ptr n v).events = s.events := rfl
@[simp] theorem setInputSpan_portData (s : State) (ptr n : Word) (v : Bool) : (s.setInputSpan ptr n v).portData = s.portData := rfl
@[simp] theorem setInputSpan_cmd (s : State) (ptr n : Word) (v : Bool) : (s.setInputSpan ptr n v).regs.cmd = s.regs.cmd := rfl
@[simp] theorem setInputSpan_code (s : State) (ptr n : Word) (v : Bool) : (s.setInputSpan ptr n v).regs.code = s.regs.code := rfl
@[simp] theorem setInputSpan_fault (s : State) (ptr n : Word) (v : Bool) : (s.setInputSpan ptr n v).regs.fault = s.regs.fault := rfl
@[simp] theorem setInputSpan_sstate (s : State) (ptr n : Word) (v : Bool) : (s.setInputSpan ptr n v).regs.sstate = s.regs.sstate := rfl
@[simp] theorem setInputSpan_inValid (s : State) (ptr n : Word) (v : Bool) : (s.setInputSpan ptr n v).regs.inValid = v := rfl
@[simp] theorem setInputSpan_outValid (s : State) (ptr n : Word) (v : Bool) : (s.setInputSpan ptr n v).regs.outValid = s.regs.outValid := rfl
@[simp] theorem setInputSpan_fresh (s : State) (ptr n : Word) (v : Bool) : (s.setInputSpan ptr n v).regs.fresh = s.regs.fresh := rfl
@[simp] theorem setInputSpan_trailerDone (s : State) (ptr n : Word) (v : Bool) : (s.setInputSpan ptr n v).regs.trailerDone = s.regs.trailerDone := rfl
@[simp] theorem setInputSpan_arg0 (s : State) (ptr n : Word) (v : Bool) : (s.setInputSpan ptr n v).regs.arg0 = s.regs.arg0 := rfl
@[simp] theorem setInputSpan_arg1 (s : State) (ptr n : Word) (v : Bool) : (s.setInputSpan ptr n v).regs.arg1 = s.regs.arg1 := rfl
@[simp] theorem setInputSpan_inPtr (s : State) (ptr n : Word) (v : Bool) : (s.setInputSpan ptr n v).regs.inPtr = ptr := rfl
@[simp] theorem setInputSpan_inAvail (s : State) (ptr n : Word) (v : Bool) : (s.setInputSpan ptr n v).regs.inAvail = n := rfl
@[simp] theorem setInputSpan_outPtr (s : State) (ptr n : Word) (v : Bool) : (s.setInputSpan ptr n v).regs.outPtr = s.regs.outPtr := rfl
@[simp] theorem setInputSpan_outAvail (s : State) (ptr n : Word) (v : Bool) : (s.setInputSpan ptr n v).regs.outAvail = s.regs.outAvail := rfl
@[simp] theorem setInputSpan_totalIn (s : State) (ptr n : Word) (v : Bool) : (s.setInputSpan ptr n v).regs.totalIn = s.regs.totalIn := rfl
@[simp] theorem setInputSpan_totalOut (s : State) (ptr n : Word) (v : Bool) : (s.setInputSpan ptr n v).regs.totalOut = s.regs.totalOut := rfl
@[simp] theorem setInputSpan_gzMtime (s : State) (ptr n : Word) (v : Bool) : (s.setInputSpan ptr n v).regs.gzMtime = s.regs.gzMtime := rfl
@[simp] theorem setInputSpan_gzOs (s : State) (ptr n : Word) (v : Bool) : (s.setInputSpan ptr n v).regs.gzOs = s.regs.gzOs := rfl

/-! `State.setOutputSpan`. -/

@[simp] theorem setOutputSpan_conf (s : State) (ptr n : Word) (v : Bool) : (s.setOutputSpan ptr n v).conf = s.conf := rfl
@[simp] theorem setOutputSpan_cks (s : State) (ptr n : Word) (v : Bool) : (s.setOutputSpan ptr n v).cks = s.cks := rfl
@[simp] theorem setOutputSpan_mat (s : State) (ptr n : Word) (v : Bool) : (s.setOutputSpan ptr n v).mat = s.mat := rfl
@[simp] theorem setOutputSpan_pk (s : State) (ptr n : Word) (v : Bool) : (s.setOutputSpan ptr n v).pk = s.pk := rfl
@[simp] theorem setOutputSpan_cod (s : State) (ptr n : Word) (v : Bool) : (s.setOutputSpan ptr n v).cod = s.cod := rfl
@[simp] theorem setOutputSpan_lastFlush (s : State) (ptr n : Word) (v : Bool) : (s.setOutputSpan ptr n v).lastFlush = s.lastFlush := rfl
@[simp] theorem setOutputSpan_hostMem (s : State) (ptr n : Word) (v : Bool) : (s.setOutputSpan ptr n v).hostMem = s.hostMem := rfl
@[simp] theorem setOutputSpan_events (s : State) (ptr n : Word) (v : Bool) : (s.setOutputSpan ptr n v).events = s.events := rfl
@[simp] theorem setOutputSpan_portData (s : State) (ptr n : Word) (v : Bool) : (s.setOutputSpan ptr n v).portData = s.portData := rfl
@[simp] theorem setOutputSpan_cmd (s : State) (ptr n : Word) (v : Bool) : (s.setOutputSpan ptr n v).regs.cmd = s.regs.cmd := rfl
@[simp] theorem setOutputSpan_code (s : State) (ptr n : Word) (v : Bool) : (s.setOutputSpan ptr n v).regs.code = s.regs.code := rfl
@[simp] theorem setOutputSpan_fault (s : State) (ptr n : Word) (v : Bool) : (s.setOutputSpan ptr n v).regs.fault = s.regs.fault := rfl
@[simp] theorem setOutputSpan_sstate (s : State) (ptr n : Word) (v : Bool) : (s.setOutputSpan ptr n v).regs.sstate = s.regs.sstate := rfl
@[simp] theorem setOutputSpan_inValid (s : State) (ptr n : Word) (v : Bool) : (s.setOutputSpan ptr n v).regs.inValid = s.regs.inValid := rfl
@[simp] theorem setOutputSpan_outValid (s : State) (ptr n : Word) (v : Bool) : (s.setOutputSpan ptr n v).regs.outValid = v := rfl
@[simp] theorem setOutputSpan_fresh (s : State) (ptr n : Word) (v : Bool) : (s.setOutputSpan ptr n v).regs.fresh = s.regs.fresh := rfl
@[simp] theorem setOutputSpan_trailerDone (s : State) (ptr n : Word) (v : Bool) : (s.setOutputSpan ptr n v).regs.trailerDone = s.regs.trailerDone := rfl
@[simp] theorem setOutputSpan_arg0 (s : State) (ptr n : Word) (v : Bool) : (s.setOutputSpan ptr n v).regs.arg0 = s.regs.arg0 := rfl
@[simp] theorem setOutputSpan_arg1 (s : State) (ptr n : Word) (v : Bool) : (s.setOutputSpan ptr n v).regs.arg1 = s.regs.arg1 := rfl
@[simp] theorem setOutputSpan_inPtr (s : State) (ptr n : Word) (v : Bool) : (s.setOutputSpan ptr n v).regs.inPtr = s.regs.inPtr := rfl
@[simp] theorem setOutputSpan_inAvail (s : State) (ptr n : Word) (v : Bool) : (s.setOutputSpan ptr n v).regs.inAvail = s.regs.inAvail := rfl
@[simp] theorem setOutputSpan_outPtr (s : State) (ptr n : Word) (v : Bool) : (s.setOutputSpan ptr n v).regs.outPtr = ptr := rfl
@[simp] theorem setOutputSpan_outAvail (s : State) (ptr n : Word) (v : Bool) : (s.setOutputSpan ptr n v).regs.outAvail = n := rfl
@[simp] theorem setOutputSpan_totalIn (s : State) (ptr n : Word) (v : Bool) : (s.setOutputSpan ptr n v).regs.totalIn = s.regs.totalIn := rfl
@[simp] theorem setOutputSpan_totalOut (s : State) (ptr n : Word) (v : Bool) : (s.setOutputSpan ptr n v).regs.totalOut = s.regs.totalOut := rfl
@[simp] theorem setOutputSpan_gzMtime (s : State) (ptr n : Word) (v : Bool) : (s.setOutputSpan ptr n v).regs.gzMtime = s.regs.gzMtime := rfl
@[simp] theorem setOutputSpan_gzOs (s : State) (ptr n : Word) (v : Bool) : (s.setOutputSpan ptr n v).regs.gzOs = s.regs.gzOs := rfl

/-! `State.consumed`. -/

@[simp] theorem consumed_conf (s : State) (n : Nat) : (s.consumed n).conf = s.conf := rfl
@[simp] theorem consumed_cks (s : State) (n : Nat) : (s.consumed n).cks = s.cks := rfl
@[simp] theorem consumed_mat (s : State) (n : Nat) : (s.consumed n).mat = s.mat := rfl
@[simp] theorem consumed_pk (s : State) (n : Nat) : (s.consumed n).pk = s.pk := rfl
@[simp] theorem consumed_cod (s : State) (n : Nat) : (s.consumed n).cod = s.cod := rfl
@[simp] theorem consumed_lastFlush (s : State) (n : Nat) : (s.consumed n).lastFlush = s.lastFlush := rfl
@[simp] theorem consumed_hostMem (s : State) (n : Nat) : (s.consumed n).hostMem = s.hostMem := rfl
@[simp] theorem consumed_events (s : State) (n : Nat) : (s.consumed n).events = s.events := rfl
@[simp] theorem consumed_portData (s : State) (n : Nat) : (s.consumed n).portData = s.portData := rfl
@[simp] theorem consumed_cmd (s : State) (n : Nat) : (s.consumed n).regs.cmd = s.regs.cmd := rfl
@[simp] theorem consumed_code (s : State) (n : Nat) : (s.consumed n).regs.code = s.regs.code := rfl
@[simp] theorem consumed_fault (s : State) (n : Nat) : (s.consumed n).regs.fault = s.regs.fault := rfl
@[simp] theorem consumed_sstate (s : State) (n : Nat) : (s.consumed n).regs.sstate = s.regs.sstate := rfl
@[simp] theorem consumed_inValid (s : State) (n : Nat) : (s.consumed n).regs.inValid = s.regs.inValid := rfl
@[simp] theorem consumed_outValid (s : State) (n : Nat) : (s.consumed n).regs.outValid = s.regs.outValid := rfl
@[simp] theorem consumed_fresh (s : State) (n : Nat) : (s.consumed n).regs.fresh = s.regs.fresh := rfl
@[simp] theorem consumed_trailerDone (s : State) (n : Nat) : (s.consumed n).regs.trailerDone = s.regs.trailerDone := rfl
@[simp] theorem consumed_arg0 (s : State) (n : Nat) : (s.consumed n).regs.arg0 = s.regs.arg0 := rfl
@[simp] theorem consumed_arg1 (s : State) (n : Nat) : (s.consumed n).regs.arg1 = s.regs.arg1 := rfl
@[simp] theorem consumed_inPtr (s : State) (n : Nat) : (s.consumed n).regs.inPtr = s.regs.inPtr + BitVec.ofNat 32 n := rfl
@[simp] theorem consumed_inAvail (s : State) (n : Nat) : (s.consumed n).regs.inAvail = s.regs.inAvail - BitVec.ofNat 32 n := rfl
@[simp] theorem consumed_outPtr (s : State) (n : Nat) : (s.consumed n).regs.outPtr = s.regs.outPtr := rfl
@[simp] theorem consumed_outAvail (s : State) (n : Nat) : (s.consumed n).regs.outAvail = s.regs.outAvail := rfl
@[simp] theorem consumed_totalIn (s : State) (n : Nat) : (s.consumed n).regs.totalIn = s.regs.totalIn + BitVec.ofNat 64 n := rfl
@[simp] theorem consumed_totalOut (s : State) (n : Nat) : (s.consumed n).regs.totalOut = s.regs.totalOut := rfl
@[simp] theorem consumed_gzMtime (s : State) (n : Nat) : (s.consumed n).regs.gzMtime = s.regs.gzMtime := rfl
@[simp] theorem consumed_gzOs (s : State) (n : Nat) : (s.consumed n).regs.gzOs = s.regs.gzOs := rfl

/-! `State.delivered`. -/

@[simp] theorem delivered_conf (s : State) (n : Nat) : (s.delivered n).conf = s.conf := rfl
@[simp] theorem delivered_cks (s : State) (n : Nat) : (s.delivered n).cks = s.cks := rfl
@[simp] theorem delivered_mat (s : State) (n : Nat) : (s.delivered n).mat = s.mat := rfl
@[simp] theorem delivered_pk (s : State) (n : Nat) : (s.delivered n).pk = s.pk := rfl
@[simp] theorem delivered_cod (s : State) (n : Nat) : (s.delivered n).cod = s.cod := rfl
@[simp] theorem delivered_lastFlush (s : State) (n : Nat) : (s.delivered n).lastFlush = s.lastFlush := rfl
@[simp] theorem delivered_hostMem (s : State) (n : Nat) : (s.delivered n).hostMem = s.hostMem := rfl
@[simp] theorem delivered_events (s : State) (n : Nat) : (s.delivered n).events = s.events := rfl
@[simp] theorem delivered_portData (s : State) (n : Nat) : (s.delivered n).portData = s.portData := rfl
@[simp] theorem delivered_cmd (s : State) (n : Nat) : (s.delivered n).regs.cmd = s.regs.cmd := rfl
@[simp] theorem delivered_code (s : State) (n : Nat) : (s.delivered n).regs.code = s.regs.code := rfl
@[simp] theorem delivered_fault (s : State) (n : Nat) : (s.delivered n).regs.fault = s.regs.fault := rfl
@[simp] theorem delivered_sstate (s : State) (n : Nat) : (s.delivered n).regs.sstate = s.regs.sstate := rfl
@[simp] theorem delivered_inValid (s : State) (n : Nat) : (s.delivered n).regs.inValid = s.regs.inValid := rfl
@[simp] theorem delivered_outValid (s : State) (n : Nat) : (s.delivered n).regs.outValid = s.regs.outValid := rfl
@[simp] theorem delivered_fresh (s : State) (n : Nat) : (s.delivered n).regs.fresh = s.regs.fresh := rfl
@[simp] theorem delivered_trailerDone (s : State) (n : Nat) : (s.delivered n).regs.trailerDone = s.regs.trailerDone := rfl
@[simp] theorem delivered_arg0 (s : State) (n : Nat) : (s.delivered n).regs.arg0 = s.regs.arg0 := rfl
@[simp] theorem delivered_arg1 (s : State) (n : Nat) : (s.delivered n).regs.arg1 = s.regs.arg1 := rfl
@[simp] theorem delivered_inPtr (s : State) (n : Nat) : (s.delivered n).regs.inPtr = s.regs.inPtr := rfl
@[simp] theorem delivered_inAvail (s : State) (n : Nat) : (s.delivered n).regs.inAvail = s.regs.inAvail := rfl
@[simp] theorem delivered_outPtr (s : State) (n : Nat) : (s.delivered n).regs.outPtr = s.regs.outPtr + BitVec.ofNat 32 n := rfl
@[simp] theorem delivered_outAvail (s : State) (n : Nat) : (s.delivered n).regs.outAvail = s.regs.outAvail - BitVec.ofNat 32 n := rfl
@[simp] theorem delivered_totalIn (s : State) (n : Nat) : (s.delivered n).regs.totalIn = s.regs.totalIn := rfl
@[simp] theorem delivered_totalOut (s : State) (n : Nat) : (s.delivered n).regs.totalOut = s.regs.totalOut + BitVec.ofNat 64 n := rfl
@[simp] theorem delivered_gzMtime (s : State) (n : Nat) : (s.delivered n).regs.gzMtime = s.regs.gzMtime := rfl
@[simp] theorem delivered_gzOs (s : State) (n : Nat) : (s.delivered n).regs.gzOs = s.regs.gzOs := rfl

/-! `State.latchCommand`. -/

@[simp] theorem latchCommand_conf (s : State) (w : Word) : (s.latchCommand w).conf = s.conf := rfl
@[simp] theorem latchCommand_cks (s : State) (w : Word) : (s.latchCommand w).cks = s.cks := rfl
@[simp] theorem latchCommand_mat (s : State) (w : Word) : (s.latchCommand w).mat = s.mat := rfl
@[simp] theorem latchCommand_pk (s : State) (w : Word) : (s.latchCommand w).pk = s.pk := rfl
@[simp] theorem latchCommand_cod (s : State) (w : Word) : (s.latchCommand w).cod = s.cod := rfl
@[simp] theorem latchCommand_lastFlush (s : State) (w : Word) : (s.latchCommand w).lastFlush = s.lastFlush := rfl
@[simp] theorem latchCommand_hostMem (s : State) (w : Word) : (s.latchCommand w).hostMem = s.hostMem := rfl
@[simp] theorem latchCommand_events (s : State) (w : Word) : (s.latchCommand w).events = s.events := rfl
@[simp] theorem latchCommand_portData (s : State) (w : Word) : (s.latchCommand w).portData = s.portData := rfl
@[simp] theorem latchCommand_cmd (s : State) (w : Word) : (s.latchCommand w).regs.cmd = w := rfl
@[simp] theorem latchCommand_code (s : State) (w : Word) : (s.latchCommand w).regs.code = s.regs.code := rfl
@[simp] theorem latchCommand_fault (s : State) (w : Word) : (s.latchCommand w).regs.fault = s.regs.fault := rfl
@[simp] theorem latchCommand_sstate (s : State) (w : Word) : (s.latchCommand w).regs.sstate = s.regs.sstate := rfl
@[simp] theorem latchCommand_inValid (s : State) (w : Word) : (s.latchCommand w).regs.inValid = s.regs.inValid := rfl
@[simp] theorem latchCommand_outValid (s : State) (w : Word) : (s.latchCommand w).regs.outValid = s.regs.outValid := rfl
@[simp] theorem latchCommand_fresh (s : State) (w : Word) : (s.latchCommand w).regs.fresh = s.regs.fresh := rfl
@[simp] theorem latchCommand_trailerDone (s : State) (w : Word) : (s.latchCommand w).regs.trailerDone = s.regs.trailerDone := rfl
@[simp] theorem latchCommand_arg0 (s : State) (w : Word) : (s.latchCommand w).regs.arg0 = s.regs.arg0 := rfl
@[simp] theorem latchCommand_arg1 (s : State) (w : Word) : (s.latchCommand w).regs.arg1 = s.regs.arg1 := rfl
@[simp] theorem latchCommand_inPtr (s : State) (w : Word) : (s.latchCommand w).regs.inPtr = s.regs.inPtr := rfl
@[simp] theorem latchCommand_inAvail (s : State) (w : Word) : (s.latchCommand w).regs.inAvail = s.regs.inAvail := rfl
@[simp] theorem latchCommand_outPtr (s : State) (w : Word) : (s.latchCommand w).regs.outPtr = s.regs.outPtr := rfl
@[simp] theorem latchCommand_outAvail (s : State) (w : Word) : (s.latchCommand w).regs.outAvail = s.regs.outAvail := rfl
@[simp] theorem latchCommand_totalIn (s : State) (w : Word) : (s.latchCommand w).regs.totalIn = s.regs.totalIn := rfl
@[simp] theorem latchCommand_totalOut (s : State) (w : Word) : (s.latchCommand w).regs.totalOut = s.regs.totalOut := rfl
@[simp] theorem latchCommand_gzMtime (s : State) (w : Word) : (s.latchCommand w).regs.gzMtime = s.regs.gzMtime := rfl
@[simp] theorem latchCommand_gzOs (s : State) (w : Word) : (s.latchCommand w).regs.gzOs = s.regs.gzOs := rfl

/-! `State.storeByte`. -/

@[simp] theorem storeByte_regs (s : State) (addr : Word) (v : Byte) : (s.storeByte addr v).regs = s.regs := rfl
@[simp] theorem storeByte_conf (s : State) (addr : Word) (v : Byte) : (s.storeByte addr v).conf = s.conf := rfl
@[simp] theorem storeByte_cks (s : State) (addr : Word) (v : Byte) : (s.storeByte addr v).cks = s.cks := rfl
@[simp] theorem storeByte_mat (s : State) (addr : Word) (v : Byte) : (s.storeByte addr v).mat = s.mat := rfl
@[simp] theorem storeByte_pk (s : State) (addr : Word) (v : Byte) : (s.storeByte addr v).pk = s.pk := rfl
@[simp] theorem storeByte_cod (s : State) (addr : Word) (v : Byte) : (s.storeByte addr v).cod = s.cod := rfl
@[simp] theorem storeByte_lastFlush (s : State) (addr : Word) (v : Byte) : (s.storeByte addr v).lastFlush = s.lastFlush := rfl
@[simp] theorem storeByte_events (s : State) (addr : Word) (v : Byte) : (s.storeByte addr v).events = s.events := rfl
@[simp] theorem storeByte_portData (s : State) (addr : Word) (v : Byte) : (s.storeByte addr v).portData = s.portData := rfl
@[simp] theorem storeByte_hostMem (s : State) (addr : Word) (v : Byte) : (s.storeByte addr v).hostMem = s.hostMem.put addr.toNat v := rfl

/-! `State.popEvent`. -/

@[simp] theorem popEvent_regs (s : State) (rest : List Event) : (s.popEvent rest).regs = s.regs := rfl
@[simp] theorem popEvent_conf (s : State) (rest : List Event) : (s.popEvent rest).conf = s.conf := rfl
@[simp] theorem popEvent_cks (s : State) (rest : List Event) : (s.popEvent rest).cks = s.cks := rfl
@[simp] theorem popEvent_mat (s : State) (rest : List Event) : (s.popEvent rest).mat = s.mat := rfl
@[simp] theorem popEvent_pk (s : State) (rest : List Event) : (s.popEvent rest).pk = s.pk := rfl
@[simp] theorem popEvent_cod (s : State) (rest : List Event) : (s.popEvent rest).cod = s.cod := rfl
@[simp] theorem popEvent_lastFlush (s : State) (rest : List Event) : (s.popEvent rest).lastFlush = s.lastFlush := rfl
@[simp] theorem popEvent_hostMem (s : State) (rest : List Event) : (s.popEvent rest).hostMem = s.hostMem := rfl
@[simp] theorem popEvent_portData (s : State) (rest : List Event) : (s.popEvent rest).portData = s.portData := rfl
@[simp] theorem popEvent_events (s : State) (rest : List Event) : (s.popEvent rest).events = rest := rfl

/-! `State.hostRead`. -/

@[simp] theorem hostRead_regs (s : State) (index : BitVec 4) : (s.hostRead index).regs = s.regs := rfl
@[simp] theorem hostRead_conf (s : State) (index : BitVec 4) : (s.hostRead index).conf = s.conf := rfl
@[simp] theorem hostRead_cks (s : State) (index : BitVec 4) : (s.hostRead index).cks = s.cks := rfl
@[simp] theorem hostRead_mat (s : State) (index : BitVec 4) : (s.hostRead index).mat = s.mat := rfl
@[simp] theorem hostRead_pk (s : State) (index : BitVec 4) : (s.hostRead index).pk = s.pk := rfl
@[simp] theorem hostRead_cod (s : State) (index : BitVec 4) : (s.hostRead index).cod = s.cod := rfl
@[simp] theorem hostRead_lastFlush (s : State) (index : BitVec 4) : (s.hostRead index).lastFlush = s.lastFlush := rfl
@[simp] theorem hostRead_hostMem (s : State) (index : BitVec 4) : (s.hostRead index).hostMem = s.hostMem := rfl
@[simp] theorem hostRead_events (s : State) (index : BitVec 4) : (s.hostRead index).events = s.events := rfl
@[simp] theorem hostRead_portData (s : State) (index : BitVec 4) : (s.hostRead index).portData = s.readReg index := rfl

/-! `State.ckReset`. -/

@[simp] theorem ckReset_regs (s : State) : (s.ckReset).regs = s.regs := rfl
@[simp] theorem ckReset_conf (s : State) : (s.ckReset).conf = s.conf := rfl
@[simp] theorem ckReset_mat (s : State) : (s.ckReset).mat = s.mat := rfl
@[simp] theorem ckReset_pk (s : State) : (s.ckReset).pk = s.pk := rfl
@[simp] theorem ckReset_cod (s : State) : (s.ckReset).cod = s.cod := rfl
@[simp] theorem ckReset_lastFlush (s : State) : (s.ckReset).lastFlush = s.lastFlush := rfl
@[simp] theorem ckReset_hostMem (s : State) : (s.ckReset).hostMem = s.hostMem := rfl
@[simp] theorem ckReset_events (s : State) : (s.ckReset).events = s.events := rfl
@[simp] theorem ckReset_portData (s : State) : (s.ckReset).portData = s.portData := rfl
@[simp] theorem ckReset_unit (s : State) : s.ckReset.cks.unit = s.cks.unit := rfl
@[simp] theorem ckReset_ck (s : State) : s.ckReset.cks.ck = s.cks.unit.initial := rfl

end Sys2Proof.Machine
end

