-- ==== Sys2Proof/Laws/Commands.lean ====
section
/-! SUPPORT. The prologue of R280 and the end of a command, said once: when a command is refused, when its body runs, and
everything a next state of `execute` can be; then what each body can leave. -/

namespace Sys2Proof.Machine

open Host

/-! The prologue. -/

theorem execute_illegal (adm : Admission) (body : Proc State Status) (s : State) :
    execute false adm body s = .next (report .errParam s) := rfl

theorem execute_faulted {adm : Admission} {body : Proc State Status} {s : State} (hf : s.regs.fault = true)
    (ha : adm.whileFault = false) : execute true adm body s = .next (report .errFatal s) := by
  simp [execute, hf, ha]

theorem execute_unconf {adm : Admission} {body : Proc State Status} {s : State}
    (hf : s.regs.fault = false ∨ adm.whileFault = true) (hs : s.regs.sstate = .unconf) (ha : adm.whileUnconf = false) :
    execute true adm body s = .next (report .errProtocol s) := by
  rcases hf with hf | hf <;> simp [execute, hf, hs, ha]

/-- The body runs when nothing refuses the command. -/
theorem execute_admitted {adm : Admission} {body : Proc State Status} {s : State}
    (hf : s.regs.fault = false ∨ adm.whileFault = true) (hs : s.regs.sstate ≠ .unconf ∨ adm.whileUnconf = true) :
    execute true adm body s = finishCommand (body s) := by
  rcases hf with hf | hf <;> rcases hs with hs | hs <;> simp [execute, hf, hs]

theorem execute_live {body : Proc State Status} {s : State} (h : s.live) :
    execute true ⟨false, false⟩ body s = finishCommand (body s) :=
  execute_admitted (.inl h.1) (.inl h.2)

theorem execute_always {body : Proc State Status} (s : State) : execute true ⟨true, true⟩ body s = finishCommand (body s) :=
  execute_admitted (.inr rfl) (.inr rfl)

/-- Everything that `execute` can answer as a next state. -/
theorem execute_cases {legal : Bool} {adm : Admission} {body : Proc State Status} {s t : State}
    (h : execute legal adm body s = .next t) :
    (legal = false ∧ t = report .errParam s)
    ∨ (legal = true ∧ s.regs.fault = true ∧ adm.whileFault = false ∧ t = report .errFatal s)
    ∨ (legal = true ∧ s.regs.sstate = .unconf ∧ adm.whileUnconf = false ∧ t = report .errProtocol s)
    ∨ (legal = true ∧ (s.regs.fault = false ∨ adm.whileFault = true) ∧ (s.regs.sstate ≠ .unconf ∨ adm.whileUnconf = true)
      ∧ ((∃ st u, body s = (.ok st, u) ∧ t = report st u) ∨ ∃ u, body s = (.error .fatal, u) ∧ t = takeFatal u)) := by
  cases legal with
  | false =>
    rw [execute_illegal] at h
    cases h
    exact .inl ⟨rfl, rfl⟩
  | true =>
    right
    by_cases hf : s.regs.fault = true ∧ adm.whileFault = false
    · rw [execute_faulted hf.1 hf.2] at h
      cases h
      exact .inl ⟨rfl, hf.1, hf.2, rfl⟩
    · have hf' : s.regs.fault = false ∨ adm.whileFault = true := by
        cases h1 : s.regs.fault <;> cases h2 : adm.whileFault <;> simp_all
      right
      by_cases hs : s.regs.sstate = .unconf ∧ adm.whileUnconf = false
      · rw [execute_unconf hf' hs.1 hs.2] at h
        cases h
        exact .inl ⟨rfl, hs.1, hs.2, rfl⟩
      · have hs' : s.regs.sstate ≠ .unconf ∨ adm.whileUnconf = true := by
          cases h2 : adm.whileUnconf <;> simp_all
        rw [execute_admitted hf' hs'] at h
        refine .inr ⟨rfl, hf', hs', ?_⟩
        cases hb : body s with
        | mk r u =>
          rw [hb] at h
          cases r with
          | ok st =>
            cases h
            exact .inl ⟨st, u, rfl, rfl⟩
          | error e =>
            cases e with
            | fatal =>
              cases h
              exact .inr ⟨u, rfl, rfl⟩
            | stuck f => cases h

/-- A body that is one change of the state, run. -/
@[simp] theorem answerOk_run (f : State → State) (s : State) : answerOk f s = (.ok .ok, f s) := rfl

/-- The changes and the answer of a command whose body is one change. -/
theorem finish_answerOk (f : State → State) (s : State) : finishCommand (answerOk f s) = .next (report .ok (f s)) := rfl

/-! What a command that runs the engine can leave. -/

/-- The frame of a command whose body is `Safe`. -/
theorem execute_frame {legal : Bool} {body : Proc State Status} {s t : State} (hb : Safe body)
    (h : execute legal ⟨false, false⟩ body s = .next t) :
    ∃ u, Engine s u ∧ ((∃ st, t = report st u) ∨ t = takeFatal u) := by
  rcases execute_cases h with ⟨-, rfl⟩ | ⟨-, -, -, rfl⟩ | ⟨-, -, -, rfl⟩ | ⟨-, -, -, ⟨st, u, hu, rfl⟩ | ⟨u, hu, rfl⟩⟩
  · exact ⟨s, Engine.refl s, .inl ⟨_, rfl⟩⟩
  · exact ⟨s, Engine.refl s, .inl ⟨_, rfl⟩⟩
  · exact ⟨s, Engine.refl s, .inl ⟨_, rfl⟩⟩
  · have he := hb.engine s
    rw [hu] at he
    exact ⟨u, he, .inl ⟨st, rfl⟩⟩
  · have he := hb.engine s
    rw [hu] at he
    exact ⟨u, he, .inr rfl⟩

theorem State.Canonical.report {s : State} (h : s.Canonical) (st : Status) : (report st s).Canonical :=
  ⟨h.mat, h.pk, h.cod, h.hostMem⟩

theorem State.Canonical.takeFatal {s : State} (h : s.Canonical) : (takeFatal s).Canonical := ⟨h.mat, h.pk, h.cod, h.hostMem⟩

/-- What a check of R34 that passes says. -/
theorem checkBoundary_ok {s t : State} {a : Unit} (h : checkBoundary s = (.ok a, t)) : t = s ∧ s.boundaryOk = true := by
  unfold checkBoundary at h
  rw [Proc.get_bind_run, Proc.require_run] at h
  split at h
  · rename_i hc
    cases h
    exact ⟨rfl, hc⟩
  · cases h

/-- After an accepted `STEP` that answers, the cursors are in order. -/
theorem stepBody_ok {flush : BitVec 3} {s t : State} {st : Status} (h : stepBody flush s = (.ok st, t)) :
    (s.stepRefusal flush = some st ∧ t = s)
    ∨ (s.stepRefusal flush = none ∧ stepAccepted flush s = (.ok st, t) ∧ t.boundaryOk = true) := by
  unfold stepBody at h
  rw [Proc.get_bind_run] at h
  cases hr : s.stepRefusal flush with
  | some st' =>
    rw [hr] at h
    cases h
    exact .inl ⟨rfl, rfl⟩
  | none =>
    rw [hr] at h
    obtain ⟨st', u, h1, h2⟩ := Proc.of_bind_ok h
    obtain ⟨_, v, h3, h4⟩ := Proc.of_bind_ok h2
    obtain ⟨rfl, hb⟩ := checkBoundary_ok h3
    cases h4
    exact .inr ⟨rfl, h1, hb⟩

/-- A block header that answers was refused and changed nothing, or was accepted and leaves the cursors in order. -/
theorem closeBody_ok {emit : Bool → Proc State Unit} {eof : Bool} {s t : State} {st : Status}
    (h : closeBody emit eof s = (.ok st, t)) :
    (s.blockRefusal eof = some st ∧ t = s)
    ∨ (s.blockRefusal eof = none ∧ closeAccepted emit eof s = (.ok st, t) ∧ t.boundaryOk = true) := by
  unfold closeBody at h
  rw [Proc.get_bind_run] at h
  cases hr : s.blockRefusal eof with
  | some st' =>
    rw [hr] at h
    cases h
    exact .inl ⟨rfl, rfl⟩
  | none =>
    rw [hr] at h
    obtain ⟨st', u, h1, h2⟩ := Proc.of_bind_ok h
    obtain ⟨_, v, h3, h4⟩ := Proc.of_bind_ok h2
    obtain ⟨rfl, hb⟩ := checkBoundary_ok h3
    cases h4
    exact .inr ⟨rfl, h1, hb⟩

/-- A block header that is refused changes nothing. -/
theorem closeBody_refused {emit : Bool → Proc State Unit} {eof : Bool} {s : State} {st : Status} (h : s.blockRefusal eof = some st) :
    closeBody emit eof s = (.ok st, s) := by
  unfold closeBody
  rw [Proc.get_bind_run, h]
  rfl

/-- What `PARAMS` does: it changes the parameters at once, or runs the body of `STEP PARTIAL_FLUSH` first. -/
theorem paramsBody_run (level : BitVec 4) (strategy : BitVec 2) (s : State) :
    paramsBody level strategy s =
      if s.paramsFlushes level then
        match stepBody partialFlush s with
        | (.ok st, u) =>
          match u.paramsBlocked st with
          | some st' => (.ok st', u)
          | none => (.ok .ok, u.setParams level strategy)
        | (.error e, u) => (.error e, u)
      else (.ok .ok, s.setParams level strategy) := by
  unfold paramsBody
  rw [Proc.get_bind_run, Proc.ite_run]
  split
  · rw [Proc.bind_run]
    cases hb : stepBody partialFlush s with
    | mk r u =>
      cases r with
      | error e => rfl
      | ok st =>
        dsimp only
        rw [Proc.get_bind_run]
        cases u.paramsBlocked st <;> rfl
  · rfl

end Sys2Proof.Machine
end

