-- ==== Sys2Proof/Laws/PerInstr.lean ====
section
/-! SUPPORT. The families of LAWS.json: statements for every instruction, one lemma for each constructor of `Instr`. -/

namespace Sys2Proof.Laws.OpcodeRow

/-- The `match` and `mask` of an instruction's row in spec/opcode_table.json. -/
def row : Instr → Nat × Nat
  | .init _ _ _ _ _ => (0x00000001, 0xFC00C0FF)
  | .reset => (0x00000002, 0xFFFFFFFF)
  | .setDict => (0x00000003, 0xFFFFFFFF)
  | .setInput => (0x00000004, 0xFFFFFFFF)
  | .setOutput => (0x00000005, 0xFFFFFFFF)
  | .step _ => (0x00000006, 0xFFFFF8FF)
  | .params _ _ => (0x00000007, 0xFFFFC0FF)
  | .endSession => (0x00000008, 0xFFFFFFFF)
  | .blockStored _ => (0x0, 0x6)
  | .blockStatic _ => (0x2, 0x6)
  | .blockDynamic _ => (0x4, 0x6)
  | .blockReserved _ => (0x6, 0x6)

/-- The bits of an encoding, as a number. -/
def value : Encoded → Nat
  | .command w => w.toNat
  | .header h => h.toNat

/-- The fixed bits of an instruction's encoding are those of its row. -/
def Statement (i : Instr) : Prop := value (encode i) &&& (row i).2 = (row i).1

/-- A masked word, as bit vectors. -/
theorem of_word (w m r : Word) (h : w &&& m = r) : w.toNat &&& m.toNat = r.toNat := by rw [← h, BitVec.toNat_and]

theorem init (level : BitVec 4) (strategy : BitVec 2) (windowBits memLevel : BitVec 4) (wrap : BitVec 2) :
    Statement (.init level strategy windowBits memLevel wrap) := by
  refine of_word _ 0xFC00C0FF#32 0x00000001#32 (BitVec.eq_of_getLsbD_eq fun k hk => ?_)
  simp only [fieldAt, BitVec.getLsbD_and, BitVec.getLsbD_or, BitVec.getLsbD_shiftLeft, BitVec.getLsbD_setWidth]
  interval_cases k <;> simp

theorem reset : Statement .reset := by unfold Statement; decide

theorem setDict : Statement .setDict := by unfold Statement; decide

theorem setInput : Statement .setInput := by unfold Statement; decide

theorem setOutput : Statement .setOutput := by unfold Statement; decide

theorem step (flush : BitVec 3) : Statement (.step flush) := by
  revert flush; unfold Statement; decide

theorem params (level : BitVec 4) (strategy : BitVec 2) : Statement (.params level strategy) := by
  revert level strategy; unfold Statement; decide

theorem endSession : Statement .endSession := by unfold Statement; decide

theorem blockStored (bfinal : Bool) : Statement (.blockStored bfinal) := by cases bfinal <;> (unfold Statement; decide)

theorem blockStatic (bfinal : Bool) : Statement (.blockStatic bfinal) := by cases bfinal <;> (unfold Statement; decide)

theorem blockDynamic (bfinal : Bool) : Statement (.blockDynamic bfinal) := by cases bfinal <;> (unfold Statement; decide)

theorem blockReserved (bfinal : Bool) : Statement (.blockReserved bfinal) := by cases bfinal <;> (unfold Statement; decide)

end Sys2Proof.Laws.OpcodeRow
end

