-- ==== Sys2Proof/Laws/Sessions.lean ====
section
/-! SUPPORT. What a configuration in order fixes (R7, R8), that `INIT` and `PARAMS` leave one, and that the cursors of a
session that has just started are in order (R34, R282). -/

namespace Sys2Proof.Machine

/-- What the configuration of an accepted `INIT` is. -/
theorem Conf.ofFields_consistent (c : Conf) {l st wb ml w} (hw : (Instr.init l st wb ml w).wellFormed = true) : (c.ofFields l st wb ml w).loadTuning.Consistent := by
  simp only [Instr.wellFormed, Bool.and_eq_true] at hw
  obtain ⟨⟨⟨⟨a, b⟩, c⟩, d⟩, e⟩ := hw
  exact ⟨a, b, c, d, e, rfl, rfl⟩

/-- The sizes of a configuration in order, from its fields. -/
structure Conf.Sizes (c : Conf) : Prop where
  windowSize : c.windowSize = 2 ^ c.windowBits.toNat
  hashSize : c.hashSize = 2 ^ (c.memLevel.toNat + 7)
  literalBufferSize : c.literalBufferSize = 2 ^ (c.memLevel.toNat + 6)
  pendingBufSize : c.pendingBufSize = 4 * 2 ^ (c.memLevel.toNat + 6)
  windowMask : c.windowMask = c.windowSize - 1
  hashMask : c.hashMask = c.hashSize - 1
  maxDist : c.maxDist = c.windowSize - 262
  hashShift : c.hashShift = (c.memLevel.toNat + 9) / 3
  windowBits_ge : 9 ≤ c.windowBits.toNat
  windowBits_le : c.windowBits.toNat ≤ 15
  memLevel_ge : 1 ≤ c.memLevel.toNat
  memLevel_le : c.memLevel.toNat ≤ 9

theorem Conf.Consistent.toSizes {c : Conf} (h : c.Consistent) : c.Sizes := by
  have hs := h.sizes
  have hw : c.windowSize = 2 ^ c.windowBits.toNat := (congrArg Conf.windowSize hs).symm
  have hh : c.hashSize = 2 ^ (c.memLevel.toNat + 7) := (congrArg Conf.hashSize hs).symm
  have hm := h.memLevel
  simp only [memLevelLegal, Bool.and_eq_true, decide_eq_true_eq] at hm
  exact {
    windowSize := hw
    hashSize := hh
    literalBufferSize := (congrArg Conf.literalBufferSize hs).symm
    pendingBufSize := (congrArg Conf.pendingBufSize hs).symm
    windowMask := by rw [hw]; exact (congrArg Conf.windowMask hs).symm
    hashMask := by rw [hh]; exact (congrArg Conf.hashMask hs).symm
    maxDist := by rw [hw]; exact (congrArg Conf.maxDist hs).symm
    hashShift := by
      rw [← congrArg Conf.hashShift hs]
      show (c.memLevel.toNat + 7 + 3 - 1) / 3 = _
      congr 1
    windowBits_ge := of_decide_eq_true h.windowBits
    windowBits_le := by omega
    memLevel_ge := hm.1
    memLevel_le := hm.2 }

/-- The bounds that make every index of a session fit the memories. -/
theorem Conf.Sizes.bounds {c : Conf} (h : c.Sizes) :
    2 ^ 9 ≤ c.windowSize ∧ c.windowSize ≤ 2 ^ 15 ∧ 2 ^ 8 ≤ c.hashSize ∧ c.hashSize ≤ 2 ^ 16 ∧ 2 ^ 7 ≤ c.literalBufferSize
      ∧ c.literalBufferSize ≤ 2 ^ 15 ∧ 2 ^ 9 ≤ c.pendingBufSize ∧ c.pendingBufSize ≤ 2 ^ 17 := by
  have h1 := h.windowBits_ge
  have h2 := h.windowBits_le
  have h3 := h.memLevel_ge
  have h4 := h.memLevel_le
  rw [h.windowSize, h.hashSize, h.literalBufferSize, h.pendingBufSize]
  have e : 4 * 2 ^ (c.memLevel.toNat + 6) = 2 ^ (c.memLevel.toNat + 8) := by rw [pow_add 2 _ 8, pow_add 2 _ 6]; ring
  rw [e]
  refine ⟨?_, ?_, ?_, ?_, ?_, ?_, ?_, ?_⟩ <;> exact Nat.pow_le_pow_right (by decide) (by omega)

/-- An empty hash entry is a position in range. -/
theorem Conf.Sizes.positionOk_zero {c : Conf} (h : c.Sizes) : c.positionOk 0#16 = true := by
  have hb := h.bounds.1
  unfold Conf.positionOk Conf.windowBufSize
  simp only [minMatch, BitVec.toNat_ofNat, decide_eq_true_eq]
  omega

/-- The match finder's cursors are in order when a session starts. -/
theorem Matcher.sessionReset_cursorsOk {c : Conf} (h : c.Sizes) (m : Matcher) : (m.sessionReset c).cursorsOk c = true := by
  obtain ⟨-, hw, -, hh, -⟩ := h.bounds
  have p0 := h.positionOk_zero
  have e : (2 : Nat) ^ 16 ≤ 2 ^ ramBits := Nat.pow_le_pow_right (by decide) (by decide)
  unfold Matcher.cursorsOk
  simp only [Bool.and_eq_true]
  refine ⟨⟨⟨?_, ?_⟩, ?_⟩, ?_⟩
  · simp [Matcher.sessionReset]
  · simp [Matcher.sessionReset]
  · rw [Ram.allBelow_iff p0]
    intro i hi hi'
    show c.positionOk ((m.head.clearBelow c.hashSize).get i) = true
    rw [Ram.get_clearBelow _ _ (by omega), if_pos (by omega)]
    exact p0
  · rw [Ram.allBelow_iff p0]
    intro i hi hi'
    show c.positionOk ((m.prev.clearBelow c.windowSize).get i) = true
    rw [Ram.get_clearBelow _ _ (by omega), if_pos (by omega)]
    exact p0

/-- A session that has just started is in order. -/
theorem State.sessionReset_ok {s : State} (h : s.conf.loadTuning.Consistent) : s.sessionReset.SessionOk := by
  have hs := h.toSizes
  have hb := hs.bounds
  refine ⟨h, ?_, ⟨by show (0#5).toNat ≤ 16; decide, by show (0#16).toNat < 2 ^ (0#5).toNat; decide⟩⟩
  unfold State.boundaryOk
  show ((s.mat.sessionReset s.conf.loadTuning).cursorsOk s.conf.loadTuning && s.pk.sessionReset.cursorsOk s.conf.loadTuning
    && s.cod.sessionReset.cursorsOk s.conf.loadTuning) = true
  rw [Matcher.sessionReset_cursorsOk hs]
  simp [Packer.sessionReset, Packer.cursorsOk, Coder.sessionReset, Coder.cursorsOk, Coder.initBlock]
  omega

/-- `SessionOk` speaks of four parts of the state. -/
theorem State.SessionOk.of_parts {s t : State} (h : s.SessionOk) (hc : t.conf = s.conf) (hm : t.mat = s.mat) (hp : t.pk = s.pk)
    (hk : t.cod = s.cod) : t.SessionOk := by
  obtain ⟨a, b, c⟩ := h
  refine ⟨hc ▸ a, ?_, hp ▸ c⟩
  unfold State.boundaryOk at b ⊢
  rw [hc, hm, hp, hk]
  exact b

/-- `Canonical` speaks of four parts of the state. -/
theorem State.Canonical.of_parts {s t : State} (h : s.Canonical) (hm : t.mat = s.mat) (hp : t.pk = s.pk) (hk : t.cod = s.cod)
    (hh : t.hostMem = s.hostMem) : t.Canonical :=
  ⟨hm ▸ h.mat, hp ▸ h.pk, hk ▸ h.cod, hh ▸ h.hostMem⟩

/-- The sizes do not depend on the level, the strategy or the tuning values. -/
theorem Conf.ofFields_tuned {c : Conf} (h : c.ofFields c.level c.strategy c.windowBits c.memLevel c.wrap = c) (level : BitVec 4)
    (strategy : BitVec 2) (g m n k : BitVec 13) :
    ({ c with
      level := level, strategy := strategy, goodMatch := g, maxLazyMatch := m, niceMatch := n,
      maxChainLength := k } : Conf).ofFields level strategy c.windowBits c.memLevel c.wrap
      = { c with
      level := level, strategy := strategy, goodMatch := g, maxLazyMatch := m, niceMatch := n, maxChainLength := k } := by
  conv_rhs => rw [← h]
  rfl

/-- `PARAMS` with legal fields leaves a session in order. -/
theorem State.setParams_ok {u : State} {l : BitVec 4} {st : BitVec 2} (h : u.SessionOk)
    (hw : (Instr.params l st).wellFormed = true) : (u.setParams l st).SessionOk := by
  simp only [Instr.wellFormed, Bool.and_eq_true] at hw
  obtain ⟨a, b, c⟩ := h
  have a7 := a.sizes
  have a8 := a.tuning
  unfold State.setParams
  by_cases hl : l = u.conf.level
  · simp only [ne_eq, hl, not_true, if_false]
    refine ⟨⟨a.level, hw.2, a.windowBits, a.memLevel, a.wrap, ?_, ?_⟩, b, c⟩
    · conv_rhs => rw [← a7]
      rfl
    · conv_rhs => rw [← a8]
      rfl
  · simp only [ne_eq, hl, not_false_eq_true, if_true]
    refine ⟨⟨hw.1, hw.2, a.windowBits, a.memLevel, a.wrap, ?_, rfl⟩, b, c⟩
    exact Conf.ofFields_tuned a7 _ _ _ _ _ _

end Sys2Proof.Machine
end

