-- ==== Sys2Proof/Laws/Spans.lean ====
section
/-! SUPPORT. What the two loops over the host's spans do: `ReadBuf`'s over the input (R70) and `FlushPending`'s over the
output (R71), when their indices are in range and the bytes read are there. -/

namespace Sys2Proof.Machine

open Proc

/-- Two different offsets below 2^32 name different addresses. -/
theorem span_ne {base : Word} {i j : Nat} (hi : i < 2 ^ 32) (hj : j < 2 ^ 32) (h : i ≠ j) :
    (base + BitVec.ofNat 32 i).toNat ≠ (base + BitVec.ofNat 32 j).toNat := by
  intro he
  have h1 := (BitVec.add_right_inj base).1 (BitVec.eq_of_toNat_eq he)
  have h2 := congrArg BitVec.toNat h1
  rw [BitVec.toNat_ofNat, BitVec.toNat_ofNat, Nat.mod_eq_of_lt hi, Nat.mod_eq_of_lt hj] at h2
  exact h h2

theorem span_succ (base : Word) (i : Nat) : base + 1#32 + BitVec.ofNat 32 i = base + BitVec.ofNat 32 (i + 1) := by
  rw [Nat.add_comm i 1, BitVec.ofNat_add, BitVec.add_assoc]

/-- A byte that is there is read, and nothing changes (R61). -/
theorem memRead_run {s : State} {addr : Word} {b : Byte} (h : s.hostMem.get addr.toNat = some b) :
    memRead addr s = (.ok b, s) := by
  unfold memRead
  rw [get_bind_run, h]
  rfl

/-- `n` pending bytes from index `i` on stand at `dst, dst + 1, …` afterwards; what else the loop does is `writeBytes_stores`. -/
theorem writeBytes_run : ∀ (n i : Nat) (dst : Word) (s : State), i + n ≤ s.conf.pendingBufSize → n ≤ 2 ^ 32 →
    ∃ t, writeBytes n i dst s = (.ok (), t)
      ∧ ∀ j, j < n → t.hostMem.get (dst + BitVec.ofNat 32 j).toNat = some (s.pk.pendingBuf.get (i + j))
  | 0, _, _, s, _, _ => ⟨s, rfl, fun j hj => by omega⟩
  | n + 1, i, dst, s, hi, hn => by
    have h : writeBytes (n + 1) i dst s = ((load s.conf.pendingBufSize s.pk.pendingBuf i : Proc State Byte) >>= fun b =>
        memWrite dst b >>= fun _ => writeBytes n (i + 1) (dst + 1#32)) s := rfl
    rw [h, bind_run, load_run, if_pos (by omega)]
    obtain ⟨t, h1, h2⟩ := writeBytes_run n (i + 1) (dst + 1#32) (s.storeByte dst (s.pk.pendingBuf.get i))
      (by show i + 1 + n ≤ s.conf.pendingBufSize; omega) (by omega)
    refine ⟨t, h1, fun j hj => ?_⟩
    cases j with
    | zero =>
      have hst := writeBytes_stores n (i + 1) (dst + 1#32) (s.storeByte dst (s.pk.pendingBuf.get i))
      rw [h1] at hst
      have hne : ¬ inSpan (dst + 1#32) n (dst + BitVec.ofNat 32 0).toNat := by
        rintro ⟨k, hk, he⟩
        rw [span_succ] at he
        exact span_ne (by omega) (by omega) (by omega) he
      rw [hst.outside _ hne, BitVec.add_zero]
      show (s.hostMem.put _ _).get _ = _
      rw [Memory.get_put, if_pos rfl]
      rfl
    | succ j =>
      rw [← span_succ, h2 j (by omega)]
      show some (s.pk.pendingBuf.get _) = _
      congr 2
      omega

/-- The bytes at `src, src + 1, …` stand in the window from `dst` on afterwards, a wrapped session's checksum covers them,
and nothing else changes. -/
theorem readBytes_run : ∀ (n : Nat) (src : Word) (dst : Nat) (s : State), dst + n ≤ s.conf.windowBufSize →
    s.conf.windowBufSize ≤ 2 ^ 17 → s.readable src n →
    ∃ t, readBytes n src dst s = (.ok (), t)
      ∧ t = { s with mat := { s.mat with window := t.mat.window }, cks := t.cks }
      ∧ (∀ i, i < n → some (t.mat.window.get (dst + i)) = s.hostMem.get (src + BitVec.ofNat 32 i).toNat)
      ∧ (∀ i, i < 2 ^ 17 → (i < dst ∨ dst + n ≤ i) → t.mat.window.get i = s.mat.window.get i)
      ∧ t.cks = (if s.conf.wrap = 0#2 then s.cks else
          { s.cks with ck := s.cks.unit.fold s.cks.ck (s.spanBytes src n) })
  | 0, _, _, s, _, _, _ => ⟨s, rfl, rfl, fun i hi => by omega, fun _ _ _ => rfl, by simp [State.spanBytes, ChecksumUnit.fold]⟩
  | n + 1, src, dst, s, h1, h2, h3 => by
    have h0 := h3 0 (by omega)
    rw [BitVec.add_zero] at h0
    obtain ⟨b, hb⟩ := Option.isSome_iff_exists.1 h0
    let s1 : State := { s with mat := { s.mat with window := s.mat.window.set dst b } }
    let s2 : State := if s.conf.wrap = 0#2 then s1 else { s1 with cks := { s1.cks with ck := s1.cks.unit.update s1.cks.ck b } }
    have hc : s2.conf = s.conf := by simp only [s2]; split <;> rfl
    have hh : s2.hostMem = s.hostMem := by simp only [s2]; split <;> rfl
    have hw : s2.mat = s1.mat := by simp only [s2]; split <;> rfl
    have hrun : readBytes (n + 1) src dst s = readBytes n (src + 1#32) (dst + 1) s2 := by
      have h : readBytes (n + 1) src dst s = (memRead src >>= fun b => (get : Proc State State) >>= fun s' =>
          if dst ≥ s'.conf.windowBufSize then raiseFatal
          else onMatcher (modify fun m => { m with window := m.window.set dst b }) >>= fun _ =>
            onlyIf (s'.conf.wrap ≠ wrapRaw) (ckUpdate b) >>= fun _ => readBytes n (src + 1#32) (dst + 1)) s := rfl
      rw [h, bind_run, memRead_run hb]
      dsimp only
      rw [get_bind_run, ite_run, if_neg (by omega), bind_run]
      show (onlyIf (s.conf.wrap ≠ wrapRaw) (ckUpdate b) >>= fun _ => readBytes n (src + 1#32) (dst + 1)) s1 = _
      rw [bind_run, onlyIf_run]
      by_cases hr : s.conf.wrap = 0#2
      · rw [if_neg (by simp [wrapRaw, hr])]
        simp only [s2]
        rw [if_pos hr]
      · rw [if_pos (by simpa [wrapRaw] using hr)]
        simp only [s2]
        rw [if_neg hr]
        rfl
    obtain ⟨t, t1, t2, t3, t4, t5⟩ := readBytes_run n (src + 1#32) (dst + 1) s2 (by rw [hc]; omega) (by rw [hc]; exact h2)
      (fun i hi => by rw [hh, span_succ]; exact h3 (i + 1) (by omega))
    refine ⟨t, hrun.trans t1, ?_, fun i hi => ?_, fun i hi h => ?_, ?_⟩
    · conv_lhs => rw [t2]
      simp only [s2]
      split <;> rfl
    · cases i with
      | zero =>
        rw [Nat.add_zero, BitVec.add_zero, hb, t4 dst (by omega) (by omega), hw]
        exact congrArg some (Ram.get_set_self _ _)
      | succ i =>
        have ht := t3 i (by omega)
        rw [hh, span_succ] at ht
        rw [← ht]
        congr 2
        omega
    · rw [t4 i hi (by omega), hw]
      show (s.mat.window.set dst b).get i = _
      rw [Ram.get_set_of_ne (by unfold ramBits; omega) (by unfold ramBits; omega) (by omega)]
    · rw [t5, hc]
      by_cases hr : s.conf.wrap = 0#2
      · rw [if_pos hr, if_pos hr]
        simp only [s2]
        rw [if_pos hr]
      · rw [if_neg hr, if_neg hr]
        have hk : s2.cks = { s.cks with ck := s.cks.unit.update s.cks.ck b } := by
          simp only [s2]
          rw [if_neg hr]
        have hsp : s.spanBytes src (n + 1) = b :: s2.spanBytes (src + 1#32) n := by
          unfold State.spanBytes
          rw [List.range_succ_eq_map, List.map_cons, List.map_map, BitVec.add_zero, hb]
          congr 1
          refine List.map_congr_left fun i _ => ?_
          show (s.hostMem.get (src + BitVec.ofNat 32 (i + 1)).toNat).getD 0#8 = _
          rw [hh, span_succ]
        rw [hk, hsp]
        rfl

end Sys2Proof.Machine
end

