-- ==== Sys2Proof/Laws/Steps.lean ====
section
/-! SUPPORT. Everything a step can do, said once: which event it consumes and what it becomes. -/

namespace Sys2Proof.Machine

/-- A write to a register other than `CMD` touches the four host-written registers only. -/
theorem writeReg_frame (s : State) (i : BitVec 4) (d : Word) :
    (s.writeReg i d).regs = { s.regs with
      arg0 := (s.writeReg i d).regs.arg0, arg1 := (s.writeReg i d).regs.arg1
      gzMtime := (s.writeReg i d).regs.gzMtime, gzOs := (s.writeReg i d).regs.gzOs }
    ∧ s.writeReg i d = { s with regs := (s.writeReg i d).regs } := by
  unfold State.writeReg
  split <;> exact ⟨rfl, rfl⟩

/-- A step that decodes nothing. -/
theorem step_other {s : State} (h : s.fetch = none) : step s = .next s.otherEvent := by
  unfold step
  rw [h]

/-- What an event that decodes nothing is. -/
theorem otherEvent_cases {s : State} (h : s.fetch = none) :
    s.otherEvent = s
    ∨ (∃ rest i d, s.events = .write i d :: rest ∧ s.otherEvent = (s.popEvent rest).writeReg i d)
    ∨ (∃ rest i, s.events = .read i :: rest ∧ s.otherEvent = (s.popEvent rest).hostRead i)
    ∨ (∃ rest a b, s.events = .store a b :: rest
      ∧ s.otherEvent = { s.popEvent rest with hostMem := s.hostMem.put a.toNat b })
    ∨ ∃ rest, s.events = .hwReset :: rest ∧ s.otherEvent = (s.popEvent rest).hardwareReset := by
  unfold State.otherEvent
  split
  · exact .inl rfl
  · rename_i i d rest he
    exact .inr (.inl ⟨rest, i, d, he, rfl⟩)
  · rename_i i rest he
    exact .inr (.inr (.inl ⟨rest, i, he, rfl⟩))
  · rename_i a b rest he
    exact .inr (.inr (.inr (.inl ⟨rest, a, b, he, rfl⟩)))
  · rename_i rest he
    exact .inr (.inr (.inr (.inr ⟨rest, he, rfl⟩)))
  · rename_i hd rest he
    obtain ⟨⟩ := s
    simp only at he
    subst he
    cases h

/-- A step with a next state runs a decoded command, reports an illegal word, closes a block, or takes another event. -/
theorem step_cases {s t : State} (h : step s = .next t) :
    (∃ w rest i, s.events = .write 0#4 w :: rest ∧ decode w = .ok i
      ∧ exec i { s with events := rest, regs := { s.regs with cmd := w } } = .next t)
    ∨ (∃ w rest e, s.events = .write 0#4 w :: rest ∧ decode w = .error e
      ∧ t = { s with events := rest, regs := { s.regs with cmd := w, code := .errParam } })
    ∨ (∃ hd rest, s.events = .block hd :: rest ∧ exec (decodeHeader hd) { s with events := rest } = .next t)
    ∨ (s.fetch = none ∧ t = s.otherEvent) := by
  unfold step at h
  cases hf : s.fetch with
  | none =>
    rw [hf] at h
    cases h
    exact .inr (.inr (.inr ⟨rfl, rfl⟩))
  | some er =>
    obtain ⟨e, rest⟩ := er
    rw [hf] at h
    unfold State.fetch at hf
    cases e with
    | command w =>
      have he : s.events = .write 0#4 w :: rest := by
        split at hf
        · cases hf; rfl
        · cases hf
        · cases hf
      dsimp only [decodeEncoded] at h
      cases hd : decode w with
      | ok i =>
        rw [hd] at h
        exact .inl ⟨w, rest, i, he, hd, h⟩
      | error e =>
        rw [hd] at h
        cases h
        exact .inr (.inl ⟨w, rest, e, he, hd, rfl⟩)
    | header hd =>
      have he : s.events = .block hd :: rest := by
        split at hf
        · cases hf
        · cases hf; rfl
        · cases hf
      exact .inr (.inr (.inl ⟨hd, rest, he, h⟩))

/-- What a run of `PARAMS` leaves: a status other than `OK`, a fatal error, or `OK` with the parameters changed. -/
theorem execParams_cases {level : BitVec 4} {strategy : BitVec 2} {s t : State} (h : execParams level strategy s = .next t) :
    ∃ u, Engine s u
      ∧ ((∃ st, st ≠ .ok ∧ t = report st u) ∨ t = takeFatal u ∨ t = report .ok (u.setParams level strategy)) := by
  rcases execute_cases h with ⟨-, rfl⟩ | ⟨-, -, -, rfl⟩ | ⟨-, -, -, rfl⟩ | ⟨-, -, -, hb⟩
  · exact ⟨s, .refl s, .inl ⟨_, by decide, rfl⟩⟩
  · exact ⟨s, .refl s, .inl ⟨_, by decide, rfl⟩⟩
  · exact ⟨s, .refl s, .inl ⟨_, by decide, rfl⟩⟩
  · rw [paramsBody_run] at hb
    have he := (stepBody_safe partialFlush).engine s
    rcases hb with ⟨st, u, hu, rfl⟩ | ⟨u, hu, rfl⟩
    · split at hu
      · split at hu
        · rename_i st' v hv
          rw [hv] at he
          split at hu
          · rename_i st'' hst
            cases hu
            refine ⟨u, he, .inl ⟨st, ?_, rfl⟩⟩
            unfold State.paramsBlocked at hst
            split at hst
            · rename_i hq
              cases hst
              rintro rfl
              simp at hq
            · split at hst
              · cases hst; decide
              · split at hst
                · cases hst; decide
                · cases hst
          · cases hu
            exact ⟨v, he, .inr (.inr rfl)⟩
        · cases hu
      · cases hu
        exact ⟨s, .refl s, .inr (.inr rfl)⟩
    · split at hu
      · split at hu
        · split at hu <;> cases hu
        · rename_i e v hv
          rw [hv] at he
          cases hu
          exact ⟨u, he, .inr (.inl rfl)⟩
      · cases hu

end Sys2Proof.Machine
end

