-- ==== Sys2Proof/Tests/Slice0.lean ====
section
/-! SUPPORT. The model's own tests, each with the place of spec/ its expected result comes from, and for every statement of
Sys2Proof/Certificates/Slice0/Obligations.lean that has hypotheses a concrete state and operands that meet them. -/

namespace Sys2Proof.Tests

set_option Elab.async false

open Sys2Proof.Machine

/-! Small states. -/

/-- Something of the next state, if there is one. -/
def after {α : Type} (o : Host.Outcome State Fault Refusal) (f : State → α) : Option α :=
  match o with
  | .next t => some (f t)
  | _ => none

/-- A session with `windowBits = 9` and `memLevel = 1`, just started. -/
def session (level : BitVec 4) (wrap : BitVec 2) : State := State.reset.initSession level 0#2 9#4 1#4 wrap

/-- Bytes stored from `base` on. -/
def bytesAt (base : Word) : List Byte → Memory → Memory
  | [], m => m
  | b :: bs, m => bytesAt (base + 1#32) bs (m.put base.toNat b)

/-- `s` with `bs` at 0x1000 as its input span and room for `n` bytes at 0x2000. -/
def spans (s : State) (bs : List Byte) (n : Nat) : State :=
  { s with
    hostMem := bytesAt 0x1000#32 bs s.hostMem
    regs := { s.regs with
      inPtr := 0x1000#32, inAvail := BitVec.ofNat 32 bs.length, inValid := true
      outPtr := 0x2000#32, outAvail := BitVec.ofNat 32 n, outValid := true } }

/-- `s` with the dictionary `bs` at 0x3000 in `ARG0` and `ARG1`. -/
def dictionary (s : State) (bs : List Byte) : State :=
  { s with
    hostMem := bytesAt 0x3000#32 bs s.hostMem
    regs := { s.regs with arg0 := 0x3000#32, arg1 := BitVec.ofNat 32 bs.length } }

/-- `s` in another stream state. -/
def inState (s : State) (x : StreamState) : State := { s with regs := { s.regs with sstate := x } }

/-- The first `n` bytes at 0x2000. -/
def readOut (n : Nat) (t : State) : List (Option Byte) := (List.range n).map fun i => t.hostMem.get (0x2000 + i)

/-! Decoding, one word written out from the tables of R91 to R94 and R110 for each row of the opcode table. -/

theorem test_decode_init : decode 0b00000001100011110000011000000001#32 = .ok (.init 6#4 0#2 15#4 8#4 1#2) := by decide
theorem test_decode_init_ends : decode 0b00000010100110010010100100000001#32 = .ok (.init 9#4 2#2 9#4 9#4 2#2) := by decide
theorem test_decode_reset : decode 0b00000000000000000000000000000010#32 = .ok .reset := by decide
theorem test_decode_set_dict : decode 0b00000000000000000000000000000011#32 = .ok .setDict := by decide
theorem test_decode_set_input : decode 0b00000000000000000000000000000100#32 = .ok .setInput := by decide
theorem test_decode_set_output : decode 0b00000000000000000000000000000101#32 = .ok .setOutput := by decide
theorem test_decode_step : decode 0b00000000000000000000001100000110#32 = .ok (.step 3#3) := by decide
theorem test_decode_params : decode 0b00000000000000000010010100000111#32 = .ok (.params 5#4 2#2) := by decide
theorem test_decode_end : decode 0b00000000000000000000000000001000#32 = .ok .endSession := by decide
theorem test_decode_block_stored : decodeHeader 0b001#3 = .blockStored true := by decide
theorem test_decode_block_static : decodeHeader 0b010#3 = .blockStatic false := by decide
theorem test_decode_block_dynamic : decodeHeader 0b101#3 = .blockDynamic true := by decide
theorem test_decode_block_reserved : decodeHeader 0b110#3 = .blockReserved false := by decide

/-- R96: an unknown opcode and the must-be-zero bits are rejected by name (95_test_vectors.md, P3 rows 2 to 4 and 10). -/
theorem test_decode_rejects :
    decode 0x00000000#32 = .error .unknownOpcode ∧ decode 0x00000009#32 = .error .unknownOpcode
    ∧ decode 0x00000102#32 = .error .mustBeZero ∧ decode 0x018F4601#32 = .error .mustBeZero
    ∧ decode 0x00000806#32 = .error .mustBeZero ∧ decode 0x00004007#32 = .error .mustBeZero := by decide

theorem test_encode_words :
    encode (.init 6#4 0#2 15#4 8#4 1#2) = .command 0x018F0601#32 ∧ encode (.step 4#3) = .command 0x00000406#32
    ∧ encode (.params 1#4 1#2) = .command 0x00001107#32 ∧ encode (.blockDynamic true) = .header 0b101#3 := by decide

theorem test_table_words :
    decodeTableWord 32 0x00000406 = some (.step 4#3) ∧ decodeTableWord 3 0b011 = some (.blockStatic true)
    ∧ decodeTableWord 32 0x100000006 = none := by decide

/-- The next step runs the word that `withFetchWord` placed. -/
theorem test_fetch_word :
    after (step (State.reset.withFetchWord 32 0x018F0601)) (fun t => (t.readReg 0#4, t.readReg 1#4, t.events.length))
      = some (0x018F0601#32, 0x110#32, 0) := by decide +kernel

/-! Well-formedness: an ill-formed instruction for each check is refused (R7, R91 to R93). -/

theorem test_ill_formed_level : (Instr.init 10#4 0#2 15#4 8#4 1#2).wellFormed = false := by decide
theorem test_ill_formed_strategy : (Instr.init 6#4 3#2 15#4 8#4 1#2).wellFormed = false := by decide
theorem test_ill_formed_window_bits : (Instr.init 6#4 0#2 8#4 8#4 1#2).wellFormed = false := by decide
theorem test_ill_formed_mem_level_low : (Instr.init 6#4 0#2 15#4 0#4 1#2).wellFormed = false := by decide
theorem test_ill_formed_mem_level_high : (Instr.init 6#4 0#2 15#4 10#4 1#2).wellFormed = false := by decide
theorem test_ill_formed_wrap : (Instr.init 6#4 0#2 15#4 8#4 3#2).wellFormed = false := by decide
theorem test_ill_formed_flush : (Instr.step 5#3).wellFormed = false := by decide
theorem test_ill_formed_params_level : (Instr.params 10#4 0#2).wellFormed = false := by decide
theorem test_ill_formed_params_strategy : (Instr.params 6#4 3#2).wellFormed = false := by decide
theorem test_well_formed_ends :
    (Instr.init 9#4 2#2 9#4 1#4 2#2).wellFormed = true ∧ (Instr.step 4#3).wellFormed = true
    ∧ (Instr.params 0#4 2#2).wellFormed = true := by decide

/-- 95_test_vectors.md, P3 row 15: `STEP` with flush 5 reports `ERR_PARAM`. -/
theorem test_ill_formed_step_reports : after (exec (.step 5#3) (session 0#4 0#2)) (fun t => t.regs.code) = some .errParam := by
  decide +kernel

/-! One step of each instruction. -/

/-- 95_test_vectors.md, P1 row 1: `STATUS` and `CKSUM` after `INIT` of a zlib session. -/
theorem test_init_zlib : after (exec (.init 6#4 0#2 15#4 8#4 1#2) State.reset) (fun t => (t.readReg 1#4, t.readReg 0xD#4))
    = some (0x110#32, 1#32) := by decide +kernel

/-- 95_test_vectors.md, P3 row 11: a raw session is `BUSY` at once; R23: `CFG` shows the fields. -/
theorem test_init_raw : after (exec (.init 0#4 0#2 9#4 1#4 0#2) State.reset) (fun t => (t.readReg 1#4, t.readReg 2#4))
    = some (0x120#32, 0x00190000#32) := by decide +kernel

/-- 95_test_vectors.md, P3 row 23: `RESET` keeps the spans and their valid bits. -/
theorem test_reset_keeps_spans :
    after (exec .reset (inState (spans (session 0#4 0#2) [0x68#8] 93) .finish)) (fun t => (t.readReg 1#4, t.regs.outAvail))
      = some (0x1E0#32, 93#32) := by decide +kernel

/-- 95_test_vectors.md, P4 row 2: the checksum of the dictionary `78 61 62 63`, `FRESH = 0`, four bytes in the window. -/
theorem test_set_dict :
    after (exec .setDict (dictionary (session 6#4 1#2) [0x78#8, 0x61#8, 0x62#8, 0x63#8]))
      (fun t => (t.readReg 1#4, t.readReg 0xD#4, t.mat.strStart)) = some (0x010#32, 0x042E019F#32, 4#17) := by decide +kernel

/-- 95_test_vectors.md, P4 variant row 4: two bytes are accepted and nothing is loaded. -/
theorem test_set_dict_short :
    after (exec .setDict (dictionary (session 6#4 1#2) [0x78#8, 0x61#8])) (fun t => (t.readReg 0xD#4, t.mat.strStart))
      = some (0x015300DA#32, 0#17) := by decide +kernel

/-- 95_test_vectors.md, P1 row 2: `IN_VALID` rises. -/
theorem test_set_input :
    after (exec .setInput (dictionary (session 6#4 1#2) [0x61#8])) (fun t => (t.readReg 1#4, t.readReg 5#4, t.readReg 6#4))
      = some (0x150#32, 0x3000#32, 1#32) := by decide +kernel

theorem test_set_output :
    after (exec .setOutput (dictionary (session 6#4 1#2) [0x61#8])) (fun t => (t.readReg 1#4, t.readReg 7#4, t.readReg 8#4))
      = some (0x190#32, 0x3000#32, 1#32) := by decide +kernel

/-- 95_test_vectors.md, P3 row 22: the level-0 stream of `hello`. -/
theorem test_step_stored :
    after (exec (.step 4#3) (spans (session 0#4 0#2) [0x68#8, 0x65#8, 0x6C#8, 0x6C#8, 0x6F#8] 64))
      (fun t => (t.readReg 1#4, readOut 10 t))
      = some (0x0F1#32, [0x01#8, 0x05#8, 0x00#8, 0xFA#8, 0xFF#8, 0x68#8, 0x65#8, 0x6C#8, 0x6C#8, 0x6F#8].map some) := by
  decide +kernel

/-- 95_test_vectors.md, P4 variant row 11: a `STEP NO_FLUSH` of a zlib session writes the header `78 …` and keeps the byte. -/
theorem test_step_buffers :
    after (exec (.step 0#3) (spans (session 6#4 1#2) [0x61#8] 64)) (fun t => (t.readReg 1#4, t.readReg 8#4, t.readReg 0xD#4))
      = some (0x0E0#32, 62#32, 0x00620062#32) := by decide +kernel

/-- R287, R10: a new level with the same strategy function takes effect at once. -/
theorem test_params : after (exec (.params 9#4 1#2) (session 6#4 0#2)) (fun t => (t.conf.level, t.conf.strategy, t.conf.goodMatch))
    = some (9#4, 1#2, 32#13) := by decide +kernel

/-- 95_test_vectors.md, P1 row 7: `END` drops the session and the spans and keeps the checksum. -/
theorem test_end : after (exec .endSession (spans (session 6#4 1#2) [] 64)) (fun t => (t.regs.sstate, t.regs.outAvail, t.readReg 0xD#4))
    = some (.unconf, 0#32, 1#32) := by decide +kernel

/-- R111: the empty final stored block. -/
theorem test_block_stored : after (exec (.blockStored true) (spans (session 6#4 0#2) [] 64)) (readOut 5)
    = some ([0x01#8, 0x00#8, 0x00#8, 0xFF#8, 0xFF#8].map some) := by decide +kernel

/-- R112, R118: the empty final static block is `03 00`; R291: behind the header `18 95` of a zlib session (log entry 6). -/
theorem test_block_static :
    after (exec (.blockStatic true) (spans (session 6#4 0#2) [] 64)) (readOut 2) = some [some 0x03#8, some 0x00#8]
    ∧ after (exec (.blockStatic true) (spans (session 6#4 1#2) [] 64)) (readOut 4)
      = some [some 0x18#8, some 0x95#8, some 0x03#8, some 0x00#8] := by decide +kernel

set_option maxRecDepth 1000000 in
/-- R113: the empty dynamic block runs in a live session, and its first byte is `05`; it is the final one (`FINISH`, R296). -/
theorem test_block_dynamic : after (exec (.blockDynamic true) (spans (session 6#4 0#2) [] 64)) (fun t => (t.readReg 1#4, readOut 1 t))
    = some (0x0F0#32, [some 0x05#8]) := by decide +kernel

/-- U1, R326, R22: the reserved block type raises the fatal status: `CODE` 5, `FAULT`, `BUSY`, `FRESH`. -/
theorem test_block_reserved : after (exec (.blockReserved false) (session 6#4 0#2)) (fun t => t.readReg 1#4) = some 0x12D#32 := by
  decide +kernel

/-- R296, R110: behind a final block no further one is admitted (log entry 6). -/
theorem test_block_after_final :
    after (exec (.blockStatic true) (inState (session 6#4 0#2) .finish)) (fun t => t.readReg 1#4) = some 0x134#32 := by
  decide +kernel

/-! Parts. -/

/-- R10, row by row. -/
theorem test_level_table :
    (List.range 10).map (fun n => (fun r : LevelRow => (r.goodMatch, r.maxLazyMatch, r.niceMatch, r.maxChainLength))
      (levelRow (BitVec.ofNat 4 n)))
      = [(0, 0, 0, 0), (4, 4, 8, 4), (4, 5, 16, 8), (4, 6, 32, 32), (4, 4, 16, 16), (8, 16, 32, 32), (8, 16, 128, 128),
        (8, 32, 128, 256), (32, 128, 258, 1024), (32, 258, 258, 4096)] := by decide

/-- 95_test_vectors.md, section 3 group A. -/
theorem test_send_bits :
    ((match (do sendBits 512 0x3 3; sendBits 512 0x89 8; sendBits 512 0 7 : Proc Packer Unit) Packer.reset with
      | (.ok _, k) => some (k.biBuf, k.biValid, k.pendingBuf.get 0, k.pendingBuf.get 1)
      | _ => none) = some (0#16, 2#5, 0x4B#8, 0x04#8)) := by decide

/-- 95_test_vectors.md, section 3 group E. -/
theorem test_put_short :
    ((match (do putShort 512 0x1234#16; putShortMSB 512 0x1234#16 : Proc Packer Unit) Packer.reset with
      | (.ok _, k) => some ((List.range 4).map k.pendingBuf.get)
      | _ => none) = some [0x34#8, 0x12#8, 0x12#8, 0x34#8]) := by decide +kernel

/-- 95_test_vectors.md, section 4. -/
theorem test_bi_reverse :
    biReverse 0b110 3 = 0b011 ∧ biReverse 0b00110000 8 = 0b00001100 ∧ biReverse 0b00001 5 = 0b10000
    ∧ biReverse 0b0011 4 = 0b1100 ∧ biReverse 0b10 2 = 0b01 := by decide

/-- 95_test_vectors.md, section 6: `memLevel = 8`, the bytes `61 62 63`. -/
theorem test_update_hash :
    (fun c : Conf => (hashStep c 0#16 0x61#8, hashStep c (hashStep c (hashStep c 0#16 0x61#8) 0x62#8) 0x63#8))
      (Conf.reset.ofFields 6#4 0#2 15#4 8#4 0#2) = (0x0061#16, 0x0823#16) := by decide

/-- R79: the spec's examples of both checksums. -/
theorem test_checksums : adlerUpdate 1#32 0x61#8 = 0x00620062#32 ∧ crcUpdate 0#32 0x61#8 = 0xE8B7BE43#32 := by decide

/-- A code with the lengths (2, 1, 3, 3) on the distance tree, counted (95_test_vectors.md, section 4). -/
def smallCode : Coder :=
  { Coder.reset with
    dynD := { Tree.reset with len := (((Ram.zero.set 0 2#16).set 1 1#16).set 2 3#16).set 3 3#16 }
    blCount := ((Ram.zero.set 1 1#16).set 2 1#16).set 3 2#16
    dMaxCode := 3#10 }

/-- 95_test_vectors.md, section 4: the stored codes of the lengths (2, 1, 3, 3). -/
theorem test_gen_codes :
    ((match genCodes .dynD smallCode with
      | (.ok _, k) => some ((List.range 4).map k.dynD.code.get)
      | _ => none) = some [1#16, 0#16, 3#16, 7#16]) := by decide +kernel

/-- R34: `pendingOut ≤ pending` is checked. -/
theorem test_boundary_check :
    (session 6#4 0#2).boundaryOk = true
    ∧ ({ session 6#4 0#2 with pk := { Packer.reset with pendingOut := 1#18 } } : State).boundaryOk = false := by decide +kernel

/-! Witnesses: for each statement with hypotheses, a state and operands that meet all of them together, clause by clause. -/

theorem next_of_after {α : Type} {o : Host.Outcome State Fault Refusal} {f : State → α} {x : α} (h : after o f = some x) :
    ∃ t, o = .next t ∧ f t = x := by
  cases o with
  | next t => exact ⟨t, rfl, Option.some.inj h⟩
  | fault _ => simp [after] at h
  | refused _ => simp [after] at h

theorem session_consistent (level : BitVec 4) (wrap : BitVec 2) (h : (Instr.init level 0#2 9#4 1#4 wrap).wellFormed = true) :
    (session level wrap).conf.Consistent := Conf.ofFields_consistent _ h

theorem session_ok (level : BitVec 4) (wrap : BitVec 2) (h : (Instr.init level 0#2 9#4 1#4 wrap).wellFormed = true) :
    (session level wrap).SessionOk := State.sessionReset_ok (Conf.ofFields_consistent _ h)

theorem witness_EncodeDecodeAgree :
    (∃ w i, decode w = .ok i) ∧ ¬ IllegalWord 0x02990901#32 ∧ ¬ IllegalWord 0x00190001#32 ∧ ¬ IllegalWord 0x00000406#32
    ∧ ¬ IllegalWord 0x00002907#32 ∧ ¬ IllegalWord 0x00000008#32 := by
  refine ⟨⟨0x406#32, _, rfl⟩, ?_, ?_, ?_, ?_, ?_⟩ <;> (unfold IllegalWord; decide)

/-- One illegal word for each cause 1 to 5 of R322, at the edge of its range. -/
theorem witness_IllegalWordOnlyReports :
    { State.reset with events := [.write 0#4 0x9#32] }.events = .write 0#4 0x9#32 :: [] ∧ IllegalWord 0x00000000#32
    ∧ IllegalWord 0x00000009#32 ∧ IllegalWord 0x018F0A01#32 ∧ IllegalWord 0x018F3601#32 ∧ IllegalWord 0x01880601#32
    ∧ IllegalWord 0x010F0601#32 ∧ IllegalWord 0x01AF0601#32 ∧ IllegalWord 0x038F0601#32 ∧ IllegalWord 0x018F4601#32
    ∧ IllegalWord 0x00000506#32 ∧ IllegalWord 0x00000806#32 ∧ IllegalWord 0x00000A07#32 ∧ IllegalWord 0x00003007#32
    ∧ IllegalWord 0x00004007#32 ∧ IllegalWord 0x00000102#32 := by
  refine ⟨rfl, ?_, ?_, ?_, ?_, ?_, ?_, ?_, ?_, ?_, ?_, ?_, ?_, ?_, ?_, ?_⟩ <;> (unfold IllegalWord; decide)

theorem witness_StepRunsDecodedInstruction :
    (∃ (s : State) (w : Word) (rest : List Event) (i : Instr), s.events = .write 0#4 w :: rest ∧ decode w = .ok i)
    ∧ ∃ (s : State) (h : BitVec 3) (rest : List Event), s.events = .block h :: rest :=
  ⟨⟨{ State.reset with events := [.write 0#4 0x406#32] }, _, _, _, rfl, rfl⟩,
    ⟨{ State.reset with events := [.block 7#3] }, _, _, rfl⟩⟩

/-- The first and the last register, `STATUS` and `CFG` among them. -/
theorem witness_RegisterReads : ∀ i ∈ [0x0#4, 0x1#4, 0x2#4, 0x3#4, 0xF#4],
    ∃ (s : State) (rest : List Event), s.events = .read i :: rest :=
  fun i _ => ⟨{ State.reset with events := [.read i] }, [], rfl⟩

theorem witness_StatusAndCfgLayout :
    (∃ (s : State) (rest : List Event), s.events = .read 0x1#4 :: rest)
    ∧ ∃ (s : State) (rest : List Event), s.events = .read 0x2#4 :: rest :=
  ⟨⟨{ State.reset with events := [.read 0x1#4] }, [], rfl⟩, ⟨{ State.reset with events := [.read 0x2#4] }, [], rfl⟩⟩

/-- Each writable register and the read-only ones at both ends of their ranges. -/
theorem witness_RegisterWrites : ∀ i ∈ [0x3#4, 0x4#4, 0xE#4, 0xF#4, 0x1#4, 0x2#4, 0x5#4, 0xD#4],
    ∃ (s : State) (d : Word) (rest : List Event), s.events = .write i d :: rest :=
  fun i _ => ⟨{ State.reset with events := [.write i 0xFFFFFFFF#32] }, _, [], rfl⟩

theorem witness_HostStoresAndIdle :
    (∃ (s : State) (a : Word) (b : Byte) (rest : List Event), s.events = .store a b :: rest) ∧ ∃ s : State, s.events = [] :=
  ⟨⟨{ State.reset with events := [.store 0xFFFFFFFF#32 1#8] }, _, _, _, rfl⟩, ⟨State.reset, rfl⟩⟩

theorem witness_HardwareResetEvent :
    (∃ (s : State) (rest : List Event), s.events = .hwReset :: rest)
    ∧ hostCommand .endSession = true ∧ createsSession .endSession = false ∧ Instr.endSession.wellFormed = true :=
  ⟨⟨{ session 6#4 1#2 with events := [.hwReset, .read 0#4] }, _, rfl⟩, rfl, rfl, rfl⟩

/-- The three refusals, of a command and of a block header; `END` meets the third one under a flagged fault. -/
theorem witness_PrologueRefusals :
    (Instr.step 5#3).wellFormed = false
    ∧ (∃ s : State, ∀ i ∈ [Instr.step 4#3, .blockReserved true], i.wellFormed = true ∧ s.regs.fault = true
        ∧ createsSession i = false ∧ i ≠ .endSession)
    ∧ (∃ s : State, ∀ i ∈ [Instr.reset, .blockStored true], i.wellFormed = true ∧ s.regs.fault = false
        ∧ s.regs.sstate = .unconf ∧ createsSession i = false)
    ∧ ∃ s : State, Instr.endSession.wellFormed = true ∧ s.regs.fault = true ∧ s.regs.sstate = .unconf
        ∧ createsSession .endSession = false :=
  ⟨by decide, ⟨{ State.reset with regs := { HostRegs.reset with fault := true } }, by decide⟩,
    ⟨State.reset, by decide⟩, ⟨{ State.reset with regs := { HostRegs.reset with fault := true } }, by decide⟩⟩

/-- Both ends of every field. -/
theorem witness_InitResult :
    (Instr.init 0#4 0#2 9#4 1#4 0#2).wellFormed = true ∧ (Instr.init 9#4 2#2 15#4 9#4 2#2).wellFormed = true := by decide

theorem session_live (level : BitVec 4) (wrap : BitVec 2) : (session level wrap).live := by
  refine ⟨rfl, ?_⟩
  show (if wrap = wrapRaw then StreamState.busy else .init) ≠ .unconf
  split <;> decide

theorem witness_ResetResult : (session 6#4 1#2).live ∧ (inState (session 6#4 0#2) .finish).live :=
  ⟨session_live _ _, rfl, by decide⟩

/-- Live and faulted. -/
theorem witness_EndResult :
    (session 6#4 1#2).regs.sstate ≠ .unconf
    ∧ ∃ s : State, s.regs.fault = true ∧ s.regs.sstate ≠ .unconf :=
  ⟨(session_live _ _).2, { session 6#4 1#2 with regs := { (session 6#4 1#2).regs with fault := true } }, rfl,
    (session_live 6#4 1#2).2⟩

theorem witness_SpanCommandsLoadSpans : (session 0#4 0#2).live := session_live _ _

theorem witness_SetDictRefusals :
    (∃ s : State, s.live ∧ s.conf.wrap = 2#2)
    ∧ ∃ s : State, s.live ∧ s.conf.wrap ≠ 2#2 ∧ s.regs.fresh = false :=
  ⟨⟨session 6#4 2#2, session_live _ _, rfl⟩,
    ⟨{ session 6#4 0#2 with regs := { (session 6#4 0#2).regs with fresh := false } }, session_live 6#4 0#2, by decide, rfl⟩⟩

/-- No byte and two bytes; raw and zlib. -/
theorem witness_SetDictShortIsAccepted :
    (∃ s : State, s.live ∧ s.conf.wrap ≠ 2#2 ∧ s.regs.fresh = true ∧ s.regs.arg1.toNat = 0
      ∧ s.readable s.regs.arg0 s.regs.arg1.toNat)
    ∧ ∃ s : State, s.live ∧ s.conf.wrap = 1#2 ∧ s.regs.fresh = true ∧ s.regs.arg1.toNat = 2
      ∧ s.readable s.regs.arg0 s.regs.arg1.toNat :=
  ⟨⟨dictionary (session 6#4 0#2) [], session_live 6#4 0#2, by decide, rfl, rfl, by unfold State.readable; decide +kernel⟩,
    ⟨dictionary (session 6#4 1#2) [0x78#8, 0x61#8], session_live 6#4 1#2, rfl, rfl, rfl,
      by unfold State.readable; decide +kernel⟩⟩

/-- Three bytes, the fewest, and 251 bytes, one more than `maxDist`. -/
theorem witness_SetDictLoadsWindow : ∀ n ∈ [3, 251],
    ∃ s : State, s.live ∧ s.conf.Consistent ∧ s.boundaryOk = true ∧ s.conf.wrap ≠ 2#2 ∧ s.regs.fresh = true
      ∧ s.mat.lookahead = 0#17 ∧ 3 ≤ s.regs.arg1.toNat ∧ s.readable s.regs.arg0 s.regs.arg1.toNat := by
  intro n hn
  refine ⟨dictionary (session 6#4 1#2) (List.replicate n 7#8), session_live 6#4 1#2, session_consistent 6#4 1#2 rfl,
    ?_, (by decide : (1#2 : BitVec 2) ≠ 2#2), rfl, rfl, ?_⟩
  · show (session 6#4 1#2).boundaryOk = true
    decide +kernel
  · unfold State.readable
    revert n
    decide +kernel

theorem witness_SetDictFrame : ∃ s t : State, exec .setDict s = .next t := by
  obtain ⟨t, h, -⟩ := next_of_after test_set_dict
  exact ⟨_, t, h⟩

/-- `s` with `n` bytes in the pending buffer. -/
def withPending (s : State) (n : BitVec 18) : State := { s with pk := { s.pk with pending := n } }

/-- `s` with `n` bytes of the window encoded as one open block. -/
def withBlock (s : State) (n : BitVec 17) : State := { s with mat := { s.mat with strStart := n } }

/-- Each check alone, the last one with something pending and with nothing. -/
theorem witness_StepEntryChecks :
    (∃ s : State, s.live ∧ (4#3).toNat ≤ 4 ∧ s.regs.outValid = false)
    ∧ (∃ s : State, s.live ∧ s.regs.outValid = true ∧ s.regs.sstate = .finish ∧ (3#3 : BitVec 3) ≠ 4#3)
    ∧ (∃ s : State, s.live ∧ s.regs.outValid = true ∧ s.regs.sstate = .finish ∧ s.regs.inAvail ≠ 0#32)
    ∧ (∃ s : State, s.live ∧ s.regs.outValid = true ∧ s.regs.sstate = .finish ∧ s.regs.inAvail = 0#32
        ∧ s.regs.outAvail = 0#32 ∧ s.pk.pending = s.pk.pendingOut)
    ∧ ∃ s : State, s.live ∧ s.regs.outValid = true ∧ s.regs.sstate ≠ .finish ∧ s.regs.outAvail = 0#32
        ∧ s.pk.pending ≠ s.pk.pendingOut := by
  refine ⟨⟨session 6#4 1#2, session_live _ _, by decide, rfl⟩, ⟨inState (spans (session 6#4 1#2) [] 1) .finish, ?_⟩,
    ⟨inState (spans (session 6#4 1#2) [7#8] 1) .finish, ?_⟩, ⟨inState (spans (session 6#4 1#2) [] 0) .finish, ?_⟩,
    ⟨withPending (spans (session 6#4 0#2) [] 0) 1#18, ?_⟩⟩ <;> (unfold State.live; decide +kernel)

theorem witness_StepRepeatOnlyDelivers :
    (∃ s : State, s.live ∧ s.boundaryOk = true ∧ s.regs.outValid = true ∧ s.regs.sstate = .busy ∧ s.regs.outAvail ≠ 0#32
      ∧ s.regs.inAvail = 0#32 ∧ (0#3).toNat < 4 ∧ ((0#3).toNat : Int) ≤ s.lastFlush.toInt ∧ s.pk.pending = s.pk.pendingOut)
    ∧ ∃ s : State, s.live ∧ s.boundaryOk = true ∧ s.regs.outValid = true ∧ s.regs.sstate = .busy ∧ s.regs.outAvail ≠ 0#32
      ∧ s.regs.inAvail = 0#32 ∧ (3#3).toNat < 4 ∧ ((3#3).toNat : Int) ≤ s.lastFlush.toInt ∧ s.pk.pending ≠ s.pk.pendingOut := by
  refine ⟨⟨spans (session 6#4 0#2) [] 1, ?_⟩, ⟨{ withPending (spans (session 6#4 0#2) [] 2) 3#18 with lastFlush := 3#4 }, ?_⟩⟩ <;>
    (unfold State.live; decide +kernel)

/-- A raw session, and a zlib session whose trailer is out. -/
theorem witness_StepFinishAgainEndsStream : ∀ w ∈ [0#2, 1#2],
    ∃ s : State, s.live ∧ s.boundaryOk = true ∧ s.regs.outValid = true ∧ s.regs.sstate = .finish ∧ s.regs.inAvail = 0#32
      ∧ s.regs.outAvail ≠ 0#32 ∧ s.pk.pending = s.pk.pendingOut ∧ s.mat.lookahead = 0#17
      ∧ (s.conf.wrap = 0#2 ∨ s.regs.trailerDone = true) := by
  intro w hw
  refine ⟨(fun s : State => { s with regs := { s.regs with trailerDone := true } })
    (inState (spans (session 6#4 w) [] 1) .finish), ?_⟩
  unfold State.live
  revert w
  decide +kernel

/-- Exactly as much room as the trailer needs. -/
theorem witness_StepWritesTrailer : ∀ x ∈ [((1#2 : BitVec 2), 4), (2#2, 8)],
    ∃ s : State, s.live ∧ s.conf.Consistent ∧ s.boundaryOk = true ∧ s.regs.outValid = true ∧ s.regs.sstate = .finish
      ∧ s.regs.inAvail = 0#32 ∧ s.pk.pending = 0#18 ∧ s.pk.pendingOut = 0#18 ∧ s.mat.lookahead = 0#17
      ∧ s.regs.trailerDone = false ∧ s.conf.wrap = x.1 ∧ s.regs.outAvail.toNat = x.2 := by
  intro x hx
  refine ⟨inState (spans (session 6#4 x.1) [] x.2) .finish, ?_, session_consistent 6#4 x.1 ?_, ?_⟩
  · exact ⟨rfl, nofun⟩
  all_goals
    revert x
    decide +kernel

/-- Exactly as much room as the longer header needs; with and without a dictionary. -/
theorem witness_StepWritesHeader : ∀ x ∈ [((1#2 : BitVec 2), 0), (1#2, 3), (2#2, 0)],
    ∃ s : State, s.live ∧ s.conf.Consistent ∧ s.boundaryOk = true ∧ s.regs.outValid = true ∧ s.regs.sstate = .init
      ∧ s.regs.inAvail = 0#32 ∧ s.pk.pending = 0#18 ∧ s.pk.pendingOut = 0#18 ∧ s.lastFlush = 0#4
      ∧ 10 ≤ s.regs.outAvail.toNat ∧ s.conf.wrap = x.1 ∧ s.mat.strStart.toNat = x.2 := by
  intro x hx
  refine ⟨inState (withBlock (spans (session 6#4 x.1) [] 10) (BitVec.ofNat 17 x.2)) .init, ⟨rfl, nofun⟩, session_consistent 6#4 x.1 ?_, ?_⟩
  all_goals
    revert x
    decide +kernel

/-- One byte, and as many as stay unencoded. -/
theorem witness_StepBuffersSmallInput : ∀ n ∈ [1, 261],
    ∃ s : State, s.live ∧ s.conf.Consistent ∧ s.boundaryOk = true ∧ 1 ≤ s.conf.level.toNat ∧ s.regs.outValid = true
      ∧ s.regs.sstate = .busy ∧ s.regs.outAvail ≠ 0#32 ∧ s.pk.pending = s.pk.pendingOut ∧ s.regs.inAvail ≠ 0#32
      ∧ s.mat.lookahead.toNat + s.regs.inAvail.toNat ≤ 261 ∧ s.mat.strStart.toNat < s.conf.windowSize + s.conf.maxDist
      ∧ s.readable s.regs.inPtr s.regs.inAvail.toNat := by
  intro n hn
  refine ⟨spans (session 1#4 0#2) (List.replicate n 7#8) 1, session_live 1#4 0#2, session_consistent 1#4 0#2 rfl, ?_⟩
  unfold State.readable
  revert n
  decide +kernel

/-- `s` with `n` one bits in the accumulator and the length `eob` of the last end-of-block code. -/
def withBits (s : State) (n eob : Nat) : State :=
  { s with
    pk := { s.pk with biBuf := BitVec.ofNat 16 (2 ^ n - 1), biValid := BitVec.ofNat 5 n }
    cod := { s.cod with lastEobLen := BitVec.ofNat 4 eob } }

/-- Each flush, with exactly as much room as its marker needs: a partial one with one and with two empty blocks, a sync and a full
one, from a byte boundary and from a full accumulator. -/
theorem witness_StepFlushMarker : ∀ x ∈ [((1#3 : BitVec 3), 0, 8, 1), (1#3, 5, 4, 3), (2#3, 0, 8, 5), (3#3, 0, 8, 5), (3#3, 16, 8, 7)],
    ∃ (s : State) (marker : List Bool), s.live ∧ s.conf.Consistent ∧ s.boundaryOk = true ∧ s.pk.AccumulatorOk
      ∧ s.regs.outValid = true ∧ s.regs.sstate = .busy ∧ s.regs.inAvail = 0#32 ∧ s.pk.pending = 0#18 ∧ s.pk.pendingOut = 0#18
      ∧ s.mat.lookahead = 0#17 ∧ s.cod.lastLit = 0#16 ∧ s.mat.matchAvailable = false
      ∧ s.mat.blockStart.toInt = s.mat.strStart.toNat ∧ s.mat.strStart.toNat < s.conf.windowSize + s.conf.maxDist
      ∧ (x.1 = 1#3 ∨ x.1 = 2#3 ∨ x.1 = 3#3) ∧ s.lastFlush.toInt < x.1.toNat
      ∧ marker = (if x.1 = 1#3 then alignMarkerBits s.cod.lastEobLen.toNat s.pk.biValid.toNat
        else storedMarkerBits s.pk.biValid.toNat)
      ∧ (s.pk.biValid.toNat + marker.length) / 8 = s.regs.outAvail.toNat := by
  intro x hx
  refine ⟨withBits (spans (session 6#4 0#2) [] x.2.2.2) x.2.1 x.2.2.1, _, session_live 6#4 0#2, session_consistent 6#4 0#2 rfl, ?_, ?_,
    ?_, ?_, ?_, ?_, ?_, ?_, ?_, ?_, ?_, ?_, ?_, ?_, rfl, ?_⟩
  all_goals
    try unfold Packer.AccumulatorOk
    revert x
    decide +kernel

/-- No byte, and 249, one fewer than `maxDist`, with exactly the room needed. -/
theorem witness_StoredStreamBytes : ∀ n ∈ [0, 249],
    ∃ s : State, s.live ∧ s.conf.Consistent ∧ s.boundaryOk = true ∧ s.conf.level = 0#4 ∧ s.conf.wrap = 0#2
      ∧ s.regs.outValid = true ∧ s.regs.sstate = .busy ∧ s.mat.strStart = 0#17 ∧ s.mat.lookahead = 0#17
      ∧ s.mat.blockStart = 0#32 ∧ s.pk.pending = 0#18 ∧ s.pk.pendingOut = 0#18 ∧ s.pk.biValid = 0#5 ∧ s.pk.biBuf = 0#16
      ∧ s.regs.inAvail.toNat < s.conf.maxDist ∧ s.regs.inAvail.toNat + 6 < s.conf.pendingBufSize
      ∧ s.regs.inAvail.toNat + 5 < s.regs.outAvail.toNat ∧ s.readable s.regs.inPtr s.regs.inAvail.toNat := by
  intro n hn
  refine ⟨spans (session 0#4 0#2) (List.replicate n 7#8) (n + 6), session_live 0#4 0#2, session_consistent 0#4 0#2 rfl, ?_⟩
  unfold State.readable
  revert n
  decide +kernel

/-- Level 6 to level 9 in mid-stream (the same strategy function), and level 0 to level 9 before any input. -/
theorem witness_ParamsImmediate :
    (∃ s : State, s.live ∧ s.conf.Consistent ∧ (Instr.params 9#4 2#2).wellFormed = true
      ∧ (levelRow 9#4).fn = (levelRow s.conf.level).fn ∧ s.regs.totalIn ≠ 0#64)
    ∧ ∃ s : State, s.live ∧ s.conf.Consistent ∧ (Instr.params 9#4 0#2).wellFormed = true
      ∧ (levelRow 9#4).fn ≠ (levelRow s.conf.level).fn ∧ s.regs.totalIn = 0#64 :=
  ⟨⟨(fun s : State => { s with regs := { s.regs with totalIn := 1#64 } }) (session 6#4 0#2), session_live 6#4 0#2,
      session_consistent 6#4 0#2 rfl, by decide, by decide +kernel, by decide +kernel⟩,
    ⟨session 0#4 0#2, session_live 0#4 0#2, session_consistent 0#4 0#2 rfl, by decide, by decide +kernel, rfl⟩⟩

theorem witness_ParamsFlushRefused :
    ∃ s : State, s.live ∧ (Instr.params 1#4 0#2).wellFormed = true ∧ (levelRow 1#4).fn ≠ (levelRow s.conf.level).fn
      ∧ s.regs.totalIn ≠ 0#64 ∧ s.regs.outValid = true ∧ s.regs.sstate ≠ .finish ∧ s.regs.outAvail = 0#32 := by
  refine ⟨(fun s : State => { s with regs := { s.regs with totalIn := 1#64 } }) (spans (session 6#4 0#2) [] 0), ?_⟩
  unfold State.live
  decide +kernel

theorem witness_ParamsFlushRefused_entries :
    (∃ s : State, s.live ∧ (Instr.params 1#4 0#2).wellFormed = true ∧ (levelRow 1#4).fn ≠ (levelRow s.conf.level).fn
      ∧ s.regs.totalIn ≠ 0#64 ∧ s.regs.outValid = false)
    ∧ ∃ s : State, s.live ∧ (Instr.params 1#4 0#2).wellFormed = true ∧ (levelRow 1#4).fn ≠ (levelRow s.conf.level).fn
      ∧ s.regs.totalIn ≠ 0#64 ∧ s.regs.outValid = true ∧ s.regs.sstate = .finish := by
  refine ⟨⟨(fun s : State => { s with regs := { s.regs with totalIn := 1#64 } }) (session 6#4 0#2), ?_⟩,
    ⟨(fun s : State => { s with regs := { s.regs with totalIn := 1#64 } }) (inState (spans (session 6#4 0#2) [] 0) .finish), ?_⟩⟩ <;>
    (unfold State.live; decide +kernel)

/-- An accepted change, and one that is refused. -/
theorem witness_ParamsChangesOnOkOnly :
    (∃ s t : State, exec (.params 9#4 1#2) s = .next t ∧ t.regs.code = .ok)
    ∧ ∃ s t : State, exec (.params 10#4 1#2) s = .next t ∧ t.regs.code ≠ .ok := by
  have h : after (exec (.params 9#4 1#2) (session 6#4 0#2)) (fun t => t.regs.code) = some .ok := by decide +kernel
  obtain ⟨t, h, e⟩ := next_of_after h
  exact ⟨⟨_, t, h, e⟩, ⟨session 6#4 0#2, _, rfl, by decide +kernel⟩⟩

/-- No byte, and as many as the pending buffer holds, each as a final block and as another one. -/
theorem witness_BlockStoredEmits : ∀ x ∈ [(0, false), (504, true)],
    ∃ s : State, s.live ∧ s.conf.Consistent ∧ s.boundaryOk = true ∧ s.pk.AccumulatorOk ∧ s.regs.sstate = .busy
      ∧ s.pk.pending = s.pk.pendingOut ∧ (x.2 = true → s.regs.inAvail = 0#32 ∧ s.mat.lookahead = 0#17)
      ∧ s.mat.matchAvailable = false ∧ 0 ≤ s.mat.blockStart.toInt
      ∧ s.mat.blockStart.toInt + (x.1 : Nat) = s.mat.strStart.toNat ∧ x.1 ≤ 65535
      ∧ s.pk.pending.toNat + x.1 + 8 ≤ s.conf.pendingBufSize := by
  intro x hx
  refine ⟨withBlock (session 6#4 0#2) (BitVec.ofNat 17 x.1), session_live 6#4 0#2, session_consistent 6#4 0#2 rfl, ?_⟩
  unfold Packer.AccumulatorOk
  revert x
  decide +kernel

/-- An empty block; the literals 143 and 144, whose codes have 8 and 9 bits; and the matches of length 3 at distance 1, of
length 258 at distance 32768 and of length 257 at distance 5. -/
theorem witness_BlockStaticEmits :
    ∀ x ∈ [(([] : List (Half × Byte)), true), ([(0#16, 143#8), (0#16, 144#8)], false),
      ([(1#16, 0#8), (32768#16, 255#8), (5#16, 254#8)], true)],
    ∃ (s : State) (bits : List Bool), s.live ∧ s.conf.Consistent ∧ s.boundaryOk = true ∧ s.pk.AccumulatorOk
      ∧ s.regs.sstate = .busy ∧ s.pk.pending = s.pk.pendingOut
      ∧ (x.2 = true → s.regs.inAvail = 0#32 ∧ s.mat.lookahead = 0#17) ∧ s.mat.matchAvailable = false
      ∧ s.cod.lastLit.toNat = x.1.length ∧ (∀ i, i < s.cod.lastLit.toNat → (s.cod.dBuf.get i).toNat ≤ 32768)
      ∧ bits = (List.range s.cod.lastLit.toNat).flatMap
        (fun i => staticItemBits (s.cod.dBuf.get i).toNat (s.cod.lBuf.get i).toNat)
      ∧ s.pk.pending.toNat + bits.length / 8 + 6 ≤ s.conf.pendingBufSize := by
  intro x hx
  refine ⟨(fun s : State => { s with cod := { s.cod with
    dBuf := ((Ram.zero.set 0 (x.1.getD 0 (0#16, 0#8)).1).set 1 (x.1.getD 1 (0#16, 0#8)).1).set 2 (x.1.getD 2 (0#16, 0#8)).1
    lBuf := ((Ram.zero.set 0 (x.1.getD 0 (0#16, 0#8)).2).set 1 (x.1.getD 1 (0#16, 0#8)).2).set 2 (x.1.getD 2 (0#16, 0#8)).2
    lastLit := BitVec.ofNat 16 x.1.length } }) (session 6#4 0#2), _,
    session_live 6#4 0#2, session_consistent 6#4 0#2 rfl, ?_, ?_, ?_, ?_, ?_, ?_, ?_, ?_, rfl, ?_⟩
  all_goals
    try unfold Packer.AccumulatorOk
    revert x
    decide +kernel

/-- As a final block and as another one. -/
theorem witness_BlockDynamicEmptyEmits : ∀ bfinal : Bool,
    ∃ s : State, s.live ∧ s.conf.Consistent ∧ s.boundaryOk = true ∧ s.pk.AccumulatorOk ∧ s.regs.sstate = .busy
      ∧ s.pk.pending = s.pk.pendingOut ∧ (bfinal = true → s.regs.inAvail = 0#32 ∧ s.mat.lookahead = 0#17)
      ∧ s.mat.matchAvailable = false ∧ s.cod.lastLit = 0#16
      ∧ (∀ n, n < 286 → s.cod.dynL.freq.get n = if n = 256 then 1#16 else 0#16)
      ∧ (∀ n, n < 30 → s.cod.dynD.freq.get n = 0#16) ∧ (∀ n, n < 19 → s.cod.bl.freq.get n = 0#16)
      ∧ s.pk.pending.toNat + 16 ≤ s.conf.pendingBufSize := by
  intro bfinal
  refine ⟨session 6#4 0#2, session_live 6#4 0#2, session_consistent 6#4 0#2 rfl, ?_⟩
  unfold Packer.AccumulatorOk
  revert bfinal
  decide +kernel

theorem witness_BlockReservedRaisesFatal : (session 6#4 1#2).live := session_live _ _

theorem spans_live {s : State} (h : s.live) (bs : List Byte) (n : Nat) : (spans s bs n).live := h

theorem dictionary_live {s : State} (h : s.live) (bs : List Byte) : (dictionary s bs).live := h

/-- Each of the six commands, in a live session. -/
theorem witness_EngineCommandsFrame :
    (∃ (s t : State) (flush : BitVec 3), s.live ∧ exec (.step flush) s = .next t)
    ∧ (∃ s t : State, s.live ∧ exec .setDict s = .next t)
    ∧ (∃ (s t : State) (b : Bool), s.live ∧ exec (.blockStored b) s = .next t)
    ∧ (∃ (s t : State) (b : Bool), s.live ∧ exec (.blockStatic b) s = .next t)
    ∧ (∃ (s t : State) (b : Bool), s.live ∧ exec (.blockDynamic b) s = .next t)
    ∧ ∃ (s t : State) (b : Bool), s.live ∧ exec (.blockReserved b) s = .next t := by
  obtain ⟨t1, h1, -⟩ := next_of_after test_step_stored
  obtain ⟨t2, h2, -⟩ := next_of_after test_set_dict
  obtain ⟨t3, h3, -⟩ := next_of_after test_block_stored
  obtain ⟨t4, h4, -⟩ := next_of_after test_block_static.1
  obtain ⟨t5, h5, -⟩ := next_of_after test_block_dynamic
  obtain ⟨t6, h6, -⟩ := next_of_after test_block_reserved
  exact ⟨⟨_, t1, _, spans_live (session_live _ _) _ _, h1⟩, ⟨_, t2, dictionary_live (session_live _ _) _, h2⟩,
    ⟨_, t3, _, spans_live (session_live _ _) _ _, h3⟩, ⟨_, t4, _, spans_live (session_live _ _) _ _, h4⟩,
    ⟨_, t5, _, spans_live (session_live _ _) _ _, h5⟩, ⟨_, t6, _, session_live _ _, h6⟩⟩

/-- The refusals: behind a final block, and a final one with input or with lookahead left. -/
theorem witness_BlockHeadersEntryAndFrame_refused :
    (∃ s : State, s.live ∧ s.regs.sstate = .finish)
    ∧ (∃ s : State, s.live ∧ s.regs.inAvail ≠ 0#32) ∧ ∃ s : State, s.live ∧ s.mat.lookahead ≠ 0#17 :=
  ⟨⟨inState (session 6#4 0#2) .finish, ⟨rfl, nofun⟩, rfl⟩,
    ⟨spans (session 6#4 0#2) [7#8] 1, spans_live (session_live _ _) _ _, by decide⟩,
    ⟨(fun s : State => { s with mat := { s.mat with lookahead := 1#17 } }) (session 6#4 0#2), session_live 6#4 0#2, by decide⟩⟩

/-- A zlib session in `INIT` with room for its header, as a final block and as another one; and a session with more pending
bytes than room. -/
theorem witness_BlockHeadersEntryAndFrame_entry :
    (∀ b : Bool, ∃ s v : State, s.live ∧ s.regs.sstate = .init ∧ (b = true → s.regs.inAvail = 0#32 ∧ s.mat.lookahead = 0#17)
      ∧ beforeBlock s = (.ok (), v) ∧ v.pk.pending = v.pk.pendingOut)
    ∧ ∃ s : State, s.live ∧ s.regs.sstate = .busy ∧ s.boundaryOk = true
      ∧ s.regs.outAvail.toNat < s.pk.pending.toNat - s.pk.pendingOut.toNat := by
  have h : (beforeBlock (spans (session 6#4 1#2) [] 2)).1 = .ok () := by decide +kernel
  have e : (beforeBlock (spans (session 6#4 1#2) [] 2)).2.pk.pending = (beforeBlock (spans (session 6#4 1#2) [] 2)).2.pk.pendingOut := by
    decide +kernel
  refine ⟨fun b => ⟨spans (session 6#4 1#2) [] 2, _, spans_live (session_live _ _) _ _, rfl, fun _ => ⟨rfl, rfl⟩, Prod.ext h rfl, e⟩,
    ⟨withPending (spans (session 6#4 0#2) [] 2) 3#18, ?_⟩⟩
  unfold State.live
  decide +kernel

theorem witness_BlockHeadersEntryAndFrame : ∀ i ∈ [Instr.blockStored true, .blockStatic true, .blockDynamic true],
    closesBlock i true ∧ ∃ s t : State, s.live ∧ exec i s = .next t := by
  obtain ⟨t3, h3, -⟩ := next_of_after test_block_stored
  obtain ⟨t4, h4, -⟩ := next_of_after test_block_static.1
  obtain ⟨t5, h5, -⟩ := next_of_after test_block_dynamic
  intro i hi
  simp only [List.mem_cons, List.not_mem_nil, or_false] at hi
  refine ⟨hi, ?_⟩
  obtain rfl | rfl | rfl := hi
  · exact ⟨_, t3, spans_live (session_live _ _) _ _, h3⟩
  · exact ⟨_, t4, spans_live (session_live _ _) _ _, h4⟩
  · exact ⟨_, t5, spans_live (session_live _ _) _ _, h5⟩

/-- A buffer with one free byte, and a full one. -/
theorem witness_PutByteAppends : (∃ k : Packer, k.pending.toNat < 1) ∧ ∃ k : Packer, 0 ≤ k.pending.toNat :=
  ⟨⟨Packer.reset, by decide⟩, ⟨Packer.reset, by decide⟩⟩

/-- A full accumulator and a buffer with just two free bytes; the longest value that fits, and one that does not. -/
theorem witness_SendBitsAppends :
    ∃ k : Packer, k.AccumulatorOk ∧ k.biValid.toNat = 16 ∧ 16 ≤ 16 ∧ k.pending.toNat + 2 ≤ 2 ∧ 2 ≤ 131072
      ∧ 65535 < 2 ^ 16 ∧ ((1 : Nat) ≠ 0 ∧ 2 ^ 1 ≤ 2) := by
  refine ⟨{ Packer.reset with biBuf := 0xFFFF#16, biValid := 16#5 }, ?_⟩
  unfold Packer.AccumulatorOk
  decide

/-- An empty and a full accumulator. -/
theorem witness_BiFlushKeepsBits : ∀ n ∈ [0, 16],
    ∃ k : Packer, k.AccumulatorOk ∧ k.biValid.toNat = n ∧ k.pending.toNat + 2 ≤ 2 ∧ 2 ≤ 131072 := by
  intro n hn
  refine ⟨{ Packer.reset with biValid := BitVec.ofNat 5 n }, ?_⟩
  unfold Packer.AccumulatorOk
  revert n
  decide

/-- Seven and eight bits: one bit of padding and none. -/
theorem witness_BiWindupPads : ∀ n ∈ [7, 8],
    ∃ k : Packer, k.AccumulatorOk ∧ k.biValid.toNat = n ∧ k.pending.toNat + 2 ≤ 2 ∧ 2 ≤ 131072 := by
  intro n hn
  refine ⟨{ Packer.reset with biBuf := 0x7F#16, biValid := BitVec.ofNat 5 n }, ?_⟩
  unfold Packer.AccumulatorOk
  revert n
  decide

/-- No room, room for some of three pending bytes, and room for all. -/
theorem witness_FlushPendingDelivers : ∀ room ∈ [0, 2, 3],
    ∃ (s : State) (n : Nat), s.pk.pendingOut.toNat ≤ s.pk.pending.toNat ∧ s.pk.pending.toNat ≤ s.conf.pendingBufSize
      ∧ n = min (s.pk.pending.toNat - s.pk.pendingOut.toNat) s.regs.outAvail.toNat ∧ n = room := by
  intro room hr
  refine ⟨withPending (spans (session 6#4 0#2) [] room) 3#18, room, ?_⟩
  revert room
  decide +kernel

/-- Nothing to read, and three bytes read to the end of the window. -/
theorem witness_ReadBufConsumes :
    (∃ s : State, 0 = min s.regs.inAvail.toNat 5 ∧ 0 + 0 ≤ 2 * s.conf.windowSize ∧ 2 * s.conf.windowSize ≤ 2 ^ 17
      ∧ s.readable s.regs.inPtr 0)
    ∧ ∃ s : State, 3 = min s.regs.inAvail.toNat 3 ∧ 1021 + 3 ≤ 2 * s.conf.windowSize ∧ 2 * s.conf.windowSize ≤ 2 ^ 17
      ∧ s.readable s.regs.inPtr 3 := by
  refine ⟨⟨spans (session 6#4 0#2) [] 0, ?_⟩, ⟨spans (session 6#4 1#2) [1#8, 2#8, 3#8, 4#8] 0, ?_⟩⟩ <;>
    (unfold State.readable; decide +kernel)

/-- The lengths (2, 1, 3, 3), whose Kraft sum is exactly 1. -/
theorem witness_GenCodesCanonical :
    ∃ (t : TreeId) (k : Coder) (N : Nat) (len : Nat → Nat), len = (k.tree t).lenOf ∧ k.maxCode t + 1 = N ∧ N ≤ t.elems
      ∧ (∀ n, n < N → len n ≤ 15) ∧ (k.blCount.get 0).toNat = 0
      ∧ (∀ b, 1 ≤ b → b ≤ 15 → (k.blCount.get b).toNat = lengthCount len N b) ∧ kraftFits len N
      ∧ (∃ n, n < N ∧ len n ≠ 0) := by
  refine ⟨.dynD, smallCode, 4, _, rfl, by decide +kernel, by decide, by decide +kernel, by decide +kernel, ?_, ?_, ?_⟩
  · intro b h1 h15
    have : ∀ b, b < 16 → 1 ≤ b → (smallCode.blCount.get b).toNat = lengthCount (smallCode.tree .dynD).lenOf 4 b := by
      decide +kernel
    exact this b (by omega) h1
  · unfold kraftFits
    decide +kernel
  · exact ⟨0, by decide, by decide +kernel⟩

/-- The shortest walk, and a run of the longest length over a whole literal/length tree. -/
theorem witness_TreeItemsExpandToLengths :
    (∃ (len : Nat → Nat) (maxCode : Nat), maxCode = 0 ∧ ∀ n, n ≤ maxCode → len n ≤ 15)
    ∧ ∃ (len : Nat → Nat) (maxCode : Nat), maxCode = 285 ∧ ∀ n, n ≤ maxCode → len n ≤ 15 :=
  ⟨⟨fun _ => 0, 0, rfl, fun _ _ => (by decide : 0 ≤ 15)⟩, ⟨fun _ => 15, 285, rfl, fun _ _ => (by decide : 15 ≤ 15)⟩⟩

theorem witness_HashClosedForm : (session 6#4 0#2).conf.Consistent ∧ (session 9#4 2#2).conf.Consistent :=
  ⟨session_consistent _ _ rfl, session_consistent _ _ rfl⟩

theorem witness_SlideRebases : (session 6#4 0#2).conf.Consistent := session_consistent _ _ rfl

/-- The first and the last position. -/
theorem witness_InsertStringLinks : ∀ pos ∈ [0, 1021],
    ∃ (c : Conf) (m : Matcher) (h : BitVec 16), c.Consistent ∧ pos + 2 < 2 * c.windowSize
      ∧ h.toNat = ((m.insH.toNat <<< c.hashShift) ^^^ (m.window.get (pos + 2)).toNat) &&& c.hashMask := by
  intro pos hp
  refine ⟨(session 6#4 0#2).conf, { Matcher.reset with window := Ram.zero.set (pos + 2) 0xFF#8 }, 0xFF#16,
    session_consistent _ _ rfl, ?_⟩
  revert pos
  decide +kernel

/-- A window that holds `abcabc`, at its fourth byte. -/
def twice : Matcher :=
  { Matcher.reset with
    window := (((((Ram.zero.set 0 0x61#8).set 1 0x62#8).set 2 0x63#8).set 3 0x61#8).set 4 0x62#8).set 5 0x63#8
    strStart := 3#17, lookahead := 3#17 }

theorem answers_of_fst {σ α : Type} {p : Proc σ α} {x : σ} {a : α} (h : (p x).1 = .ok a) : ∃ y, p x = (.ok a, y) :=
  ⟨(p x).2, Prod.ext h rfl⟩

/-- A match that beats `prevLength`, and a search that finds none longer. -/
theorem witness_LongestMatchIsMatch :
    (∃ (c : Conf) (m m' : Matcher) (curMatch n : Nat), longestMatch c curMatch m = (.ok n, m') ∧ m.prevLength.toNat < n)
    ∧ ∃ (c : Conf) (m m' : Matcher) (curMatch n : Nat), longestMatch c curMatch m = (.ok n, m') ∧ n ≤ m.prevLength.toNat := by
  have h1 : (longestMatch (session 6#4 0#2).conf 0 twice).1 = .ok 3 := by decide +kernel
  have h2 : (longestMatch (session 6#4 0#2).conf 0 { twice with prevLength := 3#9 }).1 = .ok 3 := by decide +kernel
  obtain ⟨m1, h1⟩ := answers_of_fst h1
  obtain ⟨m2, h2⟩ := answers_of_fst h2
  exact ⟨⟨_, twice, m1, 0, 3, h1, by decide⟩, ⟨_, { twice with prevLength := 3#9 }, m2, 0, 3, h2, by decide⟩⟩

/-- `s` with the word `w` written to `CMD` next. -/
def withCommand (s : State) (w : Word) : State := { s with events := [.write 0#4 w] }

/-- A session with `hello` and a `STEP FINISH` to come. -/
def helloToGo : State := withCommand (spans (session 0#4 0#2) [0x68#8, 0x65#8, 0x6C#8, 0x6C#8, 0x6F#8] 64) 0x406#32

theorem witness_StepKeepsCanonical : ∃ s t : State, s.Canonical ∧ step s = .next t ∧ t ≠ s := by
  have h : after (step helloToGo) (fun t => decide (t.events = [])) = some true := by decide +kernel
  obtain ⟨t, h, e⟩ := next_of_after h
  refine ⟨helloToGo, t, ⟨⟨?_, ?_, ?_⟩, (?_ : helloToGo.pk.pendingBuf.wf = true), ⟨?_, ?_, ⟨?_, ?_, ?_, ?_⟩, ⟨?_, ?_, ?_, ?_⟩, ⟨?_, ?_, ?_, ?_⟩, ?_, ?_, ?_, ?_⟩, ?_⟩, h, ?_⟩
  rotate_right
  · rintro rfl
    exact absurd e (by decide)
  all_goals decide +kernel

theorem witness_StepKeepsInvariant : ∃ s t : State, s.SessionOk ∧ s.Inv ∧ step s = .next t := by
  have h : after (step helloToGo) (fun t => decide (t.events = [])) = some true := by decide +kernel
  obtain ⟨t, h, -⟩ := next_of_after h
  have ok : helloToGo.SessionOk := (session_ok 0#4 0#2 rfl).of_parts rfl rfl rfl rfl
  exact ⟨helloToGo, t, ok, .inr (.inr ok), h⟩

/-- `END` in a faulted session. -/
theorem witness_OnlyInitEndResetClearFault :
    ∃ s t : State, step s = .next t ∧ s.regs.fault = true ∧ t.regs.fault = false := by
  have h : after (step (withCommand { State.reset with regs := { HostRegs.reset with fault := true, sstate := .busy } } 8#32))
      (fun t => t.regs.fault) = some false := by decide +kernel
  obtain ⟨t, h, e⟩ := next_of_after h
  exact ⟨_, t, h, rfl, e⟩

/-- Each of the moves: `INIT`, `RESET`, `END`, the header of a `STEP`, a `STEP FINISH`, and those of a block header. -/
theorem witness_StreamStateTransitions : ∀ x ∈ [(Instr.init 6#4 0#2 9#4 1#4 1#2, StreamState.unconf), (.reset, .finish),
      (.endSession, .finish), (.step 0#3, .init), (.step 4#3, .busy), (.blockStatic false, .init), (.blockStored true, .busy)],
    ∃ s t : State, s.regs.sstate = x.2 ∧ exec x.1 s = .next t ∧ t.regs.sstate ≠ s.regs.sstate := by
  have h : ∀ x ∈ [(Instr.init 6#4 0#2 9#4 1#4 1#2, StreamState.unconf), (.reset, .finish), (.endSession, .finish),
      (.step 0#3, .init), (.step 4#3, .busy), (.blockStatic false, .init), (.blockStored true, .busy)],
      after (exec x.1 (inState (spans (session 0#4 1#2) [] 64) x.2)) (fun t => decide (t.regs.sstate ≠ x.2)) = some true := by
    decide +kernel
  intro x hx
  obtain ⟨t, h, e⟩ := next_of_after (h x hx)
  exact ⟨_, t, rfl, h, of_decide_eq_true e⟩

theorem witness_ConfigurationChangedBy : ∃ s t : State, step s = .next t ∧ t.conf ≠ s.conf := by
  have h : after (step (withCommand State.reset 0x018F0601#32)) (fun t => decide (t.conf = Conf.reset)) = some false := by
    decide +kernel
  obtain ⟨t, h, e⟩ := next_of_after h
  exact ⟨_, t, h, of_decide_eq_false e⟩

/-- A store of the host, and the output of a `STEP`. -/
theorem witness_HostMemoryOutsideOutputKept :
    (∃ (s t : State) (a : Nat), step s = .next t ∧ t.hostMem.get a ≠ s.hostMem.get a ∧ s.inOutput a)
    ∧ ∃ (s t : State) (a : Nat), step s = .next t ∧ t.hostMem.get a ≠ s.hostMem.get a ∧ ¬ s.inOutput a := by
  have h : after (step helloToGo) (fun t => t.hostMem.get 0x2000) = some (some 1#8) := by decide +kernel
  obtain ⟨t, h, e⟩ := next_of_after h
  refine ⟨⟨helloToGo, t, 0x2000, h, ?_, 0, by decide +kernel, by decide +kernel⟩,
    ⟨{ State.reset with events := [.store 5#32 7#8] }, _, 5, rfl, by decide, ?_⟩⟩
  · rw [e]
    decide +kernel
  · rintro ⟨i, hi, -⟩
    exact absurd hi (Nat.not_lt_zero i)

end Sys2Proof.Tests
end

section
/-! SUPPORT. What one step does with each kind of event, as an equation (R5, R20, R96; log entry 2), and the settled statements
about the register port: a decoded word runs its instruction, reads and writes of each register, the layouts of `STATUS` and
`CFG`, the host's stores and the idle step. -/

namespace Sys2Proof.Machine

/-! What is fetched. -/

theorem fetch_command {s : State} {w : Word} {rest : List Event} (he : s.events = .write 0#4 w :: rest) :
    s.fetch = some (.command w, rest) := by
  obtain ⟨⟩ := s
  subst he
  rfl

theorem fetch_header {s : State} {hd : BitVec 3} {rest : List Event} (he : s.events = .block hd :: rest) :
    s.fetch = some (.header hd, rest) := by
  obtain ⟨⟩ := s
  subst he
  rfl

/-- No other event is fetched. -/
theorem fetch_eq_none {s : State} (hw : ∀ w rest, s.events ≠ .write 0#4 w :: rest)
    (hb : ∀ hd rest, s.events ≠ .block hd :: rest) : s.fetch = none := by
  unfold State.fetch
  split
  · exact absurd rfl (hw _ _)
  · exact absurd rfl (hb _ _)
  · rfl

/-! One step, event by event. -/

/-- A word written to `CMD` that decodes to `i` (R21, R280). -/
theorem step_command {s : State} {w : Word} {rest : List Event} {i : Instr} (he : s.events = .write 0#4 w :: rest)
    (hd : decode w = .ok i) : step s = exec i ((s.popEvent rest).latchCommand w) := by
  unfold step
  rw [fetch_command he]
  dsimp only [decodeEncoded]
  rw [hd]
  rfl

/-- A block header (R110; log entry 6). -/
theorem step_header {s : State} {hd : BitVec 3} {rest : List Event} (he : s.events = .block hd :: rest) :
    step s = exec (decodeHeader hd) (s.popEvent rest) := by
  unfold step
  rw [fetch_header he]
  rfl

/-- A write to a register other than `CMD` (R20). -/
theorem step_write {s : State} {i : BitVec 4} {d : Word} {rest : List Event} (he : s.events = .write i d :: rest)
    (hi : i ≠ 0#4) : step s = .next ((s.popEvent rest).writeReg i d) := by
  rw [step_other (fetch_eq_none (by simp [he, hi]) (by simp [he]))]
  unfold State.otherEvent
  rw [he]

/-- A host read (R20). -/
theorem step_read {s : State} {i : BitVec 4} {rest : List Event} (he : s.events = .read i :: rest) :
    step s = .next ((s.popEvent rest).hostRead i) := by
  rw [step_other (fetch_eq_none (by simp [he]) (by simp [he]))]
  unfold State.otherEvent
  rw [he]

/-- A store of the host (R49). -/
theorem step_store {s : State} {a : Word} {b : Byte} {rest : List Event} (he : s.events = .store a b :: rest) :
    step s = .next ((s.popEvent rest).storeByte a b) := by
  rw [step_other (fetch_eq_none (by simp [he]) (by simp [he]))]
  unfold State.otherEvent
  rw [he]
  rfl

/-- With no event pending the core holds its state (R339). -/
theorem step_idle {s : State} (he : s.events = []) : step s = .next s := by
  rw [step_other (fetch_eq_none (by simp [he]) (by simp [he]))]
  unfold State.otherEvent
  rw [he]

/-! The words a read returns. -/

/-- The low half of a 64-bit register. -/
theorem toNat_lowHalf (x : BitVec 64) : (x.extractLsb' 0 32).toNat = x.toNat % 2 ^ 32 := by
  rw [BitVec.extractLsb'_toNat, Nat.shiftRight_zero]

/-- The high half of a 64-bit register. -/
theorem toNat_highHalf (x : BitVec 64) : (x.extractLsb' 32 32).toNat = x.toNat / 2 ^ 32 := by
  have hx := x.isLt
  rw [BitVec.extractLsb'_toNat, Nat.shiftRight_eq_div_pow, Nat.mod_eq_of_lt (by omega)]

/-- A field of a concatenation that lies above its low part. -/
theorem extractLsb'_append_above {n m : Nat} (x : BitVec n) (y : BitVec m) {start : Nat} (len : Nat) (h : m ≤ start) :
    (x ++ y).extractLsb' start len = x.extractLsb' (start - m) len := by
  ext i hi
  rw [BitVec.getElem_extractLsb', BitVec.getElem_extractLsb', BitVec.getLsbD_append, if_neg (by omega)]
  congr 1
  omega

/-- The low part of a concatenation. -/
theorem extractLsb'_append_low {n m : Nat} (x : BitVec n) (y : BitVec m) : (x ++ y).extractLsb' 0 m = y := by
  ext i hi
  rw [BitVec.getElem_extractLsb', BitVec.getLsbD_append, Nat.zero_add, if_pos hi, BitVec.getLsbD_eq_getElem hi]

/-- `STATUS` is taken apart into its seven fields and the zeros above them (R22). -/
theorem statusWord_fields (r : HostRegs) :
    r.statusWord.extractLsb' 0 3 = r.code.bits ∧ r.statusWord.getLsbD 3 = r.fault
      ∧ r.statusWord.extractLsb' 4 2 = r.sstate.bits ∧ r.statusWord.getLsbD 6 = r.inValid
      ∧ r.statusWord.getLsbD 7 = r.outValid ∧ r.statusWord.getLsbD 8 = r.fresh ∧ r.statusWord.getLsbD 9 = r.trailerDone
      ∧ r.statusWord.extractLsb' 10 22 = 0#22 := by
  unfold HostRegs.statusWord
  simp (disch := decide) only [extractLsb'_append_above, extractLsb'_append_low, BitVec.getLsbD_append, Nat.reduceSub,
    Nat.reduceLT, if_true, if_false, BitVec.getLsbD_ofBool, BitVec.extractLsb'_eq_self, decide_true, Bool.true_and, and_self]

/-- `CFG` is taken apart into its five fields and the zeros between them (R23). -/
theorem cfgWord_fields (c : Conf) :
    c.cfgWord.extractLsb' 0 8 = 0#8 ∧ c.cfgWord.extractLsb' 8 4 = c.level ∧ c.cfgWord.extractLsb' 12 2 = c.strategy
      ∧ c.cfgWord.extractLsb' 14 2 = 0#2 ∧ c.cfgWord.extractLsb' 16 4 = c.windowBits
      ∧ c.cfgWord.extractLsb' 20 4 = c.memLevel ∧ c.cfgWord.extractLsb' 24 2 = c.wrap
      ∧ c.cfgWord.extractLsb' 26 6 = 0#6 := by
  unfold Conf.cfgWord
  simp (disch := decide) only [extractLsb'_append_above, extractLsb'_append_low, Nat.reduceSub, BitVec.extractLsb'_eq_self,
    and_self]

/-- A write to a register that R20 does not list as writable is ignored. -/
theorem writeReg_readOnly (s : State) (d : Word) {i : BitVec 4} (h3 : i ≠ 0x3#4) (h4 : i ≠ 0x4#4) (he : i ≠ 0xE#4)
    (hf : i ≠ 0xF#4) : s.writeReg i d = s := by
  unfold State.writeReg
  split
  · exact absurd (BitVec.eq_of_toNat_eq ‹_›) h3
  · exact absurd (BitVec.eq_of_toNat_eq ‹_›) h4
  · exact absurd (BitVec.eq_of_toNat_eq ‹_›) he
  · exact absurd (BitVec.eq_of_toNat_eq ‹_›) hf
  · rfl

/-! The settled statements. -/

/-- Settles O5: the two events that are fetched, each by its equation. -/
theorem stepRunsDecodedInstruction : Obligations.StepRunsDecodedInstruction :=
  ⟨fun _ _ _ _ he hd => step_command he hd, fun _ _ _ he => step_header he⟩

/-- Settles O6: the word read is `readReg`, register by register. -/
theorem registerReads : Obligations.RegisterReads := by
  intro s i rest he
  refine ⟨(s.popEvent rest).readReg i, step_read he, ?_, ?_, ?_, ?_, ?_, ?_, ?_, ?inLow, ?inHigh, ?outLow, ?outHigh, ?_, ?_,
    ?gzOs⟩ <;> rintro rfl
  case inLow => exact toNat_lowHalf s.regs.totalIn
  case inHigh => exact toNat_highHalf s.regs.totalIn
  case outLow => exact toNat_lowHalf s.regs.totalOut
  case outHigh => exact toNat_highHalf s.regs.totalOut
  case gzOs => exact BitVec.toNat_setWidth_of_le (by decide)
  all_goals rfl

/-- Settles O7: the word read is `STATUS` or `CFG`, taken apart field by field. -/
theorem statusAndCfgLayout : Obligations.StatusAndCfgLayout := by
  constructor
  · intro s rest he
    obtain ⟨hc, hf, hs, hiv, hov, hfr, htd, hz⟩ := statusWord_fields s.regs
    refine ⟨s.regs.statusWord, step_read he, ?_, hf, ?_, hiv, hov, hfr, htd, hz⟩
    · rw [hc]
      cases s.regs.code <;> rfl
    · rw [hs]
      cases s.regs.sstate <;> rfl
  · exact fun s rest he => ⟨s.conf.cfgWord, step_read he, cfgWord_fields s.conf⟩

/-- Settles O8: each writable register takes the word, the others ignore it. -/
theorem registerWrites : Obligations.RegisterWrites := by
  intro s i d rest he
  refine ⟨?_, ?_, ?_, ?_, fun h0 h3 h4 hE hF => ?ignored⟩
  case ignored => rw [step_write he h0, writeReg_readOnly _ _ h3 h4 hE hF]; rfl
  all_goals
    rintro rfl
    exact step_write he (by decide)

/-- Settles O9: a store puts one byte into host memory; with no event the state stays. -/
theorem hostStoresAndIdle : Obligations.HostStoresAndIdle :=
  ⟨fun s a b _ he => ⟨s.hostMem.put a.toNat b, step_store he, fun _ => Memory.get_put _ _ _ _⟩, fun _ he => step_idle he⟩

end Sys2Proof.Machine
end

section
/-! SUPPORT. What one instruction can leave, said once as `Executed`: a command was refused, ran the engine inside its frame, or
made its one change of the state. The invariants of a step, its frame and the claims on which instruction changes what are case
analyses over it. -/

namespace Sys2Proof.Machine

open Proc

/-! A session stays in order (R34, R140). -/

/-- A safe procedure that answers with the cursors in order leaves a session in order. -/
theorem State.SessionOk.of_safe {α : Type} {p : Proc State α} {s t : State} {a : α} (hs : s.SessionOk) (hp : Safe p)
    (h : p s = (.ok a, t)) (hb : t.boundaryOk = true) : t.SessionOk := by
  have he := hp.engine s
  rw [h] at he
  exact ⟨he.frame.conf ▸ hs.conf, hb, hp.accumulator s a t h hs.accumulator⟩

theorem stepBody_ordered {flush : BitVec 3} {s t : State} {st : Status} (h : stepBody flush s = (.ok st, t))
    (hs : s.SessionOk) : t.SessionOk := by
  rcases stepBody_ok h with ⟨-, rfl⟩ | ⟨-, -, hb⟩
  · exact hs
  · exact hs.of_safe (stepBody_safe flush) h hb

theorem closeBody_ordered {emit : Bool → Proc State Unit} (he : ∀ eof, Safe (emit eof)) {eof : Bool} {s t : State} {st : Status}
    (h : closeBody emit eof s = (.ok st, t)) (hs : s.SessionOk) : t.SessionOk := by
  rcases closeBody_ok h with ⟨-, rfl⟩ | ⟨-, -, hb⟩
  · exact hs
  · exact hs.of_safe (closeBody_safe he eof) h hb

/-- The cursors are in order. -/
def State.BoundaryOk (s : State) : Prop := s.boundaryOk = true

/-- What the last part of a procedure establishes holds when the whole answers, whatever goes before. -/
theorem holds_of_last_part {σ α β : Type} {P : σ → Prop} {p : Proc σ α} {f : α → Proc σ β}
    (hf : ∀ a s b t, f a s = (.ok b, t) → P t) (s : σ) (b : β) (t : σ) (h : (p >>= f) s = (.ok b, t)) : P t := by
  obtain ⟨a, u, -, h2⟩ := of_bind_ok h
  exact hf a u b t h2

theorem boundaryOk_of_checked {α : Type} (a : α) (s : State) (b : α) (t : State)
    (h : (checkBoundary >>= fun _ => (pure a : Proc State α)) s = (.ok b, t)) : t.BoundaryOk := by
  obtain ⟨_, u, h1, h2⟩ := of_bind_ok h
  obtain ⟨rfl, hb⟩ := checkBoundary_ok h1
  cases h2
  exact hb

/-- Reading a byte of host memory changes nothing (R61). -/
theorem memRead_keeps {P : State → Prop} (addr : Word) : Keeps P (memRead addr) :=
  Keeps.bind Keeps.get fun s => by
    cases s.hostMem.get addr.toNat
    · exact Keeps.throw _
    · exact Keeps.pure _

theorem setWindow_keeps_boundary (dst : Nat) (b : Byte) : Keeps State.BoundaryOk
    (onMatcher (modify fun m => { m with window := m.window.set dst b } : Proc Matcher PUnit)) :=
  Keeps.modify (f := fun s : State => { s with mat := { s.mat with window := s.mat.window.set dst b } }) fun _ hs => hs

/-- Reading a dictionary changes the window's bytes and the checksum, and moves no cursor. -/
theorem readDict_keeps_boundary (addr : Word) (index : Nat) : ∀ r i, Keeps State.BoundaryOk (readDict addr index r i)
  | 0, _ => Keeps.pure _
  | r + 1, i =>
    Keeps.bind (memRead_keeps _) fun b => Keeps.bind Keeps.get fun _ =>
      Keeps.bind (Keeps.onlyIf (Keeps.modify fun _ hs => hs)) fun _ =>
      Keeps.bind (Keeps.onlyIf (Keeps.bind (Keeps.require _) fun _ => setWindow_keeps_boundary _ b)) fun _ =>
        readDict_keeps_boundary addr index r (i + 1)

/-- `SET_DICT` that answers was refused, read a dictionary too short to load, or checked the cursors it moved (R286). -/
theorem setDictBody_keeps_boundary : Keeps State.BoundaryOk setDictBody :=
  Keeps.bind Keeps.get fun _ => Keeps.ite (Keeps.pure _) (Keeps.ite (Keeps.pure _)
    (Keeps.bind (Keeps.modify fun _ hs => hs) fun _ => Keeps.bind (readDict_keeps_boundary _ _ _ _) fun _ =>
      Keeps.ite (Keeps.pure _) fun s b t h _ =>
        holds_of_last_part (fun _ => holds_of_last_part fun _ => holds_of_last_part fun _ => boundaryOk_of_checked _) s b t h))

theorem setDictBody_ordered {s t : State} {st : Status} (h : setDictBody s = (.ok st, t)) (hs : s.SessionOk) : t.SessionOk :=
  hs.of_safe setDictBody_safe h (setDictBody_keeps_boundary s st t h hs.cursors)

/-! What an instruction can leave. -/

/-- `Executed s i t`: the state `t` is one that the instruction `i` may leave when it is executed in `s`. -/
inductive Executed (s : State) : Instr → State → Prop
  /-- Nothing but the status changed (R96, R280, R327). -/
  | refused (i : Instr) (st : Status) : Executed s i (report st s)
  /-- The engine ran in a live session and the command answered. -/
  | answered {i : Instr} {u : State} (hl : s.live) (he : Engine s u) (ho : s.SessionOk → u.SessionOk) (st : Status) :
      Executed s i (report st u)
  /-- The engine ran in a live session and raised the fatal error (R326). -/
  | fatal {i : Instr} {u : State} (hl : s.live) (he : Engine s u) : Executed s i (takeFatal u)
  | init {l : BitVec 4} {st : BitVec 2} {wb ml : BitVec 4} {w : BitVec 2} (hw : (Instr.init l st wb ml w).wellFormed = true) :
      Executed s (.init l st wb ml w) (report .ok (s.initSession l st wb ml w))
  | reset (hl : s.live) : Executed s .reset (report .ok s.sessionReset)
  | setInput (hl : s.live) : Executed s .setInput (report .ok (s.setInputSpan s.regs.arg0 s.regs.arg1 true))
  | setOutput (hl : s.live) : Executed s .setOutput (report .ok (s.setOutputSpan s.regs.arg0 s.regs.arg1 true))
  /-- The parameters changed, after a flush or at once (R287). -/
  | params {l : BitVec 4} {st : BitVec 2} {u : State} (hl : s.live) (hw : (Instr.params l st).wellFormed = true)
      (he : Engine s u) (ho : s.SessionOk → u.SessionOk) : Executed s (.params l st) (report .ok (u.setParams l st))
  | endSession : Executed s .endSession (report .ok s.endSession)

/-- The prologue of a command: it refuses, or the body's answer or fatal error is what is left. -/
theorem Executed.of_execute {legal : Bool} {adm : Admission} {body : Proc State Status} {s t : State} {i : Instr}
    (h : execute legal adm body s = .next t)
    (hok : legal = true → (s.regs.fault = false ∨ adm.whileFault = true) → (s.regs.sstate ≠ .unconf ∨ adm.whileUnconf = true) →
      ∀ st u, body s = (.ok st, u) → Executed s i (report st u))
    (hfatal : (s.regs.fault = false ∨ adm.whileFault = true) → (s.regs.sstate ≠ .unconf ∨ adm.whileUnconf = true) →
      ∀ u, body s = (.error .fatal, u) → Executed s i (takeFatal u)) : Executed s i t := by
  rcases execute_cases h with ⟨-, rfl⟩ | ⟨-, -, -, rfl⟩ | ⟨-, -, -, rfl⟩ | ⟨hl, hf, hs, ⟨st, u, hu, rfl⟩ | ⟨u, hu, rfl⟩⟩
  · exact .refused i _
  · exact .refused i _
  · exact .refused i _
  · exact hok hl hf hs st u hu
  · exact hfatal hf hs u hu

/-- A command whose body is one change of the state. -/
theorem Executed.of_answerOk {legal : Bool} {adm : Admission} {f : State → State} {s t : State} {i : Instr}
    (h : execute legal adm (answerOk f) s = .next t)
    (hok : legal = true → (s.regs.fault = false ∨ adm.whileFault = true) → (s.regs.sstate ≠ .unconf ∨ adm.whileUnconf = true) →
      Executed s i (report .ok (f s))) : Executed s i t :=
  .of_execute h (fun hl hf hs _ _ hu => by cases hu; exact hok hl hf hs) fun _ _ _ hu => by cases hu

/-- A command that is refused under a fault and without a session was let through in a live session. -/
theorem State.live_of_admitted {s : State} (hf : s.regs.fault = false ∨ false = true)
    (hs : s.regs.sstate ≠ .unconf ∨ false = true) : s.live :=
  ⟨hf.resolve_right Bool.false_ne_true, hs.resolve_right Bool.false_ne_true⟩

/-- A command that runs the engine. -/
theorem Executed.of_safe {legal : Bool} {body : Proc State Status} {s t : State} {i : Instr} (hb : Safe body)
    (ho : ∀ {st u}, body s = (.ok st, u) → s.SessionOk → u.SessionOk)
    (h : execute legal ⟨false, false⟩ body s = .next t) : Executed s i t := by
  have he := hb.engine s
  refine .of_execute h (fun _ hf hs st u hu => ?_) fun hf hs u hu => ?_
  · rw [hu] at he
    exact .answered (State.live_of_admitted hf hs) he (ho hu) st
  · rw [hu] at he
    exact .fatal (State.live_of_admitted hf hs) he

theorem execParams_executed {l : BitVec 4} {st : BitVec 2} {s t : State} (h : execParams l st s = .next t) :
    Executed s (.params l st) t := by
  have he := (stepBody_safe partialFlush).engine s
  refine .of_execute h (fun hw hf hs a u hu => ?_) fun hf hs u hu => ?_
  all_goals
    have hl := State.live_of_admitted hf hs
    rw [paramsBody_run] at hu
    split at hu
  · split at hu
    · rename_i b v hv
      rw [hv] at he
      have ho := stepBody_ordered hv
      split at hu <;> cases hu
      · exact .answered hl he ho a
      · exact .params hl hw he ho
    · cases hu
  · cases hu
    exact .params hl hw (.refl s) id
  · split at hu
    · split at hu <;> cases hu
    · rename_i e v hv
      rw [hv] at he
      cases hu
      exact .fatal hl he
  · cases hu

/-- Everything that `exec` can answer as a next state. -/
theorem exec_executed {i : Instr} {s t : State} (h : exec i s = .next t) : Executed s i t := by
  cases i with
  | init l st wb ml w => exact .of_answerOk h fun hw _ _ => .init hw
  | reset =>
    unfold exec execReset at h
    exact .of_answerOk h fun _ hf hs => .reset (State.live_of_admitted hf hs)
  | setDict =>
    unfold exec execSetDict at h
    exact .of_safe setDictBody_safe setDictBody_ordered h
  | setInput =>
    unfold exec execSetInput at h
    exact .of_answerOk h fun _ hf hs => .setInput (State.live_of_admitted hf hs)
  | setOutput =>
    unfold exec execSetOutput at h
    exact .of_answerOk h fun _ hf hs => .setOutput (State.live_of_admitted hf hs)
  | step flush => exact .of_safe (stepBody_safe flush) stepBody_ordered h
  | params l st => exact execParams_executed h
  | endSession =>
    unfold exec execEndSession at h
    exact .of_answerOk h fun _ _ _ => .endSession
  | blockStored b =>
    unfold exec execBlockStored at h
    exact .of_safe (closeBody_safe emitStored_safe b) (closeBody_ordered emitStored_safe) h
  | blockStatic b =>
    unfold exec execBlockStatic at h
    exact .of_safe (closeBody_safe staticBlock_safe b) (closeBody_ordered staticBlock_safe) h
  | blockDynamic b =>
    unfold exec execBlockDynamic at h
    exact .of_safe (closeBody_safe emitDynamic_safe b) (closeBody_ordered emitDynamic_safe) h
  | blockReserved b =>
    unfold exec execBlockReserved at h
    exact .of_safe Safe.raiseFatal (fun hu => by cases hu) h

end Sys2Proof.Machine
end

section
/-! SUPPORT. The settled statements about every instruction and every step: the frame of the commands that run the engine, the
canonical form and the machine's invariant over a step, and which steps clear `fault` or change the configuration. Each is a
case analysis over what an instruction can leave (`Executed`) and, for the other events, over `otherEvent_cases`. -/

namespace Sys2Proof.Machine

/-! The frame of the engine's commands. -/

/-- A command that runs the engine: it drains, encodes or loads a dictionary, and makes no other change. -/
def RunsEngine (i : Instr) : Prop := (∃ f, i = .step f) ∨ i = .setDict ∨ hostCommand i = false

theorem Executed.ranTo {s t : State} {i : Instr} (h : Executed s i t) (hi : RunsEngine i) : s.RanTo t := by
  cases h with
  | refused _ st => exact ⟨s, .refl s, .inl ⟨st, rfl⟩⟩
  | @answered _ u _ he _ st => exact ⟨u, he.frame, .inl ⟨st, rfl⟩⟩
  | @fatal _ u _ he => exact ⟨u, he.frame, .inr rfl⟩
  | init | reset | setInput | setOutput | params | endSession => simp [RunsEngine, hostCommand] at hi

/-- Settles O29: each of the six commands runs the engine, and whatever the engine does is inside its frame. -/
theorem engineCommandsFrame : Obligations.EngineCommandsFrame :=
  ⟨fun _ _ flush h => (exec_executed h).ranTo (.inl ⟨flush, rfl⟩), fun _ _ h => (exec_executed h).ranTo (.inr (.inl rfl)),
    fun _ _ _ h => (exec_executed h).ranTo (.inr (.inr rfl)), fun _ _ _ h => (exec_executed h).ranTo (.inr (.inr rfl)),
    fun _ _ _ h => (exec_executed h).ranTo (.inr (.inr rfl)), fun _ _ _ h => (exec_executed h).ranTo (.inr (.inr rfl))⟩

/-! The canonical form. -/

theorem Coder.Canonical.sessionReset {k : Coder} (h : k.Canonical) : k.sessionReset.Canonical :=
  Coder.stays_of_mem (k := k.initBlock) rfl rfl (k.initBlock_stays h)

theorem State.Canonical.sessionReset {s : State} (h : s.Canonical) : s.sessionReset.Canonical :=
  ⟨s.mat.sessionReset_stays _ h.mat, h.pk, h.cod.sessionReset, h.hostMem⟩

theorem State.Canonical.initSession {s : State} (h : s.Canonical) (l : BitVec 4) (st : BitVec 2) (wb ml : BitVec 4)
    (w : BitVec 2) : (s.initSession l st wb ml w).Canonical := by
  unfold State.initSession
  exact State.Canonical.sessionReset (h.of_parts rfl rfl rfl rfl)

theorem Tree.reset_canonical : Tree.reset.Canonical := ⟨rfl, rfl, rfl, rfl⟩

theorem Coder.reset_canonical : Coder.reset.Canonical where
  dBuf := rfl
  lBuf := rfl
  dynL := ⟨Ram.wf_set Ram.wf_zero 256 1#16, rfl, rfl, rfl⟩
  dynD := Tree.reset_canonical
  bl := Tree.reset_canonical
  heap := rfl
  depth := rfl
  blCount := rfl
  nextCode := rfl

/-- A hardware reset leaves the core's memories at their reset values and host memory as it was (R361; log entry 2). -/
theorem State.Canonical.hardwareReset {s : State} (h : s.Canonical) : s.hardwareReset.Canonical :=
  ⟨⟨rfl, rfl, rfl⟩, rfl, Coder.reset_canonical, h.hostMem⟩

theorem Executed.canonical {s t : State} {i : Instr} (h : Executed s i t) (hc : s.Canonical) : t.Canonical := by
  cases h with
  | refused _ st => exact hc.report st
  | answered _ he _ st => exact (he.canonical hc).report st
  | fatal _ he => exact (he.canonical hc).takeFatal
  | init => exact (hc.initSession _ _ _ _ _).report _
  | reset => exact hc.sessionReset.report _
  | setInput | setOutput | endSession => exact hc.of_parts rfl rfl rfl rfl
  | params _ _ he => exact (he.canonical hc).of_parts rfl rfl rfl rfl

theorem otherEvent_canonical {s : State} (hf : s.fetch = none) (hc : s.Canonical) : s.otherEvent.Canonical := by
  rcases otherEvent_cases hf with h | ⟨rest, i, d, -, h⟩ | ⟨rest, i, -, h⟩ | ⟨rest, a, b, -, h⟩ | ⟨rest, -, h⟩ <;> rw [h]
  · exact hc
  · rw [(writeReg_frame _ i d).2]
    exact hc.of_parts rfl rfl rfl rfl
  · exact hc.of_parts rfl rfl rfl rfl
  · exact ⟨hc.mat, hc.pk, hc.cod, Memory.wf_put hc.hostMem a b⟩
  · exact State.Canonical.hardwareReset (hc.of_parts rfl rfl rfl rfl)

/-- Settles O55: an instruction and every other event keep each memory canonical. -/
theorem stepKeepsCanonical : Obligations.StepKeepsCanonical := by
  intro s t hc h
  rcases step_cases h with ⟨w, rest, i, -, -, hx⟩ | ⟨w, rest, e, -, -, rfl⟩ | ⟨hd, rest, -, hx⟩ | ⟨hf, rfl⟩
  · exact (exec_executed hx).canonical (hc.of_parts rfl rfl rfl rfl)
  · exact hc.of_parts rfl rfl rfl rfl
  · exact (exec_executed hx).canonical (hc.of_parts rfl rfl rfl rfl)
  · exact otherEvent_canonical hf hc

/-! The machine's invariant. -/

/-- `Inv` speaks of `fault`, the stream state and the four parts of a session. -/
theorem State.Inv.of_parts {s t : State} (h : s.Inv) (hf : t.regs.fault = s.regs.fault) (hs : t.regs.sstate = s.regs.sstate)
    (hc : t.conf = s.conf) (hm : t.mat = s.mat) (hp : t.pk = s.pk) (hk : t.cod = s.cod) : t.Inv := by
  rcases h with h | h | h
  · exact .inl (hf.trans h)
  · exact .inr (.inl (hs.trans h))
  · exact .inr (.inr (h.of_parts hc hm hp hk))

/-- In a live session the invariant is that the session is in order. -/
theorem State.Inv.sessionOk {s : State} (h : s.Inv) (hl : s.live) : s.SessionOk := by
  rcases h with h | h | h
  · rw [hl.1] at h
    cases h
  · exact absurd h hl.2
  · exact h

theorem State.SessionOk.report {s : State} (h : s.SessionOk) (st : Status) : (report st s).Inv :=
  .inr (.inr (h.of_parts rfl rfl rfl rfl))

theorem Executed.inv {s t : State} {i : Instr} (h : Executed s i t) (hi : s.Inv) : t.Inv := by
  cases h with
  | refused => exact hi.of_parts rfl rfl rfl rfl rfl rfl
  | answered hl _ ho st => exact (ho (hi.sessionOk hl)).report st
  | fatal => exact .inl rfl
  | init hw => exact (State.sessionReset_ok (Conf.ofFields_consistent s.conf hw)).report _
  | reset hl =>
    refine (State.sessionReset_ok ?_).report _
    rw [(hi.sessionOk hl).conf.tuning]
    exact (hi.sessionOk hl).conf
  | setInput | setOutput => exact hi.of_parts rfl rfl rfl rfl rfl rfl
  | params hl hw _ ho => exact (State.setParams_ok (ho (hi.sessionOk hl)) hw).report _
  | endSession => exact .inr (.inl rfl)

theorem otherEvent_inv {s : State} (hf : s.fetch = none) (hi : s.Inv) : s.otherEvent.Inv := by
  rcases otherEvent_cases hf with h | ⟨rest, i, d, -, h⟩ | ⟨rest, i, -, h⟩ | ⟨rest, a, b, -, h⟩ | ⟨rest, -, h⟩ <;> rw [h]
  · exact hi
  · obtain ⟨hr, hw⟩ := writeReg_frame (s.popEvent rest) i d
    rw [hw, hr]
    exact hi.of_parts rfl rfl rfl rfl rfl rfl
  · exact hi.of_parts rfl rfl rfl rfl rfl rfl
  · exact hi.of_parts rfl rfl rfl rfl rfl rfl
  · exact .inr (.inl rfl)

/-- Settles O56: an instruction and every other event keep the invariant. -/
theorem stepKeepsInvariant : Obligations.StepKeepsInvariant := by
  intro s t hi h
  rcases step_cases h with ⟨w, rest, i, -, -, hx⟩ | ⟨w, rest, e, -, -, rfl⟩ | ⟨hd, rest, -, hx⟩ | ⟨hf, rfl⟩
  · exact (exec_executed hx).inv (hi.of_parts rfl rfl rfl rfl rfl rfl)
  · exact hi.of_parts rfl rfl rfl rfl rfl rfl
  · exact (exec_executed hx).inv (hi.of_parts rfl rfl rfl rfl rfl rfl)
  · exact otherEvent_inv hf hi

/-! Which steps clear `fault`, and which change the configuration. -/

/-- A block header decodes to no host command. -/
theorem decodeHeader_ne (hd : BitVec 3) {i : Instr} (hi : hostCommand i = true) : decodeHeader hd ≠ i := by
  rintro rfl
  unfold decodeHeader at hi
  split at hi <;> cases hi

/-- A block header creates no session. -/
theorem createsSession_decodeHeader (hd : BitVec 3) : createsSession (decodeHeader hd) = false := by
  unfold decodeHeader
  split <;> rfl

/-- Only `INIT` and `END` are executed under a fault and clear it (R329). -/
theorem Executed.clears_fault {s t : State} {i : Instr} (h : Executed s i t) (hs : s.regs.fault = true)
    (ht : t.regs.fault = false) : createsSession i = true ∨ i = .endSession := by
  have kept {u : State} (hu : u.regs.fault = s.regs.fault) (hu' : u.regs.fault = false) : False := by
    rw [hu, hs] at hu'
    cases hu'
  cases h with
  | refused => exact (kept rfl ht).elim
  | answered hl | fatal hl | reset hl | setInput hl | setOutput hl | params hl => exact (kept rfl hl.1).elim
  | init => exact .inl rfl
  | endSession => exact .inr rfl

/-- An event that executes nothing leaves `fault` and the configuration alone, unless it is the reset. -/
theorem otherEvent_keeps {s : State} (hf : s.fetch = none) :
    (∃ rest, s.events = .hwReset :: rest) ∨ (s.otherEvent.regs.fault = s.regs.fault ∧ s.otherEvent.conf = s.conf) := by
  rcases otherEvent_cases hf with h | ⟨rest, i, d, -, h⟩ | ⟨rest, i, -, h⟩ | ⟨rest, a, b, -, h⟩ | ⟨rest, he, -⟩
  · rw [h]
    exact .inr ⟨rfl, rfl⟩
  · obtain ⟨hr, hw⟩ := writeReg_frame (s.popEvent rest) i d
    rw [h, hw, hr]
    exact .inr ⟨rfl, rfl⟩
  · rw [h]
    exact .inr ⟨rfl, rfl⟩
  · rw [h]
    exact .inr ⟨rfl, rfl⟩
  · exact .inl ⟨rest, he⟩

/-- Settles O57: a step that clears `fault` is a reset or executes `INIT` or `END`, which no block header decodes to. -/
theorem onlyInitEndResetClearFault : Obligations.OnlyInitEndResetClearFault := by
  intro s t h hs ht
  rcases step_cases h with ⟨w, rest, i, he, hd, hx⟩ | ⟨w, rest, e, -, -, rfl⟩ | ⟨hd, rest, -, hx⟩ | ⟨hf, rfl⟩
  · exact .inr ⟨w, rest, i, he, hd, (exec_executed hx).clears_fault hs ht⟩
  · exact absurd (ht.symm.trans hs) Bool.false_ne_true
  · rcases (exec_executed hx).clears_fault hs ht with hi | hi
    · exact absurd hi (by rw [createsSession_decodeHeader]; decide)
    · exact absurd hi (decodeHeader_ne hd rfl)
  · rcases otherEvent_keeps hf with hr | ⟨hk, -⟩
    · exact .inl hr
    · exact absurd (ht.symm.trans (hk.trans hs)) Bool.false_ne_true

/-- The commands that change a configuration register, and how far `RESET` does (R23, R33). -/
theorem Executed.changes_conf {s t : State} {i : Instr} (h : Executed s i t) (hc : t.conf ≠ s.conf) :
    createsSession i = true ∨ i = .endSession ∨ (∃ l st, i = .params l st) ∨ (i = .reset ∧ t.conf = s.conf.loadTuning) := by
  cases h with
  | refused | setInput | setOutput => exact absurd rfl hc
  | answered _ he | fatal _ he => exact absurd he.frame.conf hc
  | init => exact .inl rfl
  | reset => exact .inr (.inr (.inr ⟨rfl, rfl⟩))
  | @params l st => exact .inr (.inr (.inl ⟨l, st, rfl⟩))
  | endSession => exact .inr (.inl rfl)

/-- Settles O59: a step that changes the configuration is a reset or executes one of four host commands. -/
theorem configurationChangedBy : Obligations.ConfigurationChangedBy := by
  intro s t h hc
  rcases step_cases h with ⟨w, rest, i, he, hd, hx⟩ | ⟨w, rest, e, -, -, rfl⟩ | ⟨hd, rest, -, hx⟩ | ⟨hf, rfl⟩
  · exact .inr ⟨w, rest, i, he, hd, (exec_executed hx).changes_conf hc⟩
  · exact absurd rfl hc
  · rcases (exec_executed hx).changes_conf hc with hi | hi | ⟨l, st, hi⟩ | ⟨hi, -⟩
    · exact absurd hi (by rw [createsSession_decodeHeader]; decide)
    all_goals exact absurd hi (decodeHeader_ne hd rfl)
  · rcases otherEvent_keeps hf with hr | ⟨-, hk⟩
    · exact .inl hr
    · exact absurd hk hc

end Sys2Proof.Machine
end

section
/-! SUPPORT. The settled statements about the memories: which step changes a byte of host memory, and what `FlushPending` and
`ReadBuf` do with the host's two spans. -/

namespace Sys2Proof.Machine

open Proc

/-! Host memory over one step. -/

/-- Whatever an instruction leaves, only the engine has stored bytes, and only in the output span. -/
theorem Executed.hostMem_outside {s t : State} {i : Instr} (h : Executed s i t) {a : Nat} (ha : ¬ s.inOutput a) :
    t.hostMem.get a = s.hostMem.get a := by
  cases h with
  | refused | init | reset | setInput | setOutput | endSession => rfl
  | answered _ he | fatal _ he | params _ _ he => exact he.frame.memory a ha

/-- An event that executes nothing leaves host memory alone, unless it is the host's store. -/
theorem otherEvent_hostMem {s : State} (hf : s.fetch = none) :
    (∃ x b rest, s.events = .store x b :: rest ∧ s.otherEvent.hostMem = s.hostMem.put x.toNat b)
    ∨ s.otherEvent.hostMem = s.hostMem := by
  rcases otherEvent_cases hf with h | ⟨rest, i, d, -, h⟩ | ⟨rest, i, -, h⟩ | ⟨rest, x, b, he, h⟩ | ⟨rest, -, h⟩
  · rw [h]
    exact .inr rfl
  · rw [h, (writeReg_frame (s.popEvent rest) i d).2]
    exact .inr rfl
  · rw [h]
    exact .inr rfl
  · rw [h]
    exact .inl ⟨x, b, rest, he, rfl⟩
  · rw [h]
    exact .inr rfl

/-- Settles O60: an instruction stores in the output span only, and of the other events the host's store alone writes, one
byte at its own address. -/
theorem hostMemoryOutsideOutputKept : Obligations.HostMemoryOutsideOutputKept := by
  intro s t a h hne
  by_cases ha : s.inOutput a
  · exact .inr ha
  rcases step_cases h with ⟨w, rest, i, -, -, hx⟩ | ⟨w, rest, e, -, -, rfl⟩ | ⟨hd, rest, -, hx⟩ | ⟨hf, rfl⟩
  · exact absurd ((exec_executed hx).hostMem_outside ha) hne
  · exact absurd rfl hne
  · exact absurd ((exec_executed hx).hostMem_outside ha) hne
  · rcases otherEvent_hostMem hf with ⟨x, b, rest, he, hm⟩ | hm
    · rw [hm] at hne
      exact .inl ⟨x, b, rest, he, by_contra fun hxa => hne (Memory.get_put_of_ne (Ne.symm hxa) _ _)⟩
    · exact absurd (congrArg (Memory.get · a) hm) hne

/-! The output side (R71). -/

@[simp] theorem Packer.length_bytesFrom (k : Packer) (i n : Nat) : (k.bytesFrom i n).length = n := by
  simp [Packer.bytesFrom]

@[simp] theorem Packer.getElem_bytesFrom (k : Packer) (i n j : Nat) (h : j < (k.bytesFrom i n).length) :
    (k.bytesFrom i n)[j] = k.pendingBuf.get (i + j) := by
  simp [Packer.bytesFrom]

/-- The indices meet: both return to 0 (R43). -/
theorem Packer.drained_meeting {k : Packer} {n : Nat} (h : k.pendingOut.toNat + n = k.pending.toNat) :
    k.drained n = { k with pending := 0#18, pendingOut := 0#18 } :=
  if_pos (by bv_omega)

/-- Bytes are left: `pendingOut` moves on by the number delivered. -/
theorem Packer.drained_short {k : Packer} {n : Nat} (h : k.pendingOut.toNat + n < k.pending.toNat) :
    k.drained n = { k with pendingOut := k.pendingOut + BitVec.ofNat 18 n }
    ∧ (k.pendingOut + BitVec.ofNat 18 n).toNat = k.pendingOut.toNat + n :=
  ⟨if_neg (by bv_omega), by bv_omega⟩

/-- Draining moves the two indices only. -/
theorem Packer.drained_eq (k : Packer) (n : Nat) :
    k.drained n = { k with pending := (k.drained n).pending, pendingOut := (k.drained n).pendingOut } := by
  unfold Packer.drained
  split <;> rfl

/-- No byte was delivered. -/
theorem State.Delivered.nil (s : State) : s.Delivered s [] := ⟨by simp, fun _ _ => rfl, by simp, by simp, by simp⟩

/-- With nothing to deliver, or no room, nothing happens. -/
theorem flushPending_idle {s : State} (h : min s.pk.owed s.regs.outAvail.toNat = 0) : flushPending s = (.ok (), s) := by
  unfold flushPending
  rw [get_bind_run, ite_run, if_pos h]
  rfl

/-- Otherwise the bytes are delivered: the loop stores them (`writeBytes_run`) and changes nothing but host memory
(`writeBytes_stores`), then the output registers move and the indices are drained. -/
theorem flushPending_run {s : State} {n : Nat} (h : n = min s.pk.owed s.regs.outAvail.toNat) (hn : n ≠ 0)
    (hcap : s.pk.pendingOut.toNat + n ≤ s.conf.pendingBufSize) :
    ∃ m, flushPending s = (.ok (), { s.delivered n with hostMem := m, pk := s.pk.drained n })
      ∧ s.Delivered { s.delivered n with hostMem := m, pk := s.pk.drained n } (s.pk.bytesFrom s.pk.pendingOut.toNat n) := by
  obtain ⟨u, hu, hbytes⟩ := writeBytes_run n s.pk.pendingOut.toNat s.regs.outPtr s hcap (by omega)
  have hs : Stores s.regs.outPtr n s u := by
    have h1 := writeBytes_stores n s.pk.pendingOut.toNat s.regs.outPtr s
    rwa [hu] at h1
  refine ⟨u.hostMem, ?_, fun j hj => ?_, ?_, ?_, ?_, ?_⟩
  · subst h
    unfold flushPending
    rw [get_bind_run, ite_run, if_neg hn, bind_ok hu, hs.only]
    rfl
  · rw [Packer.getElem_bytesFrom]
    exact hbytes j (by simpa using hj)
  all_goals rw [Packer.length_bytesFrom]
  · exact hs.outside
  all_goals rfl

/-- Settles O42: with nothing to deliver the state stays; otherwise `flushPending_run` says all, and the indices meet when the
bytes awaiting delivery all fitted, as they did where room is left. -/
theorem flushPendingDelivers : Obligations.FlushPendingDelivers := by
  intro s n hle hcap hn
  by_cases h0 : n = 0
  · subst h0
    exact ⟨s, flushPending_idle hn.symm, .nil s, rfl, fun _ => ⟨rfl, rfl⟩, fun h => absurd rfl h, fun _ => ⟨rfl, rfl⟩,
      fun h => by bv_omega⟩
  obtain ⟨m, hrun, hdel⟩ := flushPending_run hn h0 (by omega)
  refine ⟨_, hrun, hdel, ?_, fun h => absurd h h0, fun _ hm => ?_, fun hm => ?_, fun ha => ?_⟩
  · conv_lhs => rw [Packer.drained_eq]
    rfl
  · rw [Packer.drained_meeting hm]
    exact ⟨rfl, rfl⟩
  · obtain ⟨hk, hout⟩ := Packer.drained_short (k := s.pk) (n := n) (by omega)
    rw [hk]
    exact ⟨rfl, hout⟩
  · have ha' : s.regs.outAvail - BitVec.ofNat 32 n ≠ 0#32 := ha
    rw [Packer.drained_meeting (by bv_omega)]

/-! The input side (R70). -/

/-- `ReadBuf` is its loop and then the move of the registers; with nothing to read both change nothing. -/
theorem readBuf_run {s u : State} {start size n : Nat} (hn : n = min s.regs.inAvail.toNat size)
    (h : readBytes n s.regs.inPtr start s = (.ok (), u)) : readBuf start size s = (.ok n, u.consumed n) := by
  subst hn
  unfold readBuf
  rw [get_bind_run, ite_run]
  split
  case isTrue h0 =>
    rw [h0] at h ⊢
    cases h
    simp [State.consumed]
  case isFalse =>
    rw [bind_ok h]
    rfl

/-- Settles O43: the loop of R70 (`readBytes_run`), after which the input registers move. -/
theorem readBufConsumes : Obligations.ReadBufConsumes := by
  intro s start size n hn hend hsize hread
  obtain ⟨u, hu, heq, hin, hout, hck⟩ := readBytes_run n s.regs.inPtr start s hend hsize hread
  refine ⟨u.consumed n, readBuf_run hn hu, ?_, hin, hout, hck⟩
  conv_lhs => rw [heq]
  rfl

end Sys2Proof.Machine
end

section
/-! SUPPORT. The settled statement about the checksum functions (R79). -/

namespace Sys2Proof.Machine

/-- The two halves of a packed word. -/
theorem halves_ofNat {hi lo : Nat} (hhi : hi < 65536) (hlo : lo < 65536) :
    (BitVec.ofNat 32 (hi * 65536 + lo)).toNat % 65536 = lo ∧ (BitVec.ofNat 32 (hi * 65536 + lo)).toNat / 65536 = hi := by
  rw [BitVec.toNat_ofNat]
  omega

/-- The low half after one byte: the old low half plus the byte. -/
theorem adlerUpdate_low (ck : Word) (b : Byte) :
    (adlerUpdate ck b).toNat % 65536 = (ck.toNat % 65536 + b.toNat) % 65521 :=
  (halves_ofNat (by omega) (by omega)).1

/-- The high half after one byte: the old high half plus the new low half. -/
theorem adlerUpdate_high (ck : Word) (b : Byte) :
    (adlerUpdate ck b).toNat / 65536 = (ck.toNat / 65536 + (adlerUpdate ck b).toNat % 65536) % 65521 := by
  rw [adlerUpdate_low]
  exact (halves_ofNat (by omega) (by omega)).2

theorem ChecksumUnit.fold_concat (u : ChecksumUnit) (ck : Word) (bs : List Byte) (b : Byte) :
    u.fold ck (bs ++ [b]) = u.update (u.fold ck bs) b := List.foldl_concat ..

/-- 1 plus the sum of the bytes: Adler-32's low half before the modulus. -/
def adlerLow (bs : List Byte) : Nat := 1 + (bs.map BitVec.toNat).sum

/-- The sum of the successive low halves before the modulus. -/
def adlerHigh (bs : List Byte) : Nat := ((List.range bs.length).map fun i => adlerLow (bs.take (i + 1))).sum

theorem adlerLow_concat (bs : List Byte) (b : Byte) : adlerLow (bs ++ [b]) = adlerLow bs + b.toNat := by
  simp [adlerLow, Nat.add_assoc]

theorem adlerHigh_concat (bs : List Byte) (b : Byte) : adlerHigh (bs ++ [b]) = adlerHigh bs + adlerLow (bs ++ [b]) := by
  have hold : ∀ i ∈ List.range bs.length, adlerLow ((bs ++ [b]).take (i + 1)) = adlerLow (bs.take (i + 1)) := fun i hi => by
    rw [List.take_append_of_le_length (List.mem_range.1 hi)]
  unfold adlerHigh
  rw [List.length_append, List.length_singleton, List.range_succ, List.map_append, List.sum_append, List.map_congr_left hold]
  simp [List.take_of_length_le]

/-- Both halves of Adler-32 in closed form, byte by byte from the front. -/
theorem adler32_halves (bs : List Byte) :
    (ChecksumUnit.adler32.fold ChecksumUnit.adler32.initial bs).toNat % 65536 = adlerLow bs % 65521
    ∧ (ChecksumUnit.adler32.fold ChecksumUnit.adler32.initial bs).toNat / 65536 = adlerHigh bs % 65521 := by
  induction bs using List.reverseRecOn with
  | nil => decide
  | append_singleton bs b ih =>
    obtain ⟨hlow, hhigh⟩ := ih
    have hlow' := adlerUpdate_low (ChecksumUnit.adler32.fold ChecksumUnit.adler32.initial bs) b
    rw [hlow, Nat.mod_add_mod, ← adlerLow_concat] at hlow'
    have hhigh' := adlerUpdate_high (ChecksumUnit.adler32.fold ChecksumUnit.adler32.initial bs) b
    rw [hhigh, hlow', ← Nat.add_mod, ← adlerHigh_concat] at hhigh'
    rw [ChecksumUnit.fold_concat]
    exact ⟨hlow', hhigh'⟩

/-- Settles O54: Adler-32 by its two closed forms, the values the spec writes out by evaluation. -/
theorem checksumFunctions : Obligations.ChecksumFunctions :=
  ⟨adler32_halves, by decide, rfl, by decide⟩

end Sys2Proof.Machine
end

section
/-! SUPPORT. Decoding against encoding (R90 to R96, R110): what the decoder answers for a word of each format, written as the
concatenation of its fields; which words are illegal; and the settled statements about the two encodings. -/

namespace Sys2Proof.Machine

/-! A word is the concatenation of its fields: the opcode's eight bits, then the fields of its format. -/

theorem word_fields_none (w : Word) : w = w.extractLsb' 8 24 ++ w.extractLsb' 0 8 := by
  refine BitVec.eq_of_getLsbD_eq fun k hk => ?_
  simp only [BitVec.getLsbD_append, BitVec.getLsbD_extractLsb']
  interval_cases k <;> simp

theorem word_fields_step (w : Word) : w = w.extractLsb' 11 21 ++ w.extractLsb' 8 3 ++ w.extractLsb' 0 8 := by
  refine BitVec.eq_of_getLsbD_eq fun k hk => ?_
  simp only [BitVec.getLsbD_append, BitVec.getLsbD_extractLsb']
  interval_cases k <;> simp

theorem word_fields_params (w : Word) :
    w = w.extractLsb' 14 18 ++ w.extractLsb' 12 2 ++ w.extractLsb' 8 4 ++ w.extractLsb' 0 8 := by
  refine BitVec.eq_of_getLsbD_eq fun k hk => ?_
  simp only [BitVec.getLsbD_append, BitVec.getLsbD_extractLsb']
  interval_cases k <;> simp

theorem word_fields_init (w : Word) :
    w = w.extractLsb' 26 6 ++ w.extractLsb' 24 2 ++ w.extractLsb' 20 4 ++ w.extractLsb' 16 4 ++ w.extractLsb' 14 2
      ++ w.extractLsb' 12 2 ++ w.extractLsb' 8 4 ++ w.extractLsb' 0 8 := by
  refine BitVec.eq_of_getLsbD_eq fun k hk => ?_
  simp only [BitVec.getLsbD_append, BitVec.getLsbD_extractLsb']
  interval_cases k <;> simp

/-! The encodings in the same form. -/

/-- The word of format I (R91). -/
theorem encode_init (level : BitVec 4) (strategy : BitVec 2) (windowBits memLevel : BitVec 4) (wrap : BitVec 2) :
    encode (.init level strategy windowBits memLevel wrap)
      = .command (0#6 ++ wrap ++ memLevel ++ windowBits ++ 0#2 ++ strategy ++ level ++ 0x01#8) := by
  refine congrArg Encoded.command (BitVec.eq_of_getLsbD_eq fun k hk => ?_)
  simp only [fieldAt, BitVec.getLsbD_or, BitVec.getLsbD_shiftLeft, BitVec.getLsbD_setWidth, BitVec.getLsbD_append]
  interval_cases k <;> simp

/-- The word of format S (R92). -/
theorem encode_step (flush : BitVec 3) : encode (.step flush) = .command (0#21 ++ flush ++ 0x06#8) := by
  revert flush
  decide

/-- The word of format P (R93). -/
theorem encode_params (level : BitVec 4) (strategy : BitVec 2) :
    encode (.params level strategy) = .command (0#18 ++ strategy ++ level ++ 0x07#8) := by
  revert level strategy
  decide

/-! What the decoder answers, format by format. -/

theorem append_eq_iff {n m : Nat} {a c : BitVec n} {b d : BitVec m} : a ++ b = c ++ d ↔ a = c ∧ b = d := by
  refine ⟨fun h => ⟨?_, ?_⟩, fun ⟨ha, hb⟩ => ha ▸ hb ▸ rfl⟩
  · simpa [extractLsb'_append_above] using congrArg (BitVec.extractLsb' m n) h
  · simpa [extractLsb'_append_low] using congrArg (BitVec.extractLsb' 0 m) h

/-- The opcode of a word is its low byte (R90). -/
theorem opcodeOf_append (z : BitVec 24) (op : BitVec 8) : opcodeOf (z ++ op) = op.toNat := by
  unfold opcodeOf
  rw [extractLsb'_append_low]

/-! The must-be-zero bits of a word are the fields that its format leaves out (R91 to R94). -/

theorem mbzNone_iff (z : BitVec 24) (op : BitVec 8) : (z ++ op : Word) &&& mbzNone = 0#32 ↔ z = 0#24 := by
  have h : (z ++ op) &&& (BitVec.allOnes 24 ++ 0#8) = 0#24 ++ 0#8 ↔ z = 0#24 := by
    simp only [BitVec.and_append, append_eq_iff, BitVec.and_zero, BitVec.and_allOnes, and_true]
  exact h

theorem mbzStep_iff (z : BitVec 21) (flush : BitVec 3) (op : BitVec 8) :
    (z ++ flush ++ op : Word) &&& mbzStep = 0#32 ↔ z = 0#21 := by
  have h : (z ++ flush ++ op) &&& (BitVec.allOnes 21 ++ 0#3 ++ 0#8) = 0#21 ++ 0#3 ++ 0#8 ↔ z = 0#21 := by
    simp only [BitVec.and_append, append_eq_iff, BitVec.and_zero, BitVec.and_allOnes, and_true]
  exact h

theorem mbzParams_iff (z : BitVec 18) (strategy : BitVec 2) (level : BitVec 4) (op : BitVec 8) :
    (z ++ strategy ++ level ++ op : Word) &&& mbzParams = 0#32 ↔ z = 0#18 := by
  have h : (z ++ strategy ++ level ++ op) &&& (BitVec.allOnes 18 ++ 0#2 ++ 0#4 ++ 0#8) = 0#18 ++ 0#2 ++ 0#4 ++ 0#8
      ↔ z = 0#18 := by
    simp only [BitVec.and_append, append_eq_iff, BitVec.and_zero, BitVec.and_allOnes, and_true]
  exact h

theorem mbzInit_iff (z : BitVec 6) (wrap : BitVec 2) (memLevel windowBits : BitVec 4) (y strategy : BitVec 2)
    (level : BitVec 4) (op : BitVec 8) :
    (z ++ wrap ++ memLevel ++ windowBits ++ y ++ strategy ++ level ++ op : Word) &&& mbzInit = 0#32 ↔ z = 0#6 ∧ y = 0#2 := by
  have h : (z ++ wrap ++ memLevel ++ windowBits ++ y ++ strategy ++ level ++ op)
      &&& (BitVec.allOnes 6 ++ 0#2 ++ 0#4 ++ 0#4 ++ BitVec.allOnes 2 ++ 0#2 ++ 0#4 ++ 0#8)
      = 0#6 ++ 0#2 ++ 0#4 ++ 0#4 ++ 0#2 ++ 0#2 ++ 0#4 ++ 0#8 ↔ z = 0#6 ∧ y = 0#2 := by
    simp only [BitVec.and_append, append_eq_iff, BitVec.and_zero, BitVec.and_allOnes, and_true]
  exact h

/-! What the decoder answers for a word of each format. -/

theorem decode_initWord (z : BitVec 6) (wrap : BitVec 2) (memLevel windowBits : BitVec 4) (y strategy : BitVec 2)
    (level : BitVec 4) :
    decode (z ++ wrap ++ memLevel ++ windowBits ++ y ++ strategy ++ level ++ 0x01#8)
      = if z = 0#6 ∧ y = 0#2 then .ok (.init level strategy windowBits memLevel wrap) else .error .mustBeZero := by
  unfold decode
  rw [opcodeOf_append]
  simp (disch := decide) only [BitVec.toNat_ofNat, Nat.reducePow, Nat.reduceMod, guardZero, mbzInit_iff,
    extractLsb'_append_above, extractLsb'_append_low, Nat.reduceSub]

theorem decode_stepWord (z : BitVec 21) (flush : BitVec 3) :
    decode (z ++ flush ++ 0x06#8) = if z = 0#21 then .ok (.step flush) else .error .mustBeZero := by
  unfold decode
  rw [opcodeOf_append]
  simp (disch := decide) only [BitVec.toNat_ofNat, Nat.reducePow, Nat.reduceMod, guardZero, mbzStep_iff,
    extractLsb'_append_above, extractLsb'_append_low, Nat.reduceSub]

theorem decode_paramsWord (z : BitVec 18) (strategy : BitVec 2) (level : BitVec 4) :
    decode (z ++ strategy ++ level ++ 0x07#8)
      = if z = 0#18 then .ok (.params level strategy) else .error .mustBeZero := by
  unfold decode
  rw [opcodeOf_append]
  simp (disch := decide) only [BitVec.toNat_ofNat, Nat.reducePow, Nat.reduceMod, guardZero, mbzParams_iff,
    extractLsb'_append_above, extractLsb'_append_low, Nat.reduceSub]

/-! What a word that decodes looks like. -/

theorem guardZero_ok {w mask : Word} {i j : Instr} (h : guardZero w mask j = .ok i) : w &&& mask = 0#32 ∧ i = j := by
  unfold guardZero at h
  split at h <;> cases h
  exact ⟨‹_›, rfl⟩

theorem lowByte_of_opcode {w : Word} {op : BitVec 8} (h : opcodeOf w = op.toNat) : w.extractLsb' 0 8 = op :=
  BitVec.eq_of_toNat_eq h

/-- A word of format N whose must-be-zero bits are zero is its opcode (R94). -/
theorem word_of_mbzNone {w : Word} {op : BitVec 8} (hop : opcodeOf w = op.toNat) (hz : w &&& mbzNone = 0#32) :
    w = 0#24 ++ op := by
  have hw := word_fields_none w
  rw [lowByte_of_opcode hop] at hw
  rw [hw, mbzNone_iff] at hz
  conv_lhs => rw [hw, hz]

/-- A word that decodes is the encoding of what it decodes to: what is not a field of its format is fixed. -/
theorem encode_of_decode {w : Word} {i : Instr} (h : decode w = .ok i) : encode i = .command w := by
  unfold decode at h
  split at h
  case h_9 => cases h
  all_goals
    rename_i hop
    obtain ⟨hz, rfl⟩ := guardZero_ok h
  case h_1 =>
    have hw := word_fields_init w
    rw [lowByte_of_opcode (op := 0x01#8) hop] at hw
    rw [hw, mbzInit_iff] at hz
    rw [encode_init]
    conv_rhs => rw [hw, hz.1, hz.2]
  case h_6 =>
    have hw := word_fields_step w
    rw [lowByte_of_opcode (op := 0x06#8) hop] at hw
    rw [hw, mbzStep_iff] at hz
    rw [encode_step]
    conv_rhs => rw [hw, hz]
  case h_7 =>
    have hw := word_fields_params w
    rw [lowByte_of_opcode (op := 0x07#8) hop] at hw
    rw [hw, mbzParams_iff] at hz
    rw [encode_params]
    conv_rhs => rw [hw, hz]
  case h_2 => rw [word_of_mbzNone (op := 0x02#8) hop hz]; rfl
  case h_3 => rw [word_of_mbzNone (op := 0x03#8) hop hz]; rfl
  case h_4 => rw [word_of_mbzNone (op := 0x04#8) hop hz]; rfl
  case h_5 => rw [word_of_mbzNone (op := 0x05#8) hop hz]; rfl
  case h_8 => rw [word_of_mbzNone (op := 0x08#8) hop hz]; rfl

/-! Illegal words (R96). -/

/-- An operand field of a word, as a number. -/
theorem toNat_field (w : Word) (start len : Nat) : (w.extractLsb' start len).toNat = w.toNat / 2 ^ start % 2 ^ len := by
  rw [BitVec.extractLsb'_toNat, Nat.shiftRight_eq_div_pow]

theorem exists_guardZero_iff (w mask : Word) (j : Instr) :
    (∃ i, guardZero w mask j = .ok i ∧ i.wellFormed = true ∧ hostCommand i = true)
      ↔ w &&& mask = 0#32 ∧ j.wellFormed = true ∧ hostCommand j = true := by
  constructor
  · rintro ⟨i, h, hw, hc⟩
    obtain ⟨hz, rfl⟩ := guardZero_ok h
    exact ⟨hz, hw, hc⟩
  · rintro ⟨hz, hw, hc⟩
    exact ⟨j, if_pos hz, hw, hc⟩

/-- The words that R96 does not call illegal are those that decode to a command with legal fields. -/
theorem not_illegalWord_iff (w : Word) :
    ¬ IllegalWord w ↔ ∃ i, decode w = .ok i ∧ i.wellFormed = true ∧ hostCommand i = true := by
  have hop : opcodeOf w = w.toNat % 256 := toNat_field w 0 8 |>.trans (by simp)
  unfold decode IllegalWord
  rw [hop]
  split
  case h_9 h1 h2 h3 h4 h5 h6 h7 h8 =>
    rw [imp_false] at h1 h2 h3 h4 h5 h6 h7 h8
    have h : w.toNat % 256 = 0 ∨ 8 < w.toNat % 256 := by omega
    simp only [reduceCtorEq, false_and, exists_false, iff_false, not_not]
    exact h.imp_right .inl
  all_goals
    rename_i h
    rw [exists_guardZero_iff, h]
    simp only [Instr.wellFormed, hostCommand, levelLegal, strategyLegal, windowBitsLegal, memLevelLegal, wrapLegal, flushLegal,
      toNat_field, mbzInit, mbzStep, mbzParams, mbzNone, Bool.and_eq_true, decide_eq_true_eq]
  case h_1 =>
    by_cases hz : w &&& 0xFC00C000#32 = 0#32 <;> simp [hz]
    omega
  case h_6 =>
    by_cases hz : w &&& 0xFFFFF800#32 = 0#32 <;> simp [hz]
  case h_7 =>
    by_cases hz : w &&& 0xFFFFC000#32 = 0#32 <;> simp [hz]
    omega
  all_goals simp

theorem execute_of_illegal {legal : Bool} (h : legal = false) (adm : Admission) (body : Proc State Status) (s : State) :
    execute legal adm body s = .next (report .errParam s) := by
  rw [h, execute_illegal]

/-- An instruction with a field out of range is refused before all else (R96, R280, R327). -/
theorem exec_illFormed {i : Instr} (h : i.wellFormed = false) (s : State) : exec i s = .next (report .errParam s) := by
  cases i with
  | init | step | params => exact execute_of_illegal h _ _ s
  | reset | setDict | setInput | setOutput | endSession | blockStored | blockStatic | blockDynamic | blockReserved => cases h

/-- A word written to `CMD` that does not decode (R96). -/
theorem step_rejected {s : State} {w : Word} {rest : List Event} {e : Reject} (he : s.events = .write 0#4 w :: rest)
    (hd : decode w = .error e) : step s = .next (report .errParam ((s.popEvent rest).latchCommand w)) := by
  unfold step
  rw [fetch_command he]
  dsimp only [decodeEncoded]
  rw [hd]
  rfl

/-- What decodes from a command word is a host command. -/
theorem hostCommand_of_decode {w : Word} {i : Instr} (h : decode w = .ok i) : hostCommand i = true := by
  cases i with
  | init | reset | setDict | setInput | setOutput | step | params | endSession => rfl
  | blockStored | blockStatic | blockDynamic | blockReserved => cases encode_of_decode h

/-! The settled statements. -/

/-- Settles O1: each word is evaluated. -/
theorem decodeSpecWords : Obligations.DecodeSpecWords := by
  unfold Obligations.DecodeSpecWords
  decide

/-- Settles O2: a word with operands is decoded field by field, the others and the eight headers are evaluated. -/
theorem decodeEncodeAgree : Obligations.DecodeEncodeAgree := by
  intro i
  cases i with
  | init level strategy windowBits memLevel wrap =>
    rw [encode_init]
    exact decode_initWord 0#6 wrap memLevel windowBits 0#2 strategy level
  | step flush =>
    rw [encode_step]
    exact decode_stepWord 0#21 flush
  | params level strategy =>
    rw [encode_params]
    exact decode_paramsWord 0#18 strategy level
  | reset | setDict | setInput | setOutput | endSession => rfl
  | blockStored b | blockStatic b | blockDynamic b | blockReserved b => cases b <;> rfl

/-- Settles O3: both kinds of encoding one by one, and `not_illegalWord_iff`. -/
theorem encodeDecodeAgree : Obligations.EncodeDecodeAgree :=
  ⟨fun _ _ => encode_of_decode, by decide, fun w => (not_illegalWord_iff w).1⟩

/-- Settles O4: an illegal word does not decode, or decodes to a command with a field out of range. -/
theorem illegalWordOnlyReports : Obligations.IllegalWordOnlyReports := by
  intro s w rest he hw
  cases hd : decode w with
  | error e => exact step_rejected he hd
  | ok i =>
    have hi : i.wellFormed = false := by
      by_contra hi
      exact (not_illegalWord_iff w).2 ⟨i, hd, Bool.not_eq_false _ ▸ hi, hostCommand_of_decode hd⟩ hw
    rw [step_command he hd]
    exact exec_illFormed hi _

/-- Settles O36: behind the prologue the body raises the fatal status (U1). -/
theorem blockReservedRaisesFatal : Obligations.BlockReservedRaisesFatal :=
  fun _ _ hl => execute_live hl

end Sys2Proof.Machine
end

section
/-! SUPPORT. The classification functions (R120), bit reversal (R171) and the static codes (R118, R119) as properties of their
values, and the settled statements about them. -/

namespace Sys2Proof.Machine

/-! The largest entry at most a value. -/

theorem largestAtMost_le (t : List Nat) (v : Nat) : ∀ top, largestAtMost t v top ≤ top
  | 0 => le_rfl
  | c + 1 => by
    unfold largestAtMost
    split
    · exact le_rfl
    · exact (largestAtMost_le t v c).trans (Nat.le_succ c)

theorem tableAt_largestAtMost {t : List Nat} {v : Nat} (h : tableAt t 0 ≤ v) : ∀ top, tableAt t (largestAtMost t v top) ≤ v
  | 0 => h
  | c + 1 => by
    unfold largestAtMost
    split
    · assumption
    · exact tableAt_largestAtMost h c

theorem le_largestAtMost {t : List Nat} {v c : Nat} (hc : tableAt t c ≤ v) : ∀ {top}, c ≤ top → c ≤ largestAtMost t v top
  | 0, h => h
  | top + 1, h => by
    unfold largestAtMost
    split
    · exact h
    · refine le_largestAtMost hc (Nat.le_of_lt_succ (lt_of_le_of_ne h ?_))
      rintro rfl
      contradiction

/-- What is left above the largest entry fits `extra` bits, when each entry's bits reach the next one and the last one's the
end of the range. -/
theorem sub_tableAt_lt {t extra : List Nat} {v top : Nat}
    (hstep : ∀ c, c < top → tableAt t (c + 1) ≤ tableAt t c + 2 ^ tableAt extra c)
    (hend : v < tableAt t top + 2 ^ tableAt extra top) :
    v - tableAt t (largestAtMost t v top) < 2 ^ tableAt extra (largestAtMost t v top) := by
  have hpos := Nat.two_pow_pos (tableAt extra (largestAtMost t v top))
  rcases (largestAtMost_le t v top).lt_or_eq with hlt | heq
  · have hs := hstep _ hlt
    have hnext : v < tableAt t (largestAtMost t v top + 1) := by
      by_contra hle
      have := le_largestAtMost (not_lt.1 hle) hlt
      omega
    omega
  · rw [heq] at hpos ⊢
    omega

/-! `LengthCode` and `DistCode`. -/

theorem lengthCode_of_lt {lc : Nat} (h : lc < 255) : lengthCode lc = largestAtMost baseLength lc 27 := if_neg (by omega)

theorem lengthCode_le (lc : Nat) : lengthCode lc ≤ 28 := by
  unfold lengthCode
  split
  · exact le_rfl
  · exact (largestAtMost_le baseLength lc 27).trans (by decide)

theorem distCode_le (d : Nat) : distCode d ≤ 29 := largestAtMost_le baseDist d 29

theorem tableAt_lengthCode_le (lc : Nat) : tableAt baseLength (lengthCode lc) ≤ lc := by
  unfold lengthCode
  split
  case isTrue h => rw [h]; decide
  case isFalse => exact tableAt_largestAtMost (Nat.zero_le lc) 27

theorem tableAt_distCode_le (d : Nat) : tableAt baseDist (distCode d) ≤ d := tableAt_largestAtMost (Nat.zero_le d) 29

/-- The rest of a length fits the extra bits of its code (R116). -/
theorem length_extra_lt {lc : Nat} (h : lc ≤ 255) :
    lc - tableAt baseLength (lengthCode lc) < 2 ^ tableAt extraLBits (lengthCode lc) := by
  rcases h.lt_or_eq with hlt | rfl
  · rw [lengthCode_of_lt hlt]
    exact sub_tableAt_lt (by decide) (hlt.trans (by decide))
  · decide

/-- The rest of a distance fits the extra bits of its code (R117). -/
theorem dist_extra_lt {d : Nat} (h : d < 32768) : d - tableAt baseDist (distCode d) < 2 ^ tableAt extraDBits (distCode d) :=
  sub_tableAt_lt (by decide) (h.trans_le (by decide))

/-- Settles O46: both functions are `largestAtMost` over a table that starts at 0. -/
theorem classificationFunctions : Obligations.ClassificationFunctions := by
  refine ⟨rfl, fun lc h => ?_, fun d _ => ⟨distCode_le d, tableAt_distCode_le d, fun _ hc hd => le_largestAtMost hd hc⟩,
    fun _ => length_extra_lt, fun _ => dist_extra_lt⟩
  refine ⟨?_, tableAt_lengthCode_le lc, fun c hc hl => ?_⟩ <;> rw [lengthCode_of_lt h]
  · exact largestAtMost_le baseLength lc 27
  · exact le_largestAtMost hl hc

/-! Bit reversal (R171). -/

/-- The loop of `BiReverse`: the bits already reversed move up, the low bits of `code` follow in reverse. -/
theorem testBit_biReverse_go (i : Nat) : ∀ k code res, (biReverse.go code k res).testBit i
    = if i < k then code.testBit (k - 1 - i) else res.testBit (i - k)
  | 0, code, res => by simp [biReverse.go]
  | k + 1, code, res => by
    rw [biReverse.go, testBit_biReverse_go i k]
    split
    · rw [if_pos (by omega), Nat.testBit_shiftRight]
      congr 1
      omega
    · have hlow : code &&& 1 = code % 2 ^ 1 := by rw [Nat.and_one_is_mod, pow_one]
      rw [Nat.testBit_or, Nat.testBit_shiftLeft, hlow, Nat.testBit_mod_two_pow]
      split
      · have hi : i = k := by omega
        simp [hi]
      · have hi : 1 ≤ i - k := by omega
        rw [show i - (k + 1) = i - k - 1 by omega, decide_eq_true hi, decide_eq_false (by omega)]
        simp

theorem testBit_biReverse (code len i : Nat) :
    (biReverse code len).testBit i = (decide (i < len) && code.testBit (len - 1 - i)) := by
  unfold biReverse
  rw [testBit_biReverse_go]
  split <;> simp [*]

theorem biReverse_lt (code len : Nat) : biReverse code len < 2 ^ len := by
  refine Nat.lt_pow_two_of_testBit _ fun i hi => ?_
  rw [testBit_biReverse, decide_eq_false (by omega), Bool.false_and]

/-- A code stored bit-reversed is sent most significant bit first (R12). -/
theorem lowBits_biReverse (code len : Nat) : lowBits (biReverse code len) len = (lowBits code len).reverse := by
  unfold lowBits
  refine List.ext_getElem (by simp) fun i h _ => ?_
  have hi : i < len := by simpa using h
  simp [testBit_biReverse, hi]

/-- When one stored code begins another, the shorter one is what is left of the longer one without its low bits. -/
theorem shiftRight_eq_of_beginsCode {a b n m : Nat} (ha : a < 2 ^ n) (hb : b < 2 ^ m)
    (h : beginsCode (biReverse a n) n (biReverse b m) m) : n ≤ m ∧ b >>> (m - n) = a := by
  obtain ⟨hle, heq⟩ := h
  refine ⟨hle, Nat.eq_of_testBit_eq fun i => ?_⟩
  rw [Nat.testBit_shiftRight]
  rcases lt_or_ge i n with hi | hi
  · have hbit := congrArg (Nat.testBit · (n - 1 - i)) heq
    simp only [Nat.testBit_mod_two_pow, testBit_biReverse] at hbit
    rw [show m - 1 - (n - 1 - i) = m - n + i by omega, show n - 1 - (n - 1 - i) = i by omega] at hbit
    simpa [show n - 1 - i < n by omega, show n - 1 - i < m by omega] using hbit
  · rw [Nat.testBit_lt_two_pow (hb.trans_le (Nat.pow_le_pow_right (by decide) (by omega))),
      Nat.testBit_lt_two_pow (ha.trans_le (Nat.pow_le_pow_right (by decide) hi))]

/-! The static codes. -/

theorem staticLCanonical_lt {n : Nat} (h : n < 288) : staticLCanonical n < 2 ^ staticLLen n := by
  unfold staticLCanonical staticLLen
  split_ifs <;> omega

/-- No code of R118 is another one without its low bits. -/
theorem staticLCanonical_prefixFree {m n : Nat} (hm : m < 288) (hn : n < 288) (hne : m ≠ n)
    (hle : staticLLen m ≤ staticLLen n) : staticLCanonical n >>> (staticLLen n - staticLLen m) ≠ staticLCanonical m := by
  rw [Nat.shiftRight_eq_div_pow]
  unfold staticLCanonical staticLLen at *
  split_ifs at * <;> omega

/-- Settles O47: the values are evaluated, and prefixes are compared as the unreversed codes of R118 and R119. -/
theorem staticCodes : Obligations.StaticCodes := by
  refine ⟨rfl, rfl, rfl, rfl, rfl, rfl, rfl, rfl, rfl, rfl, rfl, fun m n hm hn hne h => ?_, fun m n hm hn hne h => ?_⟩
  · obtain ⟨hle, heq⟩ := shiftRight_eq_of_beginsCode (staticLCanonical_lt hm) (staticLCanonical_lt hn) h
    exact staticLCanonical_prefixFree hm hn hne hle heq
  · obtain ⟨-, heq⟩ := shiftRight_eq_of_beginsCode (a := m) (b := n) (n := 5) (m := 5) (by omega) (by omega) h
    exact hne heq.symm

end Sys2Proof.Machine
end

section
/-! SUPPORT. The bits that the procedures of the bit-packer send (R144 to R149). `k.Sent l bs`: from `k` to `l` exactly the bits `bs`
were appended. `Sends cap p bs`: wherever the bits `bs` still fit into the `cap` bytes of the pending buffer, `p` answers and sends
them; sequencing appends. -/

namespace Sys2Proof.Machine

open Proc

/-- A packer holds eight bits for each pending byte and `biValid` in the accumulator. -/
theorem Packer.length_bits (k : Packer) : k.bits.length = 8 * k.pending.toNat + k.biValid.toNat := by
  simp [Packer.bits, lowBits, List.length_flatMap, Nat.mul_comm]

@[simp] theorem length_lowBits (v n : Nat) : (lowBits v n).length = n := by simp [lowBits]

@[simp] theorem length_zeroPad (n : Nat) : (zeroPad n).length = (8 - n % 8) % 8 := List.length_replicate

/-- The bits of an accumulator of `h` bits with a value placed above them. -/
theorem lowBits_placed {buf h : Nat} (hb : buf < 2 ^ h) (v n : Nat) :
    lowBits (buf ||| v <<< h) (h + n) = lowBits buf h ++ lowBits v n := by
  rw [lowBits_add]
  congr 1
  · exact lowBits_congr fun i hi => by rw [testBit_placed hb, if_pos hi]
  · refine lowBits_congr fun i _ => ?_
    rw [Nat.testBit_shiftRight, testBit_placed hb, if_neg (by omega), Nat.add_sub_cancel_left]

/-- A value truncated to `m` bits has the same low bits. -/
theorem lowBits_mod (v : Nat) {n m : Nat} (h : n ≤ m) : lowBits (v % 2 ^ m) n = lowBits v n :=
  lowBits_congr fun i hi => by rw [Nat.testBit_mod_two_pow, decide_eq_true (by omega), Bool.true_and]

/-! What was sent. -/

/-- `l` is `k` after the bits `bs` were appended, with the invariant of R140. -/
structure Packer.Sent (k l : Packer) (bs : List Bool) : Prop where
  bits : l.bits = k.bits ++ bs
  accumulator : l.AccumulatorOk
  pendingOut : l.pendingOut = k.pendingOut
  pending : k.pending.toNat ≤ l.pending.toNat

theorem Packer.Sent.refl {k : Packer} (h : k.AccumulatorOk) : k.Sent k [] := ⟨by simp, h, rfl, le_rfl⟩

theorem Packer.Sent.trans {k l m : Packer} {a b : List Bool} (h : k.Sent l a) (h' : l.Sent m b) : k.Sent m (a ++ b) where
  bits := by rw [h'.bits, h.bits, List.append_assoc]
  accumulator := h'.accumulator
  pendingOut := h'.pendingOut.trans h.pendingOut
  pending := h.pending.trans h'.pending

theorem Packer.Sent.length {k l : Packer} {bs : List Bool} (h : k.Sent l bs) : l.bits.length = k.bits.length + bs.length := by
  rw [h.bits, List.length_append]

/-- How far into its byte a packer stands, after `bs`. -/
theorem Packer.Sent.zeroPad {k l : Packer} {bs : List Bool} (h : k.Sent l bs) :
    zeroPad l.biValid.toNat = zeroPad (k.biValid.toNat + bs.length) := by
  have hlen := h.length
  rw [Packer.length_bits, Packer.length_bits] at hlen
  unfold Machine.zeroPad
  congr 2
  omega

/-- Bytes put behind an empty accumulator are sent as they are. -/
theorem Packer.Grew.sent {k l : Packer} {n : Nat} {bs : List Bool} (h : k.Grew l n bs) (ha : k.AccumulatorOk)
    (h0 : k.biValid = 0#5) : k.Sent l bs where
  bits := by
    rw [Packer.bits_eq, Packer.bits_eq, h.byteBits, h.biBuf, h.biValid, h0]
    simp [lowBits]
  accumulator := by
    unfold Packer.AccumulatorOk
    rw [h.biBuf, h.biValid]
    exact ha
  pendingOut := h.pendingOut
  pending := by rw [h.pending]; omega

/-! `SendBits` and `BiWindup`. -/

/-- `SendBits` with room for the two bytes it may have to write (R144): the `length` low bits of `value`. -/
theorem sendBits_sent {cap value length : Nat} {k : Packer} (hk : k.AccumulatorOk) (hlen : length ≤ 16)
    (hval : value < 2 ^ length) (hroom : 16 < k.biValid.toNat + length → k.pending.toNat + 2 ≤ cap) (hcap : cap ≤ 2 ^ 17) :
    ∃ l, sendBits cap value length k = (.ok (), l) ∧ k.Sent l (lowBits value length) := by
  suffices h : ∃ l, sendBits cap value length k = (.ok (), l) ∧ l.bits = k.bits ++ lowBits value length
      ∧ l.pendingOut = k.pendingOut ∧ k.pending.toNat ≤ l.pending.toNat by
    obtain ⟨l, hl, hbits, hout, hpend⟩ := h
    exact ⟨l, hl, hbits, sendBits_accumulator cap value length k () l hl hk, hout, hpend⟩
  obtain ⟨hv, hb⟩ := hk
  by_cases h0 : length = 0
  · subst h0
    exact ⟨k, rfl, by simp [lowBits], rfl, le_rfl⟩
  have hfilled : (k.biBuf ||| BitVec.ofNat 16 (value <<< k.biValid.toNat)).toNat
      = (k.biBuf.toNat ||| value <<< k.biValid.toNat) % 2 ^ 16 := by
    rw [BitVec.toNat_or, BitVec.toNat_ofNat, Nat.or_mod_two_pow, Nat.mod_eq_of_lt k.biBuf.isLt]
  unfold sendBits
  rw [if_neg h0, if_neg (by omega), get_bind_run, ite_run]
  split
  case isTrue hfull =>
    rw [modify_bind_run]
    obtain ⟨l, hl, hg⟩ := putShort_grew (w := k.biBuf ||| BitVec.ofNat 16 (value <<< k.biValid.toNat))
      (k := { k with biBuf := k.biBuf ||| BitVec.ofNat 16 (value <<< k.biValid.toNat) }) (hroom (by omega)) hcap
    rw [bind_ok hl, modify_run]
    refine ⟨_, rfl, ?_, hg.pendingOut, by rw [hg.pending]; exact Nat.le_add_right _ _⟩
    have hrest : value >>> (16 - k.biValid.toNat) < 2 ^ 16 :=
      (Nat.shiftRight_le value _).trans_lt (hval.trans_le (Nat.pow_le_pow_right (by decide) hlen))
    rw [Packer.bits_eq, Packer.bits_eq, List.append_assoc]
    show l.byteBits ++ lowBits (BitVec.ofNat 16 (value >>> (16 - k.biValid.toNat))).toNat
      (BitVec.ofNat 5 (k.biValid.toNat + length - 16)).toNat = _
    rw [hg.byteBits, hfilled, lowBits_mod _ le_rfl, BitVec.toNat_ofNat, BitVec.toNat_ofNat, Nat.mod_eq_of_lt hrest,
      Nat.mod_eq_of_lt (by omega), List.append_assoc]
    congr 1
    rw [lowBits_split (n := length) (a := 16 - k.biValid.toNat) (k.biValid.toNat + length - 16) (by omega),
      ← List.append_assoc, ← lowBits_placed hb]
    congr 2
    omega
  case isFalse hfit =>
    rw [modify_run]
    refine ⟨_, rfl, ?_, rfl, le_rfl⟩
    rw [Packer.bits_eq, Packer.bits_eq, List.append_assoc, ← lowBits_placed hb]
    show k.byteBits ++ lowBits _ (BitVec.ofNat 5 (k.biValid.toNat + length)).toNat = _
    rw [hfilled, BitVec.toNat_ofNat, Nat.mod_eq_of_lt (a := k.biValid.toNat + length) (by omega), lowBits_mod _ (by omega)]

/-- `BiWindup` (R148): zero bits up to the byte boundary, and an empty accumulator. -/
theorem biWindup_sent {cap : Nat} {k : Packer} (hk : k.AccumulatorOk)
    (hroom : 8 * k.pending.toNat + k.biValid.toNat ≤ 8 * cap) (hcap : cap ≤ 2 ^ 17) :
    ∃ l, biWindup cap k = (.ok (), l) ∧ k.Sent l (zeroPad k.biValid.toNat) ∧ l.biValid = 0#5 := by
  suffices h : ∃ l n, windupBytes cap k k = (.ok (), l)
      ∧ k.Grew l n (lowBits k.biBuf.toNat k.biValid.toNat ++ zeroPad k.biValid.toNat) by
    obtain ⟨l, n, hl, hg⟩ := h
    unfold biWindup
    rw [get_bind_run, bind_ok hl, modify_run]
    refine ⟨_, rfl, ⟨?_, ⟨by simp, by simp⟩, hg.pendingOut, ?_⟩, rfl⟩
    · rw [Packer.bits_eq, Packer.bits_eq, List.append_assoc, ← hg.byteBits]
      exact List.append_nil _
    · show k.pending.toNat ≤ l.pending.toNat
      rw [hg.pending]
      exact Nat.le_add_right _ _
  obtain ⟨hv, hb⟩ := hk
  unfold windupBytes zeroPad
  simp only [ite_run]
  split
  case isTrue h8 =>
    obtain ⟨l, hl, hg⟩ := putShort_grew (w := k.biBuf) (k := k) (cap := cap) (by omega) hcap
    refine ⟨l, 2, hl, ?_⟩
    rwa [← lowBits_pad hb, show k.biValid.toNat + (8 - k.biValid.toNat % 8) % 8 = 16 by omega]
  case isFalse h8 =>
    split
    case isTrue h0 =>
      obtain ⟨l, hl, hg⟩ := putByte_grew (b := k.biBuf.extractLsb' 0 8) (k := k) (cap := cap) (by omega) hcap
      refine ⟨l, 1, hl, ?_⟩
      rwa [← lowBits_pad hb, show k.biValid.toNat + (8 - k.biValid.toNat % 8) % 8 = 8 by omega,
        ← Nat.shiftRight_zero (n := k.biBuf.toNat), ← lowBits_extract]
    case isFalse h0 =>
      refine ⟨k, 0, rfl, ?_⟩
      rw [show k.biValid.toNat = 0 by omega]
      exact ⟨(List.append_nil _).symm, rfl, rfl, rfl, rfl, fun _ _ => rfl⟩

/-! Sending as a property of a procedure. -/

/-- Wherever the bits `bs` still fit into the pending buffer, `p` answers and sends them. -/
def Sends (cap : Nat) (p : Proc Packer Unit) (bs : List Bool) : Prop :=
  ∀ k : Packer, k.AccumulatorOk → k.bits.length + bs.length ≤ 8 * cap → ∃ l, p k = (.ok (), l) ∧ k.Sent l bs

section Sends

variable {cap : Nat} {p q : Proc Packer Unit} {a b : List Bool}

theorem Sends.nil : Sends cap (pure ()) [] := fun k hk _ => ⟨k, rfl, .refl hk⟩

theorem Sends.bind (hp : Sends cap p a) (hq : Sends cap q b) : Sends cap (p >>= fun _ => q) (a ++ b) := by
  intro k hk hroom
  rw [List.length_append] at hroom
  obtain ⟨l, hl, hs⟩ := hp k hk (by omega)
  obtain ⟨m, hm, hs'⟩ := hq l hs.accumulator (by rw [hs.length]; omega)
  exact ⟨m, by rw [bind_ok hl, hm], hs.trans hs'⟩

theorem sendBits_sends (hcap : cap ≤ 2 ^ 17) {value length : Nat} (hlen : length ≤ 16) (hval : value < 2 ^ length) :
    Sends cap (sendBits cap value length) (lowBits value length) := by
  intro k hk hroom
  rw [Packer.length_bits, length_lowBits] at hroom
  exact sendBits_sent hk hlen hval (by omega) hcap

theorem sendField_sends (hcap : cap ≤ 2 ^ 17) {value : Int} {v length : Nat} (hv : value = v) (hlen : length ≤ 16)
    (hval : v < 2 ^ length) : Sends cap (sendField cap value length) (lowBits v length) := by
  subst hv
  exact sendBits_sends hcap hlen hval

theorem sendCode_sends (hcap : cap ≤ 2 ^ 17) {t : CodeTable} {c : Nat} (hc : c < t.size) (h0 : t.len c ≠ 0)
    (hlen : t.len c ≤ 16) (hval : t.code c < 2 ^ t.len c) : Sends cap (sendCode cap c t) (lowBits (t.code c) (t.len c)) := by
  unfold sendCode
  rw [if_neg (by omega)]
  exact sendBits_sends hcap hlen hval

end Sends

end Sys2Proof.Machine
end

section
/-! SUPPORT. A block header that closes the open block (log entry 6), in a session in order with nothing pending and no deferred
byte: what goes before and after the emission, said once for the three forms; and the settled statements about `BLOCK_STORED` and
`BLOCK_STATIC`. -/

namespace Sys2Proof.Machine

open Proc

/-! Procedures over a part of the state, run in the whole. -/

theorem onPacker_ok {α : Type} {p : Proc Packer α} {s : State} {a : α} {l : Packer} (h : p s.pk = (.ok a, l)) :
    onPacker p s = (.ok a, { s with pk := l }) := by
  unfold onPacker
  rw [h]

theorem onCoder_ok {α : Type} {p : Proc Coder α} {s : State} {a : α} {c : Coder} (h : p s.cod = (.ok a, c)) :
    onCoder p s = (.ok a, { s with cod := c }) := by
  unfold onCoder
  rw [h]

theorem onMatcher_ok {α : Type} {p : Proc Matcher α} {s : State} {a : α} {m : Matcher} (h : p s.mat = (.ok a, m)) :
    onMatcher p s = (.ok a, { s with mat := m }) := by
  unfold onMatcher
  rw [h]

theorem checkBoundary_run {s : State} (h : s.boundaryOk = true) : checkBoundary s = (.ok (), s) := by
  unfold checkBoundary
  rw [get_bind_run, require_run, if_pos h]

/-! The states a block header goes through. -/

/-- A session in order in which a block header emits its block at once: `BUSY`, nothing pending, no deferred byte, and for a final
block no input left. -/
structure State.BlockReady (s : State) (bfinal : Bool) : Prop where
  live : s.live
  conf : s.conf.Consistent
  boundary : s.boundaryOk = true
  accumulator : s.pk.AccumulatorOk
  busy : s.regs.sstate = .busy
  idle : s.pk.pending = s.pk.pendingOut
  final : bfinal = true → s.regs.inAvail = 0#32 ∧ s.mat.lookahead = 0#17
  settled : s.mat.matchAvailable = false

/-- The state in which the block is emitted: `fresh` has fallen. -/
def State.opened (s : State) : State := { s with regs := { s.regs with fresh := false } }

@[simp] theorem opened_conf (s : State) : s.opened.conf = s.conf := rfl
@[simp] theorem opened_mat (s : State) : s.opened.mat = s.mat := rfl
@[simp] theorem opened_pk (s : State) : s.opened.pk = s.pk := rfl
@[simp] theorem opened_cod (s : State) : s.opened.cod = s.cod := rfl

/-- The state behind the emission, which left the packer `l` and the coder `c`: the next block starts at `strStart` (R241). -/
def State.closed (s : State) (l : Packer) (c : Coder) : State :=
  { s with
    regs := { s.regs with fresh := false }, pk := l, cod := c
    mat := { s.mat with blockStart := s.mat.strStart.setWidth 32 } }

/-- The state in which the emission left the packer `l` and the coder `c`. -/
def State.emitted (s : State) (l : Packer) (c : Coder) : State := { s.opened with pk := l, cod := c }

/-- The stream state behind a block: `FINISH` when it was the final one. -/
def State.afterBlock (s : State) (bfinal : Bool) : State :=
  { s with regs := { s.regs with sstate := if bfinal then .finish else s.regs.sstate } }

/-- The three cursor checks of R34. -/
theorem boundaryOk_iff (s : State) : s.boundaryOk = true
    ↔ s.mat.cursorsOk s.conf = true ∧ s.pk.cursorsOk s.conf = true ∧ s.cod.cursorsOk s.conf = true := by
  unfold State.boundaryOk
  rw [Bool.and_eq_true, Bool.and_eq_true, and_assoc]

theorem packer_cursorsOk_iff (c : Conf) (k : Packer) : k.cursorsOk c = true
    ↔ k.pendingOut.toNat ≤ k.pending.toNat ∧ k.pending.toNat ≤ c.pendingBufSize ∧ k.biValid.toNat ≤ 16 := by
  simp [Packer.cursorsOk, BitVec.le_def, and_assoc]

/-- The window is full at most up to its end (R34). -/
theorem strStart_le_of_cursorsOk {c : Conf} {m : Matcher} (h : m.cursorsOk c = true) : m.strStart.toNat ≤ c.windowBufSize := by
  unfold Matcher.cursorsOk at h
  simp only [Bool.and_eq_true, decide_eq_true_eq] at h
  omega

/-- A block that starts at `strStart` starts in range. -/
theorem cursorsOk_nextBlock {c : Conf} {m : Matcher} (h : m.cursorsOk c = true) :
    Matcher.cursorsOk c { m with blockStart := m.strStart.setWidth 32 } = true := by
  have hstart : (m.strStart.setWidth 32).toInt = (m.strStart.toNat : Int) := by
    have hlt := m.strStart.isLt
    rw [BitVec.toInt_eq_toNat_of_lt] <;> rw [BitVec.toNat_setWidth_of_le (by decide)]
    omega
  unfold Matcher.cursorsOk at h ⊢
  simp only [Bool.and_eq_true] at h ⊢
  obtain ⟨⟨⟨hend, -⟩, hhead⟩, hprev⟩ := h
  exact ⟨⟨⟨hend, decide_eq_true hstart.le⟩, hhead⟩, hprev⟩

/-- Delivering what there is room for leaves the cursors in order (R34, R71). -/
theorem flushPending_boundaryOk {u : State} (h : u.boundaryOk = true) :
    ∃ v, flushPending u = (.ok (), v) ∧ v.boundaryOk = true := by
  obtain ⟨hm, hp, hc⟩ := (boundaryOk_iff u).1 h
  obtain ⟨hle, hcap, hv⟩ := (packer_cursorsOk_iff _ _).1 hp
  obtain ⟨n, hn⟩ : ∃ n, n = min (u.pk.pending.toNat - u.pk.pendingOut.toNat) u.regs.outAvail.toNat := ⟨_, rfl⟩
  obtain ⟨v, hrun, -, heq, hnone, hall, hsome, -⟩ := flushPendingDelivers u n hle hcap hn
  refine ⟨v, hrun, ?_⟩
  have hout : v.pk.pendingOut.toNat ≤ v.pk.pending.toNat ∧ v.pk.pending.toNat ≤ u.pk.pending.toNat := by
    by_cases hmeet : u.pk.pendingOut.toNat + n = u.pk.pending.toNat
    · by_cases h0 : n = 0
      · obtain ⟨e1, e2⟩ := hnone h0
        rw [e1, e2]
        exact ⟨hle, le_rfl⟩
      · obtain ⟨e1, e2⟩ := hall h0 hmeet
        rw [e1, e2]
        exact ⟨le_rfl, Nat.zero_le _⟩
    · obtain ⟨e1, e2⟩ := hsome hmeet
      rw [e1, e2]
      exact ⟨by omega, le_rfl⟩
  rw [heq]
  exact (boundaryOk_iff _).2 ⟨hm, (packer_cursorsOk_iff _ _).2 ⟨hout.1, hout.2.trans hcap, hv⟩, hc⟩

/-! What goes around the emission. -/

/-- A block's end (R235): the coder's statistics are fresh, and behind a final block the packer stands at a byte boundary. -/
theorem endBlockStats_run {s : State} (bfinal : Bool) (hs : s.pk.AccumulatorOk)
    (hroom : s.pk.bits.length ≤ 8 * s.conf.pendingBufSize) (hcap : s.conf.pendingBufSize ≤ 2 ^ 17) :
    ∃ l, endBlockStats bfinal s = (.ok (), { s with pk := l, cod := s.cod.initBlock })
      ∧ s.pk.Sent l (if bfinal then zeroPad s.pk.biValid.toNat else [])
      ∧ l.bits.length ≤ 8 * s.conf.pendingBufSize := by
  unfold endBlockStats
  rw [bind_ok (onCoder_ok (modify_run _ _)), get_bind_run, onlyIf_run]
  split
  case isFalse => exact ⟨s.pk, rfl, .refl hs, hroom⟩
  case isTrue =>
    rw [Packer.length_bits] at hroom
    obtain ⟨l, hl, hsent, -⟩ := biWindup_sent hs hroom hcap
    refine ⟨l, onPacker_ok hl, hsent, ?_⟩
    rw [hsent.length, Packer.length_bits, length_zeroPad]
    omega

/-- Outside `INIT` no wrapper header is written (R283). -/
theorem stepHeader_idle {s : State} (h : s.regs.sstate ≠ .init) : stepHeader s = (.ok (), s) := by
  unfold stepHeader
  rw [get_bind_run, ite_run, if_neg h]
  rfl

/-- With no deferred byte nothing is settled. -/
theorem settleDeferred_idle {s : State} (h : s.mat.matchAvailable = false) : settleDeferred s = (.ok (), s) := by
  unfold settleDeferred
  rw [get_bind_run, onlyIf_run, if_neg (by rw [h]; decide)]

theorem nextBlock_emitted (s : State) (l : Packer) (c : Coder) : nextBlock (s.emitted l c) = flushPending (s.closed l c) := by
  unfold nextBlock
  rw [bind_ok (onMatcher_ok (modify_run _ _))]
  rfl

section Closing

variable {s : State} {bfinal : Bool} {l : Packer} {c : Coder} {bs : List Bool}

/-- Behind the emission the cursors are in order. -/
theorem State.BlockReady.closed_boundaryOk (h : s.BlockReady bfinal) (hs : s.pk.Sent l bs)
    (hroom : l.bits.length ≤ 8 * s.conf.pendingBufSize) (hc : c.lastLit = 0#16) : (s.closed l c).boundaryOk = true := by
  obtain ⟨hm, hp, hk⟩ := (boundaryOk_iff s).1 h.boundary
  obtain ⟨hle, -, -⟩ := (packer_cursorsOk_iff _ _).1 hp
  rw [Packer.length_bits] at hroom
  refine (boundaryOk_iff _).2 ⟨cursorsOk_nextBlock hm, (packer_cursorsOk_iff _ _).2 ⟨?_, ?_, hs.accumulator.1⟩, ?_⟩
  · show l.pendingOut.toNat ≤ l.pending.toNat
    rw [hs.pendingOut]
    exact hle.trans hs.pending
  · show l.pending.toNat ≤ s.conf.pendingBufSize
    omega
  · show decide (c.lastLit.toNat + 1 ≤ s.conf.literalBufferSize) = true
    have := h.conf.toSizes.bounds
    simp [hc]
    omega

theorem State.BlockReady.not_refused (h : s.BlockReady bfinal) : s.blockRefusal bfinal = none := by
  unfold State.blockRefusal
  rw [if_neg (by rw [h.busy]; decide), if_neg]
  rintro ⟨hb, hin⟩
  obtain ⟨hi, hl⟩ := h.final hb
  exact hin.elim (· hi) (· hl)

/-- An accepted block header in a session that is ready for it: the wrapper header, the drain and the deferred byte do nothing; the
emission, the block's end, the next block's start and the delivery follow. -/
theorem State.BlockReady.accepts (h : s.BlockReady bfinal) {emit : Bool → Proc State Unit} {l' : Packer} {c' : Coder} {v : State}
    (hemit : emit bfinal s.opened = (.ok (), s.emitted l c))
    (hend : endBlockStats bfinal (s.emitted l c) = (.ok (), s.emitted l' c'))
    (hflush : flushPending (s.closed l' c') = (.ok (), v)) : closeAccepted emit bfinal s = (.ok .ok, v.afterBlock bfinal) := by
  have hidle : flushPending s.opened = (.ok (), s.opened) := by
    refine flushPending_idle ?_
    have : s.pk.owed = 0 := by rw [Packer.owed, h.idle, Nat.sub_self]
    exact (congrArg (min · _) this).trans (Nat.zero_min _)
  have hclose : closeBlock emit bfinal s.opened = (.ok (), v.afterBlock bfinal) := by
    unfold closeBlock
    rw [bind_ok (settleDeferred_idle (s := s.opened) h.settled), bind_ok hemit, bind_ok hend,
      bind_ok ((nextBlock_emitted s l' c').trans hflush), onlyIf_run]
    unfold State.afterBlock
    split <;> rfl
  unfold closeAccepted
  rw [modify_bind_run]
  show (stepHeader >>= _) s.opened = _
  rw [bind_ok (stepHeader_idle (by show s.regs.sstate ≠ .init; rw [h.busy]; decide)), bind_ok hidle, get_bind_run, ite_run,
    if_neg (by simp [State.hasPending, State.opened, h.idle]), bind_ok hclose]
  rfl

/-- A block header in a session that is ready for it, when the emission answers: it answers `OK`. -/
theorem State.BlockReady.closes (h : s.BlockReady bfinal) {emit : Bool → Proc State Unit}
    (hemit : emit bfinal s.opened = (.ok (), s.emitted l c)) (hs : s.pk.Sent l bs)
    (hroom : l.bits.length ≤ 8 * s.conf.pendingBufSize) :
    ∃ l' t, execute true ⟨false, false⟩ (closeBody emit bfinal) s = .next t
      ∧ (s.closed l' c.initBlock).DeliveredThenOk t bfinal
      ∧ s.pk.Sent l' (bs ++ if bfinal then zeroPad (s.pk.biValid.toNat + bs.length) else []) := by
  have hcap := h.conf.toSizes.bounds.2.2.2.2.2.2.2
  obtain ⟨l', hend, hsent, hroom'⟩ := endBlockStats_run (s := s.emitted l c) bfinal hs.accumulator hroom hcap
  have hs' : s.pk.Sent l' (bs ++ if bfinal then zeroPad (s.pk.biValid.toNat + bs.length) else []) := by
    rw [← hs.zeroPad]
    exact hs.trans hsent
  obtain ⟨v, hflush, hv⟩ := flushPending_boundaryOk (h.closed_boundaryOk hs' hroom' (c := c.initBlock) rfl)
  refine ⟨l', report .ok (v.afterBlock bfinal), ?_, ⟨v, hflush, rfl⟩, hs'⟩
  rw [execute_live h.live]
  unfold closeBody
  rw [get_bind_run, h.not_refused]
  dsimp only
  rw [bind_ok (h.accepts hemit hend hflush), bind_ok (checkBoundary_run (s := v.afterBlock bfinal) hv)]
  rfl

end Closing

/-! `BLOCK_STORED`. -/

/-- The loop of R236 with room: the window's bytes from `buf` on. -/
theorem putWindow_grew {c : Conf} {window : Ram 8} (hcap : c.pendingBufSize ≤ 2 ^ 17) : ∀ (n buf : Nat) (k : Packer),
    k.pending.toNat + n ≤ c.pendingBufSize → buf + n ≤ c.windowBufSize →
    ∃ l, putWindow c window n buf k = (.ok (), l)
      ∧ k.Grew l n ((List.range n).flatMap fun i => lowBits (window.get (buf + i)).toNat 8)
  | 0, _, k, _, _ => ⟨k, rfl, ⟨(List.append_nil _).symm, rfl, rfl, rfl, rfl, fun _ _ => rfl⟩⟩
  | n + 1, buf, k, hroom, hwin => by
    obtain ⟨l, hl, hg⟩ := putByte_grew (b := window.get buf) (k := k) (cap := c.pendingBufSize) (by omega) hcap
    obtain ⟨m, hm, hg'⟩ := putWindow_grew (window := window) hcap n (buf + 1) l (by rw [hg.pending]; omega) (by omega)
    refine ⟨m, ?_, ?_⟩
    · unfold putWindow
      have hindex : (indexOf (buf : Int) : Proc Packer Nat) k = (.ok buf, k) := by simp
      have hload : (load c.windowBufSize window buf : Proc Packer (BitVec 8)) k = (.ok (window.get buf), k) := by
        rw [load_run, if_pos (by omega)]
      rw [bind_ok hindex, bind_ok hload, bind_ok hl]
      exact hm
    · have hbits : (List.range (n + 1)).flatMap (fun i => lowBits (window.get (buf + i)).toNat 8)
          = lowBits (window.get buf).toNat 8
            ++ (List.range n).flatMap fun i => lowBits (window.get (buf + 1 + i)).toNat 8 := by
        rw [List.range_succ_eq_map, List.flatMap_cons, List.flatMap_map]
        simp [Nat.add_assoc, Nat.add_comm 1]
      rw [hbits, Nat.add_comm n 1]
      exact hg.trans hg'

/-- The bits of a stored block behind `biValid` bits (R111): the header, zeros up to the byte boundary, `LEN`, `NLEN` and the
block's bytes. -/
def storedBlockBits (bfinal : Bool) (biValid n : Nat) (window : Ram 8) (start : Nat) : List Bool :=
  [bfinal, false, false] ++ zeroPad (biValid + 3) ++ lowBits n 16 ++ lowBits (65535 - n) 16
    ++ (List.range n).flatMap fun i => lowBits (window.get (start + i)).toNat 8

/-- The 3-bit header on the wire, bit 0 first (R110). -/
theorem sendHeader_sends {cap : Nat} (hcap : cap ≤ 2 ^ 17) (b : BlockType) (bfinal : Bool) :
    Sends cap (sendHeader cap b bfinal) (bfinal :: lowBits b.btype 2) := by
  have hbits : lowBits (b.btype * 2 + bfinal.toNat) 3 = bfinal :: lowBits b.btype 2 := by cases b <;> cases bfinal <;> rfl
  rw [← hbits]
  exact sendBits_sends hcap (by decide) (by cases b <;> cases bfinal <;> decide)

/-- The coder with the length of the last end-of-block code set (R242). -/
def Coder.withEobLen (k : Coder) (n : BitVec 4) : Coder := { k with lastEobLen := n }

theorem setLastEobLen_run (n : Nat) (s : State) :
    setLastEobLen n s = (.ok (), { s with cod := s.cod.withEobLen (BitVec.ofNat 4 n) }) := rfl

theorem length_storedBlockBits (bfinal : Bool) (biValid n : Nat) (window : Ram 8) (start : Nat) :
    (storedBlockBits bfinal biValid n window start).length = 3 + (8 - (biValid + 3) % 8) % 8 + 32 + 8 * n := by
  simp [storedBlockBits, List.length_flatMap]
  ring

theorem storedBlock_run {s : State} {bfinal : Bool} {n start : Nat} (ha : s.pk.AccumulatorOk)
    (hcap : s.conf.pendingBufSize ≤ 2 ^ 17) (hn : n ≤ 65535) (hroom : s.pk.pending.toNat + n + 8 ≤ s.conf.pendingBufSize)
    (hwin : start + n ≤ s.conf.windowBufSize) :
    ∃ l, storedBlock start n bfinal s = (.ok (), { s with pk := l, cod := s.cod.withEobLen 8#4 })
      ∧ s.pk.Sent l (storedBlockBits bfinal s.pk.biValid.toNat n s.mat.window start) := by
  have hv := ha.1
  obtain ⟨k1, h1, s1⟩ := sendHeader_sends hcap .stored bfinal s.pk ha (by simp [Packer.length_bits]; omega)
  have hlen1 := s1.length
  simp only [Packer.length_bits, List.length_cons, length_lowBits] at hlen1
  obtain ⟨k2, h2, s2, h20⟩ := biWindup_sent s1.accumulator (cap := s.conf.pendingBufSize) (by omega) hcap
  have hlen2 := s2.length
  simp only [Packer.length_bits, length_zeroPad, h20] at hlen2
  have hp2 : k2.pending.toNat + n + 4 ≤ s.conf.pendingBufSize := by
    simp at hlen2
    omega
  obtain ⟨k3, h3, g3⟩ := putShort_grew (w := BitVec.ofNat 16 n) (k := k2) (cap := s.conf.pendingBufSize) (by omega) hcap
  obtain ⟨k4, h4, g4⟩ := putShort_grew (w := ~~~ BitVec.ofNat 16 n) (k := k3) (cap := s.conf.pendingBufSize)
    (by rw [g3.pending]; omega) hcap
  obtain ⟨k5, h5, g5⟩ := putWindow_grew (window := s.mat.window) hcap n start k4 (by rw [g4.pending, g3.pending]; omega) hwin
  have hsent := (s1.trans s2).trans (((g3.trans g4).trans g5).sent s2.accumulator h20)
  refine ⟨k5, ?_, ?_⟩
  · unfold storedBlock
    rw [get_bind_run, bind_ok (onPacker_ok h1), bind_ok (onPacker_ok h2), bind_ok (setLastEobLen_run 8 _), bind_ok (onPacker_ok h3),
      bind_ok (onPacker_ok h4), onPacker_ok h5]
  · have e1 : lowBits (BitVec.ofNat 16 n).toNat 16 = lowBits n 16 := by
      rw [BitVec.toNat_ofNat, lowBits_mod _ le_rfl]
    have e2 : (~~~ BitVec.ofNat 16 n).toNat = 65535 - n := by
      rw [BitVec.toNat_not, BitVec.toNat_ofNat, Nat.mod_eq_of_lt (by omega)]
    rw [s1.zeroPad, e1, e2] at hsent
    unfold storedBlockBits
    simpa [show lowBits BlockType.stored.btype 2 = [false, false] from rfl] using hsent

/-- The emission of an open block that is in the window. -/
theorem emitStored_run {s : State} {bfinal : Bool} {n : Nat} (ha : s.pk.AccumulatorOk) (hcap : s.conf.pendingBufSize ≤ 2 ^ 17)
    (hm : s.mat.cursorsOk s.conf = true) (hstart : 0 ≤ s.mat.blockStart.toInt)
    (hend : s.mat.blockStart.toInt + n = s.mat.strStart.toNat) (hn : n ≤ 65535)
    (hroom : s.pk.pending.toNat + n + 8 ≤ s.conf.pendingBufSize) :
    ∃ k, emitStored bfinal s = (.ok (), { s with pk := k, cod := s.cod.withEobLen 8#4 })
      ∧ s.pk.Sent k (storedBlockBits bfinal s.pk.biValid.toNat n s.mat.window s.mat.blockStart.toNat) := by
  have hwin := strStart_le_of_cursorsOk hm
  have hbuf : s.mat.blockStart.toInt = (s.mat.blockStart.toNat : Int) := by
    rw [BitVec.toInt_eq_toNat_cond] at hstart ⊢
    split at hstart <;> split <;> omega
  obtain ⟨k, hk, hsent⟩ := storedBlock_run (bfinal := bfinal) (start := s.mat.blockStart.toNat) ha hcap hn hroom (by omega)
  refine ⟨k, ?_, hsent⟩
  have hlen : (indexOf s.mat.blockLen : Proc State Nat) s = (.ok n, s) := by
    rw [show s.mat.blockLen = (n : Int) by unfold Matcher.blockLen; omega]
    simp
  have hstarts : s.mat.blockBuf = (s.mat.blockStart.toNat : Int) := (if_pos hstart).trans hbuf
  unfold emitStored
  rw [get_bind_run, bind_ok hlen, require_bind_run, if_pos (decide_eq_true hn), hstarts, hk]

/-- Settles O33: the block is in the window, so it is emitted as `emitStored_run` says; behind it the packer stands at a byte
boundary, so that a final block adds no padding. -/
theorem blockStoredEmits : Obligations.BlockStoredEmits := by
  intro s bfinal n hlive hconf hbound hacc hbusy hidle hfinal hsettled hstart hend hn hroom
  have h : s.BlockReady bfinal := ⟨hlive, hconf, hbound, hacc, hbusy, hidle, hfinal, hsettled⟩
  obtain ⟨-, -, -, -, -, -, -, hcap⟩ := hconf.toSizes.bounds
  obtain ⟨hm, -, -⟩ := (boundaryOk_iff s).1 hbound
  have hv := hacc.1
  have hlen := length_storedBlockBits bfinal s.pk.biValid.toNat n s.mat.window s.mat.blockStart.toNat
  obtain ⟨k, hk, hsent⟩ := emitStored_run (s := s.opened) (bfinal := bfinal) hacc hcap hm hstart hend hn hroom
  rw [opened_pk, opened_mat] at hsent
  obtain ⟨l, t, ht, hdel, hl⟩ := h.closes hk hsent (by
    rw [hsent.length, Packer.length_bits, hlen]
    omega)
  have hpad : zeroPad (s.pk.biValid.toNat
      + (storedBlockBits bfinal s.pk.biValid.toNat n s.mat.window s.mat.blockStart.toNat).length) = [] := by
    rw [hlen]
    exact (List.replicate_eq_nil_iff _).2 (by omega)
  have hbits : l.bits = s.pk.bits ++ storedBlockBits bfinal s.pk.biValid.toNat n s.mat.window s.mat.blockStart.toNat := by
    rw [hl.bits, hpad, ite_self, List.append_nil]
  refine ⟨_, t, ht, hdel, rfl, hl.pendingOut, hbits.trans ?_⟩
  simp [storedBlockBits]

end Sys2Proof.Machine
end

section
/-! SUPPORT. A static block on the wire (R118, R119, R121, R237, R238), and the settled statement about `BLOCK_STATIC`. -/

namespace Sys2Proof.Machine

open Proc

/-! Codes of the static tables. -/

theorem staticLLen_bounds (n : Nat) : staticLLen n ≠ 0 ∧ staticLLen n ≤ 16 := by
  unfold staticLLen
  split_ifs <;> decide

/-- The stored code of a symbol, read bit 0 first, is its code of R118, most significant bit first. -/
theorem lowBits_staticLCode (n : Nat) : lowBits (staticLCode n) (staticLLen n) = staticSymbolBits n := by
  unfold staticLCode
  rw [lowBits_biReverse]
  unfold staticLCanonical staticLLen staticSymbolBits
  split_ifs
  · rfl
  · rfl
  · rw [Nat.zero_add]
  · rfl

section Sends

variable {cap : Nat} (hcap : cap ≤ 2 ^ 17)

include hcap

theorem staticSymbol_sends {n : Nat} (h : n < 288) : Sends cap (sendCode cap n staticLTable) (staticSymbolBits n) := by
  obtain ⟨h0, h16⟩ := staticLLen_bounds n
  rw [← lowBits_staticLCode]
  exact sendCode_sends hcap (t := staticLTable) h h0 h16 (biReverse_lt _ _)

theorem staticDist_sends {n : Nat} (h : n < 30) : Sends cap (sendCode cap n staticDTable) (lowBits n 5).reverse := by
  rw [← lowBits_biReverse]
  exact sendCode_sends hcap (t := staticDTable) h (by decide : (5 : Nat) ≠ 0) (by decide : (5 : Nat) ≤ 16) (biReverse_lt n 5)

/-- The extra bits of a length or distance code; a code without any sends none (R121). -/
theorem extraBits_sends {v base extra : Nat} (hbase : base ≤ v) (h16 : extra ≤ 16) (hfit : v - base < 2 ^ extra) :
    Sends cap (onlyIf (extra ≠ 0) (sendField cap ((v : Int) - base) extra)) (lowBits (v - base) extra) := by
  unfold onlyIf
  split
  case isTrue => exact sendField_sends hcap (by omega) h16 hfit
  case isFalse h =>
    rw [not_not.1 h]
    exact Sends.nil

/-- A literal or a match (R121). -/
theorem sendSymbol_static_sends {dist lc : Nat} (hdist : dist ≤ 32768) (hlc : lc ≤ 255) :
    Sends cap (sendSymbol cap dist lc staticLTable staticDTable) (staticItemBits dist lc) := by
  unfold sendSymbol staticItemBits
  split
  case isTrue => exact staticSymbol_sends hcap (by omega)
  case isFalse h0 =>
    have hl := lengthCode_le lc
    have hd := distCode_le (dist - 1)
    have hlx : ∀ c, c ≤ 28 → tableAt extraLBits c ≤ 16 := by decide
    have hdx : ∀ c, c ≤ 29 → tableAt extraDBits c ≤ 16 := by decide
    rw [List.append_assoc, List.append_assoc]
    exact (staticSymbol_sends hcap (n := literals + 1 + lengthCode lc) (by unfold literals; omega)).bind
      ((extraBits_sends hcap (tableAt_lengthCode_le lc) (hlx _ hl) (length_extra_lt hlc)).bind
        ((staticDist_sends hcap (by omega)).bind
          (extraBits_sends hcap (tableAt_distCode_le _) (hdx _ hd) (dist_extra_lt (by omega)))))

end Sends

/-- The recorded symbols `lx .. lx + r - 1` and the end-of-block code (R237). -/
theorem sendSymbols_static_sends {c : Conf} {k : Coder} (hcap : c.pendingBufSize ≤ 2 ^ 17) : ∀ r lx,
    lx + r ≤ c.literalBufferSize → (∀ i, i < lx + r → (k.dBuf.get i).toNat ≤ 32768) →
    Sends c.pendingBufSize (sendSymbols c k staticLTable staticDTable r lx)
      ((List.range r).flatMap (fun i => staticItemBits (k.dBuf.get (lx + i)).toNat (k.lBuf.get (lx + i)).toNat)
        ++ List.replicate 7 false)
  | 0, lx, _, _ => staticSymbol_sends hcap (n := endBlock) (by decide)
  | r + 1, lx, hbuf, hdist => by
    have hitems : (List.range (r + 1)).flatMap
          (fun i => staticItemBits (k.dBuf.get (lx + i)).toNat (k.lBuf.get (lx + i)).toNat)
        = staticItemBits (k.dBuf.get lx).toNat (k.lBuf.get lx).toNat
          ++ (List.range r).flatMap
            fun i => staticItemBits (k.dBuf.get (lx + 1 + i)).toNat (k.lBuf.get (lx + 1 + i)).toNat := by
      rw [List.range_succ_eq_map, List.flatMap_cons, List.flatMap_map]
      simp [Nat.add_assoc, Nat.add_comm 1]
    have hlc := (k.lBuf.get lx).isLt
    have hload {w : Nat} (m : Ram w) : (load c.literalBufferSize m lx : Proc Packer (BitVec w)) = pure (m.get lx) :=
      if_pos (by omega)
    rw [hitems, List.append_assoc]
    unfold sendSymbols
    rw [hload, hload, pure_bind, pure_bind]
    exact (sendSymbol_static_sends hcap (hdist lx (by omega)) (by omega)).bind
      (sendSymbols_static_sends hcap r (lx + 1) (by omega) fun i hi => hdist i (by omega))

/-- The bits of a static block (R112): the header, the items and the end-of-block code. -/
def staticBlockBits (bfinal : Bool) (items : List Bool) : List Bool := [bfinal, true, false] ++ items ++ List.replicate 7 false

/-- A static block with room for its bits (R238). -/
theorem staticBlock_run {s : State} {bfinal : Bool} {items : List Bool} (ha : s.pk.AccumulatorOk)
    (hcap : s.conf.pendingBufSize ≤ 2 ^ 17) (hbuf : s.cod.lastLit.toNat ≤ s.conf.literalBufferSize)
    (hdist : ∀ i, i < s.cod.lastLit.toNat → (s.cod.dBuf.get i).toNat ≤ 32768)
    (hitems : items = (List.range s.cod.lastLit.toNat).flatMap
      fun i => staticItemBits (s.cod.dBuf.get i).toNat (s.cod.lBuf.get i).toNat)
    (hroom : s.pk.bits.length + (items.length + 10) ≤ 8 * s.conf.pendingBufSize) :
    ∃ k, staticBlock bfinal s = (.ok (), { s with pk := k, cod := s.cod.withEobLen 7#4 })
      ∧ s.pk.Sent k (staticBlockBits bfinal items) := by
  have hsymbols := sendSymbols_static_sends (k := s.cod) hcap s.cod.lastLit.toNat 0 (by omega) (by simpa using hdist)
  simp only [Nat.zero_add, ← hitems] at hsymbols
  obtain ⟨k, hk, hs⟩ := sendHeader_sends hcap .static bfinal s.pk ha (by simp; omega)
  obtain ⟨l, hl, hs'⟩ := hsymbols k hs.accumulator (by rw [hs.length]; simp; omega)
  refine ⟨l, ?_, hs.trans hs'⟩
  unfold staticBlock compressBlock
  rw [get_bind_run, bind_ok (onPacker_ok hk), get_bind_run, bind_ok (onPacker_ok hl)]
  rfl

/-- Settles O34: the header, the items and the end-of-block code are sent one after the other (`staticBlock_run`). -/
theorem blockStaticEmits : Obligations.BlockStaticEmits := by
  intro s bfinal bits hlive hconf hbound hacc hbusy hidle hfinal hsettled hdist hbits hroom
  have h : s.BlockReady bfinal := ⟨hlive, hconf, hbound, hacc, hbusy, hidle, hfinal, hsettled⟩
  obtain ⟨-, -, -, -, -, -, -, hcap⟩ := hconf.toSizes.bounds
  obtain ⟨-, -, hc⟩ := (boundaryOk_iff s).1 hbound
  have hbuf : s.cod.lastLit.toNat + 1 ≤ s.conf.literalBufferSize := of_decide_eq_true hc
  have hv := hacc.1
  have hlen : (staticBlockBits bfinal bits).length = bits.length + 10 := by simp [staticBlockBits]
  obtain ⟨k, hk, hsent⟩ := staticBlock_run (s := s.opened) (bfinal := bfinal) hacc hcap (Nat.le_of_succ_le hbuf) hdist hbits
    (by rw [Packer.length_bits]; simp; omega)
  rw [opened_pk] at hsent
  obtain ⟨l, t, ht, hdel, hl⟩ := h.closes hk hsent (by rw [hsent.length, Packer.length_bits, hlen]; omega)
  refine ⟨_, t, ht, hdel, rfl, hl.pendingOut, hl.bits.trans ?_⟩
  rw [hlen, show s.pk.biValid.toNat + (bits.length + 10) = s.pk.biValid.toNat + 10 + bits.length by omega]
  simp [staticBlockBits]

end Sys2Proof.Machine
end

section
/-! SUPPORT. What building a tree works on, as a piece of state of its own: the tree, the scratch memories and the builder's
registers. `Builds t p b a b'` says that `p` answers `a` and takes the piece from `b` to `b'`, whatever the rest of the coder holds,
so that each run of the builder states its own frame. One rule for each table access and each way of sequencing. -/

namespace Sys2Proof.Machine

open Proc

/-- The part of the coder that building one tree works on. -/
structure Builder where
  tree : Tree
  heap : Ram 10
  depth : Ram 8
  blCount : Ram 16
  nextCode : Ram 16
  heapLen : BitVec 10
  heapMax : BitVec 10
  maxCode : BitVec 10
  optLen : BitVec 32
  staticLen : BitVec 32

/-- The coder with the tree `t` and what is shared by the three builders as in `b`. -/
def Coder.withBuilder (k : Coder) (t : TreeId) (b : Builder) : Coder :=
  let c : Coder :=
    { k with
      heap := b.heap, depth := b.depth, blCount := b.blCount, nextCode := b.nextCode, heapLen := b.heapLen, heapMax := b.heapMax
      optLen := b.optLen, staticLen := b.staticLen }
  match t with
  | .dynL => { c with dynL := b.tree, lMaxCode := b.maxCode }
  | .dynD => { c with dynD := b.tree, dMaxCode := b.maxCode }
  | .bl => { c with bl := b.tree, blMaxCode := b.maxCode }

/-- What the coder holds for building the tree `t`. -/
def Coder.builder (k : Coder) (t : TreeId) : Builder where
  tree := k.tree t
  heap := k.heap
  depth := k.depth
  blCount := k.blCount
  nextCode := k.nextCode
  heapLen := k.heapLen
  heapMax := k.heapMax
  maxCode := match t with
    | .dynL => k.lMaxCode
    | .dynD => k.dMaxCode
    | .bl => k.blMaxCode
  optLen := k.optLen
  staticLen := k.staticLen

theorem Coder.withBuilder_builder (k : Coder) (t : TreeId) : k.withBuilder t (k.builder t) = k := by cases t <;> rfl

section withBuilder

variable (k : Coder) (t : TreeId) (b : Builder)

@[simp] theorem withBuilder_tree : (k.withBuilder t b).tree t = b.tree := by cases t <;> rfl
@[simp] theorem withBuilder_heap : (k.withBuilder t b).heap = b.heap := by cases t <;> rfl
@[simp] theorem withBuilder_depth : (k.withBuilder t b).depth = b.depth := by cases t <;> rfl
@[simp] theorem withBuilder_blCount : (k.withBuilder t b).blCount = b.blCount := by cases t <;> rfl
@[simp] theorem withBuilder_nextCode : (k.withBuilder t b).nextCode = b.nextCode := by cases t <;> rfl
@[simp] theorem withBuilder_heapLen : (k.withBuilder t b).heapLen = b.heapLen := by cases t <;> rfl
@[simp] theorem withBuilder_heapMax : (k.withBuilder t b).heapMax = b.heapMax := by cases t <;> rfl
@[simp] theorem withBuilder_maxCode : (k.withBuilder t b).maxCode t = b.maxCode.toInt := by cases t <;> rfl

theorem withBuilder_setTree (x : Tree) : (k.withBuilder t b).setTree t x = k.withBuilder t { b with tree := x } := by
  cases t <;> rfl

theorem withBuilder_setMaxCode (v : Int) :
    (k.withBuilder t b).setMaxCode t v = k.withBuilder t { b with maxCode := truncInt 10 v } := by cases t <;> rfl

end withBuilder

/-- `p` answers `a` and takes the builder's piece of the coder from `b` to `b'`; the rest of the coder stays. -/
def Builds {α : Type} (t : TreeId) (p : Proc Coder α) (b : Builder) (a : α) (b' : Builder) : Prop :=
  ∀ k : Coder, p (k.withBuilder t b) = (.ok a, k.withBuilder t b')

section Builds

variable {α β : Type} {t : TreeId} {b b' b'' : Builder}

theorem Builds.run {p : Proc Coder α} {k : Coder} {a : α} (h : Builds t p (k.builder t) a b') :
    p k = (.ok a, k.withBuilder t b') := by
  have hk := h k
  rwa [Coder.withBuilder_builder] at hk

theorem Builds.pure (a : α) : Builds t (pure a) b a b := fun _ => rfl

theorem Builds.bind {p : Proc Coder α} {f : α → Proc Coder β} {a : α} {c : β} (hp : Builds t p b a b')
    (hf : Builds t (f a) b' c b'') : Builds t (p >>= f) b c b'' := fun k => (bind_ok (hp k)).trans (hf k)

theorem Builds.get_bind {f : Coder → Proc Coder β} {c : β} (hf : ∀ k : Coder, Builds t (f (k.withBuilder t b)) b c b') :
    Builds t (get >>= f) b c b' := fun k => (get_bind_run f _).trans (hf k k)

theorem Builds.ite_true {c : Prop} [Decidable c] {p q : Proc Coder α} {a : α} (hc : c) (h : Builds t p b a b') :
    Builds t (if c then p else q) b a b' := by rwa [if_pos hc]

theorem Builds.ite_false {c : Prop} [Decidable c] {p q : Proc Coder α} {a : α} (hc : ¬ c) (h : Builds t q b a b') :
    Builds t (if c then p else q) b a b' := by rwa [if_neg hc]

/-! Runs of which only a property of the outcome is said. -/

/-- `p` answers, leaves the rest of the coder alone, and answer and builder's piece satisfy `Q`. -/
def BuildsTo {α : Type} (t : TreeId) (p : Proc Coder α) (b : Builder) (Q : α → Builder → Prop) : Prop :=
  ∀ k : Coder, ∃ a b', p (k.withBuilder t b) = (.ok a, k.withBuilder t b') ∧ Q a b'

theorem BuildsTo.run {p : Proc Coder α} {k : Coder} {Q : α → Builder → Prop} (h : BuildsTo t p (k.builder t) Q) :
    ∃ a b', p k = (.ok a, k.withBuilder t b') ∧ Q a b' := by
  have hk := h k
  rwa [Coder.withBuilder_builder] at hk

theorem Builds.to {p : Proc Coder α} {a : α} {Q : α → Builder → Prop} (h : Builds t p b a b') (hQ : Q a b') :
    BuildsTo t p b Q :=
  fun k => ⟨a, b', h k, hQ⟩

theorem BuildsTo.mono {p : Proc Coder α} {P Q : α → Builder → Prop} (h : BuildsTo t p b P) (hPQ : ∀ a b', P a b' → Q a b') :
    BuildsTo t p b Q := fun k => by
  obtain ⟨a, b', hrun, hP⟩ := h k
  exact ⟨a, b', hrun, hPQ a b' hP⟩

theorem Builds.andThen {p : Proc Coder α} {f : α → Proc Coder β} {a : α} {Q : β → Builder → Prop} (hp : Builds t p b a b')
    (hf : BuildsTo t (f a) b' Q) : BuildsTo t (p >>= f) b Q := fun k => by
  rw [bind_ok (hp k)]
  exact hf k

theorem BuildsTo.bind {p : Proc Coder α} {f : α → Proc Coder β} {P : α → Builder → Prop} {Q : β → Builder → Prop}
    (hp : BuildsTo t p b P) (hf : ∀ a b', P a b' → BuildsTo t (f a) b' Q) : BuildsTo t (p >>= f) b Q := fun k => by
  obtain ⟨a, b', hrun, hP⟩ := hp k
  rw [bind_ok hrun]
  exact hf a b' hP k

theorem BuildsTo.get_bind {f : Coder → Proc Coder β} {Q : β → Builder → Prop}
    (hf : ∀ k : Coder, BuildsTo t (f (k.withBuilder t b)) b Q) : BuildsTo t (get >>= f) b Q := fun k => by
  rw [get_bind_run]
  exact hf k k

theorem BuildsTo.ite_true {c : Prop} [Decidable c] {p q : Proc Coder α} {Q : α → Builder → Prop} (hc : c)
    (h : BuildsTo t p b Q) : BuildsTo t (if c then p else q) b Q := by rwa [if_pos hc]

theorem BuildsTo.ite_false {c : Prop} [Decidable c] {p q : Proc Coder α} {Q : α → Builder → Prop} (hc : ¬ c)
    (h : BuildsTo t q b Q) : BuildsTo t (if c then p else q) b Q := by rwa [if_neg hc]

theorem load_builds {w : Nat} {size i : Nat} (h : i < size) (m : Ram w) : Builds t (load size m i) b (m.get i) b := by
  intro k
  rw [load_run, if_pos h]

theorem stored_builds {w : Nat} {size i : Nat} (h : i < size) (m : Ram w) (v : BitVec w) :
    Builds t (stored size m i v) b (m.set i v) b := by
  intro k
  rw [stored_run, if_pos h]

/-! Table accesses. -/

theorem getFreq_builds {n : Nat} (h : n < t.nodes) : Builds t (getFreq t n) b (b.tree.freq.get n).toNat b :=
  .get_bind fun k => by rw [withBuilder_tree]; exact (load_builds h _).bind (.pure _)

theorem getLen_builds {n : Nat} (h : n < t.nodes) : Builds t (getLen t n) b (b.tree.len.get n).toNat b :=
  .get_bind fun k => by rw [withBuilder_tree]; exact (load_builds h _).bind (.pure _)

theorem getDad_builds {n : Nat} (h : n < t.nodes) : Builds t (getDad t n) b (b.tree.dad.get n).toNat b :=
  .get_bind fun k => by rw [withBuilder_tree]; exact (load_builds h _).bind (.pure _)

theorem getHeap_builds {i : Nat} (h : i < heapEntries) : Builds t (getHeap i) b (b.heap.get i).toNat b :=
  .get_bind fun k => by rw [withBuilder_heap]; exact (load_builds h _).bind (.pure _)

theorem getDepth_builds {n : Nat} (h : n < heapSize) : Builds t (getDepth n) b (b.depth.get n).toNat b :=
  .get_bind fun k => by rw [withBuilder_depth]; exact (load_builds h _).bind (.pure _)

theorem getBlCount_builds {n : Nat} (h : n < 16) : Builds t (getBlCount n) b (b.blCount.get n).toNat b :=
  .get_bind fun k => by rw [withBuilder_blCount]; exact (load_builds h _).bind (.pure _)

theorem getNextCode_builds {n : Nat} (h : n < 16) : Builds t (getNextCode n) b (b.nextCode.get n).toNat b :=
  .get_bind fun k => by rw [withBuilder_nextCode]; exact (load_builds h _).bind (.pure _)

theorem setFreq_builds {n : Nat} (h : n < t.nodes) (v : Nat) :
    Builds t (setFreq t n v) b () { b with tree := { b.tree with freq := b.tree.freq.set n (BitVec.ofNat 16 v) } } := by
  intro k
  unfold setFreq
  rw [get_bind_run, withBuilder_tree, bind_ok (stored_builds h _ _ k), set_run, withBuilder_setTree]

theorem setLen_builds {n : Nat} (h : n < t.nodes) (v : Nat) :
    Builds t (setLen t n v) b () { b with tree := { b.tree with len := b.tree.len.set n (BitVec.ofNat 16 v) } } := by
  intro k
  unfold setLen
  rw [get_bind_run, withBuilder_tree, bind_ok (stored_builds h _ _ k), set_run, withBuilder_setTree]

theorem setCode_builds {n : Nat} (h : n < t.nodes) (v : Nat) :
    Builds t (setCode t n v) b () { b with tree := { b.tree with code := b.tree.code.set n (BitVec.ofNat 16 v) } } := by
  intro k
  unfold setCode
  rw [get_bind_run, withBuilder_tree, bind_ok (stored_builds h _ _ k), set_run, withBuilder_setTree]

theorem setDad_builds {n : Nat} (h : n < t.nodes) (v : Nat) :
    Builds t (setDad t n v) b () { b with tree := { b.tree with dad := b.tree.dad.set n (BitVec.ofNat 10 v) } } := by
  intro k
  unfold setDad
  rw [get_bind_run, withBuilder_tree, bind_ok (stored_builds h _ _ k), set_run, withBuilder_setTree]

/-- Changing the coder's own part of the piece. -/
theorem Builds.modify {f : Coder → Coder} (h : ∀ k : Coder, f (k.withBuilder t b) = k.withBuilder t b') :
    Builds t (modify f) b ⟨⟩ b' := fun k => by rw [modify_run, h k]

theorem setHeap_builds {i : Nat} (h : i < heapEntries) (v : Nat) :
    Builds t (setHeap i v) b () { b with heap := b.heap.set i (BitVec.ofNat 10 v) } := by
  intro k
  unfold setHeap
  rw [get_bind_run, withBuilder_heap, bind_ok (stored_builds h _ _ k), set_run]
  cases t <;> rfl

theorem setDepth_builds {n : Nat} (h : n < heapSize) (v : Nat) :
    Builds t (setDepth n v) b () { b with depth := b.depth.set n (BitVec.ofNat 8 v) } := by
  intro k
  unfold setDepth
  rw [get_bind_run, withBuilder_depth, bind_ok (stored_builds h _ _ k), set_run]
  cases t <;> rfl

theorem setBlCount_builds {n : Nat} (h : n < 16) (v : Nat) :
    Builds t (setBlCount n v) b () { b with blCount := b.blCount.set n (BitVec.ofNat 16 v) } := by
  intro k
  unfold setBlCount
  rw [get_bind_run, withBuilder_blCount, bind_ok (stored_builds h _ _ k), set_run]
  cases t <;> rfl

theorem setNextCode_builds {n : Nat} (h : n < 16) (v : Nat) :
    Builds t (setNextCode n v) b () { b with nextCode := b.nextCode.set n (BitVec.ofNat 16 v) } := by
  intro k
  unfold setNextCode
  rw [get_bind_run, withBuilder_nextCode, bind_ok (stored_builds h _ _ k), set_run]
  cases t <;> rfl

theorem addOptLen_builds (d : Int) : Builds t (addOptLen d) b () { b with optLen := b.optLen + truncInt 32 d } :=
  .modify fun k => by cases t <;> rfl

theorem addStaticLen_builds (c : Prop) [Decidable c] (d : Int) : Builds t (onlyIf c (addStaticLen d)) b ()
    { b with staticLen := if c then b.staticLen + truncInt 32 d else b.staticLen } := by
  unfold onlyIf
  split
  · exact .modify fun k => by cases t <;> rfl
  · exact .pure ()

theorem pushHeap_builds {n : Nat} (h : (b.heapLen + 1#10).toNat < heapEntries) : Builds t (pushHeap n) b ()
    { b with heapLen := b.heapLen + 1#10, heap := b.heap.set (b.heapLen + 1#10).toNat (BitVec.ofNat 10 n) } := by
  refine (Builds.modify (b' := { b with heapLen := b.heapLen + 1#10 }) fun k => by cases t <;> rfl).bind (.get_bind fun k => ?_)
  rw [withBuilder_heapLen]
  exact setHeap_builds h n

theorem placeSorted_builds {n : Nat} {m : BitVec 10} (hm : b.heapMax - 1#10 = m) (h : m.toNat < heapEntries) :
    Builds t (placeSorted n) b () { b with heapMax := m, heap := b.heap.set m.toNat (BitVec.ofNat 10 n) } := by
  subst hm
  refine (Builds.modify (b' := { b with heapMax := b.heapMax - 1#10 }) fun k => by cases t <;> rfl).bind (.get_bind fun k => ?_)
  rw [withBuilder_heapMax]
  exact setHeap_builds h n

end Builds

end Sys2Proof.Machine
end

section
/-! SUPPORT. `BuildTree` where exactly two symbols end up as leaves (R163 to R170): whatever the frequencies, both get a code of one
bit, the smaller symbol the code 0. -/

namespace Sys2Proof.Machine

open Proc

theorem Ram.setAt_setAt {w : Nat} (i : Nat) (v x : BitVec w) : ∀ (d : Nat) (m : Ram w), setAt d (setAt d m i v) i x = setAt d m i x
  | 0, _ => rfl
  | d + 1, m => by
    cases hbit : i.testBit d <;> simp [setAt, hbit, setAt_setAt i v x d]

/-- Of two writes at one index the second stays. -/
@[simp] theorem Ram.set_set {w : Nat} (m : Ram w) (i : Nat) (v x : BitVec w) : (m.set i v).set i x = m.set i x :=
  setAt_setAt i v x _ m

/-! Sizes of the tables. -/

theorem TreeId.elems_bounds (t : TreeId) : t.elems ≤ 286 ∧ t.elems < t.nodes ∧ 7 ≤ t.maxLength := by cases t <;> decide

theorem TreeId.elems_lt_nodes (t : TreeId) : t.elems < t.nodes := t.elems_bounds.2.1

theorem TreeId.lt_ram {t : TreeId} {n : Nat} (h : n < t.nodes) : n < 2 ^ ramBits :=
  h.trans (by cases t <;> decide)

section Builds

variable {α : Type} {t : TreeId} {b b' : Builder}

/-! Collecting the used symbols (R163). -/

/-- The heap has the symbols `leaves`, in this order; from `n` on the frequencies are `f`, and no symbol below `n` that is not in the
heap has a length. -/
structure Builder.Collected (b : Builder) (t : TreeId) (f : Nat → BitVec 16) (leaves : List Nat) (n : Nat) : Prop where
  freq : ∀ j, n ≤ j → j < t.elems → b.tree.freq.get j = f j
  heapLen : b.heapLen.toNat = leaves.length
  heapMax : b.heapMax = 573#10
  slot : ∀ j v, leaves[j]? = some v → b.heap.get (j + 1) = BitVec.ofNat 10 v
  unused : ∀ j, j < n → j ∉ leaves → b.tree.len.get j = 0#16

theorem Builder.Collected.heapLen_succ {f : Nat → BitVec 16} {leaves : List Nat} {n : Nat} (h : b.Collected t f leaves n)
    (hlen : leaves.length ≤ 286) : (b.heapLen + 1#10).toNat = leaves.length + 1 := by
  have := h.heapLen
  bv_omega

/-- The heap after one more symbol was pushed. -/
theorem Builder.Collected.slot_push {f : Nat → BitVec 16} {leaves : List Nat} {n m : Nat} (h : b.Collected t f leaves n)
    (hlen : leaves.length ≤ 286) (j v : Nat) (hj : (leaves ++ [m])[j]? = some v) :
    (b.heap.set (b.heapLen + 1#10).toNat (BitVec.ofNat 10 m)).get (j + 1) = BitVec.ofNat 10 v := by
  have hram {i : Nat} (hi : i ≤ 287) : i < 2 ^ ramBits := hi.trans_lt (by decide)
  obtain ⟨hjl, -⟩ := List.getElem?_eq_some_iff.1 hj
  rw [List.length_append, List.length_singleton] at hjl
  rw [h.heapLen_succ hlen, Ram.get_set (hram (by omega)) (hram (by omega))]
  split_ifs with hlast
  · obtain rfl : j = leaves.length := by omega
    rw [List.getElem?_concat_length] at hj
    rw [Option.some.inj hj]
  · rw [List.getElem?_append_left (by omega)] at hj
    exact h.slot j v hj

/-- The symbols among `n .. n + r - 1` that are used. -/
def usedSymbols (f : Nat → BitVec 16) (n r : Nat) : List Nat := (List.range' n r).filter fun j => f j ≠ 0#16

/-- The last of some symbols, or `maxCode`. -/
def lastSymbol (maxCode : Int) : List Nat → Int
  | [] => maxCode
  | n :: ns => lastSymbol n ns

theorem usedSymbols_succ (f : Nat → BitVec 16) (n r : Nat) :
    usedSymbols f n (r + 1) = if f n = 0#16 then usedSymbols f (n + 1) r else n :: usedSymbols f (n + 1) r := by
  unfold usedSymbols
  rw [List.range'_succ, List.filter_cons]
  split <;> simp_all

/-- Phase 1 of R163: the used symbols are collected in order; the answer is the largest one. -/
theorem collectSymbols_collects {f : Nat → BitVec 16} : ∀ (r n : Nat) (mc : Int) (b : Builder) (leaves : List Nat),
    b.Collected t f leaves n → n + r = t.elems → leaves.length ≤ n →
    BuildsTo t (collectSymbols t r n mc) b fun mc' b' =>
      mc' = lastSymbol mc (usedSymbols f n r) ∧ b'.Collected t f (leaves ++ usedSymbols f n r) t.elems
  | 0, n, mc, b, leaves, h, hn, _ => (Builds.pure mc).to ⟨rfl, by simpa [usedSymbols, ← hn] using h⟩
  | r + 1, n, mc, b, leaves, h, hn, hl => by
    obtain ⟨he, hnodes, -⟩ := t.elems_bounds
    have g := getFreq_builds (t := t) (b := b) (n := n) (by omega)
    rw [h.freq n le_rfl (by omega)] at g
    rw [usedSymbols_succ]
    refine g.andThen ?_
    by_cases hf : f n = 0#16
    · refine .ite_false (by rw [hf]; decide) ((setLen_builds (by omega) 0).andThen ?_)
      rw [if_pos hf]
      refine collectSymbols_collects r (n + 1) mc _ leaves
        { h with freq := fun j hj => h.freq j (by omega), unused := fun j hj hnot => ?_ } (by omega) (by omega)
      dsimp only
      rw [Ram.get_set (TreeId.lt_ram (t := t) (by omega)) (TreeId.lt_ram (t := t) (by omega))]
      split_ifs with hjn
      · rfl
      · exact h.unused j (by omega) hnot
    · refine .ite_true (fun h0 => hf (BitVec.eq_of_toNat_eq h0)) ?_
      have hlen := h.heapLen_succ (by omega)
      refine (pushHeap_builds (by rw [hlen]; unfold heapEntries heapSize; omega)).andThen
        ((setDepth_builds (by unfold heapSize; omega) 0).andThen ?_)
      rw [if_neg hf, lastSymbol, List.append_cons]
      refine collectSymbols_collects r (n + 1) n _ (leaves ++ [n]) ⟨fun j hj => h.freq j (by omega), ?_, h.heapMax,
        h.slot_push (by omega), fun j hj hnot => h.unused j ?_ (fun hm => hnot (List.mem_append_left _ hm))⟩ (by omega) ?_
      · rw [List.length_append]
        exact hlen
      · have : j ≠ n := fun e => hnot (by simp [e])
        omega
      · rw [List.length_append, List.length_singleton]
        omega

/-- The symbol that is added while the heap has fewer than two (R163). -/
def padSymbol (maxCode : Int) : Nat := if maxCode < 2 then (maxCode + 1).toNat else 0

/-- A heap of two nodes is not padded. -/
theorem padSymbols_full {fuel : Nat} {mc : Int} (h : ¬ b.heapLen.toNat < 2) : Builds t (padSymbols t fuel mc) b mc b := by
  cases fuel with
  | zero => exact .pure mc
  | succ fuel =>
    refine .get_bind fun k => ?_
    rw [withBuilder_heapLen]
    exact .ite_false h (.pure mc)

/-- One symbol is added. -/
theorem padSymbols_pad {fuel : Nat} {mc : Int} {f : Nat → BitVec 16} {leaves : List Nat} {Q : Int → Builder → Prop}
    (h : b.Collected t f leaves t.elems) (hlen : leaves.length < 2) (hlt : padSymbol mc < t.elems)
    (hrest : ∀ b', b'.Collected t f (leaves ++ [padSymbol mc]) t.elems →
      BuildsTo t (padSymbols t fuel (if mc < 2 then mc + 1 else mc)) b' Q) : BuildsTo t (padSymbols t (fuel + 1) mc) b Q := by
  obtain ⟨h1, h2, -⟩ := t.elems_bounds
  have hsucc := h.heapLen_succ (by omega)
  refine .get_bind fun k => ?_
  rw [withBuilder_heapLen]
  refine .ite_true (by rw [h.heapLen]; exact hlen) ((pushHeap_builds ?_).andThen ((setFreq_builds (h2.trans' hlt) 1).andThen
    ((setDepth_builds (hlt.trans (h1.trans_lt (by decide))) 0).andThen ((addOptLen_builds (-1)).andThen
      ((addStaticLen_builds _ _).andThen (hrest _ ⟨fun j hj hj' => absurd hj' (by omega), ?_, h.heapMax, h.slot_push (by omega),
        fun j hj hnot => h.unused j hj fun hm => hnot (List.mem_append_left _ hm)⟩))))))
  · rw [hsucc]
    unfold heapEntries heapSize
    omega
  · rw [List.length_append]
    exact hsucc

/-! The heap of two leaves. -/

theorem smaller_builds {n m : Nat} (hn : n < t.elems) (hm : m < t.elems) : ∃ r, Builds t (smaller t n m) b r b := by
  obtain ⟨h1, h2, -⟩ := t.elems_bounds
  exact ⟨_, (getFreq_builds (by omega)).bind ((getFreq_builds (by omega)).bind
    ((getDepth_builds (by unfold heapSize; omega)).bind ((getDepth_builds (by unfold heapSize; omega)).bind (.pure _))))⟩

/-- A heap of one node, just placed, is in order. -/
theorem pqDownHeap_one {h : Ram 10} {v : BitVec 10} (hlen : b.heapLen = 1#10) (hheap : b.heap = h.set 1 v) :
    Builds t (pqDownHeap t 1) b () b := by
  refine (getHeap_builds (by decide)).bind (.get_bind fun k => ?_)
  rw [withBuilder_heapLen]
  refine .ite_false (by rw [hlen]; decide) ?_
  have hval : b.heap.get 1 = v := by rw [hheap, Ram.get_set_self]
  have hset := setHeap_builds (t := t) (b := b) (i := 1) (by decide) v.toNat
  rw [BitVec.ofNat_toNat, BitVec.setWidth_eq, hheap, Ram.set_set, ← hheap] at hset
  rwa [hval]

/-- One node is placed as the only one of the heap. -/
theorem setRoot_builds {v : Nat} {f : Unit → Proc Coder α} {a : α} (hlen : b.heapLen = 1#10)
    (h : Builds t (f ()) { b with heap := b.heap.set 1 (BitVec.ofNat 10 v) } a b') :
    Builds t (setHeap 1 v >>= fun _ => pqDownHeap t 1 >>= f) b a b' := by
  refine (setHeap_builds (by decide) v).bind (Builds.bind ?_ h)
  exact pqDownHeap_one (h := b.heap) (v := BitVec.ofNat 10 v) hlen rfl

/-- A heap of two leaves stays or is swapped. -/
theorem pqDownHeap_two {x y : Nat} (hlen : b.heapLen = 2#10) (h1 : b.heap.get 1 = BitVec.ofNat 10 x)
    (h2 : b.heap.get 2 = BitVec.ofNat 10 y) (hx : x < t.elems) (hy : y < t.elems) :
    ∃ p q h, (p = x ∧ q = y ∨ p = y ∧ q = x) ∧ Builds t (pqDownHeap t 1) b () { b with heap := h }
      ∧ h.get 1 = BitVec.ofNat 10 p ∧ h.get 2 = BitVec.ofNat 10 q := by
  obtain ⟨he, -, -⟩ := t.elems_bounds
  have hv1 : (b.heap.get 1).toNat = x := by rw [h1, BitVec.toNat_ofNat, Nat.mod_eq_of_lt (by omega)]
  have hv2 : (b.heap.get 2).toNat = y := by rw [h2, BitVec.toNat_ofNat, Nat.mod_eq_of_lt (by omega)]
  have g1 := getHeap_builds (t := t) (b := b) (i := 1) (by decide)
  have g2 := getHeap_builds (t := t) (b := b) (i := 2) (by decide)
  rw [hv1] at g1
  rw [hv2] at g2
  have hchild : Builds t (smallerChild t b.heapLen.toNat 2) b 2 b := g2.bind (.ite_false (by rw [hlen]; decide) (.pure 2))
  obtain ⟨settled, hs⟩ := smaller_builds (t := t) (b := b) hx hy
  have hroot {h : Ram 10} (hsift : Builds t (if settled then setHeap 1 x else setHeap 1 y >>= fun _ => siftDown t x 10 2 (2 * 2))
      b () { b with heap := h }) : Builds t (pqDownHeap t 1) b () { b with heap := h } := by
    refine g1.bind (.get_bind fun k => ?_)
    rw [withBuilder_heapLen]
    exact .ite_true (by rw [hlen]; decide) (hchild.bind (g2.bind (hs.bind hsift)))
  cases settled with
  | true =>
    refine ⟨x, y, _, .inl ⟨rfl, rfl⟩, hroot (.ite_true rfl (setHeap_builds (by decide) x)), Ram.get_set_self _ _, ?_⟩
    rw [Ram.get_set_of_ne (by decide) (by decide) (by decide), h2]
  | false =>
    have hlast : Builds t (siftDown t x 10 2 (2 * 2)) { b with heap := b.heap.set 1 (BitVec.ofNat 10 y) } ()
        { b with heap := (b.heap.set 1 (BitVec.ofNat 10 y)).set 2 (BitVec.ofNat 10 x) } := by
      refine .get_bind fun k => ?_
      rw [withBuilder_heapLen]
      exact .ite_false (by rw [hlen]; decide) (setHeap_builds (by decide) x)
    refine ⟨y, x, _, .inr ⟨rfl, rfl⟩, hroot (.ite_false (by decide) ((setHeap_builds (by decide) y).bind hlast)), ?_,
      Ram.get_set_self _ _⟩
    rw [Ram.get_set_of_ne (by decide) (by decide) (by decide), Ram.get_set_self]

/-- The builder after the leaves `p` and `q`, the only nodes of the heap, were combined (R164). -/
def Builder.combined (b : Builder) (t : TreeId) (p q : Nat) : Builder :=
  { b with
    heapLen := 1#10, heapMax := 571#10
    heap := (((b.heap.set 1 (BitVec.ofNat 10 q)).set 572 (BitVec.ofNat 10 p)).set 571 (BitVec.ofNat 10 q)).set 1
      (BitVec.ofNat 10 t.elems)
    depth := b.depth.set t.elems (BitVec.ofNat 8 (max (b.depth.get p).toNat (b.depth.get q).toNat + 1))
    tree :=
      { b.tree with
        freq := b.tree.freq.set t.elems (BitVec.ofNat 16 ((b.tree.freq.get p).toNat + (b.tree.freq.get q).toNat))
        dad := (b.tree.dad.set p (BitVec.ofNat 10 t.elems)).set q (BitVec.ofNat 10 t.elems) } }

theorem combineNodes_two {p q : Nat} (hlen : b.heapLen = 2#10) (hmax : b.heapMax = 573#10) (h1 : b.heap.get 1 = BitVec.ofNat 10 p)
    (h2 : b.heap.get 2 = BitVec.ofNat 10 q) (hp : p < t.elems) (hq : q < t.elems) :
    Builds t (combineNodes t 2 t.elems) b () (b.combined t p q) := by
  obtain ⟨he, hn, -⟩ := t.elems_bounds
  have toNat_leaf {n : Nat} (h : n < t.elems) : (BitVec.ofNat 10 n).toNat = n := by
    rw [BitVec.toNat_ofNat, Nat.mod_eq_of_lt (by omega)]
  have hfirst : Builds t (getHeap 1) b p b := by
    have h := getHeap_builds (t := t) (b := b) (i := 1) (by decide)
    rwa [h1, toNat_leaf hp] at h
  have hlast : Builds t (getHeap b.heapLen.toNat) b q b := by
    have h := getHeap_builds (t := t) (b := b) (i := 2) (by decide)
    rw [h2, toNat_leaf hq] at h
    rwa [hlen]
  refine hfirst.bind (.get_bind fun k => ?_)
  rw [withBuilder_heapLen]
  refine hlast.bind ((setHeap_builds (by decide) q).bind ?_)
  refine (Builds.modify (b' := { b with heap := b.heap.set 1 (BitVec.ofNat 10 q), heapLen := 1#10 })
    fun k => by cases t <;> simp [Coder.withBuilder, hlen]).bind
    ((pqDownHeap_one rfl rfl).bind ((getHeap_builds (by decide)).bind ?_))
  rw [Ram.get_set_self, toNat_leaf hq]
  refine (placeSorted_builds (m := 572#10) (by rw [hmax]; rfl) (by decide)).bind
    ((placeSorted_builds (m := 571#10) (show 572#10 - 1#10 = 571#10 by decide) (by decide)).bind ?_)
  dsimp only
  refine (getFreq_builds (by omega)).bind ((getFreq_builds (by omega)).bind ((setFreq_builds hn _).bind ?_))
  dsimp only
  refine (getDepth_builds (hp.trans (he.trans_lt (by decide)))).bind ((getDepth_builds (hq.trans (he.trans_lt (by decide)))).bind
    ((setDepth_builds (he.trans_lt (by decide)) _).bind ?_))
  dsimp only
  refine (setDad_builds (by omega) _).bind ((setDad_builds (by omega) _).bind ?_)
  dsimp only
  refine setRoot_builds rfl (.get_bind fun k => ?_)
  rw [withBuilder_heapLen]
  exact .ite_true (show (1#10).toNat < 2 by decide) (.pure ())

/-! Code lengths (R166). -/

/-- Behind the clearing loop no code has the length 0. -/
theorem clearBlCount_builds (n : Nat) (hn : n < 16) :
    BuildsTo t (forCount (fun j => setBlCount j 0) (n + 1) 0) b
      fun _ b' => ∃ m, b' = { b with blCount := m } ∧ m.get 0 = 0#16 := by
  have hrest : ∀ (n i : Nat) (m : Ram 16), m.get 0 = 0#16 → i + n ≤ 16 →
      BuildsTo t (forCount (fun j => setBlCount j 0) n i) { b with blCount := m }
        fun _ b' => ∃ m', b' = { b with blCount := m' } ∧ m'.get 0 = 0#16 := by
    intro n
    induction n with
    | zero => exact fun i m hm _ => (Builds.pure ()).to ⟨m, rfl, hm⟩
    | succ n ih =>
      intro i m hm hi
      have h0 : (m.set i 0#16).get 0 = 0#16 := by
        rw [Ram.get_set ((show i < 16 by omega).trans (by decide)) (by decide), hm, ite_self]
      exact (setBlCount_builds (by omega) 0).andThen (ih (i + 1) _ h0 (by omega))
  exact (setBlCount_builds (by decide) 0).andThen (hrest n 1 _ (Ram.get_set_self _ _) (by omega))

/-- A leaf below the root gets the length 1. -/
theorem assignDepths_leaf {r h n : Nat} {mc overflow : Int} {Q : Int → Builder → Prop} (hh : h < heapEntries) (hn : n < t.elems)
    (hheap : b.heap.get h = BitVec.ofNat 10 n) (hdad : b.tree.dad.get n = BitVec.ofNat 10 t.elems)
    (hroot : b.tree.len.get t.elems = 0#16) (hmc : (n : Int) ≤ mc)
    (hrest : ∀ l c o s, (∀ i, i < t.nodes → l.get i = if i = n then 1#16 else b.tree.len.get i) →
      c.get 0 = b.blCount.get 0 → BuildsTo t (assignDepths t mc r (h + 1) overflow)
        { b with tree := { b.tree with len := l }, blCount := c, optLen := o, staticLen := s } Q) :
    BuildsTo t (assignDepths t mc (r + 1) h overflow) b Q := by
  obtain ⟨he, hnodes, hml⟩ := t.elems_bounds
  have hsym : Builds t (getHeap h) b n b := by
    have g := getHeap_builds (t := t) (b := b) hh
    rwa [hheap, BitVec.toNat_ofNat, Nat.mod_eq_of_lt (by omega)] at g
  have hparent : Builds t (getDad t n) b t.elems b := by
    have g := getDad_builds (t := t) (b := b) (hnodes.trans' hn)
    rwa [hdad, BitVec.toNat_ofNat, Nat.mod_eq_of_lt (by omega)] at g
  have habove : Builds t (getLen t t.elems) b 0 b := by
    have g := getLen_builds (t := t) (b := b) hnodes
    rwa [hroot] at g
  have hcount (c : BitVec 16) : (b.blCount.set 1 c).get 0 = b.blCount.get 0 :=
    Ram.get_set_of_ne (by decide) (by decide) (by decide) _ _
  have hlen (i : Nat) (hi : i < t.nodes) : (b.tree.len.set n 1#16).get i = if i = n then 1#16 else b.tree.len.get i :=
    Ram.get_set (TreeId.lt_ram (hnodes.trans' hn)) (TreeId.lt_ram hi) _ _
  refine hsym.andThen (hparent.andThen (habove.andThen ?_))
  rw [show min (0 + 1) t.maxLength = 1 by omega, if_neg (by omega : ¬ 0 + 1 > t.maxLength)]
  refine (setLen_builds (hnodes.trans' hn) 1).andThen (.ite_false (by omega) ?_)
  refine (getBlCount_builds (by decide)).andThen ((setBlCount_builds (by decide) _).andThen ?_)
  exact (getFreq_builds (hnodes.trans' hn)).andThen
    ((addOptLen_builds _).andThen ((addStaticLen_builds _ _).andThen (hrest _ _ _ _ hlen (hcount _))))

/-- The end of the heap lists the root and below it the leaves `q` and `p`, as `GenBitLen` walks them (R164). -/
structure Builder.SortedTwo (b : Builder) (t : TreeId) (p q : Nat) : Prop where
  heapMax : b.heapMax = 570#10
  root : b.heap.get 570 = BitVec.ofNat 10 t.elems
  second : b.heap.get 571 = BitVec.ofNat 10 q
  first : b.heap.get 572 = BitVec.ofNat 10 p
  bounds : p < t.elems ∧ q < t.elems
  dad_first : b.tree.dad.get p = BitVec.ofNat 10 t.elems
  dad_second : b.tree.dad.get q = BitVec.ofNat 10 t.elems

/-- Both leaves get the length 1, and no symbol the length 0 in `blCount` (R166). -/
theorem genBitLen_two {p q : Nat} (h : b.SortedTwo t p q) (hpm : (p : Int) ≤ b.maxCode.toInt)
    (hqm : (q : Int) ≤ b.maxCode.toInt) :
    BuildsTo t (genBitLen t) b fun _ b' => b'.maxCode = b.maxCode ∧ b'.blCount.get 0 = 0#16
      ∧ ∀ i, i < t.elems → b'.tree.len.get i = if i = p ∨ i = q then 1#16 else b.tree.len.get i := by
  obtain ⟨he, hnodes, hml⟩ := t.elems_bounds
  obtain ⟨hmax, hroot, hq, hp, ⟨hpe, hqe⟩, hdp, hdq⟩ := h
  have hgr (b' : Builder) (h : b'.heap = b.heap) : Builds t (getHeap 570) b' t.elems b' := by
    have g := getHeap_builds (t := t) (b := b') (i := 570) (by decide)
    rwa [h, hroot, BitVec.toNat_ofNat, Nat.mod_eq_of_lt (by omega)] at g
  refine .bind (clearBlCount_builds 15 (by decide)) ?_
  rintro - - ⟨m, rfl, hm⟩
  refine .get_bind fun k => ?_
  rw [withBuilder_heapMax, withBuilder_maxCode]
  dsimp only
  rw [hmax, show (570#10).toNat = 570 from rfl, show heapSize - (570 + 1) = 2 from rfl]
  have hlen (i : Nat) (hi : i < t.nodes) : (b.tree.len.set t.elems 0#16).get i = if i = t.elems then 0#16 else b.tree.len.get i :=
    Ram.get_set (TreeId.lt_ram hnodes) (TreeId.lt_ram hi) _ _
  refine (hgr _ (by rfl)).andThen ((setLen_builds hnodes 0).andThen (.bind (P := fun a b' =>
    a = 0 ∧ b'.maxCode = b.maxCode ∧ b'.blCount.get 0 = 0#16
      ∧ ∀ i, i < t.elems → b'.tree.len.get i = if i = p ∨ i = q then 1#16 else b.tree.len.get i) ?_ ?_))
  · dsimp only
    generalize b.tree.len.set t.elems (BitVec.ofNat 16 0) = l0 at hlen ⊢
    refine assignDepths_leaf (r := 1) (h := 571) (by decide) hqe hq hdq ((hlen _ hnodes).trans (if_pos rfl)) hqm
      fun l c o s hl hc => ?_
    have hl0 : l.get t.elems = 0#16 := by rw [hl _ hnodes, if_neg hqe.ne', hlen _ hnodes, if_pos rfl]
    refine assignDepths_leaf (r := 0) (h := 572) (by decide) hpe hp hdp hl0 hpm
      fun l' c' o' s' hl' hc' => (Builds.pure 0).to ⟨rfl, rfl, (hc'.trans hc).trans hm, fun i hi => ?_⟩
    have hin : i < t.nodes := hi.trans hnodes
    rw [hl' i hin]
    dsimp only
    rw [hl i hin]
    dsimp only
    rw [hlen i hin, if_neg hi.ne]
    split_ifs <;> simp_all
  · rintro a b' ⟨rfl, hb⟩
    exact .ite_true rfl ((Builds.pure ()).to hb)

end Builds

end Sys2Proof.Machine
end

section
/-! SUPPORT. Canonical codes where two symbols have the length 1 (R170), and the whole of `BuildTree` with two leaves (R163 to
R170). -/

namespace Sys2Proof.Machine

open Proc

section Builds

variable {α : Type} {t : TreeId} {b b' : Builder}

/-! Canonical codes (R170). -/

/-- The starting codes of the lengths from `bits` on. -/
theorem startCodes_builds : ∀ (r bits code : Nat) (b : Builder), 1 ≤ bits → bits + r ≤ 16 →
    BuildsTo t (startCodes r bits code) b fun _ b' =>
      ∃ m, b' = { b with nextCode := m } ∧ ∀ i, i < bits → m.get i = b.nextCode.get i
  | 0, _, _, b, _, _ => (Builds.pure ()).to ⟨_, rfl, fun _ _ => rfl⟩
  | r + 1, bits, code, b, h1, h16 => by
    refine (getBlCount_builds (by omega)).andThen ((setNextCode_builds (by omega) _).andThen
      (.mono (startCodes_builds r (bits + 1) _ _ (by omega) (by omega)) ?_))
    rintro - - ⟨m, rfl, hm⟩
    refine ⟨m, rfl, fun i hi => (hm i (by omega)).trans ?_⟩
    exact Ram.get_set_of_ne ((show bits < 16 by omega).trans (by decide)) ((show i < 16 by omega).trans (by decide)) hi.ne _ _

/-- Symbols of the length 0 get no code. -/
theorem assignCodes_unused {r : Nat} {Q : Unit → Builder → Prop} : ∀ (n i : Nat), i + n ≤ t.nodes →
    (∀ j, i ≤ j → j < i + n → b.tree.len.get j = 0#16) → BuildsTo t (forCount (assignCode t) r (i + n)) b Q →
    BuildsTo t (forCount (assignCode t) (n + r) i) b Q
  | 0, i, _, _, h => by rwa [Nat.zero_add]
  | n + 1, i, hi, hl, h => by
    have hlen : Builds t (assignCode t i) b () b := by
      have g := getLen_builds (t := t) (b := b) (n := i) (by omega)
      rw [hl i le_rfl (by omega)] at g
      exact g.bind (.ite_true rfl (.pure ()))
    rw [show n + 1 + r = (n + r) + 1 by omega]
    refine hlen.andThen (assignCodes_unused n (i + 1) (by omega) (fun j h1 h2 => hl j (by omega) (by omega)) ?_)
    rwa [show i + 1 + n = i + (n + 1) by omega]

/-- A symbol of the length 1 gets the next code of one bit. -/
theorem assignCodes_one {r i : Nat} {v : BitVec 16} {Q : Unit → Builder → Prop} (hi : i < t.nodes) (hl : b.tree.len.get i = 1#16)
    (hv : b.nextCode.get 1 = v)
    (h : BuildsTo t (forCount (assignCode t) r (i + 1))
      { b with
        tree := { b.tree with code := b.tree.code.set i (BitVec.ofNat 16 (biReverse v.toNat 1)) }
        nextCode := b.nextCode.set 1 (BitVec.ofNat 16 (v.toNat + 1)) } Q) :
    BuildsTo t (forCount (assignCode t) (1 + r) i) b Q := by
  subst hv
  have g := getLen_builds (t := t) (b := b) hi
  rw [hl] at g
  rw [Nat.add_comm 1 r]
  refine Builds.andThen (a := ()) (g.bind (.ite_false (by decide) ?_)) h
  exact (getNextCode_builds (by decide)).bind ((setCode_builds hi _).bind (setNextCode_builds (by decide) _))

/-- Of two symbols with codes of one bit, the smaller has the code 0 and the other the code 1. -/
theorem genCodes_two {x y : Nat} (hxy : x < y) (hy : y < t.elems) (hmax : b.maxCode.toInt = y) (h0 : b.blCount.get 0 = 0#16)
    (hlen : ∀ i, i < t.elems → b.tree.len.get i = if i = x ∨ i = y then 1#16 else 0#16) :
    BuildsTo t (genCodes t) b fun _ b' => b'.maxCode = b.maxCode ∧ b'.tree.len = b.tree.len ∧ b'.tree.code.get x = 0#16
      ∧ b'.tree.code.get y = 1#16 := by
  obtain ⟨he, hnodes, -⟩ := t.elems_bounds
  have hfirst : BuildsTo t (startCodes maxBits 1 0) b fun _ b' => ∃ m, b' = { b with nextCode := m } ∧ m.get 1 = 0#16 := by
    have g := getBlCount_builds (t := t) (b := b) (n := 1 - 1) (by decide)
    rw [h0] at g
    refine g.andThen ((setNextCode_builds (by decide) _).andThen (.mono (startCodes_builds 14 2 _ _ (by decide) (by decide)) ?_))
    rintro - - ⟨m, rfl, hm⟩
    exact ⟨m, rfl, (hm 1 (by decide)).trans (Ram.get_set_self _ _)⟩
  refine hfirst.bind ?_
  rintro - - ⟨m, rfl, hm⟩
  refine .get_bind fun k => ?_
  rw [withBuilder_maxCode]
  dsimp only
  rw [hmax, show ((y : Int) + 1).toNat = x + (1 + ((y - x - 1) + (1 + 0))) by omega]
  have hzero (j : Nat) (hj : j < y) (hjx : j ≠ x) : b.tree.len.get j = 0#16 := by rw [hlen j (by omega), if_neg (by omega)]
  have hone (j : Nat) (hj : j = x ∨ j = y) : b.tree.len.get j = 1#16 := by rw [hlen j (by omega), if_pos hj]
  refine assignCodes_unused x 0 (by omega) (fun j _ hj => hzero j (by omega) (by omega)) ?_
  rw [Nat.zero_add]
  refine assignCodes_one (by omega) (hone x (.inl rfl)) hm ?_
  refine assignCodes_unused _ _ (by omega) (fun j h1 h2 => hzero j (by omega) (by omega)) ?_
  rw [show x + 1 + (y - x - 1) = y by omega]
  dsimp only
  refine assignCodes_one (v := 1#16) (by omega) (hone y (.inr rfl)) (Ram.get_set_self _ _)
    ((Builds.pure ()).to ⟨rfl, rfl, ?_, ?_⟩)
  · dsimp only
    rw [Ram.get_set_of_ne (TreeId.lt_ram (t := t) (by omega)) (TreeId.lt_ram (t := t) (by omega)) hxy.ne, Ram.get_set_self]
    rfl
  · exact Ram.get_set_self _ _

/-! The whole of `BuildTree`. -/

/-- The two symbols `x < y` are the only leaves in the heap, and no other symbol has a length. -/
structure Builder.TwoLeaves (b : Builder) (t : TreeId) (x y : Nat) : Prop where
  lt : x < y
  bound : y < t.elems
  heapLen : b.heapLen = 2#10
  heapMax : b.heapMax = 573#10
  slots : ∃ u v, (u = x ∧ v = y ∨ u = y ∧ v = x) ∧ b.heap.get 1 = BitVec.ofNat 10 u ∧ b.heap.get 2 = BitVec.ofNat 10 v
  unused : ∀ i, i < t.elems → i ≠ x → i ≠ y → b.tree.len.get i = 0#16

/-- A tree with the codes 0 and 1 of one bit, for the symbols `x` and `y`, and no other. -/
structure Builder.TwoCodes (b : Builder) (t : TreeId) (x y : Nat) : Prop where
  maxCode : b.maxCode.toInt = y
  len : ∀ i, i < t.elems → b.tree.len.get i = if i = x ∨ i = y then 1#16 else 0#16
  code_left : b.tree.code.get x = 0#16
  code_right : b.tree.code.get y = 1#16

/-- Slot 1 of the heap has the root, and the end of it the two leaves. -/
theorem combined_heap (b : Builder) (t : TreeId) (p q : Nat) : (b.combined t p q).heap.get 1 = BitVec.ofNat 10 t.elems
    ∧ (b.combined t p q).heap.get 571 = BitVec.ofNat 10 q ∧ (b.combined t p q).heap.get 572 = BitVec.ofNat 10 p := by
  unfold Builder.combined
  dsimp only
  generalize b.heap.set 1 (BitVec.ofNat 10 q) = h
  refine ⟨Ram.get_set_self _ _, ?_, ?_⟩
  · rw [Ram.get_set_of_ne (by decide) (by decide) (by decide), Ram.get_set_self]
  · rw [Ram.get_set_of_ne (by decide) (by decide) (by decide), Ram.get_set_of_ne (by decide) (by decide) (by decide),
      Ram.get_set_self]

/-- The root is the parent of both leaves. -/
theorem combined_dad (b : Builder) {t : TreeId} {p q : Nat} (hp : p < t.elems) (hq : q < t.elems) (hne : p ≠ q) :
    (b.combined t p q).tree.dad.get p = BitVec.ofNat 10 t.elems
      ∧ (b.combined t p q).tree.dad.get q = BitVec.ofNat 10 t.elems := by
  obtain ⟨-, hnodes, -⟩ := t.elems_bounds
  unfold Builder.combined
  dsimp only
  refine ⟨?_, Ram.get_set_self _ _⟩
  rw [Ram.get_set_of_ne (TreeId.lt_ram (t := t) (by omega)) (TreeId.lt_ram (t := t) (by omega)) hne, Ram.get_set_self]

/-- The heap of two leaves becomes the list of nodes that `GenBitLen` walks (R164). -/
theorem sortedNodes_two {x y : Nat} {f : Unit → Proc Coder α} {Q : α → Builder → Prop} (h : b.TwoLeaves t x y)
    (hrest : ∀ b' p q, (p = x ∧ q = y ∨ p = y ∧ q = x) → b'.SortedTwo t p q → b'.tree.len = b.tree.len →
      b'.maxCode = b.maxCode → BuildsTo t (f ()) b' Q) :
    BuildsTo t (forDown (fun n => pqDownHeap t n) 1 >>= fun _ => combineNodes t 2 t.elems >>= fun _ => getHeap 1 >>= fun root =>
      placeSorted root >>= f) b Q := by
  obtain ⟨he, hnodes, -⟩ := t.elems_bounds
  obtain ⟨u, v, huv, h1, h2⟩ := h.slots
  have hlt := h.lt
  have hy := h.bound
  obtain ⟨p, q, heap, hpq, hrun, g1, g2⟩ := pqDownHeap_two (t := t) h.heapLen h1 h2 (by omega) (by omega)
  refine (hrun.bind (Builds.pure ())).andThen ?_
  refine (combineNodes_two (b := { b with heap := heap }) h.heapLen h.heapMax g1 g2 (by omega) (by omega)).andThen ?_
  obtain ⟨hroot, h571, h572⟩ := combined_heap { b with heap := heap } t p q
  obtain ⟨hdp, hdq⟩ := combined_dad { b with heap := heap } (show p < t.elems by omega) (show q < t.elems by omega) (by omega)
  generalize hc : Builder.combined { b with heap := heap } t p q = c at *
  have hmax : c.heapMax = 571#10 := by rw [← hc]; rfl
  have hlen : c.tree.len = b.tree.len := by rw [← hc]; rfl
  have hmc : c.maxCode = b.maxCode := by rw [← hc]; rfl
  have g := getHeap_builds (t := t) (b := c) (i := 1) (by decide)
  rw [hroot, BitVec.toNat_ofNat, Nat.mod_eq_of_lt (by omega)] at g
  refine g.andThen ((placeSorted_builds (m := 570#10) (by rw [hmax]; rfl) (by decide)).andThen ?_)
  have hkept {i : Nat} (hi : i < 2 ^ ramBits) (hne : i ≠ 570) : (c.heap.set 570 (BitVec.ofNat 10 t.elems)).get i = c.heap.get i :=
    Ram.get_set_of_ne (by decide) hi hne _ _
  exact hrest _ p q (by omega) ⟨rfl, Ram.get_set_self _ _, (hkept (by decide) (by decide)).trans h571,
    (hkept (by decide) (by decide)).trans h572, by omega, hdp, hdq⟩ hlen hmc

/-- Where two leaves are left, both get a code of one bit, whatever their frequencies (R163 to R170). -/
theorem buildTree_two {x y : Nat} (h : BuildsTo t (collectSymbols t t.elems 0 (-1)) { b with heapLen := 0#10, heapMax := 573#10 }
      fun mc b' => BuildsTo t (padSymbols t 2 mc) b' fun mc' b'' => mc' = y ∧ b''.TwoLeaves t x y) :
    BuildsTo t (buildTree t) b fun _ b' => b'.TwoCodes t x y := by
  obtain ⟨he, hnodes, -⟩ := t.elems_bounds
  refine Builds.andThen (b' := { b with heapLen := 0#10, heapMax := 573#10 }) (.modify fun k => by cases t <;> rfl) ?_
  refine h.bind fun mc b1 hpad => hpad.bind ?_
  rintro _ b2 ⟨rfl, h2⟩
  have hlt := h2.lt
  have hy := h2.bound
  have hmax : (truncInt 10 y).toInt = y := by
    unfold truncInt
    rw [BitVec.toInt_ofInt, Int.bmod_eq_of_le (by omega) (by omega)]
  have h3 : Builder.TwoLeaves { b2 with maxCode := truncInt 10 y } t x y := { h2 with }
  refine Builds.andThen (.modify fun k => withBuilder_setMaxCode k t b2 y) ?_
  generalize hb3 : ({ b2 with maxCode := truncInt 10 y } : Builder) = b3 at h3 ⊢
  replace hmax : b3.maxCode.toInt = y := by rw [← hb3]; exact hmax
  refine .get_bind fun k => ?_
  rw [withBuilder_heapLen, h3.heapLen]
  refine sortedNodes_two h3 fun b4 p q hpq hsorted hl hm => ?_
  have hm4 : b4.maxCode.toInt = y := (congrArg BitVec.toInt hm).trans hmax
  refine (genBitLen_two hsorted (by omega) (by omega)).bind fun _ b5 h5 => ?_
  obtain ⟨hm5, hc5, hl5⟩ := h5
  have hlen : ∀ i, i < t.elems → b5.tree.len.get i = if i = x ∨ i = y then 1#16 else 0#16 := by
    intro i hi
    rw [hl5 i hi]
    by_cases hi' : i = x ∨ i = y
    · rw [if_pos hi', if_pos (by omega)]
    · rw [if_neg hi', if_neg (by omega), hl]
      exact h3.unused i hi (by omega) (by omega)
  have hmax5 : b5.maxCode.toInt = y := (congrArg BitVec.toInt hm5).trans hm4
  refine (genCodes_two hlt hy hmax5 hc5 hlen).mono fun _ b6 h6 => ?_
  obtain ⟨hm6, hl6, hx6, hy6⟩ := h6
  exact ⟨(congrArg BitVec.toInt hm6).trans hmax5, fun i hi => by rw [hl6, hlen i hi], hx6, hy6⟩

end Builds

end Sys2Proof.Machine
end

section
/-! SUPPORT. `BuildTree` by how many symbols are used: two, one, or none (R163). -/

namespace Sys2Proof.Machine

open Proc

section Builds

variable {α : Type} {t : TreeId} {b b' : Builder}

/-! Which two symbols are the leaves. -/

theorem Builder.Collected.twoLeaves {f : Nat → BitVec 16} {u v x y : Nat} (h : b.Collected t f [u, v] t.elems) (hxy : x < y)
    (hy : y < t.elems) (huv : u = x ∧ v = y ∨ u = y ∧ v = x) : b.TwoLeaves t x y where
  lt := hxy
  bound := hy
  heapLen := BitVec.eq_of_toNat_eq h.heapLen
  heapMax := h.heapMax
  slots := ⟨u, v, huv, h.slot 0 u rfl, h.slot 1 v rfl⟩
  unused i hi hx hy := h.unused i hi (by simp; omega)

/-- The frequencies before any symbol was collected. -/
theorem Builder.collected_start {f : Nat → BitVec 16} (hf : ∀ n, n < t.elems → b.tree.freq.get n = f n) :
    Builder.Collected { b with heapLen := 0#10, heapMax := 573#10 } t f [] 0 where
  freq j _ hj := hf j hj
  heapLen := rfl
  heapMax := rfl
  slot j v hj := by simp at hj
  unused j hj _ := absurd hj (Nat.not_lt_zero j)

/-- The tree of two used symbols. -/
theorem buildTree_used_two {f : Nat → BitVec 16} {x y : Nat} (hf : ∀ n, n < t.elems → b.tree.freq.get n = f n) (hxy : x < y)
    (hy : y < t.elems) (hused : usedSymbols f 0 t.elems = [x, y]) :
    BuildsTo t (buildTree t) b fun _ b' => b'.TwoCodes t x y := by
  refine buildTree_two ((collectSymbols_collects t.elems 0 (-1) _ [] (b.collected_start hf) (Nat.zero_add _) le_rfl).mono ?_)
  rintro _ b' ⟨rfl, hc⟩
  rw [hused] at hc ⊢
  refine (padSymbols_full ?_).to ⟨rfl, hc.twoLeaves hxy hy (.inl ⟨rfl, rfl⟩)⟩
  rw [hc.heapLen]
  exact lt_irrefl 2

/-- The tree of one used symbol above 1: the symbol 0 is added. -/
theorem buildTree_used_one {f : Nat → BitVec 16} {y : Nat} (hf : ∀ n, n < t.elems → b.tree.freq.get n = f n) (h2 : 2 ≤ y)
    (hy : y < t.elems) (hused : usedSymbols f 0 t.elems = [y]) :
    BuildsTo t (buildTree t) b fun _ b' => b'.TwoCodes t 0 y := by
  refine buildTree_two ((collectSymbols_collects t.elems 0 (-1) _ [] (b.collected_start hf) (Nat.zero_add _) le_rfl).mono ?_)
  rintro _ b' ⟨rfl, hc⟩
  rw [hused] at hc ⊢
  have hpad : padSymbol y = 0 := if_neg (by omega)
  refine padSymbols_pad (mc := y) hc one_lt_two (by rw [hpad]; omega) fun b2 hc2 => ?_
  rw [hpad] at hc2
  rw [if_neg (by omega)]
  refine (padSymbols_full ?_).to ⟨rfl, hc2.twoLeaves (by omega) hy (.inr ⟨rfl, rfl⟩)⟩
  rw [hc2.heapLen]
  exact lt_irrefl 2

/-- The tree without a used symbol: the symbols 0 and 1 are added. -/
theorem buildTree_used_none {f : Nat → BitVec 16} (hf : ∀ n, n < t.elems → b.tree.freq.get n = f n) (he : 2 ≤ t.elems)
    (hused : usedSymbols f 0 t.elems = []) : BuildsTo t (buildTree t) b fun _ b' => b'.TwoCodes t 0 1 := by
  refine buildTree_two ((collectSymbols_collects t.elems 0 (-1) _ [] (b.collected_start hf) (Nat.zero_add _) le_rfl).mono ?_)
  rintro _ b' ⟨rfl, hc⟩
  rw [hused] at hc ⊢
  refine padSymbols_pad (mc := -1) hc (by decide) (he.trans_lt' (by decide)) fun b2 hc2 => ?_
  refine padSymbols_pad (mc := 0) hc2 (by decide) (he.trans_lt' (by decide)) fun b3 hc3 => ?_
  exact (Builds.pure _).to ⟨rfl, hc3.twoLeaves (by decide) (by omega) (.inl ⟨rfl, rfl⟩)⟩

end Builds

end Sys2Proof.Machine
end

section
/-! SUPPORT. The three trees of an empty block (R161, R163, R175 to R177). -/

namespace Sys2Proof.Machine

open Proc

/-! Code-length symbols depend on the lengths up to the last symbol only (R175). -/

theorem walkRuns_congr {len len' : Nat → Nat} {last : Nat} (h : ∀ n, n ≤ last → len n = len' n) :
    ∀ (r n : Nat) (prev : Option Nat) (cur count mx mn : Nat),
      walkRuns len last r n prev cur count mx mn = walkRuns len' last r n prev cur count mx mn
  | 0, _, _, _, _, _, _ => rfl
  | r + 1, n, prev, cur, count, mx, mn => by
    have hnext : (if n < last then len (n + 1) else lenGuard) = if n < last then len' (n + 1) else lenGuard := by
      split_ifs with hn
      · exact h (n + 1) hn
      · rfl
    simp only [walkRuns, hnext, walkRuns_congr h r]

theorem treeItems_congr {len len' : Nat → Nat} {last : Nat} (h : ∀ n, n ≤ last → len n = len' n) :
    treeItems len last = treeItems len' last := by
  unfold treeItems
  simp only [h 0 (Nat.zero_le _), walkRuns_congr h]

/-! Counting code-length symbols (R175). -/

/-- One more use of a symbol. -/
theorem bumpFreq_builds {t : TreeId} {b : Builder} {n : Nat} (h : n < t.nodes) : Builds t (bumpFreq t n) b ()
    { b with tree := { b.tree with freq := b.tree.freq.set n (b.tree.freq.get n + 1#16) } } := by
  have hone : BitVec.ofNat 16 ((b.tree.freq.get n).toNat + 1) = b.tree.freq.get n + 1#16 := by
    rw [BitVec.ofNat_add, BitVec.ofNat_toNat, BitVec.setWidth_eq]
  rw [← hone]
  exact (getFreq_builds h).bind (setFreq_builds h _)

/-- Every item counts for its symbol. -/
theorem countItems_builds : ∀ (xs : List BlItem) (b : Builder), (∀ x ∈ xs, x.sym < blCodes) →
    BuildsTo .bl (countItems xs) b fun _ b' =>
      ∀ n, n < blCodes → b'.tree.freq.get n = b.tree.freq.get n + BitVec.ofNat 16 (xs.countP fun x => x.sym = n)
  | [], b, _ => (Builds.pure ()).to fun n _ => (BitVec.add_zero _).symm
  | x :: xs, b, h => by
    have hx := h x List.mem_cons_self
    have hnodes : blCodes < TreeId.bl.nodes := by decide
    refine (bumpFreq_builds (hx.trans hnodes)).andThen
      ((countItems_builds xs _ fun y hy => h y (List.mem_cons_of_mem x hy)).mono fun _ b' hb n hn => ?_)
    rw [hb n hn, List.countP_cons]
    dsimp only
    rw [Ram.get_set (TreeId.lt_ram (hx.trans hnodes)) (TreeId.lt_ram (hn.trans hnodes))]
    by_cases hnx : n = x.sym
    · subst hnx
      rw [if_pos rfl, if_pos (decide_eq_true rfl), BitVec.ofNat_add]
      ac_rfl
    · rw [if_neg hnx, if_neg (by simpa using Ne.symm hnx), Nat.add_zero]

/-! Trees of two symbols in the coder. -/

/-- The tree `t` has the codes 0 and 1 of one bit, for the symbols `x` and `y`, and no other. -/
structure Coder.TwoCodes (k : Coder) (t : TreeId) (x y : Nat) : Prop where
  maxCode : k.maxCode t = y
  len : ∀ i, i < t.elems → (k.tree t).len.get i = if i = x ∨ i = y then 1#16 else 0#16
  code_left : (k.tree t).code.get x = 0#16
  code_right : (k.tree t).code.get y = 1#16

/-- The lengths of a tree of two symbols. -/
def twoLens (x y n : Nat) : Nat := if n = x ∨ n = y then 1 else 0

theorem Coder.TwoCodes.lenOf {k : Coder} {t : TreeId} {x y : Nat} (h : k.TwoCodes t x y) {n : Nat} (hn : n < t.elems) :
    (k.tree t).lenOf n = twoLens x y n := by
  unfold Tree.lenOf twoLens
  rw [h.len n hn]
  split <;> rfl

theorem Builder.TwoCodes.coder {k : Coder} {t : TreeId} {b : Builder} {x y : Nat} (h : b.TwoCodes t x y) :
    (k.withBuilder t b).TwoCodes t x y where
  maxCode := by rw [withBuilder_maxCode, h.maxCode]
  len := by rw [withBuilder_tree]; exact h.len
  code_left := by rw [withBuilder_tree, h.code_left]
  code_right := by rw [withBuilder_tree, h.code_right]

theorem withBuilder_tree_of_ne {t u : TreeId} (h : u ≠ t) (k : Coder) (b : Builder) : (k.withBuilder t b).tree u = k.tree u := by
  cases t <;> cases u <;> simp_all [Coder.withBuilder, Coder.tree]

theorem withBuilder_maxCode_of_ne {t u : TreeId} (h : u ≠ t) (k : Coder) (b : Builder) :
    (k.withBuilder t b).maxCode u = k.maxCode u := by
  cases t <;> cases u <;> simp_all [Coder.withBuilder, Coder.maxCode]

/-- Building another tree leaves it alone. -/
theorem Coder.TwoCodes.withBuilder {k : Coder} {t u : TreeId} {x y : Nat} (h : k.TwoCodes u x y) (hne : u ≠ t) (b : Builder) :
    (k.withBuilder t b).TwoCodes u x y where
  maxCode := by rw [withBuilder_maxCode_of_ne hne, h.maxCode]
  len := by rw [withBuilder_tree_of_ne hne]; exact h.len
  code_left := by rw [withBuilder_tree_of_ne hne, h.code_left]
  code_right := by rw [withBuilder_tree_of_ne hne, h.code_right]

@[simp] theorem withBuilder_lastLit (k : Coder) (t : TreeId) (b : Builder) : (k.withBuilder t b).lastLit = k.lastLit := by
  cases t <;> rfl

/-- The code-length symbols of a tree of two symbols. -/
theorem Coder.TwoCodes.treeItems {k : Coder} {t : TreeId} {x y : Nat} (h : k.TwoCodes t x y) (hy : y < t.elems) :
    treeItems (k.tree t).lenOf y = treeItems (twoLens x y) y :=
  treeItems_congr fun _ hn => h.lenOf (hn.trans_lt hy)

/-- `ScanTree` of a tree of two symbols counts its code-length symbols. -/
theorem scanTree_two {k : Coder} {t : TreeId} {x y : Nat} (h : k.TwoCodes t x y) (hy : y < t.elems)
    (hsyms : ∀ z ∈ treeItems (twoLens x y) y, z.sym < blCodes) :
    ∃ b, scanTree t (k.maxCode t) k = (.ok (), k.withBuilder .bl b) ∧ ∀ n, n < blCodes →
      b.tree.freq.get n = k.bl.freq.get n + BitVec.ofNat 16 ((treeItems (twoLens x y) y).countP fun z => z.sym = n) := by
  obtain ⟨-, hnodes, -⟩ := t.elems_bounds
  obtain ⟨_, b, hrun, hb⟩ := (countItems_builds (treeItems (twoLens x y) y) (k.builder .bl) hsyms).run
  refine ⟨b, ?_, hb⟩
  have hindex : (indexOf (y : Int) : Proc Coder Nat) k = (.ok y, k) := by simp
  unfold scanTree
  rw [h.maxCode, bind_ok hindex, get_bind_run, require_bind_run, if_pos (decide_eq_true (hy.trans hnodes)), h.treeItems hy, hrun]

/-! The trees of an empty block. -/

/-- The lengths 1, 0 × 255, 1: the zeros are two runs (R175). -/
theorem treeItems_literals : treeItems (twoLens 0 256) 256 = [⟨1, 0, 0⟩, ⟨18, 127, 7⟩, ⟨18, 106, 7⟩, ⟨1, 0, 0⟩] := by
  decide +kernel

theorem treeItems_distances : treeItems (twoLens 0 1) 1 = [⟨1, 0, 0⟩, ⟨1, 0, 0⟩] := by decide

/-- The uses of the code-length symbols by both trees. -/
def blUses (n : Nat) : BitVec 16 := if n = 1 then 4#16 else if n = 18 then 2#16 else 0#16

theorem countItems_uses : ∀ n, n < blCodes →
    0#16 + BitVec.ofNat 16 ((treeItems (twoLens 0 256) 256).countP fun z => z.sym = n)
      + BitVec.ofNat 16 ((treeItems (twoLens 0 1) 1).countP fun z => z.sym = n) = blUses n := by
  rw [treeItems_literals, treeItems_distances]
  decide

/-- The last code-length length sent is that of the symbol 1 (R177). -/
theorem lastBlIndex_two {len : Nat → Nat} (h : ∀ n, n < blCodes → len n = twoLens 1 18 n) : lastBlIndex len 18 = 17 := by
  have h15 : len (tableAt blOrder 18) = 0 := h 15 (by decide)
  have h1 : len (tableAt blOrder 17) = 1 := h 1 (by decide)
  rw [lastBlIndex, if_pos ⟨by decide, h15⟩, lastBlIndex, if_neg (by rw [h1]; decide)]

/-- The trees of an empty block. -/
structure Coder.EmptyTrees (k : Coder) : Prop where
  literals : k.TwoCodes .dynL 0 256
  distances : k.TwoCodes .dynD 0 1
  lengths : k.TwoCodes .bl 1 18

/-- The code-length tree of an empty block, and the last of its lengths that is sent (R177). -/
theorem buildTree_lengths {b : Builder} (hf : ∀ n, n < TreeId.bl.elems → b.tree.freq.get n = blUses n) :
    BuildsTo .bl (buildTree .bl >>= fun _ => get >>= fun k =>
      addOptLen (3 * (lastBlIndex (k.tree .bl).lenOf 18 + 1) + 5 + 5 + 4 : Nat) >>= fun _ => pure (lastBlIndex (k.tree .bl).lenOf 18))
      b fun i b' => i = 17 ∧ b'.TwoCodes .bl 1 18 := by
  refine (buildTree_used_two (x := 1) (y := 18) hf (by decide) (by decide) (by decide)).bind fun _ b' h => .get_bind fun k => ?_
  have hlast : lastBlIndex ((k.withBuilder .bl b').tree .bl).lenOf 18 = 17 :=
    lastBlIndex_two fun n hn => h.coder.lenOf hn
  rw [hlast]
  exact (addOptLen_builds _).andThen ((Builds.pure 17).to ⟨rfl, { h with }⟩)

theorem buildBlTree_empty {k : Coder} (hl : k.TwoCodes .dynL 0 256) (hd : k.TwoCodes .dynD 0 1)
    (hf : ∀ n, n < blCodes → k.bl.freq.get n = 0#16) :
    ∃ c, buildBlTree k = (.ok 17, c) ∧ c.EmptyTrees ∧ c.lastLit = k.lastLit := by
  obtain ⟨b1, h1, f1⟩ := scanTree_two hl (by decide) (by rw [treeItems_literals]; decide)
  have hd1 := hd.withBuilder (t := .bl) (by decide) b1
  obtain ⟨b2, h2, f2⟩ := scanTree_two hd1 (by decide) (by rw [treeItems_distances]; decide)
  rw [withBuilder_maxCode_of_ne (by decide)] at h2
  have hfreq : ∀ n, n < TreeId.bl.elems →
      (((k.withBuilder .bl b1).withBuilder .bl b2).builder .bl).tree.freq.get n = blUses n := by
    intro n hn
    refine (f2 n hn).trans ?_
    rw [show (k.withBuilder .bl b1).bl.freq.get n = _ from f1 n hn, hf n hn, countItems_uses n hn]
  obtain ⟨_, b3, h3, rfl, h⟩ := (buildTree_lengths hfreq).run
  refine ⟨((k.withBuilder .bl b1).withBuilder .bl b2).withBuilder .bl b3, ?_,
    ⟨((hl.withBuilder (by decide) b1).withBuilder (by decide) b2).withBuilder (by decide) b3,
      (hd1.withBuilder (by decide) b2).withBuilder (by decide) b3, h.coder⟩, by simp⟩
  unfold buildBlTree
  rw [get_bind_run, bind_ok h1, bind_ok h2]
  exact h3

/-- `buildTrees` on an empty block, whatever older trees left (R161, R163, R177). -/
theorem buildTrees_empty {k : Coder} (hl : ∀ n, n < lCodes → k.dynL.freq.get n = if n = 256 then 1#16 else 0#16)
    (hd : ∀ n, n < dCodes → k.dynD.freq.get n = 0#16) (hf : ∀ n, n < blCodes → k.bl.freq.get n = 0#16) :
    ∃ c, buildTrees k = (.ok 17, c) ∧ c.EmptyTrees ∧ c.lastLit = k.lastLit := by
  have hl0 : ∀ n, n < TreeId.dynL.elems → (k.builder .dynL).tree.freq.get n = if n = 256 then 1#16 else 0#16 := hl
  obtain ⟨_, b1, h1, t1⟩ := (buildTree_used_one (y := 256) hl0 (by decide) (by decide) (by decide +kernel)).run
  have hd1 : ∀ n, n < TreeId.dynD.elems → ((k.withBuilder .dynL b1).builder .dynD).tree.freq.get n = 0#16 := hd
  obtain ⟨_, b2, h2, t2⟩ := (buildTree_used_none hd1 (by decide) (by decide)).run
  obtain ⟨c, hc, trees, hlit⟩ := buildBlTree_empty (t1.coder.withBuilder (t := .dynD) (by decide) b2) t2.coder hf
  refine ⟨c, ?_, trees, by simpa using hlit⟩
  unfold buildTrees
  rw [bind_ok h1, bind_ok h2, hc]

end Sys2Proof.Machine
end

section
/-! SUPPORT. A dynamic block without a recorded symbol on the wire (R113 to R115, R178, R239), and the settled statement about
`BLOCK_DYNAMIC`. -/

namespace Sys2Proof.Machine

open Proc

section Sends

variable {cap : Nat} (hcap : cap ≤ 2 ^ 17) {k : Coder} {t : TreeId} {x y : Nat}

include hcap

/-! Codes of one bit. -/

theorem sendCode_left (h : k.TwoCodes t x y) (hx : x < t.elems) : Sends cap (sendCode cap x (k.codeTable t)) [false] := by
  have hlen : (k.codeTable t).len x = 1 := congrArg BitVec.toNat ((h.len x hx).trans (if_pos (.inl rfl)))
  have hcode : (k.codeTable t).code x = 0 := congrArg BitVec.toNat h.code_left
  have hs := sendCode_sends hcap (t := k.codeTable t) (hx.trans t.elems_lt_nodes) (by omega) (by omega)
    (by rw [hlen, hcode]; decide)
  rwa [hlen, hcode] at hs

theorem sendCode_right (h : k.TwoCodes t x y) (hy : y < t.elems) : Sends cap (sendCode cap y (k.codeTable t)) [true] := by
  have hlen : (k.codeTable t).len y = 1 := congrArg BitVec.toNat ((h.len y hy).trans (if_pos (.inr rfl)))
  have hcode : (k.codeTable t).code y = 1 := congrArg BitVec.toNat h.code_right
  have hs := sendCode_sends hcap (t := k.codeTable t) (hy.trans t.elems_lt_nodes) (by omega) (by omega)
    (by rw [hlen, hcode]; decide)
  rwa [hlen, hcode] at hs

end Sends

/-! The parts of the trees (R178). -/

/-- A code-length symbol on the wire, where only 1 and 18 have codes: its code and its extra bits. -/
def BlItem.twoBits (z : BlItem) : List Bool := decide (z.sym = 18) :: lowBits z.extra z.extraBits

section Sends

variable {cap : Nat} (hcap : cap ≤ 2 ^ 17) {k : Coder}

include hcap

theorem sendItems_two (h : k.TwoCodes .bl 1 18) : ∀ zs : List BlItem,
    (∀ z ∈ zs, (z.sym = 1 ∨ z.sym = 18) ∧ z.extraBits ≤ 16 ∧ z.extra < 2 ^ z.extraBits) →
    Sends cap (sendItems cap (k.codeTable .bl) zs) (zs.flatMap BlItem.twoBits)
  | [], _ => .nil
  | z :: zs, hz => by
    obtain ⟨hsym, hbits, hextra⟩ := hz z List.mem_cons_self
    have hcode : Sends cap (sendCode cap z.sym (k.codeTable .bl)) [decide (z.sym = 18)] := by
      rcases hsym with e | e
      · rw [e]
        exact sendCode_left hcap h (by decide)
      · rw [e]
        exact sendCode_right hcap h (by decide)
    rw [List.flatMap_cons]
    exact hcode.bind ((sendBits_sends hcap hbits hextra).bind (sendItems_two h zs fun z' hz' => hz z' (List.mem_cons_of_mem z hz')))

theorem sendTree_two {t : TreeId} {x y : Nat} {last : Int} (h : k.TwoCodes .bl 1 18) (ht : k.TwoCodes t x y) (hlast : last = y)
    (hy : y < t.elems)
    (hz : ∀ z ∈ treeItems (twoLens x y) y, (z.sym = 1 ∨ z.sym = 18) ∧ z.extraBits ≤ 16 ∧ z.extra < 2 ^ z.extraBits) :
    Sends cap (sendTree cap k t last) ((treeItems (twoLens x y) y).flatMap BlItem.twoBits) := by
  subst hlast
  have hindex : (indexOf (y : Int) : Proc Packer Nat) = pure y := if_pos (by omega)
  have hrange : (require (decide (y < t.nodes)) : Proc Packer Unit) = pure () := if_pos (decide_eq_true (hy.trans t.elems_lt_nodes))
  unfold sendTree
  rw [hindex, pure_bind, hrange, pure_bind, ht.treeItems hy]
  exact sendItems_two hcap h _ hz

theorem sendBlLengths_sends {len : Nat → Nat} : ∀ syms : List Nat, (∀ n ∈ syms, len n < 8) →
    Sends cap (sendBlLengths cap len syms) (syms.flatMap fun n => lowBits (len n) 3)
  | [], _ => .nil
  | n :: syms, h => by
    rw [List.flatMap_cons]
    exact (sendBits_sends hcap (by decide) (h n List.mem_cons_self)).bind
      (sendBlLengths_sends syms fun m hm => h m (List.mem_cons_of_mem n hm))

/-- The lengths of the code-length code in `BL_ORDER`, up to that of the symbol 1 (R115). -/
theorem sendBlLengths_two (h : k.TwoCodes .bl 1 18) : Sends cap (sendBlLengths cap (k.tree .bl).lenOf (blOrder.take 18))
    ((blOrder.take 18).flatMap fun n => lowBits (twoLens 1 18 n) 3) := by
  have hlen : ∀ n ∈ blOrder.take 18, (k.tree .bl).lenOf n = twoLens 1 18 n :=
    fun n hn => h.lenOf ((show ∀ n ∈ blOrder.take 18, n < TreeId.bl.elems by decide) n hn)
  rw [List.flatMap_congr fun n hn => by rw [← hlen n hn]]
  refine sendBlLengths_sends hcap _ fun n hn => ?_
  rw [hlen n hn]
  unfold twoLens
  split <;> decide

/-- The trees of an empty block (R178). -/
theorem sendAllTrees_empty (h : k.EmptyTrees) : Sends cap (sendAllTrees cap k (k.maxCode .dynL + 1) (k.maxCode .dynD + 1) 18)
    (lowBits 0 5 ++ (lowBits 1 5 ++ (lowBits 14 4 ++ (((blOrder.take 18).flatMap fun n => lowBits (twoLens 1 18 n) 3)
      ++ ((treeItems (twoLens 0 256) 256).flatMap BlItem.twoBits ++ (treeItems (twoLens 0 1) 1).flatMap BlItem.twoBits))))) := by
  have hlit : k.maxCode .dynL = 256 := h.literals.maxCode
  have hdist : k.maxCode .dynD = 1 := h.distances.maxCode
  rw [hlit, hdist]
  refine (sendField_sends hcap (by rfl) (by decide) (by decide)).bind
    ((sendField_sends hcap (by rfl) (by decide) (by decide)).bind ((sendField_sends hcap (by rfl) (by decide) (by decide)).bind
      ((sendBlLengths_two hcap h.lengths).bind ((sendTree_two hcap h.lengths h.literals (by rfl) (by decide) ?_).bind
        (sendTree_two hcap h.lengths h.distances (by rfl) (by decide) ?_)))))
  · rw [treeItems_literals]
    decide
  · rw [treeItems_distances]
    decide

end Sends

/-- The bits of an empty dynamic block (R113 to R115). -/
def emptyDynamicBits (bfinal : Bool) : List Bool :=
  [bfinal, false, true] ++ lowBits 0 5 ++ lowBits 1 5 ++ lowBits 14 4 ++ lowBits 0 3 ++ lowBits 0 3 ++ lowBits 1 3
    ++ (List.replicate 14 (lowBits 0 3)).flatten ++ lowBits 1 3 ++ [false] ++ [true] ++ lowBits 127 7 ++ [true] ++ lowBits 106 7
    ++ [false] ++ [false, false] ++ [true]

theorem length_emptyDynamicBits (bfinal : Bool) : (emptyDynamicBits bfinal).length = 92 := by simp [emptyDynamicBits]

/-- The header, the trees and the end-of-block code, one after the other. -/
theorem emptyDynamicBits_eq (bfinal : Bool) : emptyDynamicBits bfinal = (bfinal :: lowBits BlockType.dynamic.btype 2)
    ++ (lowBits 0 5 ++ (lowBits 1 5 ++ (lowBits 14 4 ++ (((blOrder.take 18).flatMap fun n => lowBits (twoLens 1 18 n) 3)
      ++ ((treeItems (twoLens 0 256) 256).flatMap BlItem.twoBits ++ (treeItems (twoLens 0 1) 1).flatMap BlItem.twoBits))))
      ++ [true]) := by
  rw [treeItems_literals, treeItems_distances]
  cases bfinal <;> decide

/-- A dynamic block without a recorded symbol, with the trees just built (R239). -/
theorem dynamicBlock_empty {s : State} {bfinal : Bool} (ha : s.pk.AccumulatorOk) (hcap : s.conf.pendingBufSize ≤ 2 ^ 17)
    (hlit : s.cod.lastLit = 0#16) (htrees : s.cod.EmptyTrees) (hroom : s.pk.bits.length + 92 ≤ 8 * s.conf.pendingBufSize) :
    ∃ l, dynamicBlock bfinal 17 s = (.ok (), { s with pk := l, cod := s.cod.withEobLen 1#4 })
      ∧ s.pk.Sent l (emptyDynamicBits bfinal) := by
  have hlen : (s.cod.codeTable .dynL).len endBlock = 1 := htrees.literals.lenOf (by decide : endBlock < TreeId.dynL.elems)
  have hall := congrArg List.length (emptyDynamicBits_eq bfinal)
  rw [length_emptyDynamicBits, List.length_append, List.length_append] at hall
  obtain ⟨k1, h1, s1⟩ := sendHeader_sends hcap .dynamic bfinal s.pk ha (by omega)
  obtain ⟨k2, h2, s2⟩ := sendAllTrees_empty hcap htrees k1 s1.accumulator (by rw [s1.length]; omega)
  obtain ⟨k3, h3, s3⟩ := sendCode_right hcap htrees.literals (by decide) k2 s2.accumulator (by rw [s2.length, s1.length]; omega)
  refine ⟨k3, ?_, by rw [emptyDynamicBits_eq]; exact s1.trans (s2.trans s3)⟩
  have hsymbols : sendSymbols s.conf s.cod (s.cod.codeTable .dynL) (s.cod.codeTable .dynD) s.cod.lastLit.toNat 0 k2
      = (.ok (), k3) := by
    rw [hlit]
    exact h3
  unfold dynamicBlock compressBlock
  rw [get_bind_run, bind_ok (onPacker_ok h1), bind_ok (onPacker_ok h2), get_bind_run, bind_ok (onPacker_ok hsymbols), hlen]
  rfl

/-- Settles O35: the trees of the empty block have two symbols each (`buildTrees_empty`), so every code sent has one bit. -/
theorem blockDynamicEmptyEmits : Obligations.BlockDynamicEmptyEmits := by
  intro s bfinal hlive hconf hbound hacc hbusy hidle hfinal hsettled hlit hl hd hb hroom
  have h : s.BlockReady bfinal := ⟨hlive, hconf, hbound, hacc, hbusy, hidle, hfinal, hsettled⟩
  obtain ⟨-, -, -, -, -, -, -, hcap⟩ := hconf.toSizes.bounds
  have hv := hacc.1
  obtain ⟨c, hbuild, htrees, hkept⟩ := buildTrees_empty hl hd hb
  obtain ⟨k, hk, hsent⟩ := dynamicBlock_empty (s := { s.opened with cod := c }) (bfinal := bfinal) hacc hcap
    (hkept.trans hlit) htrees (by rw [Packer.length_bits]; simp; omega)
  have hemit : emitDynamic bfinal s.opened = (.ok (), s.emitted k (c.withEobLen 1#4)) := by
    have hrun : onCoder buildTrees s.opened = (.ok 17, { s.opened with cod := c }) := onCoder_ok hbuild
    unfold emitDynamic
    rw [bind_ok hrun]
    exact hk
  obtain ⟨l, t, ht, hdel, hl⟩ := h.closes hemit hsent (by
    rw [hsent.length, Packer.length_bits, length_emptyDynamicBits]; simp; omega)
  refine ⟨_, t, ht, hdel, rfl, rfl, rfl, hl.pendingOut, hl.bits.trans ?_⟩
  rw [length_emptyDynamicBits]
  simp only [emptyDynamicBits, List.append_assoc]

end Sys2Proof.Machine
end

section
/-! SUPPORT. The statements about the bit-packer (40_bitpacker.md): what `PutByte` (R141) answers in full, what `SendBits` (R144)
leaves in the accumulator, the whole bytes that `BiFlush` (R147) writes out; and the settled statements. -/

namespace Sys2Proof.Machine

open Proc

/-! `PutByte`. -/

theorem putByte_room {cap : Nat} {b : Byte} {k : Packer} (h : k.pending.toNat < cap) :
    putByte cap b k = (.ok (), { k with pendingBuf := k.pendingBuf.set k.pending.toNat b, pending := k.pending + 1#18 }) := by
  unfold putByte
  rw [get_bind_run, if_neg (by omega), set_run]

theorem putByte_full {cap : Nat} {b : Byte} {k : Packer} (h : cap ≤ k.pending.toNat) :
    putByte cap b k = (.error .fatal, k) := by
  unfold putByte
  rw [get_bind_run, if_pos h, raiseFatal_run]

/-- Settles O38: with room, and on a full pending buffer. -/
theorem putByteAppends : Obligations.PutByteAppends := fun _ _ _ => ⟨putByte_room, putByte_full⟩

/-! `SendBits`. -/

/-- A value with a bit at or above `length` violates the precondition of R144. -/
theorem sendBits_wide {cap value length : Nat} {k : Packer} (h0 : length ≠ 0) (hval : 2 ^ length ≤ value) :
    sendBits cap value length k = (.error .fatal, k) := by
  unfold sendBits
  rw [if_neg h0, if_pos (Or.inr hval), raiseFatal_run]

/-- What `SendBits` leaves in the accumulator: the bits it held and the new ones, without the 16 of a half word written out. -/
theorem sendBits_biValid {cap value length : Nat} {k l : Packer} (hk : k.AccumulatorOk) (h0 : length ≠ 0)
    (h : sendBits cap value length k = (.ok (), l)) :
    l.biValid.toNat = if 16 < k.biValid.toNat + length then k.biValid.toNat + length - 16 else k.biValid.toNat + length := by
  obtain ⟨hv, -⟩ := hk
  unfold sendBits at h
  rw [if_neg h0] at h
  split at h
  case isTrue => cases h
  case isFalse hpre =>
    rw [get_bind_run, ite_run] at h
    split at h
    case isTrue hfull =>
      rw [modify_bind_run] at h
      obtain ⟨_, m, -, h2⟩ := of_bind_ok h
      rw [modify_run] at h2
      cases h2
      rw [if_pos (by omega), BitVec.toNat_ofNat, Nat.mod_eq_of_lt (by omega)]
    case isFalse hfit =>
      rw [modify_run] at h
      cases h
      rw [if_neg (by omega), BitVec.toNat_ofNat, Nat.mod_eq_of_lt (by omega)]

/-- Settles O39: `sendBits_sent` says which bits are held, `sendBits_biValid` how many of them stay in the accumulator. -/
theorem sendBitsAppends : Obligations.SendBitsAppends := by
  intro cap value length k hk hlen hroom hcap
  refine ⟨fun hval => ?_, sendBits_wide⟩
  obtain ⟨l, hl, hs⟩ := sendBits_sent hk hlen hval (fun _ => hroom) hcap
  refine ⟨l, hl, hs.bits, hs.accumulator, fun h0 => ?_, fun h0 => ?_, hs.pendingOut⟩
  · subst h0
    cases hl
    rfl
  · rw [sendBits_biValid hk h0 hl]
    split <;> omega

/-! `BiFlush`. -/

/-- `BiFlush` (R147): the same bits, at most 7 of them in the accumulator. -/
theorem biFlush_sent {cap : Nat} {k : Packer} (hk : k.AccumulatorOk)
    (hroom : 8 * k.pending.toNat + k.biValid.toNat ≤ 8 * cap) (hcap : cap ≤ 2 ^ 17) :
    ∃ l, biFlush cap k = (.ok (), l) ∧ k.Sent l [] ∧ l.biValid.toNat ≤ 7 := by
  suffices h : ∃ l, biFlush cap k = (.ok (), l) ∧ l.bits = k.bits ∧ l.biValid.toNat ≤ 7 ∧ l.pendingOut = k.pendingOut
      ∧ k.pending.toNat ≤ l.pending.toNat by
    obtain ⟨l, hl, hbits, h7, hout, hpend⟩ := h
    exact ⟨l, hl, ⟨by rw [hbits, List.append_nil], biFlush_accumulator cap k () l hl hk, hout, hpend⟩, h7⟩
  obtain ⟨hv, -⟩ := hk
  unfold biFlush
  rw [get_bind_run]
  split
  case isTrue h16 =>
    obtain ⟨l, hl, hg⟩ := putShort_grew (w := k.biBuf) (k := k) (cap := cap) (by omega) hcap
    rw [bind_ok hl, modify_run]
    refine ⟨_, rfl, ?_, by simp, hg.pendingOut, by rw [hg.pending]; exact Nat.le_add_right _ _⟩
    show l.byteBits ++ [] = k.bits
    rw [List.append_nil, hg.byteBits, Packer.bits_eq, h16]
  case isFalse h16 =>
    split
    case isTrue h8 =>
      obtain ⟨l, hl, hg⟩ := putByte_grew (b := k.biBuf.extractLsb' 0 8) (k := k) (cap := cap) (by omega) hcap
      have hsub : (l.biValid - 8#5).toNat = k.biValid.toNat - 8 := by rw [hg.biValid]; bv_omega
      rw [bind_ok hl, modify_run]
      refine ⟨_, rfl, ?_, by show (l.biValid - 8#5).toNat ≤ 7; omega, hg.pendingOut,
        by rw [hg.pending]; exact Nat.le_add_right _ _⟩
      show l.byteBits ++ lowBits (l.biBuf >>> 8).toNat (l.biValid - 8#5).toNat = _
      rw [hsub, hg.byteBits, hg.biBuf, lowBits_extract, Nat.shiftRight_zero, List.append_assoc, BitVec.toNat_ushiftRight,
        ← lowBits_split (n := k.biValid.toNat) (a := 8) _ (by omega), ← Packer.bits_eq]
    case isFalse h8 => exact ⟨k, rfl, rfl, by omega, rfl, le_rfl⟩

/-- Settles O40: nothing is sent, and at most 7 bits stay in the accumulator (`biFlush_sent`). -/
theorem biFlushKeepsBits : Obligations.BiFlushKeepsBits := by
  intro cap k ⟨hv, hb⟩ hroom hcap
  obtain ⟨l, hl, hs, h7⟩ := biFlush_sent ⟨hv, hb⟩ (by omega) hcap
  exact ⟨l, hl, by rw [hs.bits, List.append_nil], h7, hs.accumulator, hs.pendingOut⟩

/-! `BiWindup`. -/

/-- By the invariant of R140 an accumulator that holds no bit is 0. -/
theorem Packer.AccumulatorOk.biBuf_eq_zero {k : Packer} (h : k.AccumulatorOk) (h0 : k.biValid = 0#5) : k.biBuf = 0#16 := by
  obtain ⟨-, hb⟩ := h
  rw [h0] at hb
  exact BitVec.eq_of_toNat_eq (Nat.lt_one_iff.1 hb)

/-- Settles O41: zero bits are sent (`biWindup_sent`), and the accumulator left empty is 0. -/
theorem biWindupPads : Obligations.BiWindupPads := by
  intro cap k ⟨hv, hb⟩ hroom hcap
  obtain ⟨l, hl, hs, h0⟩ := biWindup_sent ⟨hv, hb⟩ (by omega) hcap
  exact ⟨l, hl, hs.bits, hs.accumulator.biBuf_eq_zero h0, h0, hs.pendingOut⟩

end Sys2Proof.Machine
end

section
/-! SUPPORT. The run-length coding of the code lengths (R175, R176) against its reading (R114): what each code-length symbol stands
for behind the lengths already read, what the symbols of one run stand for, the walk over all runs; and the settled statement. -/

namespace Sys2Proof.Machine

/-- A code-length symbol carries the extra bits that R114 gives it, and a value that fits them. -/
def BlItem.Fits (x : BlItem) : Prop := x.extraBits = tableAt extraBlBits x.sym ∧ x.extra < 2 ^ x.extraBits

/-- Read behind the lengths `before`, the code-length symbols `xs` stand for the lengths `ls` (R114), and every one fits. -/
def Spells (xs : List BlItem) (before ls : List Nat) : Prop :=
  expandItems xs before = some (before ++ ls) ∧ ∀ x ∈ xs, x.Fits

theorem expandItems_append (ys : List BlItem) : ∀ (xs : List BlItem) (before : List Nat),
    expandItems (xs ++ ys) before = (expandItems xs before).bind (expandItems ys)
  | [], _ => rfl
  | x :: xs, before => by
    simp only [List.cons_append, expandItems, expandItems_append ys xs]
    split_ifs
    · rfl
    · cases before.getLast? <;> rfl
    · rfl
    · rfl
    · rfl

namespace Spells

variable {before ls ms : List Nat} {xs ys : List BlItem}

theorem nil : Spells [] before [] := ⟨by rw [List.append_nil]; rfl, by simp⟩

theorem append (hx : Spells xs before ls) (hy : Spells ys (before ++ ls) ms) : Spells (xs ++ ys) before (ls ++ ms) := by
  refine ⟨?_, fun z hz => (List.mem_append.1 hz).elim (hx.2 z) (hy.2 z)⟩
  rw [expandItems_append, hx.1, Option.bind_some, hy.1, List.append_assoc]

/-- A length on its own. -/
theorem literal {v : Nat} (hv : v ≤ 15) : Spells [⟨v, 0, 0⟩] before [v] := by
  refine ⟨by simp [expandItems, hv], ?_⟩
  have hbits : ∀ v, v ≤ 15 → tableAt extraBlBits v = 0 := by decide
  simp [BlItem.Fits, hbits v hv]

theorem literals {v : Nat} (hv : v ≤ 15) : ∀ (n : Nat) (before : List Nat),
    Spells (List.replicate n ⟨v, 0, 0⟩) before (List.replicate n v)
  | 0, _ => nil
  | n + 1, before => (literal hv).append (literals hv n (before ++ [v]))

/-- The last length again, three to six times. -/
theorem repeatLast {v e : Nat} (hlast : before.getLast? = some v) (he : e < 4) :
    Spells [⟨rep36, e, 2⟩] before (List.replicate (3 + e) v) :=
  ⟨by simp [expandItems, rep36, hlast], by simpa [BlItem.Fits, rep36, tableAt, extraBlBits] using he⟩

/-- A length, and the same again three to six times. -/
theorem literalRepeat {v e : Nat} (hv : v ≤ 15) (he : e < 4) :
    Spells [⟨v, 0, 0⟩, ⟨rep36, e, 2⟩] before (List.replicate (4 + e) v) := by
  rw [show 4 + e = 3 + e + 1 by omega]
  exact (literal hv).append (repeatLast List.getLast?_concat he)

/-- Three to ten zeros. -/
theorem zeros {e : Nat} (he : e < 8) : Spells [⟨repz310, e, 3⟩] before (List.replicate (3 + e) 0) :=
  ⟨by simp [expandItems, repz310], by simpa [BlItem.Fits, repz310, tableAt, extraBlBits] using he⟩

/-- Eleven to 138 zeros. -/
theorem manyZeros {e : Nat} (he : e < 128) : Spells [⟨repz11138, e, 7⟩] before (List.replicate (11 + e) 0) :=
  ⟨by simp [expandItems, repz11138], by simpa [BlItem.Fits, repz11138, tableAt, extraBlBits] using he⟩

end Spells

/-! One run. -/

/-- The longest run of `cur` that one group of symbols can stand for, behind the length `prev` (R175). -/
def runMax (prev : Option Nat) (cur : Nat) : Nat := if cur = 0 then 138 else if prev = some cur then 6 else 7

/-- The shortest run of `cur` that is not written length by length, behind the length `prev` (R175). -/
def runMin (prev : Option Nat) (cur : Nat) : Nat := if cur = 0 then 3 else if prev = some cur then 3 else 4

/-- The four actions of R175 on a run that fits its group. -/
theorem runItems_spells {before : List Nat} {cur count : Nat} (hcur : cur ≤ 15) (hmax : count ≤ runMax before.getLast? cur) :
    Spells (runItems cur count (runMin before.getLast? cur) (decide (before.getLast? ≠ some cur))) before
      (List.replicate count cur) := by
  unfold runItems
  unfold runMax at hmax
  unfold runMin
  by_cases hshort : count < if cur = 0 then 3 else if before.getLast? = some cur then 3 else 4
  · rw [if_pos hshort]
    exact .literals hcur count before
  rw [if_neg hshort]
  by_cases hzero : cur = 0
  · subst hzero
    rw [if_neg (not_not.2 rfl)]
    rw [if_pos rfl] at hmax hshort
    split
    · have h := Spells.zeros (before := before) (e := count - 3) (by omega)
      rwa [Nat.add_sub_cancel' (by omega)] at h
    · have h := Spells.manyZeros (before := before) (e := count - 11) (by omega)
      rwa [Nat.add_sub_cancel' (by omega)] at h
  rw [if_neg hzero] at hmax hshort
  rw [if_pos hzero]
  by_cases hlast : before.getLast? = some cur
  · rw [if_pos hlast] at hmax hshort
    have h := Spells.repeatLast (e := count - 3) hlast (by omega)
    rw [Nat.add_sub_cancel' (by omega)] at h
    simpa [hlast] using h
  · rw [if_neg hlast] at hmax hshort
    have h := Spells.literalRepeat (before := before) (e := count - 1 - 3) hcur (by omega)
    rw [show 4 + (count - 1 - 3) = count by omega] at h
    simpa [hlast] using h

/-! The walk over all runs. -/

/-- The walk with `count` lengths `cur` still to be written and `r` lengths still to be read, the first of them `cur` too: the
limits are those of `cur` behind the last length written. -/
theorem walkRuns_spells {len : Nat → Nat} {last : Nat} (hlen : ∀ n, n ≤ last → len n ≤ 15) :
    ∀ (r n cur count : Nat) (before : List Nat), n + r = last + 1 → (r = 0 → count = 0) → (r ≠ 0 → cur = len n) →
      count < runMax before.getLast? cur →
      Spells (walkRuns len last r n before.getLast? cur count (runMax before.getLast? cur) (runMin before.getLast? cur)) before
        (List.replicate count cur ++ (List.range' n r).map len)
  | 0, n, cur, count, before, _, h0, _, _ => by
    rw [h0 rfl]
    exact .nil
  | r + 1, n, cur, count, before, hn, _, hcur, hcount => by
    obtain rfl := hcur (by omega)
    have hle : len n ≤ 15 := hlen n (by omega)
    have hsome : r ≠ 0 → (if n < last then len (n + 1) else lenGuard) = len (n + 1) := fun _ => if_pos (by omega)
    have hnone : r = 0 → (if n < last then len (n + 1) else lenGuard) ≠ len n := fun _ => by
      rw [if_neg (by omega), lenGuard]
      omega
    have hsum : List.replicate count (len n) ++ (List.range' n (r + 1)).map len
        = List.replicate (count + 1) (len n) ++ (List.range' (n + 1) r).map len := by
      rw [List.range'_succ, List.map_cons, List.replicate_succ', List.append_assoc, List.singleton_append]
    rw [hsum, walkRuns]
    dsimp only
    generalize (if n < last then len (n + 1) else lenGuard) = next at hsome hnone ⊢
    split
    case isTrue hgo =>
      obtain ⟨hlt, rfl⟩ := hgo
      exact walkRuns_spells hlen r (n + 1) _ _ before (by omega) (fun hr => absurd rfl (hnone hr)) hsome hlt
    case isFalse =>
      have hlast : (before ++ List.replicate (count + 1) (len n)).getLast? = some (len n) := by
        rw [List.replicate_succ', ← List.append_assoc, List.getLast?_concat]
      have hrest := walkRuns_spells hlen r (n + 1) next 0 (before ++ List.replicate (count + 1) (len n)) (by omega)
        (fun _ => rfl) hsome (by unfold runMax; split_ifs <;> decide)
      rw [hlast] at hrest
      rw [List.replicate_zero, List.nil_append] at hrest
      simpa only [runMax, runMin, Option.some.injEq] using (runItems_spells hle hcount).append hrest

theorem treeItems_spells {len : Nat → Nat} {maxCode : Nat} (hlen : ∀ n, n ≤ maxCode → len n ≤ 15) :
    Spells (treeItems len maxCode) [] ((List.range (maxCode + 1)).map len) := by
  rw [List.range_eq_range']
  exact walkRuns_spells hlen (maxCode + 1) 0 (len 0) 0 [] (by omega) (by omega) (fun _ => rfl)
    (by unfold runMax; split_ifs <;> decide)

/-- Settles O49, by induction over the walk: before every step the limits are those of the current length behind the last one
written. -/
theorem treeItemsExpandToLengths : Obligations.TreeItemsExpandToLengths := fun _ _ hlen => treeItems_spells hlen

end Sys2Proof.Machine
end

section
/-! SUPPORT. Canonical codes (R170, R172): the starting code of every length as `GenCodes` computes it, the codes in symbol order,
that no code begins another; the statistics of a new block (R161); and the settled statements. -/

namespace Sys2Proof.Machine

open Proc

/-! Bit reversal and the statistics of a new block. -/

/-- Settles O44, by induction on the length in the lemma about the loop of `BiReverse`. -/
theorem biReverseBits : Obligations.BiReverseBits := testBit_biReverse

theorem initBlock_dynL_freq (k : Coder) : k.initBlock.dynL.freq = (k.dynL.freq.clearBelow lCodes).set endBlock 1#16 := by
  rw [Coder.initBlock]

theorem initBlock_dynD_freq (k : Coder) : k.initBlock.dynD.freq = k.dynD.freq.clearBelow dCodes := rfl

theorem initBlock_bl_freq (k : Coder) : k.initBlock.bl.freq = k.bl.freq.clearBelow blCodes := rfl

/-- Settles O45: the tables are cleared up to their sizes, and then symbol 256 is counted once. -/
theorem initBlockStatistics : Obligations.InitBlockStatistics := by
  intro k
  refine ⟨fun n hn => ?_, fun n hn => ?_, fun n hn => ?_, rfl, rfl, rfl, rfl, rfl, rfl, rfl, rfl, rfl, rfl⟩
  all_goals have hram : n < 2 ^ ramBits := hn.trans (by decide)
  · have hclear := Ram.get_clearBelow k.dynL.freq lCodes hram
    rw [if_pos (show n < lCodes from hn)] at hclear
    rw [initBlock_dynL_freq, Ram.get_set (by decide) hram, hclear, endBlock]
  · rw [initBlock_dynD_freq, Ram.get_clearBelow _ _ hram]
    exact if_pos hn
  · rw [initBlock_bl_freq, Ram.get_clearBelow _ _ hram]
    exact if_pos hn

/-! How many symbols have a length. -/

theorem lengthCount_zero (len : Nat → Nat) (b : Nat) : lengthCount len 0 b = 0 := rfl

theorem lengthCount_succ (len : Nat → Nat) (N b : Nat) :
    lengthCount len (N + 1) b = lengthCount len N b + if len N = b then 1 else 0 := by
  unfold lengthCount
  rw [List.range_succ, List.filter_append, List.length_append]
  split_ifs with h <;> simp [h]

theorem lengthCount_mono (len : Nat → Nat) (b : Nat) : Monotone fun N => lengthCount len N b :=
  monotone_nat_of_le_succ fun N => (lengthCount_succ len N b).symm ▸ Nat.le_add_right _ _

/-- A symbol's rank among those of its length grows with the symbol. -/
theorem lengthCount_lt (len : Nat → Nat) {n N : Nat} (h : n < N) : lengthCount len n (len n) < lengthCount len N (len n) := by
  have hstep := lengthCount_succ len n (len n)
  rw [if_pos rfl] at hstep
  exact (Nat.lt_of_lt_of_eq (Nat.lt_succ_self _) hstep.symm).trans_le (lengthCount_mono len (len n) h)

/-! The starting codes. -/

theorem startCode_succ (len : Nat → Nat) (N b : Nat) :
    startCode len (N + 1) b = startCode len N b + if 0 < len N ∧ len N < b then 2 ^ (b - len N) else 0 := by
  simp [startCode, List.range_succ]

/-- Every starting code is twice the end of the codes one bit shorter (R170). -/
theorem startCode_next (len : Nat → Nat) {b : Nat} (hb : b ≠ 0) : ∀ N,
    startCode len N (b + 1) = 2 * (startCode len N b + lengthCount len N b)
  | 0 => rfl
  | N + 1 => by
    rw [startCode_succ, startCode_succ, lengthCount_succ, startCode_next len hb N]
    rcases lt_trichotomy (len N) b with h | h | h
    · rw [if_neg h.ne]
      by_cases h0 : 0 < len N
      · rw [if_pos ⟨h0, by omega⟩, if_pos ⟨h0, h⟩, Nat.sub_add_comm h.le, Nat.pow_succ]
        omega
      · rw [if_neg (by omega), if_neg (by omega)]
        rfl
    · rw [if_pos h, if_pos (by omega), if_neg (by omega), h, Nat.add_sub_cancel_left]
      omega
    · rw [if_neg h.ne', if_neg (by omega), if_neg (by omega)]
      omega

/-- No code has fewer than one bit, so the codes of one bit start at 0. -/
theorem startCode_of_le_one (len : Nat → Nat) {b : Nat} (hb : b ≤ 1) : ∀ N, startCode len N b = 0
  | 0 => rfl
  | N + 1 => by rw [startCode_succ, startCode_of_le_one len hb N, if_neg (by omega)]

/-- The share of the codes shorter than `b` bits is that of the Kraft sum at most. -/
theorem startCode_mul_le (len : Nat → Nat) (b : Nat) : ∀ N, (∀ n, n < N → len n ≤ 15) →
    startCode len N b * 2 ^ 15 ≤ 2 ^ b * ((List.range N).map fun n => if len n = 0 then 0 else 2 ^ (15 - len n)).sum
  | 0, _ => by simp [startCode]
  | N + 1, h => by
    have hrest := startCode_mul_le len b N fun n hn => h n (by omega)
    have hN := h N (by omega)
    rw [startCode_succ, List.range_succ, List.map_append, List.sum_append, Nat.add_mul, Nat.mul_add]
    refine Nat.add_le_add hrest ?_
    simp only [List.map_cons, List.map_nil, List.sum_singleton]
    by_cases hb : 0 < len N ∧ len N < b
    · rw [if_pos hb, if_neg hb.1.ne', ← Nat.pow_add, ← Nat.pow_add]
      exact Nat.pow_le_pow_right (by decide) (by omega)
    · rw [if_neg hb, Nat.zero_mul]
      exact Nat.zero_le _

section Canonical

variable {len : Nat → Nat} {N : Nat}

theorem startCode_le (hlen : ∀ n, n < N → len n ≤ 15) (hk : kraftFits len N) (b : Nat) : startCode len N b ≤ 2 ^ b :=
  Nat.le_of_mul_le_mul_right ((startCode_mul_le len b N hlen).trans (Nat.mul_le_mul_left _ hk)) (by decide)

/-- The codes of `b` bits end within `b` bits. -/
theorem endCode_le (hlen : ∀ n, n < N → len n ≤ 15) (hk : kraftFits len N) {b : Nat} (hb : b ≠ 0) :
    startCode len N b + lengthCount len N b ≤ 2 ^ b := by
  have h := startCode_le hlen hk (b + 1)
  rw [startCode_next len hb, Nat.pow_succ] at h
  omega

/-- A symbol's code comes before the end of the codes of its length. -/
theorem canonicalCode_lt_end {n : Nat} (hn : n < N) :
    canonicalCode len N n < startCode len N (len n) + lengthCount len N (len n) :=
  Nat.add_lt_add_left (lengthCount_lt len hn) _

theorem canonicalCode_lt (hlen : ∀ n, n < N → len n ≤ 15) (hk : kraftFits len N) {n : Nat} (hn : n < N) (h0 : len n ≠ 0) :
    canonicalCode len N n < 2 ^ len n := (canonicalCode_lt_end hn).trans_le (endCode_le hlen hk h0)

/-- The codes of more bits start behind all extensions of the codes of `b` bits. -/
theorem endCode_shift_le (len : Nat → Nat) (N : Nat) {b : Nat} (hb : b ≠ 0) : ∀ d,
    (startCode len N b + lengthCount len N b) * 2 ^ (d + 1) ≤ startCode len N (b + (d + 1))
  | 0 => by rw [startCode_next len hb, Nat.mul_comm, Nat.zero_add, pow_one]
  | d + 1 => by
    rw [← Nat.add_assoc b, startCode_next len (by omega), Nat.pow_succ, ← Nat.mul_assoc, Nat.mul_comm]
    exact Nat.mul_le_mul_left 2 ((endCode_shift_le len N hb d).trans (Nat.le_add_right _ _))

/-- No canonical code is another one without its low bits. -/
theorem canonicalCode_prefixFree {m n : Nat} (hm : m < N) (hne : m ≠ n) (h0 : len m ≠ 0)
    (hle : len m ≤ len n) : canonicalCode len N n >>> (len n - len m) ≠ canonicalCode len N m := by
  rcases hle.eq_or_lt with heq | hlt
  · rw [← heq, Nat.sub_self, Nat.shiftRight_zero]
    unfold canonicalCode
    rw [← heq]
    rcases Nat.lt_or_gt_of_ne hne with h | h
    · have hrank := lengthCount_lt len h
      omega
    · have hrank := lengthCount_lt len h
      rw [← heq] at hrank
      omega
  · obtain ⟨d, hd⟩ := Nat.exists_eq_add_of_lt hlt
    have hstart : canonicalCode len N n ≥ startCode len N (len n) := Nat.le_add_right _ _
    have hend := endCode_shift_le len N h0 d
    rw [← Nat.add_assoc, ← hd] at hend
    have hdiv := (Nat.le_div_iff_mul_le (Nat.two_pow_pos (d + 1))).2 (hend.trans hstart)
    rw [show len n - len m = d + 1 by omega, Nat.shiftRight_eq_div_pow]
    exact ((canonicalCode_lt_end hm).trans_le hdiv).ne'

/-- No canonical code, stored bit-reversed, begins another (R180). -/
theorem not_beginsCode_canonicalCode (hlen : ∀ n, n < N → len n ≤ 15) (hk : kraftFits len N) {m n : Nat} (hm : m < N)
    (hn : n < N) (hne : m ≠ n) (hm0 : len m ≠ 0) (hn0 : len n ≠ 0) :
    ¬ beginsCode (biReverse (canonicalCode len N m) (len m)) (len m) (biReverse (canonicalCode len N n) (len n)) (len n) := by
  intro h
  obtain ⟨hle, heq⟩ := shiftRight_eq_of_beginsCode (canonicalCode_lt hlen hk hm hm0) (canonicalCode_lt hlen hk hn hn0) h
  exact canonicalCode_prefixFree hm hne hm0 hle heq

end Canonical

/-! `GenCodes`. -/

section Builds

variable {t : TreeId} {b : Builder} {len : Nat → Nat} {N : Nat}

/-- What `GenCodes` starts from: the lengths of the first `N` symbols, at most 15, counted in `blCount`, and fitting a code. -/
structure Builder.Counted (b : Builder) (len : Nat → Nat) (N : Nat) : Prop where
  len_eq : ∀ n, n < N → (b.tree.len.get n).toNat = len n
  len_le : ∀ n, n < N → len n ≤ 15
  count_zero : (b.blCount.get 0).toNat = 0
  count : ∀ l, 1 ≤ l → l ≤ 15 → (b.blCount.get l).toNat = lengthCount len N l
  kraft : kraftFits len N

theorem Builder.Counted.congr {b' : Builder} (h : b.Counted len N) (hlen : b'.tree.len = b.tree.len)
    (hcount : b'.blCount = b.blCount) : b'.Counted len N :=
  ⟨hlen ▸ h.len_eq, h.len_le, hcount ▸ h.count_zero, hcount ▸ h.count, h.kraft⟩

/-- One turn of the loop over the lengths computes the next starting code. -/
theorem Builder.Counted.next_start (h : b.Counted len N) {l : Nat} (hl : l < 15) :
    ((startCode len N l + (b.blCount.get l).toNat) <<< 1) % 65536 = startCode len N (l + 1) := by
  have hle := startCode_le h.len_le h.kraft (l + 1)
  have hpow : 2 ^ (l + 1) ≤ 2 ^ 15 := Nat.pow_le_pow_right (by decide) hl
  rw [Nat.shiftLeft_eq, pow_one, Nat.mul_comm]
  rcases Nat.eq_zero_or_pos l with rfl | hpos
  · rw [h.count_zero, startCode_of_le_one len (by decide), startCode_of_le_one len (by decide)]
  · rw [h.count l hpos hl.le, ← startCode_next len hpos.ne']
    exact Nat.mod_eq_of_lt (by omega)

/-- The loop over the lengths leaves every starting code in `nextCode`. -/
theorem startCodes_canonical : ∀ (r l : Nat) (b : Builder), b.Counted len N → l + r = 15 →
    (∀ i, 1 ≤ i → i ≤ l → (b.nextCode.get i).toNat = startCode len N i) →
    BuildsTo t (startCodes r (l + 1) (startCode len N l)) b fun _ b' => ∃ m, b' = { b with nextCode := m } ∧
      ∀ i, 1 ≤ i → i ≤ 15 → (m.get i).toNat = startCode len N i
  | 0, l, b, _, hl, hstart => (Builds.pure ()).to ⟨_, rfl, fun i h1 h15 => hstart i h1 (by omega)⟩
  | r + 1, l, b, h, hl, hstart => by
    refine (getBlCount_builds (show l + 1 - 1 < 16 by omega)).andThen ?_
    rw [Nat.add_sub_cancel, h.next_start (by omega)]
    have hstored : (BitVec.ofNat 16 (startCode len N (l + 1))).toNat = startCode len N (l + 1) := by
      rw [BitVec.toNat_ofNat, ← h.next_start (show l < 15 by omega), Nat.mod_mod]
    refine (setNextCode_builds (by omega) _).andThen
      ((startCodes_canonical r (l + 1) _ (by exact h.congr rfl rfl) (by omega) ?_).mono ?_)
    · intro i h1 hi
      dsimp only
      have hram {j : Nat} (hj : j ≤ l + 1) : j < 2 ^ ramBits := lt_trans (show j < 16 by omega) (by decide)
      rw [Ram.get_set (hram le_rfl) (hram hi)]
      split_ifs with hlast
      · rw [hlast, hstored]
      · exact hstart i h1 (by omega)
    · rintro - - ⟨m, rfl, hm⟩
      exact ⟨m, rfl, hm⟩

/-- The walk over the symbols has reached symbol `i`: `nextCode` holds the next code of every length, the symbols before `i`
have their codes, and every other entry is that of `code`. -/
structure Builder.Assigned (b : Builder) (len : Nat → Nat) (N : Nat) (code : Ram 16) (i : Nat) : Prop where
  next : ∀ l, 1 ≤ l → l ≤ 15 → (b.nextCode.get l).toNat = startCode len N l + lengthCount len i l
  assigned : ∀ n, n < i → len n ≠ 0 → (b.tree.code.get n).toNat = biReverse (canonicalCode len N n) (len n)
  kept : ∀ n, n < N → (i ≤ n ∨ len n = 0) → b.tree.code.get n = code.get n

/-- A symbol of the length 0 gets no code. -/
theorem assignCode_unused {n : Nat} (hn : n < t.nodes) (hl : (b.tree.len.get n).toNat = 0) : Builds t (assignCode t n) b () b :=
  (getLen_builds hn).bind (.ite_true hl (.pure ()))

/-- A symbol of another length gets the next code of its length, stored bit-reversed. -/
theorem assignCode_used {n l : Nat} (hn : n < t.nodes) (hl : (b.tree.len.get n).toNat = l) (h0 : l ≠ 0) (h16 : l < 16) :
    Builds t (assignCode t n) b ()
      { b with
        tree := { b.tree with code := b.tree.code.set n (BitVec.ofNat 16 (biReverse (b.nextCode.get l).toNat l)) }
        nextCode := b.nextCode.set l (BitVec.ofNat 16 ((b.nextCode.get l).toNat + 1)) } := by
  subst hl
  exact (getLen_builds hn).bind (.ite_false h0
    ((getNextCode_builds h16).bind ((setCode_builds hn _).bind (setNextCode_builds h16 _))))

/-- One symbol of the walk. -/
theorem Builder.Assigned.step {code : Ram 16} {i : Nat} (h : b.Assigned len N code i) (hc : b.Counted len N) (hi : i < N)
    (hN : N ≤ t.nodes) :
    BuildsTo t (assignCode t i) b fun _ b' => b'.Assigned len N code (i + 1) ∧
      ∃ c m, b' = { b with tree := { b.tree with code := c }, nextCode := m } := by
  have hlen := hc.len_eq i hi
  by_cases h0 : len i = 0
  · refine (assignCode_unused (hi.trans_le hN) (hlen.trans h0)).to ⟨⟨fun l h1 h15 => ?_, fun n hn hl => ?_, fun n hn hl => ?_⟩,
      _, _, rfl⟩
    · rw [lengthCount_succ, if_neg (by omega), h.next l h1 h15, Nat.add_zero]
    · exact h.assigned n (lt_of_le_of_ne (by omega) (by rintro rfl; exact hl h0)) hl
    · exact h.kept n hn (by omega)
  have hle := hc.len_le i hi
  have hnext : (b.nextCode.get (len i)).toNat = canonicalCode len N i := h.next (len i) (by omega) hle
  have hcode := canonicalCode_lt hc.len_le hc.kraft hi h0
  have hpow : 2 ^ len i ≤ 2 ^ 15 := Nat.pow_le_pow_right (by decide) hle
  have hram {n : Nat} (hn : n < N) : n < 2 ^ ramBits := TreeId.lt_ram (hn.trans_le hN)
  have hram' {l : Nat} (hl : l ≤ 15) : l < 2 ^ ramBits := lt_of_le_of_lt hl (by decide)
  refine (assignCode_used (hi.trans_le hN) hlen h0 (by omega)).to ⟨⟨fun l h1 h15 => ?_, fun n hn hl => ?_, fun n hn hl => ?_⟩,
    _, _, rfl⟩
  all_goals dsimp only
  · rw [Ram.get_set (hram' hle) (hram' h15), lengthCount_succ]
    split_ifs with hl hl' hl'
    · rw [hnext, BitVec.toNat_ofNat, Nat.mod_eq_of_lt (by omega), hl, canonicalCode, Nat.add_assoc]
    · exact absurd hl.symm hl'
    · exact absurd hl'.symm hl
    · exact h.next l h1 h15
  · rw [Ram.get_set (hram hi) (hram (by omega))]
    split_ifs with hni
    · have hrev := biReverse_lt (canonicalCode len N i) (len i)
      rw [hnext, hni, BitVec.toNat_ofNat, Nat.mod_eq_of_lt (by omega)]
    · exact h.assigned n (by omega) hl
  · rw [Ram.get_set (hram hi) (hram hn), if_neg (by rintro rfl; omega)]
    exact h.kept n hn (by omega)

/-- The walk over all symbols. -/
theorem assignCodes_canonical {code : Ram 16} (hN : N ≤ t.nodes) : ∀ (r i : Nat) (b : Builder), i + r = N → b.Counted len N →
    b.Assigned len N code i →
    BuildsTo t (forCount (assignCode t) r i) b fun _ b' => b'.Assigned len N code N ∧
      ∃ c m, b' = { b with tree := { b.tree with code := c }, nextCode := m }
  | 0, i, b, hi, _, h => (Builds.pure ()).to ⟨hi ▸ h, _, _, rfl⟩
  | r + 1, i, b, hi, hc, h => by
    refine (h.step hc (by omega) hN).bind ?_
    rintro - - ⟨h', c, m, rfl⟩
    refine (assignCodes_canonical hN r (i + 1) _ (by omega) (by exact hc.congr rfl rfl) h').mono ?_
    rintro - - ⟨hN', c', m', rfl⟩
    exact ⟨hN', c', m', rfl⟩

/-- `GenCodes` gives every symbol its canonical code and changes the codes and `nextCode` only (R170). -/
theorem genCodes_canonical (hc : b.Counted len N) (hmax : b.maxCode.toInt + 1 = N) (hN : N ≤ t.nodes) :
    BuildsTo t (genCodes t) b fun _ b' => b'.Assigned len N b.tree.code N ∧
      ∃ c m, b' = { b with tree := { b.tree with code := c }, nextCode := m } := by
  have hstart : BuildsTo t (startCodes maxBits 1 0) b fun _ b' => ∃ m, b' = { b with nextCode := m } ∧
      ∀ i, 1 ≤ i → i ≤ 15 → (m.get i).toNat = startCode len N i := by
    have h := startCodes_canonical (t := t) 15 0 b hc rfl (by omega)
    rwa [startCode_of_le_one len (by decide)] at h
  refine hstart.bind ?_
  rintro - - ⟨m, rfl, hm⟩
  refine .get_bind fun k => ?_
  rw [withBuilder_maxCode]
  dsimp only
  rw [hmax, Int.toNat_natCast]
  have hfirst : Builder.Assigned { b with nextCode := m } len N b.tree.code 0 :=
    ⟨fun l h1 h15 => by rw [lengthCount_zero]; exact hm l h1 h15, fun n hn => absurd hn n.not_lt_zero, fun _ _ _ => rfl⟩
  refine (assignCodes_canonical hN N 0 _ (Nat.zero_add N) (by exact hc.congr rfl rfl) hfirst).mono ?_
  rintro - - ⟨h, c, m', rfl⟩
  exact ⟨h, c, m', rfl⟩

end Builds

theorem Coder.builder_maxCode (k : Coder) (t : TreeId) : (k.builder t).maxCode.toInt = k.maxCode t := by cases t <;> rfl

/-- A change of a tree's codes and of `nextCode` only, as a change of the coder. -/
theorem withBuilder_codes {k l : Coder} {t : TreeId} {c m : Ram 16}
    (hl : l = k.withBuilder t { k.builder t with tree := { (k.builder t).tree with code := c }, nextCode := m }) :
    l = { k.setTree t { k.tree t with code := (l.tree t).code } with nextCode := l.nextCode } := by
  subst hl
  cases t <;> rfl

/-- Settles O48: the walk over the symbols keeps `Builder.Assigned`, and that no code begins another follows from the
closed form of the canonical codes. -/
theorem genCodesCanonical : Obligations.GenCodesCanonical := by
  intro t k N len hlenOf hmax hN hlen hzero hcount hk
  have hc : (k.builder t).Counted len N := ⟨fun n _ => (congrFun hlenOf n).symm, hlen, hzero, hcount, hk⟩
  obtain ⟨_, _, hrun, h, c, m, rfl⟩ := (genCodes_canonical hc ((k.builder_maxCode t).symm ▸ hmax)
    (hN.trans t.elems_lt_nodes.le)).run
  refine ⟨_, hrun, ?_, fun n hn h0 => ⟨?_, canonicalCode_lt hlen hk hn h0⟩, fun n hn h0 => ?_, fun m n hm hn hne hm0 hn0 => ?_⟩
  · exact withBuilder_codes rfl
  all_goals rw [withBuilder_tree]
  · exact h.assigned n hn h0
  · exact h.kept n hn (.inr h0)
  · rw [h.assigned m hm hm0, h.assigned n hn hn0]
    exact not_beginsCode_canonicalCode hlen hk hm hn hne hm0 hn0

end Sys2Proof.Machine
end

section
/-! SUPPORT. What the match finder's procedures do, as equations and inversions: the hash (R201), `Slide` (R206), `InsertString`
(R202) and the search along a hash chain (R210); and the settled statements about the match finder. -/

namespace Sys2Proof.Machine

open Proc

/-! The hash (R201). -/

/-- The hash mask keeps the low `hashBits` bits. -/
theorem Conf.Sizes.and_hashMask {c : Conf} (h : c.Sizes) (x : Nat) : x &&& c.hashMask = x % 2 ^ (c.memLevel.toNat + 7) := by
  rw [h.hashMask, h.hashSize, Nat.and_two_pow_sub_one_eq_mod]

/-- A masked value is an index of `head`. -/
theorem Conf.Sizes.and_hashMask_lt {c : Conf} (h : c.Sizes) (x : Nat) : x &&& c.hashMask < c.hashSize := by
  rw [h.and_hashMask, h.hashSize]
  exact Nat.mod_lt _ (Nat.two_pow_pos _)

/-- The masked value fits the 16 bits of `insH`. -/
theorem toNat_hashStep {c : Conf} (h : c.Sizes) (insH : BitVec 16) (b : Byte) :
    (hashStep c insH b).toNat = ((insH.toNat <<< c.hashShift) ^^^ b.toNat) &&& c.hashMask := by
  obtain ⟨-, -, -, hsize, -⟩ := h.bounds
  exact Nat.mod_eq_of_lt ((h.and_hashMask_lt _).trans_le hsize)

/-- Bits above the mask make no difference to what a shift leaves below it. -/
theorem mod_shiftLeft_mod (x k n : Nat) : ((x % 2 ^ n) <<< k) % 2 ^ n = (x <<< k) % 2 ^ n := by
  simp only [Nat.shiftLeft_eq, Nat.mod_mul_mod]

/-- A shift by at least `n` leaves nothing in the low `n` bits. -/
theorem shiftLeft_mod_of_le {k n : Nat} (h : n ≤ k) (x : Nat) : (x <<< k) % 2 ^ n = 0 := by
  rw [Nat.shiftLeft_eq]
  exact Nat.mod_eq_zero_of_dvd (Dvd.dvd.mul_left (Nat.pow_dvd_pow 2 h) x)

/-- Settles O50: modulo the mask the shifts distribute over the three updates, and three of them move the earlier hash out
past it. -/
theorem hashClosedForm : Obligations.HashClosedForm := by
  intro c h b0 b1 b2 hc
  have hs := hc.toSizes
  have hout : c.memLevel.toNat + 7 ≤ c.hashShift + c.hashShift + c.hashShift := by
    rw [hs.hashShift]
    omega
  simp only [toNat_hashStep hs, hs.and_hashMask, Nat.xor_mod_two_pow, Nat.shiftLeft_xor_distrib, mod_shiftLeft_mod,
    ← Nat.shiftLeft_add, shiftLeft_mod_of_le hout, Nat.zero_xor, Nat.two_mul]

/-! Sliding (R206). -/

/-- Lowering a position is subtraction that stops at 0. -/
theorem toNat_rebase (n : Nat) (p : BitVec 16) : (rebase n p).toNat = p.toNat - n := by
  unfold rebase
  split
  · rw [BitVec.toNat_ofNat, Nat.mod_eq_of_lt (by omega)]
  · rw [BitVec.toNat_zero]
    omega

/-- An empty entry stays empty. -/
theorem rebase_zero (n : Nat) : rebase n 0#16 = 0#16 :=
  BitVec.eq_of_toNat_eq ((toNat_rebase n 0#16).trans (Nat.zero_sub n))

/-- Rebasing a table of positions lowers every entry of it. -/
theorem toNat_get_rebased (m : Ram 16) {n i : Nat} (size : Nat) (hi : i < n) (hn : n ≤ 2 ^ ramBits) :
    ((m.mapBelow n (rebase size)).get i).toNat = (m.get i).toNat - size := by
  rw [Ram.get_mapBelow (rebase_zero size) m n (hi.trans_le hn), if_pos hi, toNat_rebase]

/-- Settles O51: the copy of R206 reads above where it writes (`Ram.get_copyFrom`), and the two tables are rebased. -/
theorem slideRebases : Obligations.SlideRebases := by
  intro c m hc
  obtain ⟨-, hwin, -, hhash, -⟩ := hc.toSizes.bounds
  have hram : 2 ^ ramBits = 131072 := rfl
  refine ⟨fun i hi => ?_, fun i hi hi' => ?_, rfl, rfl, rfl, fun i hi => ?_, fun i hi => ?_, rfl⟩
  · refine (Ram.get_copyFrom _ _ _ _ (by omega) (by omega) (by omega)).trans ?_
    rw [if_pos (by omega), Nat.sub_zero]
  · refine (Ram.get_copyFrom _ _ _ _ (by omega) (by omega) hi').trans ?_
    rw [if_neg (by omega)]
  · exact toNat_get_rebased m.head _ hi (by omega)
  · exact toNat_get_rebased m.prev _ hi (by omega)

/-! Entering a string (R202). -/

theorem getWindow_run (c : Conf) (i : Nat) (m : Matcher) :
    getWindow c i m = if i < c.windowBufSize then (.ok (m.window.get i), m) else (.error .fatal, m) := by
  unfold getWindow
  rw [get_bind_run, load_run]

/-- The window mask is the remainder by the window's size. -/
theorem Conf.Sizes.and_windowMask {c : Conf} (h : c.Sizes) (x : Nat) : x &&& c.windowMask = x % c.windowSize := by
  rw [h.windowMask, h.windowSize, Nat.and_two_pow_sub_one_eq_mod]

/-- `InsertString` where every index is in range: the hash step, the old head into `prev`, the position into `head`. -/
theorem insertString_run {c : Conf} (hs : c.Sizes) {m : Matcher} {pos : Nat} {h : BitVec 16} (hpos : pos + 2 < c.windowBufSize)
    (hh : hashStep c m.insH (m.window.get (pos + 2)) = h) :
    insertString c pos m = (.ok (m.head.get h.toNat).toNat,
      { m with
        insH := h
        prev := m.prev.set (pos % c.windowSize) (m.head.get h.toNat)
        head := m.head.set h.toNat (BitVec.ofNat 16 pos) }) := by
  have hlt : h.toNat < c.hashSize := by
    rw [← hh, toNat_hashStep hs]
    exact hs.and_hashMask_lt _
  have hslot : pos % c.windowSize < c.windowSize := Nat.mod_lt _ (lt_of_lt_of_le (by decide) hs.bounds.1)
  unfold insertString updateHash
  rw [bind_ok (by rw [getWindow_run]; exact if_pos hpos), modify_bind_run, get_bind_run]
  dsimp only
  rw [show pos + minMatch - 1 = pos + 2 from rfl, hh, hs.and_windowMask]
  rw [bind_ok ((load_run ..).trans (if_pos hlt)), bind_ok ((stored_run ..).trans (if_pos hslot)),
    bind_ok ((stored_run ..).trans (if_pos hlt)), set_bind_run]
  rfl

/-- Settles O52: the run of `InsertString`, and a read after each of its two stores. -/
theorem insertStringLinks : Obligations.InsertStringLinks := by
  intro c m pos h hc hpos hh
  have hs := hc.toSizes
  obtain ⟨hwin0, hwin, -, hhash, -⟩ := hs.bounds
  have hram : 2 ^ ramBits = 131072 := rfl
  have hslot : pos % c.windowSize < c.windowSize := Nat.mod_lt _ (by omega)
  refine ⟨_, insertString_run hs hpos (BitVec.eq_of_toNat_eq ((toNat_hashStep hs _ _).trans hh.symm)), rfl,
    Ram.get_set_self _ _, Ram.get_set_self _ _, fun i hi hne => ?_, fun i hi hne => ?_⟩
  · exact Ram.get_set_of_ne (by omega) (by omega) hne _ _
  · exact Ram.get_set_of_ne (by omega) (by omega) hne _ _

/-! The search along a hash chain (R210). -/

/-- A byte that was read is the window's, and reading changes nothing. -/
theorem of_getWindow_ok {c : Conf} {i : Nat} {m l : Matcher} {b : Byte} (h : getWindow c i m = (.ok b, l)) :
    b = m.window.get i ∧ l = m := by
  rw [getWindow_run] at h
  split at h <;> cases h
  exact ⟨rfl, rfl⟩

/-- The comparison answers how far the bytes agree: at most `k` beyond the `len` known to agree. -/
theorem of_matchRun_ok {c : Conf} {a b n : Nat} {m l : Matcher} : ∀ {k len : Nat}, matchRun c a b k len m = (.ok n, l) →
    (∀ i, i < len → m.window.get (a + i) = m.window.get (b + i)) →
    l = m ∧ n ≤ len + k ∧ ∀ i, i < n → m.window.get (a + i) = m.window.get (b + i)
  | 0, len, h, hlen => by
    cases h
    exact ⟨rfl, Nat.le_refl _, hlen⟩
  | k + 1, len, h, hlen => by
    obtain ⟨x, _, hx, h⟩ := of_bind_ok h
    obtain ⟨rfl, rfl⟩ := of_getWindow_ok hx
    obtain ⟨y, _, hy, h⟩ := of_bind_ok h
    obtain ⟨rfl, rfl⟩ := of_getWindow_ok hy
    rw [ite_run] at h
    split at h
    case isTrue heq =>
      obtain ⟨hl, hn, hagree⟩ := of_matchRun_ok h fun i hi => by
        rcases Nat.lt_succ_iff_lt_or_eq.mp hi with hi | rfl
        · exact hlen i hi
        · exact heq
      exact ⟨hl, by omega, hagree⟩
    case isFalse =>
      cases h
      exact ⟨rfl, by omega, hlen⟩

/-- `p` is a position before `strStart` whose next `n` bytes are those at `strStart`. -/
def Matcher.MatchAt (m : Matcher) (p n : Nat) : Prop :=
  p < m.strStart.toNat ∧ ∀ i, i < n → m.window.get (p + i) = m.window.get (m.strStart.toNat + i)

/-- The match finder after the candidate `p`, whose bytes agree over `len`, was held against the best length so far. -/
def Matcher.tried (m : Matcher) (p len best : Nat) : Matcher :=
  if best < len then { m with matchStart := BitVec.ofNat 32 p } else m

/-- One turn of the loop of R210: the candidate is held against the best length so far, and the search ends there or goes on
with a candidate beyond the limit. -/
theorem of_walkChain_ok {c : Conf} {limit nice maxLen budget p best n : Nat} {m l : Matcher}
    (h : walkChain c limit nice maxLen (budget + 1) p best m = (.ok n, l)) :
    ∃ len, len ≤ maxLen ∧ m.MatchAt p len ∧
      ((n = max best len ∧ l = m.tried p len best)
        ∨ ∃ next, limit < next ∧ walkChain c limit nice maxLen budget next (max best len) (m.tried p len best) = (.ok n, l)) := by
  unfold walkChain at h
  rw [get_bind_run, require_bind_run] at h
  split at h
  case isFalse => cases h
  case isTrue hp =>
  obtain ⟨len, u, hrun, h⟩ := of_bind_ok h
  obtain ⟨hu, hlen, hagree⟩ := of_matchRun_ok hrun fun i hi => absurd hi i.not_lt_zero
  refine ⟨len, by omega, ⟨of_decide_eq_true hp, hagree⟩, ?_⟩
  have htried : onlyIf (decide (len > best) = true) (modify fun m : Matcher => { m with matchStart := BitVec.ofNat 32 p }) m
      = (.ok (), m.tried p len best) := by
    rw [onlyIf_run]
    unfold Matcher.tried
    simp only [decide_eq_true_eq, gt_iff_lt, modify_run]
    split <;> rfl
  have hmax : (if decide (len > best) = true then len else best) = max best len := by
    simp only [decide_eq_true_eq, gt_iff_lt]
    split <;> omega
  rw [hu, bind_ok htried, ite_run] at h
  split at h
  case isTrue hnice =>
    simp only [Bool.and_eq_true, decide_eq_true_eq] at hnice
    cases h
    exact .inl ⟨by omega, rfl⟩
  case isFalse =>
    rw [hmax] at h
    obtain ⟨next, v, hnext, h⟩ := of_bind_ok h
    rw [load_run] at hnext
    split at hnext <;> cases hnext
    rw [ite_run, ite_run] at h
    split_ifs at h with hlimit
    · cases h
      exact .inl ⟨rfl, rfl⟩
    · cases h
      exact .inl ⟨rfl, rfl⟩
    · exact .inr ⟨_, Nat.lt_of_not_le hlimit, h⟩

/-- What a search of `m` that began with the length `best` answers in `l`: nothing longer was found and nothing changed, or
`matchStart` is a match of the answered, greater length, at most `maxLen`, at a position where `near` holds. -/
def Matcher.Searched (m l : Matcher) (near : Nat → Prop) (maxLen best n : Nat) : Prop :=
  (n = best ∧ l = m)
  ∨ best < n ∧ n ≤ maxLen ∧ ∃ p, l.matchStart = BitVec.ofNat 32 p ∧ near p ∧ m.MatchAt p n

/-- Holding a match against the best length so far is a search of its own. -/
theorem Matcher.MatchAt.searched {m : Matcher} {near : Nat → Prop} {p len maxLen : Nat} (h : m.MatchAt p len) (hp : near p)
    (hlen : len ≤ maxLen) (best : Nat) : m.Searched (m.tried p len best) near maxLen best (max best len) := by
  unfold Matcher.tried
  split
  case isTrue hlt =>
    rw [Nat.max_eq_right hlt.le]
    exact .inr ⟨hlt, hlen, p, rfl, hp, h⟩
  case isFalse hge => exact .inl ⟨Nat.max_eq_left (Nat.le_of_not_lt hge), rfl⟩

/-- A match is a matter of the window and of `strStart`, which trying a candidate leaves alone. -/
theorem Matcher.matchAt_tried {m : Matcher} {p len best q n : Nat} : (m.tried p len best).MatchAt q n ↔ m.MatchAt q n := by
  unfold Matcher.tried
  split <;> rfl

/-- A search that goes on behind one candidate. -/
theorem Matcher.Searched.after_tried {m l : Matcher} {near near' : Nat → Prop} {p len maxLen best n : Nat}
    (h : m.Searched (m.tried p len best) near maxLen best (max best len))
    (h' : (m.tried p len best).Searched l near' maxLen (max best len) n) (hnear : ∀ q, near' q → near q) :
    m.Searched l near maxLen best n := by
  rcases h' with ⟨rfl, rfl⟩ | ⟨hlt, hn, q, hq, hq', hmatch⟩
  · exact h
  · exact .inr ⟨by omega, hn, q, hq, hnear q hq', Matcher.matchAt_tried.mp hmatch⟩

/-- The walk along the chain: the candidates are the one given and those beyond the limit. -/
theorem walkChain_searched {c : Conf} {limit nice maxLen n : Nat} {l : Matcher} : ∀ {budget p best : Nat} {m : Matcher},
    walkChain c limit nice maxLen budget p best m = (.ok n, l) →
    m.Searched l (fun q => q = p ∨ limit < q) maxLen best n
  | 0, p, best, m, h => by
    cases h
    exact .inl ⟨rfl, rfl⟩
  | budget + 1, p, best, m, h => by
    obtain ⟨len, hlen, hmatch, hend⟩ := of_walkChain_ok h
    have hfirst := hmatch.searched (near := fun q => q = p ∨ limit < q) (.inl rfl) hlen best
    rcases hend with ⟨rfl, rfl⟩ | ⟨next, hnext, h⟩
    · exact hfirst
    · refine hfirst.after_tried (walkChain_searched h) fun q hq => .inr ?_
      rcases hq with rfl | hq
      · exact hnext
      · exact hq

/-- `LongestMatch` is a search that began with `prevLength`, its answer capped at the lookahead. -/
theorem of_longestMatch_ok {c : Conf} {p n : Nat} {m l : Matcher} (h : longestMatch c p m = (.ok n, l)) :
    ∃ best, n = min best m.lookahead.toNat ∧
      m.Searched l (fun q => q = p ∨ m.strStart.toNat - c.maxDist < q) (min maxMatch m.lookahead.toNat) m.prevLength.toNat best := by
  unfold longestMatch at h
  rw [get_bind_run] at h
  obtain ⟨best, u, hwalk, h⟩ := of_bind_ok h
  cases h
  exact ⟨best, rfl, walkChain_searched hwalk⟩

/-- Settles O53: the frame is `longestMatch_search`; a better length is at most the lookahead, so the cap leaves it, and a
position beyond the limit is less than `maxDist` away. -/
theorem longestMatchIsMatch : Obligations.LongestMatchIsMatch := by
  intro c m m' p n h
  have hframe : m.OnlyMatchStart m' := by
    have hrel := longestMatch_search c p m
    rwa [h] at hrel
  obtain ⟨best, rfl, ⟨rfl, -⟩ | ⟨hlt, hle, q, hq, hnear, hbefore, hagree⟩⟩ := of_longestMatch_ok h
  · exact ⟨Nat.min_le_right _ _, hframe, fun hbetter => absurd hbetter (by omega), fun _ => rfl⟩
  have hbest : min best m.lookahead.toNat = best := by omega
  rw [hbest]
  refine ⟨by omega, hframe, fun _ => ⟨hle.trans (Nat.min_le_left _ _), q, hq, hbefore, ?_, hagree⟩,
    fun hworse => absurd hlt (by omega)⟩
  rcases hnear with hq | hq
  · exact .inl hq
  · exact .inr (by omega)

end Sys2Proof.Machine
end

section
/-! SUPPORT. How a block header is admitted, what goes before its block, and its frame (log entry 6): which parts of the state its
procedures change, said once for the block encoder (`EncoderFrame`) and once for a whole header (`HeaderFrame`); that what goes
before the block does not look at `fresh` (`IgnoresFresh`); and the settled statement about the headers' entry and frame. -/

namespace Sys2Proof.Machine

open Proc

/-! The frame of the block encoder. -/

/-- What settling the deferred byte may change: the coder, `matchAvailable` and `matchLength`. -/
def SettleFrame (s t : State) : Prop :=
  t = { s with mat := { s.mat with matchAvailable := t.mat.matchAvailable, matchLength := t.mat.matchLength }, cod := t.cod }

theorem SettleFrame.refl (s : State) : SettleFrame s s := rfl

theorem SettleFrame.trans (s t u : State) (h : SettleFrame s t) (h' : SettleFrame t u) : SettleFrame s u := by
  unfold SettleFrame at *
  conv_lhs => rw [h', h]

/-- What emitting a block and delivering its bytes may change besides: the packer, `blockStart`, the output registers and host
memory. -/
def EncoderFrame (s t : State) : Prop :=
  t = { s with
    regs := s.regs.withOutput t.regs, pk := t.pk, cod := t.cod, hostMem := t.hostMem
    mat := { s.mat with
      blockStart := t.mat.blockStart, matchAvailable := t.mat.matchAvailable, matchLength := t.mat.matchLength } }

theorem EncoderFrame.refl (s : State) : EncoderFrame s s := rfl

theorem EncoderFrame.trans (s t u : State) (h : EncoderFrame s t) (h' : EncoderFrame t u) : EncoderFrame s u := by
  unfold EncoderFrame at *
  conv_lhs => rw [h', h]
  rfl

theorem SettleFrame.encoderFrame {s t : State} (h : SettleFrame s t) : EncoderFrame s t := by
  unfold SettleFrame at h
  rw [h]
  rfl

theorem SettleFrame.pk {s t : State} (h : SettleFrame s t) : t.pk = s.pk := by
  unfold SettleFrame at h
  rw [h]

theorem EncoderFrame.sstate {s t : State} (h : EncoderFrame s t) : t.regs.sstate = s.regs.sstate := by
  unfold EncoderFrame at h
  rw [h]
  rfl

theorem onPacker_encoderFrame {α : Type} (p : Proc Packer α) : Rel EncoderFrame (onPacker p) := fun _ => rfl

theorem onCoder_settleFrame {α : Type} (p : Proc Coder α) : Rel SettleFrame (onCoder p) := fun _ => rfl

theorem onCoder_encoderFrame {α : Type} (p : Proc Coder α) : Rel EncoderFrame (onCoder p) := fun _ => rfl

/-- Reading the window changes nothing. -/
theorem getWindow_settleFrame (c : Conf) (i : Nat) : Rel SettleFrame (onMatcher (getWindow c i)) := by
  intro s
  unfold onMatcher
  rw [getWindow_run]
  by_cases h : i < c.windowBufSize
  · rw [if_pos h]; rfl
  · rw [if_neg h]; rfl

theorem tally_settleFrame (dist : Int) (lc : Byte) : Rel SettleFrame (tally dist lc) :=
  Rel.bind SettleFrame.trans (Rel.get SettleFrame.refl) fun _ => Rel.bind SettleFrame.trans (onCoder_settleFrame _) fun _ =>
    Rel.bind SettleFrame.trans (Rel.get SettleFrame.refl) fun _ =>
      Rel.ite (Rel.pure SettleFrame.refl _) (Rel.pure SettleFrame.refl _)

theorem tallyDeferred_settleFrame : Rel SettleFrame tallyDeferred :=
  Rel.bind SettleFrame.trans (Rel.get SettleFrame.refl) fun _ =>
    Rel.bind SettleFrame.trans (Rel.indexOf SettleFrame.refl _) fun _ =>
    Rel.bind SettleFrame.trans (getWindow_settleFrame _ _) fun _ => tally_settleFrame _ _

theorem settleDeferred_settleFrame : Rel SettleFrame settleDeferred :=
  Rel.bind SettleFrame.trans (Rel.get SettleFrame.refl) fun _ => Rel.onlyIf SettleFrame.refl fun _ =>
    Rel.bind SettleFrame.trans tallyDeferred_settleFrame fun _ _ => rfl

theorem flushPending_encoderFrame : Rel EncoderFrame flushPending := by
  refine Rel.bind EncoderFrame.trans (Rel.get EncoderFrame.refl) fun _ => Rel.ite (Rel.pure EncoderFrame.refl _) ?_
  refine Rel.bind EncoderFrame.trans (fun s => ?_) fun _ => Rel.bind EncoderFrame.trans (Rel.modify fun _ => rfl) fun _ =>
    onPacker_encoderFrame _
  unfold EncoderFrame
  rw [(writeBytes_stores _ _ _ s).only]
  rfl

theorem storedBlock_encoderFrame (buf : Int) (storedLen : Nat) (eof : Bool) :
    Rel EncoderFrame (storedBlock buf storedLen eof) :=
  Rel.bind EncoderFrame.trans (Rel.get EncoderFrame.refl) fun _ =>
    Rel.bind EncoderFrame.trans (onPacker_encoderFrame _) fun _ => Rel.bind EncoderFrame.trans (onPacker_encoderFrame _) fun _ =>
    Rel.bind EncoderFrame.trans (onCoder_encoderFrame _) fun _ => Rel.bind EncoderFrame.trans (onPacker_encoderFrame _) fun _ =>
    Rel.bind EncoderFrame.trans (onPacker_encoderFrame _) fun _ => onPacker_encoderFrame _

theorem compressBlock_encoderFrame (lit dst : CodeTable) : Rel EncoderFrame (compressBlock lit dst) :=
  Rel.bind EncoderFrame.trans (Rel.get EncoderFrame.refl) fun _ =>
    Rel.bind EncoderFrame.trans (onPacker_encoderFrame _) fun _ => onCoder_encoderFrame _

theorem emitStored_encoderFrame (eof : Bool) : Rel EncoderFrame (emitStored eof) :=
  Rel.bind EncoderFrame.trans (Rel.get EncoderFrame.refl) fun _ =>
    Rel.bind EncoderFrame.trans (Rel.indexOf EncoderFrame.refl _) fun _ =>
    Rel.bind EncoderFrame.trans (Rel.require EncoderFrame.refl _) fun _ => storedBlock_encoderFrame _ _ _

theorem staticBlock_encoderFrame (eof : Bool) : Rel EncoderFrame (staticBlock eof) :=
  Rel.bind EncoderFrame.trans (Rel.get EncoderFrame.refl) fun _ =>
    Rel.bind EncoderFrame.trans (onPacker_encoderFrame _) fun _ => compressBlock_encoderFrame _ _

theorem emitDynamic_encoderFrame (eof : Bool) : Rel EncoderFrame (emitDynamic eof) :=
  Rel.bind EncoderFrame.trans (onCoder_encoderFrame _) fun _ => Rel.bind EncoderFrame.trans (Rel.get EncoderFrame.refl) fun _ =>
    Rel.bind EncoderFrame.trans (onPacker_encoderFrame _) fun _ => Rel.bind EncoderFrame.trans (onPacker_encoderFrame _) fun _ =>
    compressBlock_encoderFrame _ _

theorem endBlockStats_encoderFrame (eof : Bool) : Rel EncoderFrame (endBlockStats eof) :=
  Rel.bind EncoderFrame.trans (onCoder_encoderFrame _) fun _ => Rel.bind EncoderFrame.trans (Rel.get EncoderFrame.refl) fun _ =>
    Rel.onlyIf EncoderFrame.refl fun _ => onPacker_encoderFrame _

theorem nextBlock_encoderFrame : Rel EncoderFrame nextBlock :=
  Rel.bind EncoderFrame.trans (fun _ => rfl) fun _ => flushPending_encoderFrame

/-! The frame of a block header. -/

/-- What a block header may change besides: `fresh`, which only falls, and the stream state; the checksum's value from `INIT`
only, which is never entered. -/
structure HeaderFrame (s t : State) : Prop where
  only : EncoderFrame
    { s with regs := { s.regs with fresh := t.regs.fresh, sstate := t.regs.sstate }, cks := { s.cks with ck := t.cks.ck } } t
  fresh : t.regs.fresh = true → s.regs.fresh = true
  checksum : s.regs.sstate ≠ .init → t.regs.sstate ≠ .init ∧ t.cks = s.cks

theorem HeaderFrame.refl (s : State) : HeaderFrame s s := ⟨rfl, id, fun h => ⟨h, rfl⟩⟩

theorem HeaderFrame.trans (s t u : State) (h : HeaderFrame s t) (h' : HeaderFrame t u) : HeaderFrame s u where
  only := by
    obtain ⟨h, -, -⟩ := h
    obtain ⟨h', -, -⟩ := h'
    unfold EncoderFrame at *
    conv_lhs => rw [h', h]
    rfl
  fresh := fun hu => h.fresh (h'.fresh hu)
  checksum := fun hs => by
    obtain ⟨ht, hck⟩ := h.checksum hs
    obtain ⟨hu, hck'⟩ := h'.checksum ht
    exact ⟨hu, hck'.trans hck⟩

theorem EncoderFrame.headerFrame {s t : State} (h : EncoderFrame s t) : HeaderFrame s t := by
  unfold EncoderFrame at h
  rw [h]
  exact ⟨rfl, id, fun hs => ⟨hs, rfl⟩⟩

theorem HeaderFrame.regs {s t : State} (h : HeaderFrame s t) :
    t.regs = { s.regs with fresh := t.regs.fresh, sstate := t.regs.sstate }.withOutput t.regs := congrArg State.regs h.only

theorem HeaderFrame.mat {s t : State} (h : HeaderFrame s t) : t.mat = { s.mat with
    blockStart := t.mat.blockStart, matchAvailable := t.mat.matchAvailable, matchLength := t.mat.matchLength } :=
  congrArg State.mat h.only

theorem HeaderFrame.fault {s t : State} (h : HeaderFrame s t) : t.regs.fault = s.regs.fault := by rw [h.regs]; rfl

theorem HeaderFrame.inAvail {s t : State} (h : HeaderFrame s t) : t.regs.inAvail = s.regs.inAvail := by rw [h.regs]; rfl

theorem HeaderFrame.lookahead {s t : State} (h : HeaderFrame s t) : t.mat.lookahead = s.mat.lookahead := by rw [h.mat]

/-- A procedure of the block encoder stays in the frame of a header. -/
theorem headerFrame_of_encoder {α : Type} {p : Proc State α} (h : Rel EncoderFrame p) : Rel HeaderFrame p :=
  fun s => (h s).headerFrame

theorem putHeaderBytes_encoderFrame : Rel EncoderFrame putHeaderBytes :=
  Rel.bind EncoderFrame.trans (Rel.get EncoderFrame.refl) fun _ => Rel.ite
    (Rel.bind EncoderFrame.trans (Rel.get EncoderFrame.refl) fun _ =>
      Rel.bind EncoderFrame.trans (onPacker_encoderFrame _) fun _ => Rel.onlyIf EncoderFrame.refl fun _ => onPacker_encoderFrame _)
    (Rel.onlyIf EncoderFrame.refl fun _ => onPacker_encoderFrame _)

/-- In `INIT` the wrapper header is written, its checksum starts, and the session is `BUSY` (R283, R290). -/
theorem stepHeader_init {s : State} (h : s.regs.sstate = .init) :
    stepHeader s = (putHeaderBytes >>= fun _ =>
      (modify fun u => { u.ckReset with regs := { u.regs with sstate := .busy } } : Proc State PUnit)) s := by
  unfold stepHeader putHeader
  rw [get_bind_run, ite_run, if_pos h, bind_assoc]
  rfl

theorem stepHeader_headerFrame : Rel HeaderFrame stepHeader := by
  intro s
  by_cases h : s.regs.sstate = .init
  · rw [stepHeader_init h, bind_run]
    have hp := putHeaderBytes_encoderFrame s
    cases hr : putHeaderBytes s with
    | mk r u =>
      rw [hr] at hp
      cases r with
      | error e => exact hp.headerFrame
      | ok a => exact .trans _ u _ hp.headerFrame ⟨rfl, id, fun hs => absurd (hp.sstate.trans h) hs⟩
  · rw [stepHeader_idle h]
    exact .refl s

theorem opened_headerFrame (s : State) : HeaderFrame s s.opened := ⟨rfl, nofun, fun h => ⟨h, rfl⟩⟩

theorem closeBlock_headerFrame {emit : Bool → Proc State Unit} (he : ∀ eof, Rel EncoderFrame (emit eof)) (eof : Bool) :
    Rel HeaderFrame (closeBlock emit eof) :=
  Rel.bind HeaderFrame.trans (fun s => (settleDeferred_settleFrame s).encoderFrame.headerFrame) fun _ =>
  Rel.bind HeaderFrame.trans (headerFrame_of_encoder (he eof)) fun _ =>
  Rel.bind HeaderFrame.trans (headerFrame_of_encoder (endBlockStats_encoderFrame eof)) fun _ =>
  Rel.bind HeaderFrame.trans (headerFrame_of_encoder nextBlock_encoderFrame) fun _ =>
  Rel.onlyIf HeaderFrame.refl fun _ => Rel.modify fun _ => ⟨rfl, id, fun _ => ⟨nofun, rfl⟩⟩

theorem closeAccepted_headerFrame {emit : Bool → Proc State Unit} (he : ∀ eof, Rel EncoderFrame (emit eof)) (eof : Bool) :
    Rel HeaderFrame (closeAccepted emit eof) :=
  Rel.bind HeaderFrame.trans (Rel.modify opened_headerFrame) fun _ => Rel.bind HeaderFrame.trans stepHeader_headerFrame fun _ =>
  Rel.bind HeaderFrame.trans (headerFrame_of_encoder flushPending_encoderFrame) fun _ =>
  Rel.bind HeaderFrame.trans (Rel.get HeaderFrame.refl) fun _ => Rel.ite (Rel.pure HeaderFrame.refl _)
    (Rel.bind HeaderFrame.trans (closeBlock_headerFrame he eof) fun _ => Rel.pure HeaderFrame.refl _)

theorem closeBody_headerFrame {emit : Bool → Proc State Unit} (he : ∀ eof, Rel EncoderFrame (emit eof)) (eof : Bool) :
    Rel HeaderFrame (closeBody emit eof) :=
  Rel.bind HeaderFrame.trans (Rel.get HeaderFrame.refl) fun s => by
    cases s.blockRefusal eof with
    | some st => exact Rel.pure HeaderFrame.refl st
    | none => exact Rel.bind HeaderFrame.trans (closeAccepted_headerFrame he eof) fun _ =>
        Rel.bind HeaderFrame.trans (Rel.bind HeaderFrame.trans (Rel.get HeaderFrame.refl) fun _ =>
          Rel.require HeaderFrame.refl _) fun _ => Rel.pure HeaderFrame.refl _

/-! What goes before the block does not look at `fresh`. -/

/-- With `fresh` down beforehand the procedure does the same, and leaves it down. -/
def IgnoresFresh {α : Type} (p : Proc State α) : Prop := ∀ s : State, p s.opened = ((p s).1, (p s).2.opened)

namespace IgnoresFresh

variable {α β : Type}

theorem bind {p : Proc State α} {f : α → Proc State β} (hp : IgnoresFresh p) (hf : ∀ a, IgnoresFresh (f a)) :
    IgnoresFresh (p >>= f) := by
  intro s
  rw [bind_run, bind_run, hp s]
  cases p s with
  | mk r t =>
    cases r with
    | ok a => exact hf a t
    | error e => rfl

/-- Reading the state for anything but `fresh`. -/
theorem get_bind {f : State → Proc State β} (hread : ∀ s, f s.opened = f s) (hf : ∀ s, IgnoresFresh (f s)) :
    IgnoresFresh (get >>= f) := by
  intro s
  rw [get_bind_run, get_bind_run, hread, hf]

theorem ite {c : Prop} [Decidable c] {p q : Proc State α} (hp : IgnoresFresh p) (hq : IgnoresFresh q) :
    IgnoresFresh (if c then p else q) := by
  split <;> assumption

theorem pure (a : α) : IgnoresFresh (pure a) := fun _ => rfl

theorem onlyIf {c : Prop} [Decidable c] {p : Proc State Unit} (hp : IgnoresFresh p) : IgnoresFresh (onlyIf c p) :=
  ite hp (pure ())

theorem modify {f : State → State} (h : ∀ s, f s.opened = (f s).opened) : IgnoresFresh (modify f : Proc State PUnit) :=
  fun s => Prod.ext rfl (h s)

theorem onPacker (p : Proc Packer α) : IgnoresFresh (onPacker p) := fun _ => rfl

theorem onCoder (p : Proc Coder α) : IgnoresFresh (onCoder p) := fun _ => rfl

theorem onMatcher (p : Proc Matcher α) : IgnoresFresh (onMatcher p) := fun _ => rfl

theorem indexOf (i : Int) : IgnoresFresh (indexOf i) := by
  unfold Machine.indexOf
  exact ite (pure _) fun _ => rfl

theorem load {w : Nat} (size : Nat) (m : Ram w) (i : Nat) : IgnoresFresh (load size m i) := by
  unfold Machine.load
  exact ite (pure _) fun _ => rfl

end IgnoresFresh

theorem writeBytes_ignoresFresh : ∀ n i dst, IgnoresFresh (writeBytes n i dst)
  | 0, _, _ => .pure ()
  | n + 1, i, dst => .get_bind (fun _ => rfl) fun _ => .bind (.load _ _ _) fun _ => .bind (.modify fun _ => rfl) fun _ =>
      writeBytes_ignoresFresh n (i + 1) (dst + 1#32)

theorem flushPending_ignoresFresh : IgnoresFresh flushPending :=
  .get_bind (fun _ => rfl) fun _ => .ite (.pure ()) (.bind (writeBytes_ignoresFresh _ _ _) fun _ =>
    .bind (.modify fun _ => rfl) fun _ => .onPacker _)

theorem stepHeader_ignoresFresh : IgnoresFresh stepHeader := by
  have hbytes : IgnoresFresh putHeaderBytes :=
    .get_bind (fun _ => rfl) fun _ => .ite
      (.get_bind (fun _ => rfl) fun _ => .bind (.onPacker _) fun _ => .onlyIf (.onPacker _)) (.onlyIf (.onPacker _))
  exact .get_bind (fun _ => rfl) fun _ => .ite
    (.bind (.bind hbytes fun _ => .modify fun _ => rfl) fun _ => .modify fun _ => rfl) (.pure ())

theorem settleDeferred_ignoresFresh : IgnoresFresh settleDeferred := by
  have htally : ∀ dist lc, IgnoresFresh (tally dist lc) := fun _ _ =>
    .get_bind (fun _ => rfl) fun _ => .bind (.onCoder _) fun _ => .get_bind (fun _ => rfl) fun _ => .ite (.pure _) (.pure _)
  exact .get_bind (fun _ => rfl) fun _ => .onlyIf (.bind
    (.get_bind (fun _ => rfl) fun _ => .bind (.indexOf _) fun _ => .bind (.onMatcher _) fun _ => htally _ _) fun _ => .onMatcher _)

/-! What goes before the block. -/

/-- The three parts of what goes before the block. -/
theorem beforeBlock_ok {s v : State} (h : beforeBlock s = (.ok (), v)) :
    ∃ a w, stepHeader s = (.ok (), a) ∧ flushPending a = (.ok (), w) ∧ settleDeferred w = (.ok (), v) := by
  obtain ⟨_, a, ha, h⟩ := of_bind_ok h
  obtain ⟨_, w, hw, hv⟩ := of_bind_ok h
  exact ⟨a, w, ha, hw, hv⟩

/-- Behind the wrapper header a live session that is not in `FINISH` is `BUSY`. -/
theorem stepHeader_busy {s a : State} (hu : s.regs.sstate ≠ .unconf) (hf : s.regs.sstate ≠ .finish)
    (h : stepHeader s = (.ok (), a)) : a.regs.sstate = .busy := by
  by_cases hi : s.regs.sstate = .init
  · rw [stepHeader_init hi] at h
    obtain ⟨_, u, -, hm⟩ := of_bind_ok h
    cases hm
    rfl
  · rw [stepHeader_idle hi] at h
    cases h
    cases hs : s.regs.sstate with
    | busy => rfl
    | unconf => exact absurd hs hu
    | init => exact absurd hs hi
    | finish => exact absurd hs hf

/-- A settled byte is no longer deferred. -/
theorem settleDeferred_settled {w v : State} (h : settleDeferred w = (.ok (), v)) : v.mat.matchAvailable = false := by
  cases hm : w.mat.matchAvailable with
  | false =>
    rw [settleDeferred_idle hm] at h
    cases h
    exact hm
  | true =>
    unfold settleDeferred at h
    rw [get_bind_run, onlyIf_run, if_pos hm] at h
    obtain ⟨_, u, -, hu⟩ := of_bind_ok h
    cases hu
    rfl

/-- What goes before the block leaves a session in `BUSY` with no deferred byte (log entry 6). -/
theorem beforeBlock_leaves {s v : State} (hu : s.regs.sstate ≠ .unconf) (hf : s.regs.sstate ≠ .finish)
    (h : beforeBlock s = (.ok (), v)) : HeaderFrame s v ∧ v.regs.sstate = .busy ∧ v.mat.matchAvailable = false := by
  obtain ⟨a, w, ha, hw, hv⟩ := beforeBlock_ok h
  have h1 := stepHeader_headerFrame s
  have h2 := flushPending_encoderFrame a
  have h3 := (settleDeferred_settleFrame w).encoderFrame
  rw [ha] at h1
  rw [hw] at h2
  rw [hv] at h3
  exact ⟨.trans _ _ _ h1 (.trans _ _ _ h2.headerFrame h3.headerFrame),
    h3.sstate.trans (h2.sstate.trans (stepHeader_busy hu hf ha)), settleDeferred_settled hv⟩

/-- With nothing to go before the block, nothing goes. -/
theorem beforeBlock_idle {v : State} (hs : v.regs.sstate = .busy) (hm : v.mat.matchAvailable = false)
    (hp : v.pk.pending = v.pk.pendingOut) : beforeBlock v = (.ok (), v) := by
  have howed : min v.pk.owed v.regs.outAvail.toNat = 0 := by simp [Packer.owed, hp]
  unfold beforeBlock
  rw [bind_ok (stepHeader_idle (by rw [hs]; decide)), bind_ok (flushPending_idle howed), settleDeferred_idle hm]

/-- An accepted header whose pending bytes are all out closes the block from the state that what goes before it leaves. -/
theorem closeAccepted_of_beforeBlock {s v : State} (h : beforeBlock s = (.ok (), v)) (hp : v.pk.pending = v.pk.pendingOut)
    (emit : Bool → Proc State Unit) (eof : Bool) :
    closeAccepted emit eof s = (closeBlock emit eof >>= fun _ => (pure .ok : Proc State Status)) v.opened := by
  obtain ⟨a, w, ha, hw, hv⟩ := beforeBlock_ok h
  have ha' : stepHeader s.opened = (.ok (), a.opened) := by rw [stepHeader_ignoresFresh, ha]
  have hw' : flushPending a.opened = (.ok (), w.opened) := by rw [flushPending_ignoresFresh, hw]
  have hv' : settleDeferred w.opened = (.ok (), v.opened) := by rw [settleDeferred_ignoresFresh, hv]
  have hpk : v.pk = w.pk := by
    have hs : SettleFrame w (settleDeferred w).2 := settleDeferred_settleFrame w
    rw [hv] at hs
    exact hs.pk
  have hnone : w.opened.hasPending = false := by simp [State.hasPending, ← hpk, hp]
  have hm := settleDeferred_settled hv
  have hclose : closeBlock emit eof w.opened = closeBlock emit eof v.opened := by
    unfold closeBlock
    rw [bind_ok hv', bind_ok (settleDeferred_idle (s := v.opened) hm)]
  unfold closeAccepted
  rw [modify_bind_run]
  show (stepHeader >>= _) s.opened = _
  rw [bind_ok ha', bind_ok hw', get_bind_run, ite_run, if_neg (by rw [hnone]; decide), bind_run, bind_run, hclose]

/-! Admission. -/

/-- The three headers run one body, with an emission that stays in the encoder's frame. -/
theorem exec_closesBlock {i : Instr} {b : Bool} (h : closesBlock i b) :
    ∃ emit : Bool → Proc State Unit, (∀ eof, Rel EncoderFrame (emit eof))
      ∧ ∀ s, exec i s = execute true ⟨false, false⟩ (closeBody emit b) s := by
  obtain rfl | rfl | rfl := h
  · exact ⟨emitStored, emitStored_encoderFrame, fun _ => rfl⟩
  · exact ⟨staticBlock, staticBlock_encoderFrame, fun _ => rfl⟩
  · exact ⟨emitDynamic, emitDynamic_encoderFrame, fun _ => rfl⟩

theorem blockRefusal_some {s : State} {eof : Bool}
    (h : s.regs.sstate = .finish ∨ (eof = true ∧ (s.regs.inAvail ≠ 0#32 ∨ s.mat.lookahead ≠ 0#17))) :
    s.blockRefusal eof = some .errProtocol := by
  unfold State.blockRefusal
  by_cases hf : s.regs.sstate = .finish
  · rw [if_pos hf]
  · rw [if_neg hf, if_pos (h.resolve_left hf)]

theorem blockRefusal_none {s : State} {eof : Bool} (hf : s.regs.sstate ≠ .finish)
    (h : eof = true → s.regs.inAvail = 0#32 ∧ s.mat.lookahead = 0#17) : s.blockRefusal eof = none := by
  unfold State.blockRefusal
  rw [if_neg hf, if_neg]
  rintro ⟨he, hin⟩
  obtain ⟨hi, hl⟩ := h he
  exact hin.elim (· hi) (· hl)

/-- A header that is not refused is accepted and then checks the cursors (R34). -/
theorem closeBody_accepted {s : State} {eof : Bool} (h : s.blockRefusal eof = none) (emit : Bool → Proc State Unit) :
    closeBody emit eof s = (closeAccepted emit eof >>= fun st => checkBoundary >>= fun _ => (pure st : Proc State Status)) s := by
  unfold closeBody
  rw [get_bind_run, h]

/-- A header does what it does in the state that the wrapper header, the drain and the deferred byte leave (log entry 6). -/
theorem closeBody_of_beforeBlock {s v : State} {eof : Bool} (hu : s.regs.sstate ≠ .unconf) (hf : s.regs.sstate ≠ .finish)
    (hin : eof = true → s.regs.inAvail = 0#32 ∧ s.mat.lookahead = 0#17) (h : beforeBlock s = (.ok (), v))
    (hp : v.pk.pending = v.pk.pendingOut) (emit : Bool → Proc State Unit) : closeBody emit eof s = closeBody emit eof v := by
  obtain ⟨hfr, hs, hm⟩ := beforeBlock_leaves hu hf h
  have hin' : eof = true → v.regs.inAvail = 0#32 ∧ v.mat.lookahead = 0#17 := by
    rw [hfr.inAvail, hfr.lookahead]
    exact hin
  rw [closeBody_accepted (blockRefusal_none hf hin), closeBody_accepted (blockRefusal_none (by rw [hs]; decide) hin'), bind_run,
    bind_run, closeAccepted_of_beforeBlock h hp, closeAccepted_of_beforeBlock (beforeBlock_idle hs hm hp) hp]

/-- With more pending bytes than room a header delivers what fits and answers `BUF` (log entry 6). -/
theorem closeBody_short {s : State} {eof : Bool} (hs : s.regs.sstate = .busy) (hb : s.boundaryOk = true)
    (hin : eof = true → s.regs.inAvail = 0#32 ∧ s.mat.lookahead = 0#17)
    (hshort : s.regs.outAvail.toNat < s.pk.pending.toNat - s.pk.pendingOut.toNat) (emit : Bool → Proc State Unit) :
    ∃ t, closeBody emit eof s = (.ok .buf, t)
      ∧ s.Delivered t (s.pk.bytesFrom s.pk.pendingOut.toNat s.regs.outAvail.toNat)
      ∧ t = { s with
          regs := { s.regs with fresh := false }.withOutput t.regs, hostMem := t.hostMem
          pk := { s.pk with pendingOut := t.pk.pendingOut } }
      ∧ t.pk.pendingOut.toNat = s.pk.pendingOut.toNat + s.regs.outAvail.toNat := by
  obtain ⟨-, hpk, -⟩ := (boundaryOk_iff s).1 hb
  obtain ⟨hle, hcap, -⟩ := (packer_cursorsOk_iff _ _).1 hpk
  obtain ⟨t, ht, hdel, heq, -, -, hsome, -⟩ := flushPendingDelivers s.opened s.regs.outAvail.toNat hle hcap
    (Nat.min_eq_right hshort.le).symm
  obtain ⟨hpend, hout⟩ := hsome (by rw [opened_pk]; omega)
  obtain ⟨t', ht', hbt⟩ := flushPending_boundaryOk (u := s.opened) hb
  obtain rfl : t = t' := by rw [ht] at ht'; cases ht'; rfl
  rw [opened_pk] at hpend hout
  have hmore : t.hasPending = true := decide_eq_true (by rw [hpend]; intro h; rw [← h] at hout; omega)
  refine ⟨t, ?_, ⟨hdel.bytes, hdel.elsewhere, hdel.outPtr, hdel.outAvail, hdel.totalOut⟩, ?_, hout⟩
  · have hacc : closeAccepted emit eof s = (.ok .buf, t) := by
      unfold closeAccepted
      rw [modify_bind_run]
      show (stepHeader >>= _) s.opened = _
      rw [bind_ok (stepHeader_idle (by show s.regs.sstate ≠ .init; rw [hs]; decide)), bind_ok ht, get_bind_run, ite_run,
        if_pos hmore]
      rfl
    rw [closeBody_accepted (blockRefusal_none (by rw [hs]; decide) hin), bind_ok hacc, bind_ok (checkBoundary_run hbt)]
    rfl
  · conv_lhs => rw [heq, hpend]
    rfl

/-- What a block header leaves is within its frame but for the status and `fault`, which does not fall. -/
theorem execute_headerFrame {body : Proc State Status} {s t : State} (hb : Rel HeaderFrame body)
    (h : execute true ⟨false, false⟩ body s = .next t) :
    ∃ u c f, HeaderFrame s u ∧ t = { u with regs := { u.regs with code := c, fault := f } }
      ∧ (s.regs.fault = true → f = true) := by
  have hu := hb s
  rcases execute_cases h with ⟨hl, -⟩ | ⟨-, -, -, rfl⟩ | ⟨-, -, -, rfl⟩ | ⟨-, -, -, ⟨st, u, hr, rfl⟩ | ⟨u, hr, rfl⟩⟩
  · cases hl
  · exact ⟨s, _, s.regs.fault, .refl s, rfl, id⟩
  · exact ⟨s, _, s.regs.fault, .refl s, rfl, id⟩
  · rw [hr] at hu
    exact ⟨u, st, u.regs.fault, hu, rfl, by rw [hu.fault]; exact id⟩
  · rw [hr] at hu
    exact ⟨u, _, true, hu, rfl, fun _ => rfl⟩

/-- Settles O37: admission is `blockRefusal`; what goes before the block does not look at `fresh`, and in the state it leaves there
is nothing more to go before, so that the header closes the block from there in both (`closeBody_of_beforeBlock`); a short drain is
`closeBody_short`; and every part of a header stays in its frame (`closeBody_headerFrame`). -/
theorem blockHeadersEntryAndFrame : Obligations.BlockHeadersEntryAndFrame := by
  intro s i b hi
  obtain ⟨emit, hemit, hexec⟩ := exec_closesBlock hi
  refine ⟨fun hl href => ?_, fun hl hf hin => ⟨fun v hv hp => ?_, fun hs hb hshort => ?_⟩, fun t ht => ?_⟩
  · rw [hexec, execute_live hl, closeBody_refused (blockRefusal_some href)]
    rfl
  · obtain ⟨hfr, hs, hm⟩ := beforeBlock_leaves hl.2 hf hv
    have hlv : v.live := ⟨hfr.fault.trans hl.1, by rw [hs]; decide⟩
    refine ⟨hs, hm, ?_⟩
    rw [hexec, hexec, execute_live hl, execute_live hlv, closeBody_of_beforeBlock hl.2 hf hin hv hp]
  · obtain ⟨t, ht, hdel, heq, hout⟩ := closeBody_short hs hb hin hshort emit
    refine ⟨report .buf t, ?_, ⟨hdel.bytes, hdel.elsewhere, hdel.outPtr, hdel.outAvail, hdel.totalOut⟩, ?_, hout⟩
    · rw [hexec, execute_live hl, ht]
      rfl
    · conv_lhs => rw [heq]
      rfl
  · rw [hexec] at ht
    obtain ⟨u, c, f, hu, rfl, hfault⟩ := execute_headerFrame (closeBody_headerFrame hemit b) ht
    refine ⟨?_, hfault, hu.fresh, hu.mat, ?_, fun hs => (hu.checksum hs).2, ?_, ?_, ?_, ?_⟩
    · conv_lhs => rw [hu.regs]
      rfl
    all_goals rw [hu.only]

end Sys2Proof.Machine
end

section
/-! SUPPORT. The prologue of every instruction as one equation (R280, R327), the commands whose body is one change of the state
(`INIT`, `RESET`, `END`, `SET_INPUT`, `SET_OUTPUT`), and the settled statements about them. -/

namespace Sys2Proof.Machine

open Proc

/-! The prologue. -/

/-- What the prologue lets an instruction through in (R280): `INIT` always, `END` under a fault too. -/
def instrAdmission : Instr → Admission
  | .init _ _ _ _ _ => ⟨true, true⟩
  | .endSession => ⟨true, false⟩
  | _ => ⟨false, false⟩

/-- Every instruction is the prologue with its admission in front of some body. -/
theorem exec_eq_execute (i : Instr) : ∃ body, ∀ s, exec i s = execute i.wellFormed (instrAdmission i) body s := by
  cases i <;> exact ⟨_, fun _ => rfl⟩

/-- Without a session only `INIT` is let through. -/
theorem instrAdmission_whileUnconf (i : Instr) : (instrAdmission i).whileUnconf = createsSession i := by cases i <;> rfl

/-- Under a fault only `INIT` and `END` are let through. -/
theorem instrAdmission_whileFault {i : Instr} (hi : createsSession i = false) (he : i ≠ .endSession) :
    (instrAdmission i).whileFault = false := by
  cases i with
  | init => cases hi
  | endSession => exact absurd rfl he
  | _ => rfl

/-- Settles O12: the prologue in front of the instruction's body refuses in this order, and each refusal is a `report`. -/
theorem prologueRefusals : Obligations.PrologueRefusals := by
  intro i s
  obtain ⟨body, hexec⟩ := exec_eq_execute i
  rw [hexec]
  refine ⟨fun hw => ?_, fun hw hf hi he => ?_, fun hw hf hs hi => ?_⟩ <;> rw [hw]
  · exact execute_illegal _ _ _
  · exact execute_faulted hf (instrAdmission_whileFault hi he)
  · refine execute_unconf ?_ hs ((instrAdmission_whileUnconf i).trans hi)
    rcases hf with hf | rfl
    · exact .inl hf
    · exact .inr rfl

/-! Sessions begin and end. -/

/-- Every entry below `n` of a cleared prefix is 0, whatever `n` is. -/
theorem Ram.get_clearBelow_of_lt {w : Nat} (m : Ram w) {n i : Nat} (h : i < n) : (m.clearBelow n).get i = 0#w :=
  (Ram.getAt_mapBelowAt rfl _ m n i).trans (if_pos ((Nat.mod_le _ _).trans_lt h))

/-- What `SessionReset` leaves, element by element (R282). -/
theorem State.sessionReset_start (s : State) : s.sessionReset.SessionStart s.conf := by
  obtain ⟨hlit, hdist, hlen, hopt, hstatic, hlast, hmatch, -⟩ := initBlockStatistics s.cod
  exact {
    totals := ⟨rfl, rfl⟩
    flags := ⟨rfl, rfl⟩
    stream := rfl
    checksum := rfl
    flush := rfl
    packer := ⟨rfl, rfl, rfl, rfl⟩
    coder := ⟨rfl, rfl, rfl, rfl⟩
    block := ⟨hopt, hstatic, hlast, hmatch⟩
    literals := hlit
    distances := hdist
    lengths := hlen
    window := fun _ hi => Ram.get_clearBelow_of_lt s.mat.window hi
    head := fun _ hi => Ram.get_clearBelow_of_lt s.mat.head hi
    prev := fun _ hi => Ram.get_clearBelow_of_lt s.mat.prev hi
    cursors := ⟨rfl, rfl, rfl, rfl⟩
    matching := ⟨rfl, rfl, rfl, rfl, rfl⟩
    tuning := rfl }

/-- `INIT` ends in the session reset, with the configuration that its fields name (R281). -/
theorem State.initSession_start (s : State) (level : BitVec 4) (strategy : BitVec 2) (windowBits memLevel : BitVec 4)
    (wrap : BitVec 2) : (s.initSession level strategy windowBits memLevel wrap).SessionStart
      (s.conf.ofFields level strategy windowBits memLevel wrap) :=
  State.sessionReset_start (clearFault ((State.setInputSpan
    { s with conf := s.conf.ofFields level strategy windowBits memLevel wrap, cks := { s.cks with unit := unitFor wrap } }
    0#32 0#32 false).setOutputSpan 0#32 0#32 false))

/-- `CFG` reads 0 once its fields are cleared (R288). -/
theorem cfgWord_clearFields (c : Conf) : c.clearFields.cfgWord = 0#32 := by
  show 0#6 ++ 0#2 ++ 0#4 ++ 0#4 ++ 0#2 ++ 0#2 ++ 0#4 ++ 0#8 = 0#32
  decide

/-- `STATUS.CODE` is none of the elements a session starts with. -/
theorem State.SessionStart.report {c : Conf} {t : State} (h : t.SessionStart c) (st : Status) :
    (Machine.report st t).SessionStart c := { h with }

/-- Settles O13: `INIT` is let through in every state; it writes the configuration, clears the spans and the fault, and resets
the session (`initSession_start`). -/
theorem initResult : Obligations.InitResult := by
  intro s level strategy windowBits memLevel wrap hw
  have hexec : exec (.init level strategy windowBits memLevel wrap) s
      = .next (report .ok (s.initSession level strategy windowBits memLevel wrap)) := by
    show execute (Instr.init level strategy windowBits memLevel wrap).wellFormed _ _ s = _
    rw [hw, execute_always]
    exact finish_answerOk _ _
  refine ⟨_, s.conf.ofFields level strategy windowBits memLevel wrap, hexec, (s.initSession_start ..).report .ok, ?_⟩
  exact ⟨rfl, rfl, rfl, rfl, rfl, rfl, rfl, rfl, rfl, rfl, rfl, rfl, rfl, rfl, rfl, rfl, rfl, rfl, rfl, rfl, rfl, rfl, rfl, rfl, rfl,
    rfl, rfl, rfl, rfl, rfl, rfl, rfl, rfl⟩

/-- A command of one change in a live session. -/
theorem execute_live_answerOk {s : State} (h : s.live) (f : State → State) :
    execute true ⟨false, false⟩ (answerOk f) s = .next (report .ok (f s)) :=
  (execute_live h).trans (finish_answerOk f s)

/-- Settles O14: `RESET` is the session reset (`sessionReset_start`). -/
theorem resetResult : Obligations.ResetResult := fun s hl =>
  ⟨_, execute_live_answerOk hl State.sessionReset, s.sessionReset_start.report .ok, rfl, rfl, rfl, rfl, rfl, rfl, rfl⟩

/-- Settles O15: `END` is let through under a fault; it clears the fields that `CFG` shows, the spans and the fault. -/
theorem endResult : Obligations.EndResult := fun s hs =>
  ⟨report .ok s.endSession, (execute_admitted (.inr rfl) (.inl hs)).trans (finish_answerOk _ _),
    cfgWord_clearFields s.conf, rfl, rfl, rfl, rfl, rfl, rfl, rfl, rfl, rfl⟩

/-! Spans. -/

/-- Settles O16: each is one change of a live session's registers. -/
theorem spanCommandsLoadSpans : Obligations.SpanCommandsLoadSpans := fun _ hl =>
  ⟨execute_live_answerOk hl _, execute_live_answerOk hl _⟩

end Sys2Proof.Machine
end

section
/-! SUPPORT. `SET_DICT` (R72, R286): its two refusals, what reading the dictionary does byte by byte, that entering its strings
keeps every position in range, its frame whatever it answers, and the settled statements about it. -/

namespace Sys2Proof.Machine

open Proc

/-! Refusals. -/

theorem setDictBody_gzip {s : State} (h : s.conf.wrap = wrapGzip) : setDictBody s = (.ok .errParam, s) := by
  unfold setDictBody
  rw [get_bind_run, ite_run, if_pos h, pure_run]

theorem setDictBody_stale {s : State} (h : s.conf.wrap ≠ wrapGzip) (hf : s.regs.fresh = false) :
    setDictBody s = (.ok .errProtocol, s) := by
  unfold setDictBody
  rw [get_bind_run, ite_run, if_neg h, ite_run, if_pos hf, pure_run]

/-- Settles O17: the two checks in their order, each with its answer. -/
theorem setDictRefusals : Obligations.SetDictRefusals := by
  intro s hl
  have hexec : exec .setDict s = finishCommand (setDictBody s) := execute_live hl
  rw [hexec]
  refine ⟨fun hw => ?_, fun hw hf => ?_⟩
  · rw [setDictBody_gzip hw]
    rfl
  · rw [setDictBody_stale hw hf]
    rfl

/-- The cursors set behind the `k` bytes loaded, and their strings entered (R286). -/
def enterDict (c : Conf) (k : Nat) : Proc State Unit := do
  onMatcher (modify fun m => { m with strStart := BitVec.ofNat 17 k, blockStart := BitVec.ofNat 32 k })
  onMatcher (seedHash c 0)
  onMatcher (insertAll c (k - minMatch + 1) 0)

/-- An accepted `SET_DICT`: the dictionary is read, and one that is long enough is entered (R286). -/
theorem setDictBody_accepted {s : State} (hw : s.conf.wrap ≠ wrapGzip) (hf : s.regs.fresh = true) :
    setDictBody s = (readDict s.regs.arg0 (s.regs.arg1.toNat - dictKept s.conf s.regs.arg1.toNat) s.regs.arg1.toNat 0 >>= fun _ =>
      if s.regs.arg1.toNat < minMatch then pure .ok
      else enterDict s.conf (dictKept s.conf s.regs.arg1.toNat) >>= fun _ => checkBoundary >>= fun _ => pure .ok) s.opened := by
  unfold setDictBody enterDict
  rw [get_bind_run, ite_run, if_neg hw, ite_run, if_neg (by rw [hf]; decide), modify_bind_run]
  simp only [bind_assoc]
  rfl

/-! Reading the dictionary. -/

/-- The state after the dictionary's byte `i` was read (R72). -/
def State.tookByte (s : State) (index i : Nat) (b : Byte) : State :=
  { s with
    cks := if s.conf.wrap = 1#2 then { s.cks with ck := s.cks.unit.update s.cks.ck b } else s.cks
    mat := { s.mat with window := if index ≤ i then s.mat.window.set (i - index) b else s.mat.window } }

/-- One turn of the loop of R72. -/
theorem readDict_succ {addr : Word} {index r i : Nat} {s : State} {b : Byte}
    (hb : s.hostMem.get (addr + BitVec.ofNat 32 i).toNat = some b) (hroom : i < index + s.conf.windowBufSize) :
    readDict addr index (r + 1) i s = readDict addr index r (i + 1) (s.tookByte index i b) := by
  have hck : onlyIf (s.conf.wrap = wrapZlib) (ckUpdate b) s = (.ok (), { s with
      cks := if s.conf.wrap = 1#2 then { s.cks with ck := s.cks.unit.update s.cks.ck b } else s.cks }) := by
    rw [onlyIf_run]
    by_cases hz : s.conf.wrap = 1#2
    · rw [if_pos (show s.conf.wrap = wrapZlib from hz), if_pos hz]
      rfl
    · rw [if_neg (show ¬s.conf.wrap = wrapZlib from hz), if_neg hz]
  conv_lhs => unfold readDict
  rw [bind_ok (memRead_run hb), get_bind_run, bind_ok hck]
  unfold State.tookByte
  by_cases hi : index ≤ i
  · rw [bind_run, onlyIf_run, if_pos hi, require_bind_run, if_pos (decide_eq_true (by omega)), if_pos hi]
    rfl
  · rw [bind_run, onlyIf_run, if_neg hi, if_neg hi]

/-- A span's bytes, the first one apart. -/
theorem spanBytes_succ {s : State} {addr : Word} {i n : Nat} {b : Byte}
    (hb : s.hostMem.get (addr + BitVec.ofNat 32 i).toNat = some b) :
    s.spanBytes (addr + BitVec.ofNat 32 i) (n + 1) = b :: s.spanBytes (addr + BitVec.ofNat 32 (i + 1)) n := by
  have hnext (k : Nat) : addr + BitVec.ofNat 32 (i + 1) + BitVec.ofNat 32 k
      = addr + BitVec.ofNat 32 i + BitVec.ofNat 32 (k + 1) := by
    simp only [BitVec.add_assoc, ← BitVec.ofNat_add]
    congr 2
    omega
  unfold State.spanBytes
  rw [List.range_succ_eq_map, List.map_cons, List.map_map, BitVec.add_zero, hb]
  simp only [hnext]
  rfl

/-- What the loop of R72 leaves after the bytes `i .. i + r - 1`: those from `index` on stand in the window, each at its distance
from `index`, a zlib session's checksum covers them all, and nothing else changed. -/
structure State.ReadDict (s t : State) (addr : Word) (index r i : Nat) : Prop where
  only : t = { s with mat := { s.mat with window := t.mat.window }, cks := t.cks }
  loaded : ∀ x, i ≤ index + x → index + x < i + r →
    some (t.mat.window.get x) = s.hostMem.get (addr + BitVec.ofNat 32 (index + x)).toNat
  kept : ∀ x, x < 2 ^ 17 → index + x < i ∨ i + r ≤ index + x → t.mat.window.get x = s.mat.window.get x
  unloaded : i + r ≤ index → t.mat.window = s.mat.window
  checksum : t.cks = if s.conf.wrap = 1#2 then
    { s.cks with ck := s.cks.unit.fold s.cks.ck (s.spanBytes (addr + BitVec.ofNat 32 i) r) } else s.cks

theorem readDict_run {addr : Word} {index : Nat} : ∀ (r i : Nat) (s : State), i + r ≤ index + s.conf.windowBufSize →
    (index < i + r → s.conf.windowBufSize ≤ 2 ^ 17) →
    (∀ j, i ≤ j → j < i + r → (s.hostMem.get (addr + BitVec.ofNat 32 j).toNat).isSome = true) →
    ∃ t, readDict addr index r i s = (.ok (), t) ∧ s.ReadDict t addr index r i
  | 0, i, s, _, _, _ =>
    ⟨s, rfl, rfl, fun x _ _ => by omega, fun _ _ _ => rfl, fun _ => rfl, by simp [State.spanBytes, ChecksumUnit.fold]⟩
  | r + 1, i, s, hroom, hwin, hread => by
    obtain ⟨b, hb⟩ := Option.isSome_iff_exists.1 (hread i (Nat.le_refl i) (by omega))
    obtain ⟨t, ht, h⟩ := readDict_run r (i + 1) (s.tookByte index i b) (by show _ ≤ index + s.conf.windowBufSize; omega)
      (fun h => hwin (by omega)) fun j hj hj' => hread j (by omega) (by omega)
    have hwindow (x : Nat) (hx : x < 2 ^ 17) : (s.tookByte index i b).mat.window.get x
        = if index + x = i then b else s.mat.window.get x := by
      show (if index ≤ i then s.mat.window.set (i - index) b else s.mat.window).get x = _
      split
      case isTrue hi =>
        have := hwin (by omega)
        rw [Ram.get_set (by unfold ramBits; omega) (by unfold ramBits; omega)]
        exact if_congr (by omega) rfl rfl
      case isFalse hi => rw [if_neg (by omega)]
    refine ⟨t, (readDict_succ hb (by omega)).trans ht, ?_, fun x hx hx' => ?_, fun x hx hx' => ?_, fun hend => ?_, ?_⟩
    · conv_lhs => rw [h.only]
      rfl
    · have := hwin (by omega)
      by_cases hi : index + x = i
      · rw [h.kept x (by omega) (by omega), hwindow x (by omega), if_pos hi, hi, hb]
      · exact h.loaded x (by omega) (by omega)
    · rw [h.kept x hx (by omega), hwindow x hx, if_neg (by omega)]
    · rw [h.unloaded (by omega)]
      exact if_neg (by omega)
    · rw [h.checksum, spanBytes_succ hb]
      show (if s.conf.wrap = 1#2 then _ else if s.conf.wrap = 1#2 then _ else s.cks) = _
      split
      case isTrue hz =>
        unfold State.tookByte
        rw [if_pos hz]
        rfl
      case isFalse => rfl

/-- Settles O18: the bytes are read (`readDict_run`); none of them is kept, and the command ends there. -/
theorem setDictShortIsAccepted : Obligations.SetDictShortIsAccepted := by
  intro s hl hw hf hn hread
  have hkept : dictKept s.conf s.regs.arg1.toNat = 0 := if_pos hn
  obtain ⟨t, ht, h⟩ := readDict_run (addr := s.regs.arg0) (index := s.regs.arg1.toNat) s.regs.arg1.toNat 0 s.opened (by omega)
    (by omega) fun j _ hj => hread j (by omega)
  have hexec : exec .setDict s = .next (report .ok t) := by
    show execute true _ setDictBody s = _
    rw [execute_live hl, setDictBody_accepted hw hf, hkept, Nat.sub_zero, bind_ok ht, ite_run,
      if_pos (show s.regs.arg1.toNat < minMatch from hn)]
    rfl
  have hck := h.checksum
  rw [BitVec.add_zero] at hck
  rw [hexec, h.only, h.unloaded (by omega), hck]
  rfl

/-! Entering the dictionary's strings. -/

/-- Storing a value that passes keeps the check over a prefix. -/
theorem Ram.allBelow_set {w : Nat} {p : BitVec w → Bool} (hp : p 0#w = true) {m : Ram w} {n i : Nat} {v : BitVec w}
    (h : m.allBelow n p = true) (hi : i < 2 ^ ramBits) (hv : p v = true) : (m.set i v).allBelow n p = true := by
  rw [Ram.allBelow_iff hp] at h ⊢
  intro j hj hjn
  rw [Ram.get_set hi hj]
  split
  · exact hv
  · exact h j hj hjn

/-- Every position in `head` and `prev` is in range (R34). -/
def Matcher.PositionsOk (c : Conf) (m : Matcher) : Prop :=
  m.head.allBelow c.hashSize c.positionOk = true ∧ m.prev.allBelow c.windowSize c.positionOk = true

theorem matcher_cursorsOk_iff (c : Conf) (m : Matcher) : m.cursorsOk c = true
    ↔ m.strStart.toNat + m.lookahead.toNat ≤ c.windowBufSize ∧ m.blockStart.toInt ≤ m.strStart.toNat ∧ m.PositionsOk c := by
  simp [Matcher.cursorsOk, Matcher.PositionsOk, and_assoc]

/-- Only the hash memories and the hash value changed. -/
def Matcher.Rehashed (m l : Matcher) : Prop := l = { m with head := l.head, prev := l.prev, insH := l.insH }

/-- Entering the strings at `p .. p + r - 1`, which lie in the window (R202, R286). -/
theorem insertAll_run {c : Conf} (hs : c.Sizes) : ∀ (r p : Nat) (m : Matcher), p + r + 2 ≤ c.windowBufSize → m.PositionsOk c →
    ∃ l, insertAll c r p m = (.ok (), l) ∧ m.Rehashed l ∧ l.PositionsOk c
  | 0, _, m, _, hm => ⟨m, rfl, rfl, hm⟩
  | r + 1, p, m, hend, hm => by
    obtain ⟨hwin0, hwin, -, hhash, -⟩ := hs.bounds
    obtain ⟨hhead, hprev⟩ := hm
    have hbuf : c.windowBufSize = 2 * c.windowSize := rfl
    have hram : 2 ^ ramBits = 131072 := rfl
    have hidx : (hashStep c m.insH (m.window.get (p + 2))).toNat < c.hashSize := by
      rw [toNat_hashStep hs]
      exact hs.and_hashMask_lt _
    have hold := (Ram.allBelow_iff hs.positionOk_zero _ _).1 hhead _ (by omega) hidx
    have hpos : c.positionOk (BitVec.ofNat 16 p) = true := by
      refine decide_eq_true ?_
      rw [BitVec.toNat_ofNat, Nat.mod_eq_of_lt (by omega)]
      unfold minMatch
      omega
    have hslot : p % c.windowSize < c.windowSize := Nat.mod_lt _ (by omega)
    have hidx' := hidx.trans_le (hhash.trans (by omega : 2 ^ 16 ≤ 2 ^ ramBits))
    have hslot' := hslot.trans_le (hwin.trans (by omega : 2 ^ 15 ≤ 2 ^ ramBits))
    have hstep : Matcher.PositionsOk c { m with
        insH := hashStep c m.insH (m.window.get (p + 2))
        prev := m.prev.set (p % c.windowSize) (m.head.get (hashStep c m.insH (m.window.get (p + 2))).toNat)
        head := m.head.set (hashStep c m.insH (m.window.get (p + 2))).toNat (BitVec.ofNat 16 p) } :=
      ⟨Ram.allBelow_set hs.positionOk_zero hhead hidx' hpos, Ram.allBelow_set hs.positionOk_zero hprev hslot' hold⟩
    obtain ⟨l, hl, hre, hok⟩ := insertAll_run hs r (p + 1) _ (by omega) hstep
    refine ⟨l, ?_, hre, hok⟩
    conv_lhs => unfold insertAll
    rw [bind_ok (insertString_run hs (by omega) rfl)]
    exact hl

/-- The hash of the first two bytes of the window's string (R207, R286). -/
theorem seedHash_run {c : Conf} {pos : Nat} {m : Matcher} (h : pos + 1 < c.windowBufSize) :
    ∃ v, seedHash c pos m = (.ok (), { m with insH := v }) := by
  unfold seedHash
  rw [bind_ok (by rw [getWindow_run]; exact if_pos (by omega)), modify_bind_run,
    bind_ok (by rw [getWindow_run]; exact if_pos h)]
  exact ⟨_, rfl⟩

/-- A dictionary of at least `MIN_MATCH` bytes keeps at least so many. -/
theorem dictKept_eq {c : Conf} {n : Nat} (h : minMatch ≤ n) : dictKept c n = min n c.maxDist := if_neg (by omega)

/-- The match finder in which a dictionary of `k` bytes, read into `m`, was entered as `l`. -/
structure Matcher.Entered (c : Conf) (m l : Matcher) (k : Nat) : Prop where
  only : l = { m with
    head := l.head, prev := l.prev, insH := l.insH, strStart := BitVec.ofNat 17 k, blockStart := BitVec.ofNat 32 k }
  positions : l.PositionsOk c

theorem enterDict_run {s : State} {k : Nat} (hs : s.conf.Sizes) (hk : minMatch ≤ k) (hmax : k ≤ s.conf.maxDist)
    (hm : s.mat.PositionsOk s.conf) :
    ∃ l, enterDict s.conf k s = (.ok (), { s with mat := l }) ∧ s.mat.Entered s.conf l k := by
  have hbuf : s.conf.windowBufSize = 2 * s.conf.windowSize := rfl
  obtain ⟨hwin, -⟩ := hs.bounds
  have hdist := hs.maxDist
  obtain ⟨v, hv⟩ := seedHash_run (c := s.conf) (pos := 0)
    (m := { s.mat with strStart := BitVec.ofNat 17 k, blockStart := BitVec.ofNat 32 k }) (by omega)
  obtain ⟨l, hl, hre, hok⟩ := insertAll_run hs (k - minMatch + 1) 0
    { s.mat with strStart := BitVec.ofNat 17 k, blockStart := BitVec.ofNat 32 k, insH := v } (by unfold minMatch at *; omega) hm
  refine ⟨l, ?_, hre, hok⟩
  unfold enterDict
  rw [bind_ok (onMatcher_ok (modify_run _ _)), bind_ok (onMatcher_ok hv), onMatcher_ok hl]

/-- Behind a dictionary that was entered with nothing ahead of it the match finder's cursors are in order. -/
theorem Matcher.Entered.cursorsOk {c : Conf} {m l : Matcher} {k : Nat} (h : m.Entered c l k) (hs : c.Sizes)
    (hk : k ≤ c.maxDist) (hla : m.lookahead = 0#17) : l.cursorsOk c = true := by
  have hbuf : c.windowBufSize = 2 * c.windowSize := rfl
  obtain ⟨hwin0, hwin, -⟩ := hs.bounds
  have hmax := hs.maxDist
  have hk17 : (BitVec.ofNat 17 k).toNat = k := by rw [BitVec.toNat_ofNat, Nat.mod_eq_of_lt (by omega)]
  have hk32 : (BitVec.ofNat 32 k).toInt = k := by
    rw [BitVec.toInt_eq_toNat_of_lt] <;> rw [BitVec.toNat_ofNat, Nat.mod_eq_of_lt (by omega)]
    omega
  refine (matcher_cursorsOk_iff _ _).2 ⟨?_, ?_, h.positions⟩ <;> rw [h.only]
  · show (BitVec.ofNat 17 k).toNat + m.lookahead.toNat ≤ c.windowBufSize
    rw [hk17, hla, BitVec.toNat_zero]
    omega
  · show (BitVec.ofNat 32 k).toInt ≤ (BitVec.ofNat 17 k).toNat
    rw [hk17, hk32]

/-- Settles O19: the bytes are read (`readDict_run`), the cursors set behind them and their strings entered (`enterDict_run`), with
every position in range, so that the check of R34 passes. -/
theorem setDictLoadsWindow : Obligations.SetDictLoadsWindow := by
  intro s hl hc hb hw hf hla hn hread
  have hs := hc.toSizes
  obtain ⟨hwin0, hwin, -⟩ := hs.bounds
  have hbuf : s.conf.windowBufSize = 2 * s.conf.windowSize := rfl
  have hmax := hs.maxDist
  obtain ⟨hm, hp, hcod⟩ := (boundaryOk_iff s).1 hb
  obtain ⟨-, -, hpos⟩ := (matcher_cursorsOk_iff _ _).1 hm
  obtain ⟨k, hk⟩ : ∃ k, k = min s.regs.arg1.toNat s.conf.maxDist := ⟨_, rfl⟩
  have hk3 : minMatch ≤ k := by unfold minMatch; omega
  rw [← hk]
  obtain ⟨t, ht, h⟩ := readDict_run (addr := s.regs.arg0) (index := s.regs.arg1.toNat - k) s.regs.arg1.toNat 0 s.opened
    (by show _ ≤ _ + s.conf.windowBufSize; omega) (fun _ => by show s.conf.windowBufSize ≤ _; omega) fun j _ hj => hread j (by omega)
  obtain ⟨hconf, hpk, hcod', hmat⟩ : t.conf = s.conf ∧ t.pk = s.pk ∧ t.cod = s.cod
      ∧ t.mat = { s.mat with window := t.mat.window } := by
    rw [h.only]
    exact ⟨rfl, rfl, rfl, rfl⟩
  obtain ⟨l, hent, hl'⟩ := enterDict_run (s := t) (hconf.symm ▸ hs) hk3 (by rw [hconf]; omega) (by rw [hconf, hmat]; exact hpos)
  rw [hconf] at hl'
  have hlm := hl'.only
  have hwindow : l.window = t.mat.window := by rw [hlm]
  have hbound : State.boundaryOk { t with mat := l } = true := by
    refine (boundaryOk_iff _).2 ?_
    show l.cursorsOk t.conf = true ∧ t.pk.cursorsOk t.conf = true ∧ t.cod.cursorsOk t.conf = true
    rw [hconf, hpk, hcod']
    exact ⟨hl'.cursorsOk hs (by omega) (by rw [hmat]; exact hla), hp, hcod⟩
  have hcks := h.checksum
  rw [BitVec.add_zero] at hcks
  refine ⟨report .ok { t with mat := l }, ?_, ?_, ?_, fun i hi => ?_, fun i hi hi' => ?_, hcks, hconf, hpk, hcod', ?_, ?_, ?_, ?_⟩
  · show execute true _ setDictBody s = _
    rw [execute_live hl, setDictBody_accepted hw hf, dictKept_eq hn, ← hk, bind_ok ht, ite_run,
      if_neg (show ¬s.regs.arg1.toNat < minMatch from Nat.not_lt.2 hn), ← hconf, bind_ok hent,
      bind_ok (checkBoundary_run hbound)]
    rfl
  · rw [h.only]
    rfl
  · show l = _
    conv_lhs => rw [hlm, hmat]
    rw [← hwindow]
    rfl
  · show some (l.window.get i) = _
    rw [hwindow]
    exact h.loaded i (by omega) (by omega)
  · show l.window.get i = _
    rw [hwindow]
    exact h.kept i hi (by omega)
  all_goals
    rw [h.only]
    rfl

/-! The frame. -/

/-- What entering a dictionary may change in the match finder. -/
def Matcher.DictFrame (m l : Matcher) : Prop :=
  l = { m with
    window := l.window, head := l.head, prev := l.prev, strStart := l.strStart, blockStart := l.blockStart, insH := l.insH }

theorem Matcher.DictFrame.refl (m : Matcher) : m.DictFrame m := rfl

theorem Matcher.DictFrame.trans (m l k : Matcher) (h : m.DictFrame l) (h' : l.DictFrame k) : m.DictFrame k := by
  unfold Matcher.DictFrame at *
  conv_lhs => rw [h', h]

theorem getWindow_dictFrame (c : Conf) (i : Nat) : Rel Matcher.DictFrame (getWindow c i) := fun m => by
  rw [getWindow_run]
  split <;> rfl

theorem seedHash_dictFrame (c : Conf) (pos : Nat) : Rel Matcher.DictFrame (seedHash c pos) :=
  Rel.bind Matcher.DictFrame.trans (getWindow_dictFrame c _) fun _ => Rel.bind Matcher.DictFrame.trans (Rel.modify fun _ => rfl) fun _ =>
    Rel.bind Matcher.DictFrame.trans (getWindow_dictFrame c _) fun _ => Rel.modify fun _ => rfl

/-- Sequencing after reading the state: the rest has to keep what relates the state that was read to the present one. -/
theorem rel_get_bind {σ β : Type} {R : σ → σ → Prop} (hr : ∀ s, R s s) {f : σ → Proc σ β}
    (h : ∀ s, Rel (fun t u => R s t → R s u) (f s)) : Rel R ((MonadState.get : Proc σ σ) >>= f) :=
  Rel.get_bind fun s => h s s (hr s)

theorem insertString_dictFrame (c : Conf) (pos : Nat) : Rel Matcher.DictFrame (insertString c pos) := by
  refine Rel.bind Matcher.DictFrame.trans (getWindow_dictFrame c _) fun _ =>
    Rel.bind Matcher.DictFrame.trans (Rel.modify fun _ => rfl) fun _ => rel_get_bind Matcher.DictFrame.refl fun m => ?_
  have trans {P : Matcher → Prop} : ∀ s t u, (P s → P t) → (P t → P u) → P s → P u := fun _ _ _ h h' hs => h' (h hs)
  exact Rel.bind trans (Rel.load (fun _ => id) _ _ _) fun _ => Rel.bind trans (Rel.stored (fun _ => id) _ _ _ _) fun _ =>
    Rel.bind trans (Rel.stored (fun _ => id) _ _ _ _) fun _ => Rel.bind trans (fun _ _ => rfl) fun _ => Rel.pure (fun _ => id) _

theorem insertAll_dictFrame (c : Conf) : ∀ r p, Rel Matcher.DictFrame (insertAll c r p)
  | 0, _ => Rel.pure Matcher.DictFrame.refl _
  | r + 1, p => Rel.bind Matcher.DictFrame.trans (insertString_dictFrame c p) fun _ => insertAll_dictFrame c r (p + 1)

/-- What `SET_DICT`'s body may change: the match finder within `DictFrame`, the checksum's value, and `fresh`, which only falls. -/
structure DictFrame (s t : State) : Prop where
  only : t = { s with regs := { s.regs with fresh := t.regs.fresh }, cks := { s.cks with ck := t.cks.ck }, mat := t.mat }
  fresh : t.regs.fresh = true → s.regs.fresh = true
  mat : s.mat.DictFrame t.mat

theorem DictFrame.refl (s : State) : DictFrame s s := ⟨rfl, id, rfl⟩

theorem DictFrame.trans (s t u : State) (h : DictFrame s t) (h' : DictFrame t u) : DictFrame s u where
  only := by
    conv_lhs => rw [h'.only, h.only]
  fresh := fun hu => h.fresh (h'.fresh hu)
  mat := h.mat.trans _ _ _ h'.mat

theorem DictFrame.fault {s t : State} (h : DictFrame s t) : t.regs.fault = s.regs.fault := by rw [h.only]

theorem onMatcher_dictFrame {α : Type} {p : Proc Matcher α} (h : Rel Matcher.DictFrame p) : Rel DictFrame (onMatcher p) :=
  fun s => ⟨rfl, id, h s.mat⟩

theorem memRead_dictFrame (addr : Word) : Rel DictFrame (memRead addr) :=
  Rel.get_bind fun s => by
    cases s.hostMem.get addr.toNat <;> exact .refl s

theorem readDict_dictFrame (addr : Word) (index : Nat) : ∀ r i, Rel DictFrame (readDict addr index r i)
  | 0, _ => Rel.pure DictFrame.refl _
  | r + 1, i =>
    Rel.bind DictFrame.trans (memRead_dictFrame _) fun _ => Rel.bind DictFrame.trans (Rel.get DictFrame.refl) fun _ =>
      Rel.bind DictFrame.trans (Rel.onlyIf DictFrame.refl fun _ => Rel.modify fun _ => ⟨rfl, id, rfl⟩) fun _ =>
      Rel.bind DictFrame.trans (Rel.onlyIf DictFrame.refl fun _ => Rel.bind DictFrame.trans (Rel.require DictFrame.refl _) fun _ =>
        onMatcher_dictFrame (Rel.modify fun _ => rfl)) fun _ => readDict_dictFrame addr index r (i + 1)

theorem enterDict_dictFrame (c : Conf) (k : Nat) : Rel DictFrame (enterDict c k) :=
  Rel.bind DictFrame.trans (onMatcher_dictFrame (Rel.modify fun _ => rfl)) fun _ =>
    Rel.bind DictFrame.trans (onMatcher_dictFrame (seedHash_dictFrame c 0)) fun _ => onMatcher_dictFrame (insertAll_dictFrame c _ _)

theorem setDictBody_dictFrame : Rel DictFrame setDictBody := by
  intro s
  by_cases hw : s.conf.wrap = wrapGzip
  · rw [setDictBody_gzip hw]
    exact .refl s
  cases hf : s.regs.fresh with
  | false =>
    rw [setDictBody_stale hw hf]
    exact .refl s
  | true =>
    rw [setDictBody_accepted hw hf]
    refine DictFrame.trans s s.opened _ ⟨rfl, fun _ => hf, rfl⟩ (Rel.bind DictFrame.trans (readDict_dictFrame _ _ _ _) (fun _ => ?_) _)
    refine Rel.ite (Rel.pure DictFrame.refl _) (Rel.bind DictFrame.trans (enterDict_dictFrame _ _) fun _ =>
      Rel.bind DictFrame.trans (Rel.get_bind fun t => ?_) fun _ => Rel.pure DictFrame.refl _)
    exact Rel.require DictFrame.refl _ t

/-- Settles O20: what the body leaves is within its frame, and the command's end sets the status and, with it, `fault`. -/
theorem setDictFrame : Obligations.SetDictFrame := by
  intro s t h
  obtain ⟨u, c, f, hu, rfl, hf, hc⟩ : ∃ u c f, DictFrame s u ∧ t = { u with regs := { u.regs with code := c, fault := f } }
      ∧ (s.regs.fault = true → f = true) ∧ (f = true → s.regs.fault = false → c = .errFatal) := by
    have hu := setDictBody_dictFrame s
    unfold exec execSetDict at h
    rcases execute_cases h with ⟨hl, -⟩ | ⟨-, hf, -, rfl⟩ | ⟨-, -, -, rfl⟩ | ⟨-, -, -, ⟨st, u, hr, rfl⟩ | ⟨u, hr, rfl⟩⟩
    · cases hl
    · exact ⟨s, _, s.regs.fault, .refl s, rfl, id, fun _ _ => rfl⟩
    · exact ⟨s, _, s.regs.fault, .refl s, rfl, id, fun h h' => by rw [h'] at h; cases h⟩
    · rw [hr] at hu
      have hfault : u.regs.fault = s.regs.fault := DictFrame.fault hu
      exact ⟨u, st, u.regs.fault, hu, rfl, fun h => hfault.trans h, fun h h' => by rw [hfault, h'] at h; cases h⟩
    · rw [hr] at hu
      exact ⟨u, _, true, hu, rfl, fun _ => rfl, fun _ _ => rfl⟩
  obtain ⟨honly, hfresh, hmat⟩ := hu
  unfold Matcher.DictFrame at hmat
  refine ⟨?_, hfresh, hf, hc, ?_, ?_, ?_, ?_, ?_, ?_, ?_, ?_, ?_, ?_, ?_, ?_, ?_, ?_⟩
  · conv_lhs => rw [honly]
  case refine_2 | refine_3 | refine_4 | refine_5 | refine_6 | refine_7 => rw [hmat]
  all_goals rw [honly]

end Sys2Proof.Machine
end

section
/-! SUPPORT. The entry of `STEP` and of `PARAMS` (R283, R287): when each is refused, what an accepted one runs, and the settled
statements about both. -/

namespace Sys2Proof.Machine

open Proc

/-! The entry checks of `STEP`. -/

theorem stepRefusal_noSpan {s : State} {flush : BitVec 3} (h : s.regs.outValid = false) :
    s.stepRefusal flush = some .errParam := if_pos h

/-- In `FINISH` only a `FINISH` without input goes on (checks 2 and 3). -/
theorem stepRefusal_finished {s : State} {flush : BitVec 3} (ho : s.regs.outValid = true) (hs : s.regs.sstate = .finish)
    (h : flush ≠ finishFlush ∨ s.regs.inAvail ≠ 0#32) : s.stepRefusal flush = some .errProtocol := by
  unfold State.stepRefusal
  rw [if_neg (by rw [ho]; decide)]
  by_cases hf : flush = finishFlush
  · rw [if_neg fun h => h.2 hf, if_pos ⟨hs, h.resolve_left fun h => h hf⟩]
  · rw [if_pos ⟨hs, hf⟩]

section Passed

variable {s : State} {flush : BitVec 3} (ho : s.regs.outValid = true)
  (hf : s.regs.sstate = .finish → flush = finishFlush ∧ s.regs.inAvail = 0#32)

include ho hf

/-- Past the first three checks the room in the output span decides. -/
theorem stepRefusal_passed : s.stepRefusal flush = if s.regs.outAvail = 0#32
    then some (if s.pk.pending ≠ s.pk.pendingOut then .errProtocol else .buf) else none := by
  unfold State.stepRefusal
  rw [if_neg (by rw [ho]; decide), if_neg fun h => h.2 (hf h.1).1, if_neg fun h => h.2 (hf h.1).2]

theorem stepRefusal_noRoom (hr : s.regs.outAvail = 0#32) :
    s.stepRefusal flush = some (if s.pk.pending ≠ s.pk.pendingOut then .errProtocol else .buf) :=
  (stepRefusal_passed ho hf).trans (if_pos hr)

theorem stepRefusal_none (hr : s.regs.outAvail ≠ 0#32) : s.stepRefusal flush = none :=
  (stepRefusal_passed ho hf).trans (if_neg hr)

end Passed

/-- A `STEP` that is refused changes nothing. -/
theorem stepBody_refused {s : State} {flush : BitVec 3} {st : Status} (h : s.stepRefusal flush = some st) :
    stepBody flush s = (.ok st, s) := by
  unfold stepBody
  rw [get_bind_run, h]
  rfl

/-- An accepted `STEP` that leaves the cursors in order passes the check of R34. -/
theorem stepBody_accepted {s t : State} {flush : BitVec 3} {st : Status} (h : s.stepRefusal flush = none)
    (ha : stepAccepted flush s = (.ok st, t)) (hb : t.boundaryOk = true) : stepBody flush s = (.ok st, t) := by
  unfold stepBody
  rw [get_bind_run, h]
  dsimp only
  rw [bind_ok ha, bind_ok (checkBoundary_run hb), pure_run]

/-- `STEP` with a legal flush in a live session is its body. -/
theorem exec_step {s : State} {flush : BitVec 3} (hl : s.live) (hf : flush.toNat ≤ 4) :
    exec (.step flush) s = finishCommand (stepBody flush s) := by
  show execute (flushLegal flush) _ _ s = _
  rw [show flushLegal flush = true from decide_eq_true hf, execute_live hl]

/-- Settles O21: each check by its lemma about `stepRefusal`; a refused body changes nothing. -/
theorem stepEntryChecks : Obligations.StepEntryChecks := by
  intro s flush hl hf
  rw [exec_step hl hf]
  refine ⟨fun ho => ?_, fun ho hs hne => ?_, fun ho hs _ hin => ?_, fun ho hfin hr => ?_⟩
  · rw [stepBody_refused (stepRefusal_noSpan ho)]
    rfl
  · rw [stepBody_refused (stepRefusal_finished ho hs (.inl hne))]
    rfl
  · rw [stepBody_refused (stepRefusal_finished ho hs (.inr hin))]
    rfl
  · rw [stepBody_refused (stepRefusal_noRoom ho hfin hr)]
    rfl

/-! `PARAMS`. -/

/-- `PARAMS` with legal fields in a live session is its body. -/
theorem exec_params {s : State} {level : BitVec 4} {strategy : BitVec 2} (hl : s.live)
    (hw : (Instr.params level strategy).wellFormed = true) :
    exec (.params level strategy) s = finishCommand (paramsBody level strategy s) := by
  show execute (Instr.params level strategy).wellFormed _ _ s = _
  rw [hw, execute_live hl]

/-- The parameters replaced in a configuration whose tuning values are those of its level (R10, R287). -/
theorem State.setParams_eq {s : State} (h : s.conf.loadTuning = s.conf) (level : BitVec 4) (strategy : BitVec 2) :
    s.setParams level strategy = { s with conf := { { s.conf with level := level }.loadTuning with strategy := strategy } } := by
  unfold State.setParams
  by_cases hl : level = s.conf.level
  · subst hl
    rw [if_neg (not_not.2 rfl)]
    show { s with conf := { s.conf with strategy := strategy } } = { s with conf := { s.conf.loadTuning with strategy := strategy } }
    rw [h]
  · rw [if_pos hl]

/-- Settles O30: without the flush the body is the change of the parameters. -/
theorem paramsImmediate : Obligations.ParamsImmediate := by
  intro s level strategy hl hc hw hfn
  have hflush : ¬s.paramsFlushes level = true := by
    unfold State.paramsFlushes Conf.fn
    rcases hfn with h | h <;> simp [h]
  rw [exec_params hl hw, paramsBody_run, if_neg hflush, State.setParams_eq hc.tuning]
  rfl

/-- A `PARAMS` whose flush is refused, with a status that ends it, changes nothing. -/
theorem paramsBody_refused {s : State} {level : BitVec 4} {strategy : BitVec 2} {st : Status}
    (hflush : s.paramsFlushes level = true) (hr : s.stepRefusal partialFlush = some st) (hb : s.paramsBlocked st = some st) :
    paramsBody level strategy s = (.ok st, s) := by
  rw [paramsBody_run, if_pos hflush, stepBody_refused hr]
  dsimp only
  rw [hb]

/-- Settles O31: the flush is needed, the entry checks of `STEP` refuse it, and each of their answers ends `PARAMS`. -/
theorem paramsFlushRefused : Obligations.ParamsFlushRefused := by
  intro s level strategy hl hw hfn hin
  have hflush : s.paramsFlushes level = true := by
    unfold State.paramsFlushes Conf.fn
    simp [hfn, hin]
  rw [exec_params hl hw]
  refine ⟨fun ho => ?_, fun ho hs => ?_, fun ho hs hr => ?_⟩
  · rw [paramsBody_refused hflush (stepRefusal_noSpan ho) (by simp [State.paramsBlocked])]
    rfl
  · rw [paramsBody_refused hflush (stepRefusal_finished ho hs (.inl (by decide))) (by simp [State.paramsBlocked])]
    rfl
  · rw [paramsBody_refused hflush (stepRefusal_noRoom ho (fun h => absurd h hs) hr) (by
      unfold State.paramsBlocked
      split <;> simp [hr])]
    rfl

/-- The parameters are all that `setParams` changes, and `wrap`, `windowBits` and `memLevel` are none of them. -/
theorem setParams_fields (s : State) (level : BitVec 4) (strategy : BitVec 2) :
    (s.setParams level strategy).conf.level = level ∧ (s.setParams level strategy).conf.strategy = strategy
    ∧ (s.setParams level strategy).conf.wrap = s.conf.wrap ∧ (s.setParams level strategy).conf.windowBits = s.conf.windowBits
    ∧ (s.setParams level strategy).conf.memLevel = s.conf.memLevel := by
  unfold State.setParams
  dsimp only
  split
  case isTrue => exact ⟨rfl, rfl, rfl, rfl, rfl⟩
  case isFalse h => exact ⟨(not_not.1 h).symm, rfl, rfl, rfl, rfl⟩

/-- Settles O32: a case analysis over what `PARAMS` can leave. -/
theorem paramsChangesOnOkOnly : Obligations.ParamsChangesOnOkOnly := by
  intro s t level strategy h
  obtain ⟨u, he, ⟨st, hst, rfl⟩ | rfl | rfl⟩ := execParams_cases h
  all_goals
    replace he := he.frame
    have hc := he.conf
  · refine ⟨fun hok => absurd hok hst, fun _ => hc, congrArg Conf.wrap hc, congrArg Conf.windowBits hc, congrArg Conf.memLevel hc,
      u, he, .inl ⟨st, ?_⟩⟩
    rw [← hc]
    rfl
  · refine ⟨nofun, fun _ => hc, congrArg Conf.wrap hc, congrArg Conf.windowBits hc, congrArg Conf.memLevel hc, u, he, .inr ?_⟩
    rw [← hc]
    rfl
  · obtain ⟨hlevel, hstrategy, hwrap, hwin, hmem⟩ := setParams_fields u level strategy
    rw [hc] at hwrap hwin hmem
    refine ⟨fun _ => ⟨hlevel, hstrategy⟩, fun hne => absurd rfl hne, hwrap, hwin, hmem, u, he, .inl ⟨.ok, ?_⟩⟩
    rw [← hc]
    rfl

end Sys2Proof.Machine
end

section
/-! SUPPORT. What a `STEP` writes that encodes nothing: the pending bytes delivered again (R297), the trailer (R293) and the wrapper
header (R290 to R292); how whole bytes are put into the pending buffer and delivered, and the settled statements. -/

namespace Sys2Proof.Machine

open Proc

/-! Bytes into the pending buffer. -/

/-- `l` is `k` with the bytes `bs` put behind its pending ones. -/
structure Packer.Put (k l : Packer) (bs : List Byte) : Prop where
  only : l = { k with pendingBuf := l.pendingBuf, pending := l.pending }
  pending : l.pending.toNat = k.pending.toNat + bs.length
  below : ∀ i, i < k.pending.toNat → l.pendingBuf.get i = k.pendingBuf.get i
  bytes : ∀ i, (h : i < bs.length) → l.pendingBuf.get (k.pending.toNat + i) = bs[i]

/-- `PutByte` of each byte, with room for all of them (R141). -/
theorem putBytes_put {cap : Nat} (hcap : cap ≤ 2 ^ 17) : ∀ (bs : List Byte) (k : Packer), k.pending.toNat + bs.length ≤ cap →
    ∃ l, putBytes cap bs k = (.ok (), l) ∧ k.Put l bs
  | [], k, _ => ⟨k, rfl, rfl, rfl, fun _ _ => rfl, fun _ h => absurd h (Nat.not_lt_zero _)⟩
  | b :: bs, k, hroom => by
    rw [List.length_cons] at hroom
    obtain ⟨m, hm⟩ : ∃ m : Packer,
      m = { k with pendingBuf := k.pendingBuf.set k.pending.toNat b, pending := k.pending + 1#18 } := ⟨_, rfl⟩
    have hpend : m.pending.toNat = k.pending.toNat + 1 := by
      rw [hm]
      show (k.pending + 1#18).toNat = _
      bv_omega
    have hget (i : Nat) (hi : i < cap) : m.pendingBuf.get i = if i = k.pending.toNat then b else k.pendingBuf.get i := by
      rw [hm]
      exact Ram.get_set (by unfold ramBits; omega) (by unfold ramBits; omega) _ _
    obtain ⟨l, hl, h⟩ := putBytes_put hcap bs m (by omega)
    refine ⟨l, ?_, ?_, ?_, fun i hi => ?_, fun i hi => ?_⟩
    · conv_lhs => unfold putBytes
      rw [bind_ok (putByte_room (by omega)), ← hm]
      exact hl
    · conv_lhs => rw [h.only, hm]
    · rw [h.pending, hpend, List.length_cons]
      omega
    · rw [h.below i (by omega), hget i (by omega), if_neg (by omega)]
    · cases i with
      | zero => rw [Nat.add_zero, h.below _ (by omega), hget _ (by omega), if_pos rfl]; rfl
      | succ i =>
        have hb := h.bytes i (by simpa using hi)
        rw [hpend, Nat.add_assoc, Nat.add_comm 1] at hb
        exact hb

theorem Packer.Put.biValid {k l : Packer} {bs : List Byte} (h : k.Put l bs) : l.biValid = k.biValid := by rw [h.only]

theorem Packer.Put.pendingOut {k l : Packer} {bs : List Byte} (h : k.Put l bs) : l.pendingOut = k.pendingOut := by rw [h.only]

/-- Behind an empty buffer the bytes put are the pending ones. -/
theorem Packer.Put.bytesFrom {k l : Packer} {bs : List Byte} (h : k.Put l bs) (h0 : k.pending = 0#18) :
    l.bytesFrom 0 l.pending.toNat = bs := by
  have hpend := h.pending
  rw [h0, BitVec.toNat_zero, Nat.zero_add] at hpend
  refine List.ext_getElem (by simpa using hpend) fun i _ hi => ?_
  have hb := h.bytes i hi
  rw [h0, BitVec.toNat_zero] at hb
  rw [Packer.getElem_bytesFrom, hb]

/-- Bytes put one list behind the other. -/
theorem putBytes_append (cap : Nat) (as bs : List Byte) :
    putBytes cap (as ++ bs) = putBytes cap as >>= fun _ => putBytes cap bs := by
  induction as with
  | nil => exact (pure_bind _ _).symm
  | cons a as ih =>
    show (putByte cap a >>= fun _ => putBytes cap (as ++ bs)) = (putByte cap a >>= fun _ => putBytes cap as) >>= _
    rw [ih, bind_assoc]

theorem putByte_eq_putBytes (cap : Nat) (b : Byte) : putByte cap b = putBytes cap [b] := (bind_pure _).symm

/-- A half word, high byte first (R143). -/
theorem putShortMSB_eq_putBytes (cap : Nat) (w : Half) :
    putShortMSB cap w = putBytes cap [w.extractLsb' 8 8, w.extractLsb' 0 8] := by
  unfold putShortMSB
  rw [putByte_eq_putBytes, putByte_eq_putBytes, ← putBytes_append]
  rfl

/-- The four bytes of a word, most significant byte first. -/
def bytesMSB (w : Word) : List Byte := [w.extractLsb' 24 8, w.extractLsb' 16 8, w.extractLsb' 8 8, w.extractLsb' 0 8]

/-- A field of a field. -/
theorem extractLsb'_extractLsb' {w n : Nat} (x : BitVec w) (a b m : Nat) (h : b + m ≤ n) :
    (x.extractLsb' a n).extractLsb' b m = x.extractLsb' (a + b) m := by
  refine BitVec.eq_of_getLsbD_eq fun i hi => ?_
  simp only [BitVec.getLsbD_extractLsb', hi, decide_true, Bool.true_and, Nat.add_assoc]
  rw [decide_eq_true (by omega), Bool.true_and]

theorem putWordMSB_eq_putBytes (cap : Nat) (w : Word) : putWordMSB cap w = putBytes cap (bytesMSB w) := by
  unfold putWordMSB
  rw [putShortMSB_eq_putBytes, putShortMSB_eq_putBytes, ← putBytes_append]
  simp only [extractLsb'_extractLsb', Nat.reduceAdd, Nat.reduceLeDiff]
  rfl

/-! Everything pending delivered. -/

/-- The state after the `n` bytes of the pending buffer were all delivered, host memory being `m`. -/
def State.drainedAll (s : State) (n : Nat) (m : Memory) : State :=
  { s.delivered n with hostMem := m, pk := { s.pk with pending := 0#18, pendingOut := 0#18 } }

/-- `FlushPending` with room for all that is pending from index 0 on (R71). -/
theorem flushPending_all {s : State} (h0 : s.pk.pendingOut = 0#18) (hn : s.pk.pending.toNat ≠ 0)
    (hcap : s.pk.pending.toNat ≤ s.conf.pendingBufSize) (hroom : s.pk.pending.toNat ≤ s.regs.outAvail.toNat) :
    ∃ m, flushPending s = (.ok (), s.drainedAll s.pk.pending.toNat m)
      ∧ s.Delivered (s.drainedAll s.pk.pending.toNat m) (s.pk.bytesFrom 0 s.pk.pending.toNat) := by
  have hout : s.pk.pendingOut.toNat = 0 := by rw [h0]; rfl
  have howed : s.pk.pending.toNat = min s.pk.owed s.regs.outAvail.toNat := by
    unfold Packer.owed
    omega
  obtain ⟨m, hrun, hdel⟩ := flushPending_run howed hn (by omega)
  rw [Packer.drained_meeting (by omega)] at hrun hdel
  rw [hout] at hdel
  exact ⟨m, hrun, hdel⟩

/-! What an accepted `STEP` runs. -/

/-- An accepted `STEP` that answers with the cursors in order. -/
theorem exec_step_accepted {s t : State} {flush : BitVec 3} {st : Status} (hl : s.live) (hf : flush.toNat ≤ 4)
    (hr : s.stepRefusal flush = none) (ha : stepAccepted flush s = (.ok st, t)) (hb : t.boundaryOk = true) :
    exec (.step flush) s = .next (report st t) := by
  rw [exec_step hl hf, stepBody_accepted hr ha hb]
  rfl

/-- A repeat delivers, and nothing else (R297). -/
theorem stepAccepted_repeat {s u : State} {flush : BitVec 3} (hu : stepHeader s.opened = (.ok (), u))
    (hrep : u.isRepeat flush = true) :
    stepAccepted flush s = (flushPending >>= fun _ => pure (if u.hasPending then .ok else .buf)) u := by
  unfold stepAccepted
  rw [modify_bind_run]
  show (stepHeader >>= _) s.opened = _
  rw [bind_ok hu, get_bind_run, ite_run, if_pos hrep]

/-- The state in which a step that is no repeat begins its work. -/
def State.begun (s : State) (flush : BitVec 3) : State := { s.opened with lastFlush := flushValue flush }

theorem hasPending_eq_false {s : State} (h : s.pk.pending = s.pk.pendingOut) : s.hasPending = false :=
  decide_eq_false (not_not.2 h)

/-- A step that is no repeat and finds nothing pending goes to work at once (R283). -/
theorem stepAccepted_fresh {s : State} {flush : BitVec 3} (hs : s.regs.sstate ≠ .init) (hrep : s.isRepeat flush = false)
    (hp : s.pk.pending = s.pk.pendingOut) : stepAccepted flush s = stepWork flush (s.begun flush) := by
  have hhead : stepHeader s.opened = (.ok (), s.opened) := stepHeader_idle hs
  have hrep' : s.opened.isRepeat flush = false := hrep
  unfold stepAccepted
  rw [modify_bind_run]
  show (stepHeader >>= _) s.opened = _
  rw [bind_ok hhead, get_bind_run, ite_run, hrep', if_neg Bool.false_ne_true, hasPending_eq_false (s := s.opened) hp]
  unfold stepFresh setLastFlush
  rw [modify_bind_run, ite_run, if_neg Bool.false_ne_true]
  rfl

/-- No `FINISH` is a repeat (R297). -/
theorem isRepeat_finish (s : State) : s.isRepeat finishFlush = false := by simp [State.isRepeat]

/-! Repeats. -/

/-- Settles O22: a repeat is `FlushPending`, which delivers what fits (`flushPendingDelivers`). -/
theorem stepRepeatOnlyDelivers : Obligations.StepRepeatOnlyDelivers := by
  intro s flush hl hb ho hs hr hin hf hle
  have hnr : s.stepRefusal flush = none := stepRefusal_none ho (fun h => by rw [hs] at h; cases h) hr
  have hhead : stepHeader s.opened = (.ok (), s.opened) := stepHeader_idle (show s.regs.sstate ≠ .init by rw [hs]; decide)
  have hrep : s.opened.isRepeat flush = true := by
    have hne : flush ≠ finishFlush := by rintro rfl; exact absurd hf (by decide)
    simp only [State.isRepeat, Bool.and_eq_true, decide_eq_true_eq]
    exact ⟨⟨hin, hle⟩, hne⟩
  have hacc := stepAccepted_repeat hhead hrep
  refine ⟨fun hp => ?_, fun hp => ?_⟩
  · refine exec_step_accepted (t := s.opened) hl (by omega) hnr ?_ hb
    have hidle : flushPending s.opened = (.ok (), s.opened) := flushPending_idle (by
      show min (s.pk.pending.toNat - s.pk.pendingOut.toNat) _ = 0
      rw [hp]
      omega)
    rw [hacc, bind_ok hidle, pure_run, hasPending_eq_false (s := s.opened) hp, if_neg Bool.false_ne_true]
  · obtain ⟨-, hpk, -⟩ := (boundaryOk_iff s).1 hb
    obtain ⟨hle', hcap, -⟩ := (packer_cursorsOk_iff _ _).1 hpk
    obtain ⟨n, hn⟩ : ∃ n, n = min (s.pk.pending.toNat - s.pk.pendingOut.toNat) s.regs.outAvail.toNat := ⟨_, rfl⟩
    obtain ⟨t, ht, hdel, heq, hnone, hmeet, hsome, -⟩ := flushPendingDelivers s.opened n hle' hcap hn
    obtain ⟨t', ht', hbt⟩ := flushPending_boundaryOk (u := s.opened) hb
    obtain rfl : t = t' := by rw [ht] at ht'; cases ht'; rfl
    have hexec : exec (.step flush) s = .next (report .ok t) := by
      refine exec_step_accepted hl (by omega) hnr ?_ hbt
      rw [hacc, bind_ok ht, pure_run, if_pos (show s.opened.hasPending = true from decide_eq_true hp)]
    refine ⟨_, hexec, ?_, ?_, ?_, ?_, ?_, ?_, ?_, ?_, ?_, ?_, ?_, ?_, ?_⟩
    · rw [← hn]
      exact ⟨hdel.bytes, hdel.elsewhere, hdel.outPtr, hdel.outAvail, hdel.totalOut⟩
    case refine_11 =>
      show t.pk.pending.toNat - t.pk.pendingOut.toNat = _
      by_cases hm : s.pk.pendingOut.toNat + n = s.pk.pending.toNat
      · obtain ⟨h1, h2⟩ := hmeet (fun h0 => hp (BitVec.eq_of_toNat_eq (by omega))) hm
        rw [h1, h2]
        omega
      · obtain ⟨h1, h2⟩ := hsome hm
        rw [h1, h2]
        show s.pk.pending.toNat - (s.pk.pendingOut.toNat + n) = _
        omega
    all_goals
      rw [heq]
      rfl

/-! The end of a stream. -/

/-- Nothing is left to encode in `FINISH` once the input and the lookahead are used up (R283). -/
theorem hasWork_finished {s : State} {flush : BitVec 3} (hs : s.regs.sstate = .finish) (hin : s.regs.inAvail = 0#32)
    (hla : s.mat.lookahead = 0#17) : s.hasWork flush = false := by simp [State.hasWork, hs, hin, hla]

/-- A `STEP FINISH` in `FINISH` with nothing left to deliver or encode is the end of R283. -/
theorem stepAccepted_finished {s : State} (hs : s.regs.sstate = .finish) (hin : s.regs.inAvail = 0#32)
    (hp : s.pk.pending = s.pk.pendingOut) (hla : s.mat.lookahead = 0#17) :
    stepAccepted finishFlush s = finishStep finishFlush (s.begun finishFlush) := by
  have hwork : (s.begun finishFlush).hasWork finishFlush = false := hasWork_finished hs hin hla
  rw [stepAccepted_fresh (by rw [hs]; decide) (isRepeat_finish s) hp]
  unfold stepWork
  rw [get_bind_run, ite_run, hwork, if_neg Bool.false_ne_true]

/-- The end of R283 when no trailer is owed. -/
theorem finishStep_streamEnd {s : State} (h : s.conf.wrap = wrapRaw ∨ s.regs.trailerDone = true) :
    finishStep finishFlush s = (.ok .streamEnd, s) := by
  unfold finishStep
  rw [get_bind_run, ite_run, if_neg (not_not.2 rfl), ite_run, if_pos h, pure_run]

/-- Settles O23: with nothing left and no trailer owed the answer of R283 is `STREAM_END`. -/
theorem stepFinishAgainEndsStream : Obligations.StepFinishAgainEndsStream := by
  intro s hl hb ho hs hin hr hp hla htr
  have hend : finishStep finishFlush (s.begun finishFlush) = (.ok .streamEnd, s.begun finishFlush) := finishStep_streamEnd htr
  exact exec_step_accepted hl (by decide) (stepRefusal_none ho (fun _ => ⟨rfl, hin⟩) hr)
    ((stepAccepted_finished hs hin hp hla).trans hend) hb

/-- What a `STEP` leaves that wrote bytes and encoded nothing: the registers are `r` but for the output's, the checksum is `ck`,
`lastFlush` is `flush`, nothing is pending, and nothing else changed but host memory and the pending buffer. -/
def State.WroteOnly (s t : State) (r : HostRegs) (ck : Checksum) (flush : BitVec 4) : Prop :=
  t.regs = r.withOutput t.regs ∧ t.mat = s.mat ∧ t.cod = s.cod ∧ t.cks = ck ∧ t.conf = s.conf ∧ t.lastFlush = flush
  ∧ t.pk.pending = 0#18 ∧ t.pk.pendingOut = 0#18 ∧ t.events = s.events ∧ t.portData = s.portData

/-- Nothing pending is in order; the rest of R34 was so before. -/
theorem boundaryOk_drainedAll {s u : State} (h : s.boundaryOk = true) (hc : u.conf = s.conf) (hm : u.mat = s.mat)
    (hk : u.cod = s.cod) (hv : u.pk.biValid = s.pk.biValid) {n : Nat} {m : Memory} : (u.drainedAll n m).boundaryOk = true := by
  obtain ⟨hmat, hp, hcod⟩ := (boundaryOk_iff s).1 h
  obtain ⟨-, -, h16⟩ := (packer_cursorsOk_iff _ _).1 hp
  rw [← hc, ← hm] at hmat
  rw [← hc, ← hk] at hcod
  exact (boundaryOk_iff _).2 ⟨hmat, (packer_cursorsOk_iff _ _).2 ⟨le_rfl, Nat.zero_le _, hv ▸ h16⟩, hcod⟩

/-- Bytes put behind an empty buffer are delivered when there is room for all of them. -/
theorem flushPending_put {u : State} {k : Packer} {bs : List Byte} (h : k.Put u.pk bs) (h0 : k.pending = 0#18)
    (hout : k.pendingOut = 0#18) (hne : bs ≠ []) (hfit : bs.length ≤ u.conf.pendingBufSize)
    (hroom : bs.length ≤ u.regs.outAvail.toNat) :
    ∃ m, flushPending u = (.ok (), u.drainedAll bs.length m) ∧ u.Delivered (u.drainedAll bs.length m) bs := by
  have hpend := h.pending
  rw [h0, BitVec.toNat_zero, Nat.zero_add] at hpend
  have hlen : bs.length ≠ 0 := fun h => hne (List.length_eq_zero_iff.1 h)
  have hall := flushPending_all (s := u) (h.pendingOut.trans hout) (by omega) (by omega) (by omega)
  rwa [h.bytesFrom h0, hpend] at hall

/-- The bytes of the trailer (R293). -/
def State.trailerBytes (s : State) : List Byte :=
  if s.conf.wrap = wrapZlib then bytesMSB s.cks.ck else bytesLE s.cks.ck ++ bytesLE (s.regs.totalIn.extractLsb' 0 32)

theorem putTrailer_run {s : State} (hw : s.conf.wrap = wrapZlib ∨ s.conf.wrap = wrapGzip) :
    putTrailer s = onPacker (putBytes s.conf.pendingBufSize s.trailerBytes) s := by
  unfold putTrailer State.trailerBytes
  rw [get_bind_run, putWordMSB_eq_putBytes, ite_run]
  rcases hw with hw | hw
  · rw [if_pos hw, if_pos hw]
  · rw [if_neg (by rw [hw]; decide), if_neg (by rw [hw]; decide), onlyIf_run, if_pos hw]

/-- The state behind the trailer, which left the packer `l`. -/
def State.trailed (s : State) (l : Packer) : State := { s with pk := l, regs := { s.regs with trailerDone := true } }

/-- The end of R283 when the trailer is owed and there is room for it. -/
theorem finishStep_trailer {s : State} (hw : s.conf.wrap = wrapZlib ∨ s.conf.wrap = wrapGzip) (htr : s.regs.trailerDone = false)
    (hcap : s.conf.pendingBufSize ≤ 2 ^ 17) (h0 : s.pk.pending = 0#18) (hout : s.pk.pendingOut = 0#18)
    (hfit : s.trailerBytes.length ≤ s.conf.pendingBufSize) (hroom : s.trailerBytes.length ≤ s.regs.outAvail.toNat) :
    ∃ l m t, t = (s.trailed l).drainedAll s.trailerBytes.length m
      ∧ finishStep finishFlush s = (.ok .streamEnd, t) ∧ s.Delivered t s.trailerBytes ∧ l.biValid = s.pk.biValid := by
  obtain ⟨l, hl, hput⟩ := putBytes_put hcap s.trailerBytes s.pk (by rw [h0]; simpa using hfit)
  have hne : s.trailerBytes ≠ [] := by
    unfold State.trailerBytes
    split <;> exact List.cons_ne_nil _ _
  obtain ⟨m, hflush, hdel⟩ := flushPending_put (u := s.trailed l) hput h0 hout hne hfit hroom
  refine ⟨l, m, _, rfl, ?_, ⟨hdel.bytes, hdel.elsewhere, hdel.outPtr, hdel.outAvail, hdel.totalOut⟩, hput.biValid⟩
  have hnot : ¬(s.conf.wrap = wrapRaw ∨ s.regs.trailerDone = true) := by
    rw [htr]
    rintro (h | h)
    · rcases hw with hw | hw <;> (rw [hw] at h; exact absurd h (by decide))
    · cases h
  unfold finishStep
  rw [get_bind_run, ite_run, if_neg (not_not.2 rfl), ite_run, if_neg hnot, bind_ok ((putTrailer_run hw).trans (onPacker_ok hl)),
    modify_bind_run]
  show (flushPending >>= _) (s.trailed l) = _
  rw [bind_ok hflush, get_bind_run, pure_run]
  rfl

/-- The `STEP FINISH` that owes the trailer and has room for it. -/
theorem step_writes_trailer {s : State} (hl : s.live) (hc : s.conf.Consistent) (hb : s.boundaryOk = true)
    (ho : s.regs.outValid = true) (hs : s.regs.sstate = .finish) (hin : s.regs.inAvail = 0#32) (h0 : s.pk.pending = 0#18)
    (hout : s.pk.pendingOut = 0#18) (hla : s.mat.lookahead = 0#17) (htr : s.regs.trailerDone = false)
    (hw : s.conf.wrap = wrapZlib ∨ s.conf.wrap = wrapGzip) (hroom : s.trailerBytes.length ≤ s.regs.outAvail.toNat) :
    ∃ t, exec (.step 4#3) s = .next t ∧ s.Delivered t s.trailerBytes
      ∧ s.WroteOnly t { s.regs with fresh := false, trailerDone := true, code := .streamEnd } s.cks 4#4 := by
  obtain ⟨-, -, -, -, -, -, hcap0, hcap⟩ := hc.toSizes.bounds
  have hlen : s.trailerBytes.length ≤ 8 ∧ 4 ≤ s.trailerBytes.length := by
    unfold State.trailerBytes
    split <;> simp [bytesMSB, bytesLE]
  obtain ⟨l, m, t, ht, hend, hdel, hv⟩ := finishStep_trailer (s := s.begun finishFlush) hw htr hcap h0 hout
    (show s.trailerBytes.length ≤ s.conf.pendingBufSize by omega) hroom
  have hr : s.regs.outAvail ≠ 0#32 := fun h => by rw [h, BitVec.toNat_zero] at hroom; omega
  have hbt : t.boundaryOk = true := by
    rw [ht]
    exact boundaryOk_drainedAll (u := (s.begun finishFlush).trailed l) hb rfl rfl rfl hv
  refine ⟨_, exec_step_accepted hl (by decide) (stepRefusal_none ho (fun _ => ⟨rfl, hin⟩) hr)
    ((stepAccepted_finished hs hin (h0.trans hout.symm) hla).trans hend) hbt,
    ⟨hdel.bytes, hdel.elsewhere, hdel.outPtr, hdel.outAvail, hdel.totalOut⟩, ?_⟩
  rw [ht]
  exact ⟨rfl, rfl, rfl, rfl, rfl, rfl, rfl, rfl, rfl, rfl⟩

/-- Settles O24: the trailer of either wrapper is `trailerBytes`. -/
theorem stepWritesTrailer : Obligations.StepWritesTrailer := by
  intro s hl hc hb ho hs hin h0 hout hla htr
  refine ⟨fun hw hroom => ?_, fun hw hroom => ?_⟩
  · have hbytes : s.trailerBytes = bytesMSB s.cks.ck := if_pos hw
    have h := step_writes_trailer hl hc hb ho hs hin h0 hout hla htr (.inl hw) (by rw [hbytes]; exact hroom)
    rw [hbytes] at h
    exact h
  · have hbytes : s.trailerBytes = bytesLE s.cks.ck ++ bytesLE (s.regs.totalIn.extractLsb' 0 32) :=
      if_neg (by rw [hw]; decide)
    have h := step_writes_trailer hl hc hb ho hs hin h0 hout hla htr (.inr hw) (by rw [hbytes]; exact hroom)
    rw [hbytes] at h
    simp only [bytesLE, extractLsb'_extractLsb', Nat.reduceAdd, Nat.reduceLeDiff, List.cons_append, List.nil_append] at h
    exact h

/-! The wrapper header. -/

theorem onPacker_bind {α β : Type} (p : Proc Packer α) (f : α → Proc Packer β) :
    onPacker (p >>= f) = onPacker p >>= fun a => onPacker (f a) := by
  funext s
  rw [bind_run]
  unfold onPacker
  rw [bind_run]
  cases p s.pk with
  | mk r k => cases r <;> rfl

/-- The bytes of the wrapper header (R290 to R292). -/
def State.headerBytes (s : State) : List Byte :=
  if s.conf.wrap = wrapZlib then
    [(BitVec.ofNat 16 (s.conf.zlibHeader (decide (s.mat.strStart ≠ 0#17)))).extractLsb' 8 8,
      (BitVec.ofNat 16 (s.conf.zlibHeader (decide (s.mat.strStart ≠ 0#17)))).extractLsb' 0 8]
    ++ if s.mat.strStart ≠ 0#17 then bytesMSB s.cks.ck else []
  else s.gzipHeader

theorem putHeaderBytes_run {s : State} (hw : s.conf.wrap = wrapZlib ∨ s.conf.wrap = wrapGzip) :
    putHeaderBytes s = onPacker (putBytes s.conf.pendingBufSize s.headerBytes) s := by
  unfold putHeaderBytes State.headerBytes
  rw [get_bind_run, ite_run]
  rcases hw with hw | hw
  · rw [if_pos hw, if_pos hw, putBytes_append, onPacker_bind]
    unfold putHeaderZlib
    rw [get_bind_run, putShortMSB_eq_putBytes, putWordMSB_eq_putBytes]
    unfold onlyIf
    by_cases hd : s.mat.strStart ≠ 0#17
    · rw [if_pos (decide_eq_true hd), if_pos hd]
    · rw [if_neg (by simpa using hd), if_neg hd]
      rfl
  · rw [if_neg (by rw [hw]; decide), if_neg (by rw [hw]; decide), onlyIf_run, if_pos hw]

/-- The state behind the wrapper header, which left the packer `l`: the checksum starts anew and the session is `BUSY`. -/
def State.headed (s : State) (l : Packer) : State :=
  { s with pk := l, cks := { s.cks with ck := s.cks.unit.initial }, regs := { s.regs with sstate := .busy } }

theorem stepHeader_put {s : State} (hs : s.regs.sstate = .init) (hw : s.conf.wrap = wrapZlib ∨ s.conf.wrap = wrapGzip)
    (hcap : s.conf.pendingBufSize ≤ 2 ^ 17) (h0 : s.pk.pending = 0#18) (hfit : s.headerBytes.length ≤ s.conf.pendingBufSize) :
    ∃ l, s.pk.Put l s.headerBytes ∧ stepHeader s = (.ok (), s.headed l) := by
  obtain ⟨l, hl, hput⟩ := putBytes_put hcap s.headerBytes s.pk (by rw [h0]; simpa using hfit)
  refine ⟨l, hput, ?_⟩
  rw [stepHeader_init hs, bind_ok ((putHeaderBytes_run hw).trans (onPacker_ok hl)), modify_run]
  rfl

/-- The header is two bytes at least and ten at most. -/
theorem length_headerBytes (s : State) : 2 ≤ s.headerBytes.length ∧ s.headerBytes.length ≤ 10 := by
  unfold State.headerBytes
  split
  · split <;> simp [bytesMSB]
  · simp [State.gzipHeader, bytesLE]

/-- The first `STEP NO_FLUSH` of a wrapped session with no input and room for the header: it is a repeat (R297), which delivers the
header. -/
theorem step_writes_header {s : State} (hl : s.live) (hc : s.conf.Consistent) (hb : s.boundaryOk = true)
    (ho : s.regs.outValid = true) (hs : s.regs.sstate = .init) (hin : s.regs.inAvail = 0#32) (h0 : s.pk.pending = 0#18)
    (hout : s.pk.pendingOut = 0#18) (hlast : s.lastFlush = 0#4) (hw : s.conf.wrap = wrapZlib ∨ s.conf.wrap = wrapGzip)
    (hroom : 10 ≤ s.regs.outAvail.toNat) :
    ∃ t, exec (.step 0#3) s = .next t ∧ s.Delivered t s.headerBytes
      ∧ s.WroteOnly t { s.regs with fresh := false, sstate := .busy, code := .ok } { s.cks with ck := s.cks.unit.initial } 0#4 := by
  obtain ⟨-, -, -, -, -, -, hcap0, hcap⟩ := hc.toSizes.bounds
  obtain ⟨hlen0, hlen⟩ := length_headerBytes s
  obtain ⟨l, hput, hhead⟩ := stepHeader_put (s := s.opened) hs hw hcap h0 (show s.headerBytes.length ≤ s.conf.pendingBufSize by omega)
  obtain ⟨m, hflush, hdel⟩ := flushPending_put (u := s.opened.headed l) hput h0 hout (List.ne_nil_of_length_pos (by
    show 0 < s.headerBytes.length
    omega)) (show s.headerBytes.length ≤ s.conf.pendingBufSize by omega) (show s.headerBytes.length ≤ s.regs.outAvail.toNat by omega)
  have hrep : (s.opened.headed l).isRepeat 0#3 = true := by
    have hlast' : (s.opened.headed l).lastFlush = 0#4 := hlast
    have hin' : (s.opened.headed l).regs.inAvail = 0#32 := hin
    unfold State.isRepeat
    rw [hlast', hin']
    decide
  have hpend : (s.opened.headed l).hasPending = true := by
    have hpl := hput.pending
    have hpo : l.pendingOut = 0#18 := hput.pendingOut.trans hout
    refine decide_eq_true fun h => ?_
    rw [show l.pending = l.pendingOut from h, hpo] at hpl
    have : s.opened.headerBytes.length = s.headerBytes.length := rfl
    simp at hpl
    omega
  have hr : s.regs.outAvail ≠ 0#32 := fun h => by rw [h, BitVec.toNat_zero] at hroom; omega
  refine ⟨_, exec_step_accepted hl (by decide) (stepRefusal_none ho (fun h => by rw [hs] at h; cases h) hr) (st := .ok)
    (t := (s.opened.headed l).drainedAll s.headerBytes.length m) ?_ ?_, ?_, ?_⟩
  · rw [stepAccepted_repeat hhead hrep, bind_ok hflush, pure_run, hpend]
    rfl
  · exact boundaryOk_drainedAll (u := s.opened.headed l) hb rfl rfl rfl hput.biValid
  · exact ⟨hdel.bytes, hdel.elsewhere, hdel.outPtr, hdel.outAvail, hdel.totalOut⟩
  · exact ⟨rfl, rfl, rfl, rfl, rfl, hlast, rfl, rfl, rfl, rfl⟩

/-- The zlib header's value before `FCHECK` (R125). -/
def zlibFields (windowBits hint : Nat) (dict : Bool) : Nat :=
  (8 + ((windowBits - 8) <<< 4)) <<< 8 ||| hint <<< 6 ||| (if dict then 0x20 else 0)

/-- The fields in their places, and room below them for `FCHECK` in 1 .. 31. -/
theorem zlibFields_eq : ∀ wb, wb < 16 → 9 ≤ wb → ∀ hint, hint < 4 → ∀ dict : Bool,
    zlibFields wb hint dict = 256 * (8 + 16 * (wb - 8)) + 64 * hint + 32 * dict.toNat := by decide

theorem levelHint_lt (c : Conf) : c.levelHint < 4 := by
  unfold Conf.levelHint
  split_ifs <;> decide

/-- The two bytes of the zlib header (R125, R291): the fields, and `FCHECK` that makes their 16-bit value a multiple of 31. -/
theorem zlibHeader_bytes {c : Conf} (hc : 9 ≤ c.windowBits.toNat) (dict : Bool) :
    ∃ fcheck, 1 ≤ fcheck ∧ fcheck ≤ 31
      ∧ ((BitVec.ofNat 16 (c.zlibHeader dict)).extractLsb' 8 8).toNat = 8 + 16 * (c.windowBits.toNat - 8)
      ∧ ((BitVec.ofNat 16 (c.zlibHeader dict)).extractLsb' 0 8).toNat = 64 * c.levelHint + 32 * dict.toNat + fcheck
      ∧ (256 * (8 + 16 * (c.windowBits.toNat - 8)) + 64 * c.levelHint + 32 * dict.toNat + fcheck) % 31 = 0 := by
  have hwb := c.windowBits.isLt
  have hhint := levelHint_lt c
  have hdict := dict.toNat_lt
  have hfields := zlibFields_eq _ hwb hc _ hhint dict
  have hval : c.zlibHeader dict = zlibFields c.windowBits.toNat c.levelHint dict
      + (31 - zlibFields c.windowBits.toNat c.levelHint dict % 31) := rfl
  generalize zlibFields c.windowBits.toNat c.levelHint dict = v at hfields hval
  have hmod : (v + (31 - v % 31)) % 31 = 0 := by omega
  obtain ⟨fcheck, h⟩ : ∃ fcheck, fcheck = 31 - v % 31 := ⟨_, rfl⟩
  rw [← h, hfields] at hval hmod
  obtain ⟨hf1, hf31⟩ : 1 ≤ fcheck ∧ fcheck ≤ 31 := by omega
  have hsmall : 256 * (8 + 16 * (c.windowBits.toNat - 8)) + 64 * c.levelHint + 32 * dict.toNat + fcheck < 2 ^ 16 := by
    clear hmod h hfields
    omega
  refine ⟨fcheck, hf1, hf31, ?_, ?_, hmod⟩
  all_goals
    clear hmod h hfields
    rw [BitVec.extractLsb'_toNat, BitVec.toNat_ofNat, hval, Nat.mod_eq_of_lt hsmall]
  · rw [Nat.shiftRight_eq_div_pow]
    omega
  · rw [Nat.shiftRight_zero]
    omega

/-- Settles O25: the header of either wrapper is `headerBytes`; the zlib header's fields are read off its two bytes
(`zlibHeader_bytes`). -/
theorem stepWritesHeader : Obligations.StepWritesHeader := by
  intro s hl hc hb ho hs hin h0 hout hlast hroom
  refine ⟨fun hw => ?_, fun hw => ?_⟩
  · obtain ⟨t, ht, hdel, hwrote⟩ := step_writes_header hl hc hb ho hs hin h0 hout hlast (.inl hw) hroom
    have hbytes : s.headerBytes = _ := if_pos hw
    rw [hbytes] at hdel
    obtain ⟨fcheck, h1, h31, hcmf, hflg, hmod⟩ := zlibHeader_bytes hc.toSizes.windowBits_ge (decide (s.mat.strStart ≠ 0#17))
    have hdict := (decide (s.mat.strStart ≠ 0#17)).toNat_lt
    have hhint := levelHint_lt s.conf
    refine ⟨t, _, _, ht, hcmf, ?_, ?_, ?_, ?_, hdel, hwrote⟩
    · rw [hcmf, hflg]
      omega
    · omega
    · rw [hflg]
      show _ = s.conf.levelHint
      omega
    · clear hmod
      rw [hflg, show (if s.mat.strStart ≠ 0#17 then 1 else 0) = (decide (s.mat.strStart ≠ 0#17)).toNat by
        by_cases h : s.mat.strStart ≠ 0#17 <;> simp [h]]
      omega
  · obtain ⟨t, ht, hdel, hwrote⟩ := step_writes_header hl hc hb ho hs hin h0 hout hlast (.inr hw) hroom
    have hbytes : s.headerBytes = s.gzipHeader := if_neg (by rw [hw]; decide)
    rw [hbytes] at hdel
    exact ⟨t, ht, hdel, hwrote⟩

end Sys2Proof.Machine
end

section
/-! SUPPORT. How the stream state moves (R296). `NeverFinishes p` says that `p` does not end a stream: it holds of every procedure of
the engine but the end of a strategy under `FINISH` and of a block header with `BFINAL = 1`. -/

namespace Sys2Proof.Machine

open Proc

/-- A stream that was not finished is still not finished. -/
def Unfinished (s t : State) : Prop := s.regs.sstate ≠ .finish → t.regs.sstate ≠ .finish

theorem Unfinished.refl (s : State) : Unfinished s s := id

theorem Unfinished.trans (s t u : State) (h : Unfinished s t) (h' : Unfinished t u) : Unfinished s u := fun hs => h' (h hs)

theorem Unfinished.of_sstate {s t : State} (h : t.regs.sstate = s.regs.sstate) : Unfinished s t := fun hs => h ▸ hs

/-- The procedure leaves an unfinished stream unfinished, whether it answers or is abandoned. -/
def NeverFinishes {α : Type} (p : Proc State α) : Prop := Rel Unfinished p

/-- When the procedure answers, its answer is in `P`. -/
def Yields {σ α : Type} (P : α → Prop) (p : Proc σ α) : Prop := ∀ s a t, p s = (.ok a, t) → P a

namespace Yields

variable {σ α β : Type} {P : β → Prop}

theorem pure {b : β} (h : P b) : Yields P (pure b : Proc σ β) := fun _ _ _ he => by cases he; exact h

theorem raiseFatal : Yields P (raiseFatal : Proc σ β) := fun _ _ _ he => by cases he

theorem bind {p : Proc σ α} {f : α → Proc σ β} (hf : ∀ a, Yields P (f a)) : Yields P (p >>= f) := fun _ b u he => by
  obtain ⟨a, t, -, h⟩ := of_bind_ok he
  exact hf a t b u h

theorem bind_of {Q : α → Prop} {p : Proc σ α} {f : α → Proc σ β} (hp : Yields Q p) (hf : ∀ a, Q a → Yields P (f a)) :
    Yields P (p >>= f) := fun s b u he => by
  obtain ⟨a, t, h, h'⟩ := of_bind_ok he
  exact hf a (hp s a t h) t b u h'

theorem ite {c : Prop} [Decidable c] {p q : Proc σ β} (hp : Yields P p) (hq : Yields P q) : Yields P (if c then p else q) := by
  split <;> assumption

end Yields

namespace NeverFinishes

variable {α β : Type}

theorem pure (a : α) : NeverFinishes (pure a) := Rel.pure Unfinished.refl a

theorem raiseFatal : NeverFinishes (raiseFatal : Proc State α) := Rel.raiseFatal Unfinished.refl

theorem get : NeverFinishes get := Rel.get Unfinished.refl

theorem bind {p : Proc State α} {f : α → Proc State β} (hp : NeverFinishes p) (hf : ∀ a, NeverFinishes (f a)) :
    NeverFinishes (p >>= f) := Rel.bind Unfinished.trans hp hf

/-- Sequencing when the rest is safe only after some of the answers. -/
theorem bind_of {Q : α → Prop} {p : Proc State α} {f : α → Proc State β} (hp : NeverFinishes p) (hy : Yields Q p)
    (hf : ∀ a, Q a → NeverFinishes (f a)) : NeverFinishes (p >>= f) := by
  intro s
  have h := hp s
  rw [bind_run]
  cases hr : p s with
  | mk r t =>
    rw [hr] at h
    cases r with
    | ok a => exact .trans s t _ h (hf a (hy s a t hr) t)
    | error e => exact h

theorem ite {c : Prop} [Decidable c] {p q : Proc State α} (hp : NeverFinishes p) (hq : NeverFinishes q) :
    NeverFinishes (if c then p else q) := Rel.ite hp hq

theorem onlyIf {c : Prop} [Decidable c] {p : Proc State Unit} (hp : NeverFinishes p) : NeverFinishes (onlyIf c p) :=
  Rel.onlyIf Unfinished.refl fun _ => hp

theorem require (c : Bool) : NeverFinishes (require c) := Rel.require Unfinished.refl c

theorem indexOf (i : Int) : NeverFinishes (indexOf i) := Rel.indexOf Unfinished.refl i

theorem onMatcher (p : Proc Matcher α) : NeverFinishes (onMatcher p) := fun _ => id

theorem onPacker (p : Proc Packer α) : NeverFinishes (onPacker p) := fun _ => id

theorem onCoder (p : Proc Coder α) : NeverFinishes (onCoder p) := fun _ => id

theorem of_encoder {p : Proc State α} (h : Rel EncoderFrame p) : NeverFinishes p := fun s => .of_sstate (h s).sstate

end NeverFinishes

/-! The input side and the block encoder. -/

theorem readBuf_neverFinishes (start size : Nat) : NeverFinishes (readBuf start size) :=
  .bind .get fun _ => .ite (.pure _)
    (.bind (fun s => .of_sstate (by rw [(readBytes_quiet _ _ _ s).1])) fun _ => .bind (fun _ => id) fun _ => .pure _)

theorem fillLoop_neverFinishes : ∀ fuel, NeverFinishes (fillLoop fuel)
  | 0 => .raiseFatal
  | fuel + 1 =>
    .bind .get fun _ => .bind (.onlyIf (.onMatcher _)) fun _ => .ite (.pure _)
      (.bind .get fun _ => .bind (readBuf_neverFinishes _ _) fun _ => .bind (.onMatcher _) fun _ => .bind .get fun _ =>
        .bind (.onlyIf (.onMatcher _)) fun _ => .ite (fillLoop_neverFinishes fuel) (.pure _))

theorem fillWindow_neverFinishes : NeverFinishes fillWindow := .bind .get fun _ => fillLoop_neverFinishes _

theorem flushPending_neverFinishes : NeverFinishes flushPending := .of_encoder flushPending_encoderFrame

theorem costBlock_neverFinishes (buf : Int) (storedLen : Nat) : NeverFinishes (costBlock buf storedLen) :=
  .bind .get fun _ => .ite (.bind (.onCoder _) fun _ => .bind .get fun _ => .pure _) (.bind (.require _) fun _ => .pure _)

theorem emitBlock_neverFinishes (b : BlockType) (buf : Int) (storedLen : Nat) (eof : Bool) (maxBlIndex : Nat) :
    NeverFinishes (emitBlock b buf storedLen eof maxBlIndex) := by
  cases b with
  | stored => exact .of_encoder (storedBlock_encoderFrame _ _ _)
  | static => exact .of_encoder (staticBlock_encoderFrame _)
  | dynamic => exact .bind .get fun _ => .bind (.onPacker _) fun _ => .bind (.onPacker _) fun _ =>
      .of_encoder (compressBlock_encoderFrame _ _)

theorem flushBlockOnly_neverFinishes (eof : Bool) : NeverFinishes (flushBlockOnly eof) :=
  .bind .get fun _ => .bind (.indexOf _) fun _ =>
    .bind (.bind (costBlock_neverFinishes _ _) fun _ => .bind (emitBlock_neverFinishes _ _ _ _ _) fun _ =>
      .of_encoder (endBlockStats_encoderFrame eof)) fun _ => .of_encoder nextBlock_encoderFrame

theorem outputFull_neverFinishes : NeverFinishes outputFull := .bind .get fun _ => .pure _

theorem tally_neverFinishes (dist : Int) (lc : Byte) : NeverFinishes (tally dist lc) :=
  fun s => .of_sstate (tally_settleFrame dist lc s).encoderFrame.sstate

/-! The strategies. -/

/-- The block states that end no stream (R260). -/
def GoesOn (b : BlockState) : Prop := b = .needMore ∨ b = .blockDone

/-- Unless the flush is `FINISH` the end of a strategy ends no stream (R268). -/
theorem tail_goesOn {flush : BitVec 3} (hf : flush ≠ finishFlush) (nonEmpty : Bool) : Yields GoesOn (tail flush nonEmpty) := by
  unfold tail
  rw [if_neg hf]
  refine .ite (.bind fun _ => .bind fun full => .pure ?_) (.pure (.inr rfl))
  cases full
  · exact .inr rfl
  · exact .inl rfl

theorem tail_neverFinishes (flush : BitVec 3) (nonEmpty : Bool) : NeverFinishes (tail flush nonEmpty) :=
  .ite (.bind (flushBlockOnly_neverFinishes _) fun _ => .bind outputFull_neverFinishes fun _ => .pure _)
    (.ite (.bind (flushBlockOnly_neverFinishes _) fun _ => .bind outputFull_neverFinishes fun _ => .pure _) (.pure _))

/-- A strategy's loop goes on with the tail, or returns to wait for input or output. -/
def LoopGoesOn (r : Option BlockState) : Prop := r = none ∨ r = some .needMore

/-- A loop that goes on, and then its tail. -/
theorem afterLoop_goesOn {loop : Proc State (Option BlockState)} {rest : Proc State BlockState} (hl : Yields LoopGoesOn loop)
    (hr : Yields GoesOn rest) :
    Yields GoesOn (loop >>= fun r => match r with | some b => (pure b : Proc State BlockState) | none => rest) :=
  .bind_of hl fun r h => by
    rcases h with rfl | rfl
    · exact hr
    · exact .pure (.inl rfl)

theorem afterLoop_neverFinishes {loop : Proc State (Option BlockState)} {rest : Proc State BlockState} (hl : NeverFinishes loop)
    (hr : NeverFinishes rest) :
    NeverFinishes (loop >>= fun r => match r with | some b => (pure b : Proc State BlockState) | none => rest) :=
  .bind hl fun r => by
    cases r with
    | none => exact hr
    | some b => exact .pure b

theorem storedLoop_goesOn (flush : BitVec 3) : ∀ fuel, Yields LoopGoesOn (storedLoop flush fuel)
  | 0 => .raiseFatal
  | fuel + 1 => .bind fun _ => .bind fun _ => .bind fun _ => .ite (.pure (by split <;> simp [LoopGoesOn]))
      (.bind fun _ => .bind fun _ => .ite (.pure (.inr rfl))
        (.bind fun _ => .ite (.pure (.inr rfl)) (storedLoop_goesOn flush fuel)))

theorem sizeTrigger_neverFinishes : NeverFinishes sizeTrigger :=
  .bind .get fun _ => .ite
    (.bind (.onMatcher _) fun _ => .bind (flushBlockOnly_neverFinishes _) fun _ => outputFull_neverFinishes) (.pure _)

theorem distTrigger_neverFinishes : NeverFinishes distTrigger :=
  .bind .get fun _ => .ite (.bind (flushBlockOnly_neverFinishes _) fun _ => outputFull_neverFinishes) (.pure _)

theorem storedLoop_neverFinishes (flush : BitVec 3) : ∀ fuel, NeverFinishes (storedLoop flush fuel)
  | 0 => .raiseFatal
  | fuel + 1 => .bind .get fun _ => .bind (.onlyIf fillWindow_neverFinishes) fun _ => .bind .get fun _ => .ite (.pure _)
      (.bind (.onMatcher _) fun _ => .bind sizeTrigger_neverFinishes fun _ => .ite (.pure _)
        (.bind distTrigger_neverFinishes fun _ => .ite (.pure _) (storedLoop_neverFinishes flush fuel)))

theorem refill_neverFinishes (flush : BitVec 3) : NeverFinishes (refill flush) :=
  .bind .get fun _ => .ite
    (.bind fillWindow_neverFinishes fun _ => .bind .get fun _ => .ite (.pure _) (.ite (.pure _) (.pure _))) (.pure _)

theorem fastLoop_goesOn (flush : BitVec 3) : ∀ fuel, Yields LoopGoesOn (fastLoop flush fuel)
  | 0 => .raiseFatal
  | fuel + 1 => by
    refine .bind fun r : Refill => ?_
    cases r with
    | starved => exact .pure (.inr rfl)
    | leave => exact .pure (.inl rfl)
    | proceed =>
      refine .bind fun _ => .bind fun _ => .bind fun _ => .ite (.bind fun _ => .bind fun _ => .ite (.pure (.inr rfl)) ?_) ?_
      · exact fastLoop_goesOn flush fuel
      · exact fastLoop_goesOn flush fuel

theorem fastSymbol_neverFinishes : NeverFinishes fastSymbol := by
  refine .bind .get fun s : State => .ite ?_ ?_
  · exact .bind (tally_neverFinishes _ _) fun _ => .bind (.onMatcher _) fun _ => .pure _
  · exact .bind (.onMatcher _) fun _ => .bind (tally_neverFinishes _ _) fun _ => .bind (.onMatcher _) fun _ => .pure _

theorem fastLoop_neverFinishes (flush : BitVec 3) : ∀ fuel, NeverFinishes (fastLoop flush fuel)
  | 0 => .raiseFatal
  | fuel + 1 => by
    refine .bind (refill_neverFinishes flush) fun r : Refill => ?_
    cases r with
    | starved => exact .pure _
    | leave => exact .pure _
    | proceed =>
      refine .bind .get fun _ => .bind (.onMatcher _) fun _ => .bind fastSymbol_neverFinishes fun _ => .ite ?_ ?_
      · exact .bind (flushBlockOnly_neverFinishes _) fun _ => .bind outputFull_neverFinishes fun _ =>
          .ite (.pure _) (fastLoop_neverFinishes flush fuel)
      · exact fastLoop_neverFinishes flush fuel

theorem slowLoop_goesOn (flush : BitVec 3) : ∀ fuel, Yields LoopGoesOn (slowLoop flush fuel)
  | 0 => .raiseFatal
  | fuel + 1 => by
    refine .bind fun r : Refill => ?_
    cases r with
    | starved => exact .pure (.inr rfl)
    | leave => exact .pure (.inl rfl)
    | proceed => exact .bind fun _ => .bind fun _ => .bind fun _ => .ite (.pure (.inr rfl)) (slowLoop_goesOn flush fuel)

theorem tallyDeferred_neverFinishes : NeverFinishes tallyDeferred :=
  fun s => .of_sstate (tallyDeferred_settleFrame s).encoderFrame.sstate

theorem emitEarlier_neverFinishes : NeverFinishes emitEarlier := by
  refine .bind .get fun _ => .bind (tally_neverFinishes _ _) fun _ => .bind (.onMatcher _) fun _ => .ite ?_ (.pure _)
  exact .bind (flushBlockOnly_neverFinishes _) fun _ => outputFull_neverFinishes

theorem slowSymbol_neverFinishes : NeverFinishes slowSymbol := by
  refine .bind .get fun s : State => .ite emitEarlier_neverFinishes (.ite ?_ ?_)
  · exact .bind tallyDeferred_neverFinishes fun _ => .bind (.onlyIf (flushBlockOnly_neverFinishes _)) fun _ =>
      .bind (.onMatcher _) fun _ => outputFull_neverFinishes
  · exact .bind (.onMatcher _) fun _ => .bind (.onMatcher _) fun _ => .pure _

theorem slowLoop_neverFinishes (flush : BitVec 3) : ∀ fuel, NeverFinishes (slowLoop flush fuel)
  | 0 => .raiseFatal
  | fuel + 1 => by
    refine .bind (refill_neverFinishes flush) fun r : Refill => ?_
    cases r with
    | starved => exact .pure _
    | leave => exact .pure _
    | proceed =>
      exact .bind .get fun _ => .bind (.onMatcher _) fun _ => .bind slowSymbol_neverFinishes fun _ =>
        .ite (.pure _) (slowLoop_neverFinishes flush fuel)

theorem deflate_goesOn {flush : BitVec 3} (hf : flush ≠ finishFlush) : Yields GoesOn (deflate flush) := by
  refine .bind fun s : State => ?_
  cases s.conf.fn with
  | stored => exact .bind fun _ => afterLoop_goesOn (storedLoop_goesOn _ _) (.bind fun _ => tail_goesOn hf _)
  | fast => exact .bind fun _ => afterLoop_goesOn (fastLoop_goesOn _ _) (.bind fun _ => tail_goesOn hf _)
  | slow =>
    refine .bind fun _ => afterLoop_goesOn (slowLoop_goesOn _ _) ?_
    exact .bind fun _ => .bind fun _ => .bind fun _ => tail_goesOn hf _

theorem deflate_neverFinishes (flush : BitVec 3) : NeverFinishes (deflate flush) := by
  refine .bind .get fun s : State => ?_
  cases s.conf.fn with
  | stored =>
    exact .bind .get fun _ => afterLoop_neverFinishes (storedLoop_neverFinishes _ _) <| .bind .get fun _ => tail_neverFinishes _ _
  | fast =>
    exact .bind .get fun _ => afterLoop_neverFinishes (fastLoop_neverFinishes _ _) <| .bind .get fun _ => tail_neverFinishes _ _
  | slow =>
    refine .bind .get fun _ => afterLoop_neverFinishes (slowLoop_neverFinishes _ _) ?_
    exact .bind .get fun _ => .bind (.onlyIf (.bind tallyDeferred_neverFinishes fun _ => .onMatcher _)) fun _ =>
      .bind .get fun _ => tail_neverFinishes _ _

/-! The commands. -/

theorem align_neverFinishes : NeverFinishes align :=
  .bind .get fun _ => .bind (.onPacker _) fun _ => .bind .get fun _ => .bind (.onlyIf (.onPacker _)) fun _ => .onCoder _

theorem flushMarker_neverFinishes (flush : BitVec 3) : NeverFinishes (flushMarker flush) :=
  .ite align_neverFinishes (.bind (.of_encoder (storedBlock_encoderFrame _ _ _)) fun _ => .bind .get fun _ =>
    .onlyIf (.onMatcher _))

theorem setLastFlush_neverFinishes (v : BitVec 4) : NeverFinishes (setLastFlush v) := fun _ => id

/-- A block state that goes on ends no stream (R283). -/
theorem afterStrategy_neverFinishes (flush : BitVec 3) {b : BlockState} (hb : GoesOn b) : NeverFinishes (afterStrategy flush b) := by
  have hnot : ¬(b = .finishStarted ∨ b = .finishDone) := by rcases hb with rfl | rfl <;> simp
  unfold afterStrategy
  refine .bind (by unfold Machine.onlyIf; rw [if_neg hnot]; exact .pure ()) fun _ => ?_
  rcases hb with rfl | rfl
  · exact .bind outputFull_neverFinishes fun _ => .bind (.onlyIf (setLastFlush_neverFinishes _)) fun _ => .pure _
  · exact .bind (flushMarker_neverFinishes flush) fun _ => .bind flushPending_neverFinishes fun _ => .pure _

/-- Unless the flush is `FINISH` nothing is left to do at the end of a step (R283). -/
theorem finishStep_neverFinishes {flush : BitVec 3} (hf : flush ≠ finishFlush) : NeverFinishes (finishStep flush) := by
  unfold finishStep
  simp only [if_pos hf]
  exact .bind .get fun _ => .pure _

theorem stepWork_neverFinishes {flush : BitVec 3} (hf : flush ≠ finishFlush) : NeverFinishes (stepWork flush) :=
  .bind .get fun _ => .ite (.bind_of (deflate_neverFinishes flush) (deflate_goesOn hf) fun _ => afterStrategy_neverFinishes flush)
    (finishStep_neverFinishes hf)

theorem stepHeader_neverFinishes : NeverFinishes stepHeader := fun s hs => by
  by_cases hi : s.regs.sstate = .init
  · rw [stepHeader_init hi, bind_run]
    have hp := putHeaderBytes_encoderFrame s
    cases hr : putHeaderBytes s with
    | mk r u =>
      rw [hr] at hp
      cases r with
      | ok a => nofun
      | error e => exact Unfinished.of_sstate hp.sstate hs
  · rw [stepHeader_idle hi]
    exact hs

theorem checkBoundary_neverFinishes : NeverFinishes checkBoundary := .bind .get fun _ => .require _

/-- A `STEP` other than `STEP FINISH` ends no stream. -/
theorem stepBody_neverFinishes {flush : BitVec 3} (hf : flush ≠ finishFlush) : NeverFinishes (stepBody flush) :=
  .bind .get fun s => by
    cases s.stepRefusal flush with
    | some st => exact .pure st
    | none => exact .bind (.bind (fun _ => id) fun _ => .bind stepHeader_neverFinishes fun _ => .bind .get fun _ =>
        .ite (.bind flushPending_neverFinishes fun _ => .pure _) (.bind (setLastFlush_neverFinishes _) fun _ => .ite
          (.bind flushPending_neverFinishes fun _ => .bind outputFull_neverFinishes fun _ => .ite
            (.bind (setLastFlush_neverFinishes _) fun _ => .pure _) (stepWork_neverFinishes hf))
          (stepWork_neverFinishes hf))) fun _ => .bind checkBoundary_neverFinishes fun _ => .pure _

/-- The flush of `PARAMS` is a partial one. -/
theorem paramsBody_neverFinishes (level : BitVec 4) (strategy : BitVec 2) : NeverFinishes (paramsBody level strategy) :=
  .bind .get fun _ => .ite (.bind (stepBody_neverFinishes (by decide)) fun st => .bind .get fun s => by
    cases s.paramsBlocked st with
    | some st' => exact .pure st'
    | none => exact .bind (fun _ => id) fun _ => .pure _) (.bind (fun _ => id) fun _ => .pure _)

/-- A block header whose block is not the final one ends no stream. -/
theorem closeBody_neverFinishes {emit : Bool → Proc State Unit} (he : Rel EncoderFrame (emit false)) :
    NeverFinishes (closeBody emit false) :=
  .bind .get fun s => by
    cases s.blockRefusal false with
    | some st => exact .pure st
    | none => exact .bind (.bind (fun _ => id) fun _ => .bind stepHeader_neverFinishes fun _ =>
        .bind flushPending_neverFinishes fun _ => .bind .get fun _ => .ite (.pure _)
          (.bind (.bind (fun s => .of_sstate (settleDeferred_settleFrame s).encoderFrame.sstate) fun _ => .bind (.of_encoder he)
            fun _ => .bind (.of_encoder (endBlockStats_encoderFrame _)) fun _ => .bind (.of_encoder nextBlock_encoderFrame)
            fun _ => .pure _) fun _ => .pure _)) fun _ => .bind checkBoundary_neverFinishes fun _ => .pure _

/-- A command that moved the stream state was not refused: its body moved it. -/
theorem execute_moved {legal : Bool} {adm : Admission} {body : Proc State Status} {s t : State}
    (h : execute legal adm body s = .next t) (hne : t.regs.sstate ≠ s.regs.sstate) :
    (s.regs.sstate ≠ .unconf ∨ adm.whileUnconf = true) ∧ t.regs.sstate = (body s).2.regs.sstate := by
  rcases execute_cases h with ⟨-, rfl⟩ | ⟨-, -, -, rfl⟩ | ⟨-, -, -, rfl⟩ | ⟨-, -, hu, ⟨st, u, hr, rfl⟩ | ⟨u, hr, rfl⟩⟩
  · exact absurd rfl hne
  · exact absurd rfl hne
  · exact absurd rfl hne
  · exact ⟨hu, by rw [hr]; rfl⟩
  · exact ⟨hu, by rw [hr]; rfl⟩

/-- The moves forward of R296 within a session. -/
def MovesForward (a b : StreamState) (final : Prop) : Prop :=
  (a = .init ∧ b = .busy) ∨ ((a = .init ∨ a = .busy) ∧ b = .finish ∧ final)

theorem movesForward {a b : StreamState} {final : Prop} (ha : a ≠ .unconf) (hne : b ≠ a) (hle : a.bits.toNat ≤ b.bits.toNat)
    (hf : a ≠ .finish → b = .finish → final) : MovesForward a b final := by
  unfold MovesForward
  cases a with
  | unconf => exact absurd rfl ha
  | init =>
    cases b with
    | unconf => exact absurd hle (by decide)
    | init => exact absurd rfl hne
    | busy => exact .inl ⟨rfl, rfl⟩
    | finish => exact .inr ⟨.inl rfl, rfl, hf (by decide) rfl⟩
  | busy =>
    cases b with
    | unconf => exact absurd hle (by decide)
    | init => exact absurd hle (by decide)
    | busy => exact absurd rfl hne
    | finish => exact .inr ⟨.inr rfl, rfl, hf (by decide) rfl⟩
  | finish =>
    cases b with
    | finish => exact absurd rfl hne
    | _ => exact absurd hle (by decide)

/-- A command in a session that moved the stream state moved it forward, and to `FINISH` only if it may finish. -/
theorem execute_movesForward {legal : Bool} {body : Proc State Status} {s t : State} {final : Prop}
    (h : execute legal ⟨false, false⟩ body s = .next t) (hne : t.regs.sstate ≠ s.regs.sstate)
    (hle : s.regs.sstate.bits.toNat ≤ (body s).2.regs.sstate.bits.toNat) (hf : ¬final → NeverFinishes body) :
    MovesForward s.regs.sstate t.regs.sstate final := by
  obtain ⟨hu, hm⟩ := execute_moved h hne
  rw [hm] at hne ⊢
  exact movesForward (hu.resolve_right Bool.false_ne_true) hne hle fun ha hb => by_contra fun hn => hf hn s ha hb

theorem safe_stage {α : Type} {p : Proc State α} (hp : Safe p) (s : State) :
    s.regs.sstate.bits.toNat ≤ (p s).2.regs.sstate.bits.toNat := (hp.engine s).frame.stage

/-- The body of `PARAMS` runs the engine, and the parameters are no part of the stream state. -/
theorem paramsBody_stage (level : BitVec 4) (strategy : BitVec 2) (s : State) :
    s.regs.sstate.bits.toNat ≤ (paramsBody level strategy s).2.regs.sstate.bits.toNat := by
  have he := safe_stage (stepBody_safe partialFlush) s
  rw [paramsBody_run]
  split
  · cases hr : stepBody partialFlush s with
    | mk r u =>
      rw [hr] at he
      cases r with
      | error e => exact he
      | ok st =>
        dsimp only
        cases u.paramsBlocked st <;> exact he
  · exact le_rfl

/-- The three headers run one body, with an emission that runs safely and stays in the encoder's frame. -/
theorem exec_closesBlock_safe {i : Instr} {b : Bool} (h : closesBlock i b) :
    ∃ emit : Bool → Proc State Unit, (∀ eof, Safe (emit eof)) ∧ (∀ eof, Rel EncoderFrame (emit eof))
      ∧ ∀ s, exec i s = execute true ⟨false, false⟩ (closeBody emit b) s := by
  obtain rfl | rfl | rfl := h
  · exact ⟨emitStored, emitStored_safe, emitStored_encoderFrame, fun _ => rfl⟩
  · exact ⟨staticBlock, staticBlock_safe, staticBlock_encoderFrame, fun _ => rfl⟩
  · exact ⟨emitDynamic, emitDynamic_safe, emitDynamic_encoderFrame, fun _ => rfl⟩

/-- A block header that moved the stream state. -/
theorem exec_block_movesForward {i : Instr} {b : Bool} (hi : closesBlock i b) {s t : State} (h : exec i s = .next t)
    (hne : t.regs.sstate ≠ s.regs.sstate) : MovesForward s.regs.sstate t.regs.sstate (b = true) := by
  obtain ⟨emit, hsafe, hframe, hexec⟩ := exec_closesBlock_safe hi
  rw [hexec] at h
  refine execute_movesForward h hne (safe_stage (closeBody_safe hsafe b) s) fun hb => ?_
  rw [Bool.not_eq_true] at hb
  subst hb
  exact closeBody_neverFinishes (hframe false)

/-- The last two lines of the table of R296, for a block header. -/
theorem exec_block_moves {i : Instr} {b : Bool} (hi : closesBlock i b) {s t : State} (h : exec i s = .next t)
    (hne : t.regs.sstate ≠ s.regs.sstate) :
    (s.regs.sstate = .init ∧ t.regs.sstate = .busy
        ∧ ((∃ f, i = .step f) ∨ (∃ l st, i = .params l st) ∨ ∃ b, closesBlock i b)) ∨
      ((s.regs.sstate = .init ∨ s.regs.sstate = .busy) ∧ t.regs.sstate = .finish ∧ (i = .step 4#3 ∨ closesBlock i true)) := by
  rcases exec_block_movesForward hi h hne with ⟨ha, hb⟩ | ⟨ha, hb, rfl⟩
  · exact .inl ⟨ha, hb, .inr (.inr ⟨b, hi⟩)⟩
  · exact .inr ⟨ha, hb, .inr hi⟩

/-- Settles O58: `INIT`, `RESET` and `END` set the stream state they name; every other command either leaves it or, running the
engine, moves it forward, and only a body that may end the stream reaches `FINISH`. -/
theorem streamStateTransitions : Obligations.StreamStateTransitions := by
  intro i s t h hne
  cases i with
  | init l st wb ml w => exact .inl ⟨l, st, wb, ml, w, rfl, (execute_moved h hne).2⟩
  | reset =>
    unfold exec execReset at h
    exact .inr (.inl ⟨rfl, (execute_moved h hne).2⟩)
  | endSession =>
    unfold exec execEndSession at h
    exact .inr (.inr (.inl ⟨rfl, (execute_moved h hne).2⟩))
  | setInput =>
    unfold exec execSetInput at h
    exact absurd (execute_moved h hne).2 hne
  | setOutput =>
    unfold exec execSetOutput at h
    exact absurd (execute_moved h hne).2 hne
  | setDict =>
    unfold exec execSetDict at h
    have hm := (execute_moved h hne).2
    rw [(setDictBody_dictFrame s).only] at hm
    exact absurd hm hne
  | step flush =>
    rcases execute_movesForward (final := flush = finishFlush) h hne (safe_stage (stepBody_safe flush) s) stepBody_neverFinishes with
      ⟨ha, hb⟩ | ⟨ha, hb, rfl⟩
    · exact .inr (.inr (.inr (.inl ⟨ha, hb, .inl ⟨flush, rfl⟩⟩)))
    · exact .inr (.inr (.inr (.inr ⟨ha, hb, .inl rfl⟩)))
  | params l st =>
    rcases execute_movesForward (final := False) h hne (paramsBody_stage l st s) fun _ => paramsBody_neverFinishes l st with
      ⟨ha, hb⟩ | ⟨-, -, hf⟩
    · exact .inr (.inr (.inr (.inl ⟨ha, hb, .inr (.inl ⟨l, st, rfl⟩)⟩)))
    · exact hf.elim
  | blockStored b => exact .inr (.inr (.inr (exec_block_moves (.inl rfl) h hne)))
  | blockStatic b => exact .inr (.inr (.inr (exec_block_moves (.inr (.inl rfl)) h hne)))
  | blockDynamic b => exact .inr (.inr (.inr (exec_block_moves (.inr (.inr rfl)) h hne)))
  | blockReserved b =>
    unfold exec execBlockReserved at h
    exact absurd (execute_moved h hne).2 hne

end Sys2Proof.Machine
end

section
/-! SUPPORT. A `STEP NO_FLUSH` that only buffers its input (R205, R295): one turn of the fill loop takes all of it, and the settled
statement. -/

namespace Sys2Proof.Machine

open Proc

/-! The fill loop when the window has room for all the input (R205). -/

/-- `t` is `s` with its `n` bytes of input moved behind the lookahead: they stand in the window, a wrapped session's checksum covers
them, and nothing else changed but the seed of the hash. -/
structure State.Filled (s t : State) (n : Nat) : Prop where
  only : t = { s with
    regs := s.regs.withInput n, cks := t.cks
    mat := { s.mat with window := t.mat.window, insH := t.mat.insH, lookahead := BitVec.ofNat 17 (s.mat.lookahead.toNat + n) } }
  bytes : ∀ i, i < n → some (t.mat.window.get (s.mat.strStart.toNat + s.mat.lookahead.toNat + i))
    = s.hostMem.get (s.regs.inPtr + BitVec.ofNat 32 i).toNat
  elsewhere : ∀ i, i < 2 ^ 17 → (i < s.mat.strStart.toNat + s.mat.lookahead.toNat
    ∨ s.mat.strStart.toNat + s.mat.lookahead.toNat + n ≤ i) → t.mat.window.get i = s.mat.window.get i
  checksum : t.cks = if s.conf.wrap = 0#2 then s.cks else
    { s.cks with ck := s.cks.unit.fold s.cks.ck (s.spanBytes s.regs.inPtr n) }

theorem withInput_zero (r : HostRegs) : r.withInput 0 = r := by simp [HostRegs.withInput]

/-- All the input consumed leaves none. -/
theorem withInput_all (r : HostRegs) : (r.withInput r.inAvail.toNat).inAvail = 0#32 := by
  show r.inAvail - BitVec.ofNat 32 r.inAvail.toNat = 0#32
  rw [BitVec.ofNat_toNat, BitVec.setWidth_eq, BitVec.sub_self]

/-- The window has room, without a slide, for `n` bytes behind the lookahead. -/
structure State.RoomFor (s : State) (n : Nat) : Prop where
  noSlide : s.mat.strStart.toNat < s.conf.windowSize + s.conf.maxDist
  room : s.mat.strStart.toNat + s.mat.lookahead.toNat + n ≤ s.conf.windowBufSize

/-- `FillWindow` without input and without a slide does nothing (R205). -/
theorem fillWindow_idle {s : State} (hin : s.regs.inAvail = 0#32)
    (hslide : s.mat.strStart.toNat < s.conf.windowSize + s.conf.maxDist) : fillWindow s = (.ok (), s) := by
  unfold fillWindow fillLoop
  rw [get_bind_run, get_bind_run, bind_run, onlyIf_run, if_neg (by rw [decide_eq_true_eq]; omega)]
  simp only [ite_run, hin, if_true, pure_run]

/-- The hash is seeded at `strStart`, or not yet (R205). -/
theorem seeded_run {c : Conf} {s : State} (h : s.mat.strStart.toNat + 1 < c.windowBufSize) :
    ∃ v, onlyIf (s.mat.lookahead.toNat ≥ minMatch) (onMatcher (seedHash c s.mat.strStart.toNat)) s
      = (.ok (), { s with mat := { s.mat with insH := v } }) := by
  obtain ⟨v, hv⟩ := seedHash_run (m := s.mat) h
  rw [onlyIf_run]
  split
  · exact ⟨v, onMatcher_ok hv⟩
  · exact ⟨s.mat.insH, rfl⟩

/-- The lookahead grew by `n` bytes. -/
def State.lookingAhead (s : State) (n : Nat) : State :=
  { s with mat := { s.mat with lookahead := s.mat.lookahead + BitVec.ofNat 17 n } }

/-- The last turn of R205: no slide is due and the window has room for all the input. -/
theorem fillLoop_last {s u : State} {n : Nat} (fuel : Nat) (hin : s.regs.inAvail ≠ 0#32)
    (hslide : s.mat.strStart.toNat < s.conf.windowSize + s.conf.maxDist)
    (hu : readBuf (s.mat.strStart.toNat + s.mat.lookahead.toNat)
      (s.conf.windowBufSize - s.mat.lookahead.toNat - s.mat.strStart.toNat) s = (.ok n, u))
    (hstart : u.mat.strStart.toNat + 1 < s.conf.windowBufSize) (hdone : u.regs.inAvail = 0#32) :
    ∃ v, fillLoop (fuel + 1) s = (.ok (), { u.lookingAhead n with mat := { (u.lookingAhead n).mat with insH := v } }) := by
  obtain ⟨v, hv⟩ := seeded_run (s := u.lookingAhead n) hstart
  have hgrow : onMatcher (modify fun m => { m with lookahead := m.lookahead + BitVec.ofNat 17 n }) u
      = (.ok (), u.lookingAhead n) := rfl
  have hnot : ¬s.conf.windowSize + s.conf.maxDist ≤ s.mat.strStart.toNat := by omega
  refine ⟨v, ?_⟩
  unfold fillLoop
  rw [get_bind_run, bind_run, onlyIf_run, if_neg (by simpa using hnot)]
  simp only [ite_run, if_neg hin, get_bind_run, decide_eq_false hnot, if_neg Bool.false_ne_true]
  rw [bind_ok hu, bind_ok hgrow, get_bind_run, bind_ok hv, ite_run, if_neg fun h => h.2 hdone, pure_run]

/-- `FillWindow` with room for all the input takes it in one turn (R205). -/
theorem fillWindow_all {s : State} (hc : s.conf.Sizes) (h : s.RoomFor s.regs.inAvail.toNat)
    (hread : s.readable s.regs.inPtr s.regs.inAvail.toNat) :
    ∃ t, fillWindow s = (.ok (), t) ∧ s.Filled t s.regs.inAvail.toNat := by
  obtain ⟨hw0, hw1, -⟩ := hc.bounds
  obtain ⟨hslide, hroom⟩ := h
  have hbuf : s.conf.windowBufSize = 2 * s.conf.windowSize := rfl
  have hdist := hc.maxDist
  by_cases hin : s.regs.inAvail = 0#32
  · refine ⟨s, fillWindow_idle hin hslide, ?_⟩
    rw [hin]
    refine ⟨?_, fun i hi => absurd hi (Nat.not_lt_zero i), fun _ _ _ => rfl, ?_⟩
    · simp [withInput_zero]
    · simp [State.spanBytes, ChecksumUnit.fold]
  obtain ⟨u, hu, heq, hbytes, helse, hck⟩ := readBufConsumes s (s.mat.strStart.toNat + s.mat.lookahead.toNat)
    (s.conf.windowBufSize - s.mat.lookahead.toNat - s.mat.strStart.toNat) s.regs.inAvail.toNat (by omega) (by omega) (by omega) hread
  have hdone : u.regs.inAvail = 0#32 := by
    rw [heq]
    exact withInput_all s.regs
  have hstart : u.mat.strStart.toNat + 1 < s.conf.windowBufSize := by
    rw [heq]
    show s.mat.strStart.toNat + 1 < _
    omega
  obtain ⟨v, hv⟩ := fillLoop_last s.regs.inAvail.toNat hin hslide hu hstart hdone
  refine ⟨_, (get_bind_run (fun s : State => fillLoop (s.regs.inAvail.toNat + 1)) s).trans hv, ?_, hbytes, helse, hck⟩
  have hla : s.mat.lookahead + BitVec.ofNat 17 s.regs.inAvail.toNat
      = BitVec.ofNat 17 (s.mat.lookahead.toNat + s.regs.inAvail.toNat) := by
    rw [BitVec.ofNat_add, BitVec.ofNat_toNat (x := s.mat.lookahead), BitVec.setWidth_eq]
  rw [← hla]
  conv_lhs => rw [heq]
  rfl

theorem State.Filled.mat {s t : State} {n : Nat} (h : s.Filled t n) : t.mat = { s.mat with
    window := t.mat.window, insH := t.mat.insH, lookahead := BitVec.ofNat 17 (s.mat.lookahead.toNat + n) } := by
  conv_lhs => rw [h.only]

theorem State.Filled.lookahead {s t : State} {n : Nat} (h : s.Filled t n) (hla : s.mat.lookahead.toNat + n < 2 ^ 17) :
    t.mat.lookahead.toNat = s.mat.lookahead.toNat + n := by
  rw [h.mat, BitVec.toNat_ofNat, Nat.mod_eq_of_lt hla]

/-- Input that fits into the window leaves the cursors in order (R34). -/
theorem State.Filled.boundaryOk {s t : State} {n : Nat} (h : s.Filled t n) (hb : s.boundaryOk = true)
    (hla : s.mat.lookahead.toNat + n < 2 ^ 17) (hroom : s.RoomFor n) : t.boundaryOk = true := by
  obtain ⟨hm, hk, hcod⟩ := (boundaryOk_iff s).1 hb
  obtain ⟨-, hblock, hpos⟩ := (matcher_cursorsOk_iff _ _).1 hm
  have hroom := hroom.room
  have hconf : t.conf = s.conf := by rw [h.only]
  refine (boundaryOk_iff t).2 ⟨(matcher_cursorsOk_iff _ _).2 ⟨?_, ?_, ?_⟩, ?_, ?_⟩
  · rw [h.lookahead hla, hconf, h.mat]
    show s.mat.strStart.toNat + _ ≤ _
    omega
  · rw [h.mat]
    exact hblock
  · rw [h.mat, hconf]
    exact hpos
  · rw [h.only]
    exact hk
  · rw [h.only]
    exact hcod

/-! The strategies when the input ends before the lookahead is full (R262, R265). -/

theorem refill_starved {s t : State} (h : s.mat.lookahead.toNat < minLookahead) (hf : fillWindow s = (.ok (), t))
    (ht : t.mat.lookahead.toNat < minLookahead) : refill noFlush s = (.ok .starved, t) := by
  unfold refill
  rw [get_bind_run, ite_run, if_pos h, bind_ok hf, get_bind_run, ite_run, if_pos ⟨ht, rfl⟩, pure_run]

/-- At levels 1 to 9 the strategy is one of the two that search for matches (R10). -/
theorem levelRow_fn_matching : ∀ l : BitVec 4, 1 ≤ l.toNat → (levelRow l).fn ≠ .stored := by decide

/-- A matching strategy whose first refill starves answers `NEED_MORE` (R262, R265). -/
theorem deflate_starved {s t : State} (hfn : s.conf.fn ≠ .stored) (h : refill noFlush s = (.ok .starved, t)) :
    deflate noFlush s = (.ok .needMore, t) := by
  unfold deflate
  rw [get_bind_run]
  cases hf : s.conf.fn with
  | stored => exact absurd hf hfn
  | fast =>
    show deflateFast noFlush s = _
    unfold deflateFast State.turns fastLoop
    rw [get_bind_run, bind_run, bind_ok h]
    rfl
  | slow =>
    show deflateSlow noFlush s = _
    unfold deflateSlow State.turns slowLoop
    rw [get_bind_run, bind_run, bind_ok h]
    rfl

/-- A strategy that stopped short of the end of the output owes no more work (R283). -/
theorem afterStrategy_needMore {s : State} {flush : BitVec 3} (h : s.regs.outAvail ≠ 0#32) :
    afterStrategy flush .needMore s = (.ok .ok, s) := by
  unfold afterStrategy outputFull
  rw [bind_run, onlyIf_run, if_neg (by decide)]
  simp only [bind_run, get_run, pure_run, decide_eq_false h, onlyIf_run, if_neg Bool.false_ne_true]

/-- Settles O26: the strategy's first refill takes all the input (`fillWindow_all`) and starves. -/
theorem stepBuffersSmallInput : Obligations.StepBuffersSmallInput := by
  intro s hl hc hb hlev ho hs hr hp hin hla hslide hread
  obtain ⟨hw0, hw1, -⟩ := hc.toSizes.bounds
  have hdist := hc.toSizes.maxDist
  have hbuf : s.conf.windowBufSize = 2 * s.conf.windowSize := rfl
  have hroom : s.RoomFor s.regs.inAvail.toNat := ⟨hslide, by omega⟩
  have hla' : s.mat.lookahead.toNat + s.regs.inAvail.toNat < 2 ^ 17 := by omega
  obtain ⟨t, hfill, hfilled⟩ := fillWindow_all (s := s.begun noFlush) hc.toSizes ⟨hroom.noSlide, hroom.room⟩ hread
  have hlook := hfilled.lookahead hla'
  have hout : t.regs.outAvail ≠ 0#32 := by
    rw [hfilled.only]
    exact hr
  have hdef : deflate noFlush (s.begun noFlush) = (.ok .needMore, t) :=
    deflate_starved (levelRow_fn_matching _ hlev) (refill_starved (show s.mat.lookahead.toNat < 262 by omega) hfill
      (hlook ▸ show s.mat.lookahead.toNat + s.regs.inAvail.toNat < 262 by omega))
  have hwork : (s.begun noFlush).hasWork noFlush = true := by
    have hin' : (s.begun noFlush).regs.inAvail ≠ 0#32 := hin
    simp [State.hasWork, hin']
  have hacc : stepAccepted noFlush s = (.ok .ok, t) := by
    rw [stepAccepted_fresh (by rw [hs]; decide) (by simp [State.isRepeat, hin]) hp]
    unfold stepWork
    rw [get_bind_run, ite_run, if_pos hwork, bind_ok hdef, afterStrategy_needMore hout]
  have hbt := hfilled.boundaryOk hb hla' ⟨hroom.noSlide, hroom.room⟩
  have honly := hfilled.only
  refine ⟨_, exec_step_accepted hl (by decide) (stepRefusal_none ho (fun h => by rw [hs] at h; cases h) hr) hacc hbt,
    ?_, ?_, hfilled.mat, hfilled.bytes, hfilled.elsewhere, hfilled.checksum, ?_, ?_, ?_, ?_, ?_, ?_, ?_⟩
  · show { t.regs with code := .ok } = _
    rw [honly]
    rfl
  · show t.regs.inAvail = 0#32
    rw [honly]
    exact withInput_all s.regs
  all_goals
    show _ = _
    rw [honly]
    rfl

end Sys2Proof.Machine
end

section
/-! SUPPORT. Flushes that find no open block (R240, R295): the marker behind the bits the accumulator holds, its bytes delivered, and
the settled statement about `STEP`'s flush markers. -/

namespace Sys2Proof.Machine

open Proc

/-! The two markers. -/

/-- A stored block with room for its bits (R236): it ends at a byte boundary. -/
theorem storedBlock_sent {s : State} {bfinal : Bool} {n start : Nat} (ha : s.pk.AccumulatorOk)
    (hcap : s.conf.pendingBufSize ≤ 2 ^ 17) (hn : n ≤ 65535) (hwin : start + n ≤ s.conf.windowBufSize)
    (hroom : s.pk.bits.length + (storedBlockBits bfinal s.pk.biValid.toNat n s.mat.window start).length
      ≤ 8 * s.conf.pendingBufSize) :
    ∃ l, storedBlock start n bfinal s = (.ok (), { s with pk := l, cod := s.cod.withEobLen 8#4 })
      ∧ s.pk.Sent l (storedBlockBits bfinal s.pk.biValid.toNat n s.mat.window start) ∧ l.biValid = 0#5 := by
  rw [length_storedBlockBits] at hroom
  obtain ⟨k, hk, sk⟩ := sendHeader_sends hcap .stored bfinal s.pk ha (by
    simp only [List.length_cons, length_lowBits]
    omega)
  have hpad := sk.zeroPad
  have hlen := sk.length
  simp only [List.length_cons, length_lowBits] at hpad hlen
  obtain ⟨k', hk', sk', h0⟩ := biWindup_sent sk.accumulator (cap := s.conf.pendingBufSize) (by
    rw [Packer.length_bits] at hlen
    omega) hcap
  have hp : 8 * k'.pending.toNat + 32 + 8 * n ≤ 8 * s.conf.pendingBufSize := by
    have hlen' := sk'.length
    rw [hpad, length_zeroPad, Packer.length_bits k', h0] at hlen'
    simp only [BitVec.toNat_zero] at hlen'
    omega
  obtain ⟨l1, hl1, g1⟩ := putShort_grew (w := BitVec.ofNat 16 n) (k := k') (cap := s.conf.pendingBufSize) (by omega) hcap
  obtain ⟨l2, hl2, g2⟩ := putShort_grew (w := ~~~ BitVec.ofNat 16 n) (k := l1) (cap := s.conf.pendingBufSize)
    (by rw [g1.pending]; omega) hcap
  obtain ⟨l3, hl3, g3⟩ := putWindow_grew (window := s.mat.window) hcap n start l2 (by rw [g2.pending, g1.pending]; omega) hwin
  have hg := (g1.trans g2).trans g3
  have hsent := (sk.trans sk').trans (hg.sent sk'.accumulator h0)
  refine ⟨l3, ?_, ?_, hg.biValid.trans h0⟩
  · unfold storedBlock
    rw [get_bind_run, bind_ok (onPacker_ok hk), bind_ok (onPacker_ok hk'), bind_ok (setLastEobLen_run 8 _), bind_ok (onPacker_ok hl1),
      bind_ok (onPacker_ok hl2), onPacker_ok hl3]
  · have e1 : lowBits (BitVec.ofNat 16 n).toNat 16 = lowBits n 16 := by
      rw [BitVec.toNat_ofNat, lowBits_mod _ le_rfl]
    have e2 : (~~~ BitVec.ofNat 16 n).toNat = 65535 - n := by
      rw [BitVec.toNat_not, BitVec.toNat_ofNat, Nat.mod_eq_of_lt (by omega)]
    rw [hpad, e1, e2] at hsent
    unfold storedBlockBits
    simpa [show lowBits BlockType.stored.btype 2 = [false, false] from rfl] using hsent

/-- The empty stored block is the marker of R131 (a). -/
theorem storedBlockBits_empty (biValid : Nat) (window : Ram 8) :
    storedBlockBits false biValid 0 window 0 = storedMarkerBits biValid := by
  simp [storedBlockBits, storedMarkerBits]

/-- One empty static block, after which at most 7 bits stay in the accumulator (R240). -/
theorem emptyStatic_sent {cap : Nat} {k : Packer} (hk : k.AccumulatorOk) (hcap : cap ≤ 2 ^ 17)
    (hroom : k.bits.length + 10 ≤ 8 * cap) :
    ∃ l, emptyStatic cap k = (.ok (), l) ∧ k.Sent l emptyStaticBits ∧ l.biValid.toNat ≤ 7 := by
  have hsends := (sendHeader_sends hcap .static false).bind (staticSymbol_sends hcap (n := endBlock) (by decide))
  obtain ⟨l, hl, hs⟩ := hsends k hk hroom
  have hlen : l.bits.length = k.bits.length + 10 := hs.length
  rw [Packer.length_bits l] at hlen
  obtain ⟨l', hl', hs', h7⟩ := biFlush_sent hs.accumulator (cap := cap) (by omega) hcap
  refine ⟨l', ?_, hs.trans hs', h7⟩
  unfold emptyStatic
  rw [← bind_assoc, bind_ok hl, hl']

/-- `Align` (R240): one empty static block, or two. -/
theorem align_run {s : State} (ha : s.pk.AccumulatorOk) (hcap : s.conf.pendingBufSize ≤ 2 ^ 17)
    (hroom : s.pk.bits.length + 20 ≤ 8 * s.conf.pendingBufSize) :
    ∃ l, align s = (.ok (), { s with pk := l, cod := s.cod.withEobLen 7#4 })
      ∧ s.pk.Sent l (alignMarkerBits s.cod.lastEobLen.toNat s.pk.biValid.toNat) ∧ l.biValid.toNat ≤ 7 := by
  obtain ⟨k, hk, sk, h7⟩ := emptyStatic_sent ha hcap (by omega)
  have hlen : k.bits.length = s.pk.bits.length + 10 := sk.length
  have hleft : k.biValid.toNat = (s.pk.biValid.toNat + 10) % 8 := by
    rw [Packer.length_bits, Packer.length_bits] at hlen
    omega
  have hcond : 1 + (s.cod.lastEobLen.toNat : Int) + 10 - k.biValid.toNat < 9
      ↔ 1 + s.cod.lastEobLen.toNat + 10 < 9 + (s.pk.biValid.toNat + 10) % 8 := by omega
  unfold align alignMarkerBits
  rw [get_bind_run, bind_ok (onPacker_ok hk), get_bind_run]
  by_cases htwo : 1 + s.cod.lastEobLen.toNat + 10 < 9 + (s.pk.biValid.toNat + 10) % 8
  · obtain ⟨l, hl, sl, h7'⟩ := emptyStatic_sent sk.accumulator hcap (by omega)
    refine ⟨l, ?_, ?_, h7'⟩
    · rw [bind_run, onlyIf_run, if_pos (hcond.2 htwo), onPacker_ok hl]
      exact setLastEobLen_run 7 _
    · rw [if_pos htwo]
      exact sk.trans sl
  · refine ⟨k, ?_, ?_, h7⟩
    · rw [bind_run, onlyIf_run, if_neg (htwo ∘ hcond.1)]
      exact setLastEobLen_run 7 _
    · rw [if_neg htwo, List.append_nil]
      exact sk

/-! Bits delivered as bytes. -/

/-- Bits sent behind an empty pending buffer: its whole bytes are delivered, and the rest stays in the accumulator. -/
theorem flushPending_sent {u : State} {k : Packer} {bits : List Bool} (hs : k.Sent u.pk bits) (h0 : k.pending = 0#18)
    (hout : k.pendingOut = 0#18) (h7 : u.pk.biValid.toNat ≤ 7) (h8 : 8 ≤ bits.length)
    (hcap : k.biValid.toNat + bits.length ≤ 8 * u.conf.pendingBufSize)
    (hroom : (k.biValid.toNat + bits.length) / 8 ≤ u.regs.outAvail.toNat) :
    ∃ bs m, flushPending u = (.ok (), u.drainedAll bs.length m) ∧ u.Delivered (u.drainedAll bs.length m) bs
      ∧ bs.flatMap (fun b => lowBits b.toNat 8) ++ lowBits u.pk.biBuf.toNat u.pk.biValid.toNat
        = lowBits k.biBuf.toNat k.biValid.toNat ++ bits := by
  have hlen := hs.length
  rw [Packer.length_bits, Packer.length_bits, h0, BitVec.toNat_zero] at hlen
  obtain ⟨m, hrun, hdel⟩ := flushPending_all (hs.pendingOut.trans hout) (by omega) (by omega) (by omega)
  have hbs : (u.pk.bytesFrom 0 u.pk.pending.toNat).length = u.pk.pending.toNat := by simp
  refine ⟨_, m, hbs.symm ▸ hrun, hbs.symm ▸ hdel, ?_⟩
  have hbits := hs.bits
  unfold Packer.bits at hbits
  rw [h0] at hbits
  simp only [BitVec.toNat_zero, List.range_zero, List.flatMap_nil, List.nil_append] at hbits
  rw [← hbits]
  congr 1
  simp [Packer.bytesFrom, List.flatMap_map]

/-! The strategies when there is nothing to encode (R261 to R268). -/

/-- No input is left, none is in the lookahead or deferred, and the open block is empty. -/
structure State.NothingOpen (s : State) : Prop where
  inAvail : s.regs.inAvail = 0#32
  lookahead : s.mat.lookahead = 0#17
  noSlide : s.mat.strStart.toNat < s.conf.windowSize + s.conf.maxDist
  noSymbols : s.cod.lastLit = 0#16
  noDeferred : s.mat.matchAvailable = false
  noBytes : s.mat.blockStart.toInt = s.mat.strStart.toNat

section Idle

variable {s : State} {flush : BitVec 3}

/-- A turn of the stored strategy with nothing to take ends its loop (R261). -/
theorem storedLoop_leave (hin : s.regs.inAvail = 0#32) (hla : s.mat.lookahead = 0#17)
    (hslide : s.mat.strStart.toNat < s.conf.windowSize + s.conf.maxDist) (hf : flush ≠ noFlush) (fuel : Nat) :
    storedLoop flush (fuel + 1) s = (.ok none, s) := by
  have hfill : onlyIf (s.mat.lookahead.toNat ≤ 1) fillWindow s = (.ok (), s) := by
    rw [onlyIf_run, if_pos (by rw [hla]; decide), fillWindow_idle hin hslide]
  unfold storedLoop
  rw [get_bind_run, bind_ok hfill, get_bind_run, ite_run, if_pos hla, if_neg hf, pure_run]

/-- The refill of a matching strategy with nothing to take leaves the loop (R262, R265). -/
theorem refill_leave (hin : s.regs.inAvail = 0#32) (hla : s.mat.lookahead = 0#17)
    (hslide : s.mat.strStart.toNat < s.conf.windowSize + s.conf.maxDist) (hf : flush ≠ noFlush) :
    refill flush s = (.ok .leave, s) := by
  unfold refill
  rw [get_bind_run, ite_run, if_pos (by rw [hla]; decide), bind_ok (fillWindow_idle hin hslide), get_bind_run, ite_run,
    if_neg fun h => hf h.2, ite_run, if_pos hla, pure_run]

/-- An empty open block needs no block of its own (R268). -/
theorem tail_empty (hf : flush ≠ finishFlush) : tail flush false s = (.ok .blockDone, s) := by
  unfold tail
  rw [ite_run, if_neg hf, ite_run, if_neg Bool.false_ne_true, pure_run]

/-- Every strategy answers `BLOCK_DONE` when there is nothing to encode (R260). -/
theorem deflate_nothingOpen (h : s.NothingOpen) (hn : flush ≠ noFlush) (hf : flush ≠ finishFlush) :
    deflate flush s = (.ok .blockDone, s) := by
  obtain ⟨hin, hla, hslide, hlit, hdef, hblock⟩ := h
  have hrefill := refill_leave hin hla hslide hn
  have hholds : s.blockHolds = false := decide_eq_false (not_not.2 hlit)
  have hlen : ¬s.mat.blockLen > 0 := by
    unfold Matcher.blockLen
    omega
  unfold deflate
  rw [get_bind_run]
  cases s.conf.fn with
  | stored =>
    show deflateStored flush s = _
    unfold deflateStored State.turns
    rw [get_bind_run, bind_ok (storedLoop_leave hin hla hslide hn _)]
    dsimp only
    rw [get_bind_run, decide_eq_false hlen, tail_empty hf]
  | fast =>
    show deflateFast flush s = _
    unfold deflateFast State.turns fastLoop
    rw [get_bind_run, bind_run, bind_ok hrefill]
    dsimp only [pure_run]
    rw [get_bind_run, hholds, tail_empty hf]
  | slow =>
    show deflateSlow flush s = _
    unfold deflateSlow State.turns slowLoop
    rw [get_bind_run, bind_run, bind_ok hrefill]
    dsimp only [pure_run]
    rw [get_bind_run, bind_run, onlyIf_run, if_neg (by rw [hdef]; decide)]
    dsimp only
    rw [get_bind_run, hholds, tail_empty hf]

end Idle

/-! The marker of a `STEP` (R283, R295). -/

/-- The marker of a flush (R131, R240). -/
def State.markerBits (s : State) (flush : BitVec 3) : List Bool :=
  if flush = 1#3 then alignMarkerBits s.cod.lastEobLen.toNat s.pk.biValid.toNat else storedMarkerBits s.pk.biValid.toNat

theorem length_markerBits (s : State) (flush : BitVec 3) :
    10 ≤ (s.markerBits flush).length ∧ (s.markerBits flush).length ≤ 42 := by
  unfold State.markerBits
  split
  · unfold alignMarkerBits
    split <;> simp [emptyStaticBits]
  · simp only [storedMarkerBits, List.length_append, length_zeroPad, length_lowBits, List.length_cons, List.length_nil]
    omega

/-- The state behind the marker, which left the packer `l`: a full flush has cleared the hash heads (R213). -/
def State.marked (s : State) (flush : BitVec 3) (l : Packer) : State :=
  { s with
    pk := l, cod := s.cod.withEobLen (if flush = 1#3 then 7#4 else 8#4)
    mat := { s.mat with head := if flush = 3#3 then s.mat.head.clearBelow s.conf.hashSize else s.mat.head } }

/-- The marker with room for its bits (R295): from a sync or full flush on, the packer stands at a byte boundary. -/
theorem flushMarker_run {s : State} (flush : BitVec 3) (ha : s.pk.AccumulatorOk) (hcap : s.conf.pendingBufSize ≤ 2 ^ 17)
    (hroom : s.pk.bits.length + 42 ≤ 8 * s.conf.pendingBufSize) :
    ∃ l, flushMarker flush s = (.ok (), s.marked flush l) ∧ s.pk.Sent l (s.markerBits flush) ∧ l.biValid.toNat ≤ 7
      ∧ (flush ≠ 1#3 → l.biValid = 0#5) := by
  have hlen := length_markerBits s flush
  unfold flushMarker State.markerBits
  rw [ite_run]
  by_cases h1 : flush = 1#3
  · subst h1
    obtain ⟨l, hl, hs, h7⟩ := align_run ha hcap (by omega)
    exact ⟨l, hl, hs, h7, fun h => absurd rfl h⟩
  · have hbits : s.markerBits flush = storedBlockBits false s.pk.biValid.toNat 0 s.mat.window 0 :=
      (if_neg h1).trans (storedBlockBits_empty _ _).symm
    rw [hbits] at hlen
    obtain ⟨l, hl, hs, h0⟩ := storedBlock_sent (s := s) (bfinal := false) (n := 0) (start := 0) ha hcap (by decide) (Nat.zero_le _)
      (by omega)
    rw [storedBlockBits_empty] at hs
    rw [Nat.cast_zero] at hl
    refine ⟨l, ?_, by rwa [if_neg h1], by rw [h0]; decide, fun _ => h0⟩
    rw [if_neg (show ¬flush = partialFlush from h1)]
    unfold State.marked
    rw [if_neg h1]
    by_cases h3 : flush = 3#3
    · rw [bind_ok hl, get_bind_run, onlyIf_run, if_pos (show flush = fullFlush from h3), if_pos h3]
      rfl
    · rw [bind_ok hl, get_bind_run, onlyIf_run, if_neg (show ¬flush = fullFlush from h3), if_neg h3]

/-- A cleared entry passes every check that 0 passes. -/
theorem Ram.allBelow_clearBelow {w : Nat} {p : BitVec w → Bool} (hp : p 0#w = true) (m : Ram w) (n : Nat) :
    (m.clearBelow n).allBelow n p = true := by
  rw [Ram.allBelow_iff hp]
  intro i hi hin
  rw [Ram.get_clearBelow _ _ hi, if_pos hin]
  exact hp

/-- Hash heads cleared or kept are in range. -/
theorem marked_positionsOk {s : State} (hc : s.conf.Sizes) {flush : BitVec 3} {l : Packer} (h : s.mat.PositionsOk s.conf) :
    (s.marked flush l).mat.PositionsOk s.conf := by
  obtain ⟨hhead, hprev⟩ := h
  refine ⟨?_, hprev⟩
  show (if flush = 3#3 then s.mat.head.clearBelow s.conf.hashSize else s.mat.head).allBelow _ _ = true
  split
  · exact Ram.allBelow_clearBelow hc.positionOk_zero _ _
  · exact hhead

/-- The cursors behind the marker. -/
theorem marked_boundaryOk {s : State} (hc : s.conf.Sizes) (hb : s.boundaryOk = true) {flush : BitVec 3} {l : Packer}
    {bits : List Bool} (hs : s.pk.Sent l bits) (hout : s.pk.pendingOut = 0#18)
    (hroom : s.pk.bits.length + bits.length ≤ 8 * s.conf.pendingBufSize) : (s.marked flush l).boundaryOk = true := by
  obtain ⟨hm, -, hk⟩ := (boundaryOk_iff s).1 hb
  obtain ⟨hend, hblock, hpos⟩ := (matcher_cursorsOk_iff _ _).1 hm
  have hlen := hs.length
  rw [Packer.length_bits l] at hlen
  refine (boundaryOk_iff _).2 ⟨(matcher_cursorsOk_iff _ _).2 ⟨hend, hblock, marked_positionsOk hc hpos⟩,
    (packer_cursorsOk_iff _ _).2 ⟨?_, ?_, hs.accumulator.1⟩, hk⟩
  · show l.pendingOut.toNat ≤ _
    rw [hs.pendingOut, hout]
    exact Nat.zero_le _
  · show l.pending.toNat ≤ s.conf.pendingBufSize
    omega

theorem lowBits_byte_injective {a b : Byte} (h : lowBits a.toNat 8 = lowBits b.toNat 8) : a = b :=
  BitVec.eq_of_getLsbD_eq fun i hi => List.map_inj_left.1 h i (List.mem_range.2 hi)

/-- Bytes are determined by their bits. -/
theorem flatMap_lowBits_injective : ∀ as bs : List Byte,
    as.flatMap (fun b => lowBits b.toNat 8) = bs.flatMap (fun b => lowBits b.toNat 8) → as = bs
  | [], [], _ => rfl
  | [], b :: bs, h => by cases h
  | a :: as, [], h => by cases h
  | a :: as, b :: bs, h => by
    rw [List.flatMap_cons, List.flatMap_cons] at h
    obtain ⟨hab, hrest⟩ := List.append_inj h (by simp)
    rw [lowBits_byte_injective hab, flatMap_lowBits_injective as bs hrest]

theorem afterStrategy_blockDone (flush : BitVec 3) :
    afterStrategy flush .blockDone = flushMarker flush >>= fun _ => flushPending >>= fun _ => pure .ok := by
  funext s
  unfold afterStrategy
  rw [bind_run, onlyIf_run, if_neg (by decide)]

/-- Before `FINISH` every flush has the strategy run (R283). -/
theorem hasWork_flush {s : State} {flush : BitVec 3} (hn : flush ≠ noFlush) (hs : s.regs.sstate ≠ .finish) :
    s.hasWork flush = true := by simp [State.hasWork, hn, hs]

/-- A flush above `lastFlush` is no repeat (R297). -/
theorem isRepeat_above {s : State} {flush : BitVec 3} (h : s.lastFlush.toInt < flush.toNat) : s.isRepeat flush = false := by
  unfold State.isRepeat
  rw [decide_eq_false (p := (flush.toNat : Int) ≤ s.lastFlush.toInt) (by omega), Bool.and_false, Bool.false_and]

/-- Settles O27: the strategy finds nothing to encode (`deflate_nothingOpen`), the marker is sent (`flushMarker_run`) and its whole
bytes are delivered (`flushPending_sent`). -/
theorem stepFlushMarker : Obligations.StepFlushMarker := by
  intro s flush marker hl hc hb ha ho hs hin h0 hout hla hlit hdef hblock hslide hflush hlast hmarker hroom
  obtain ⟨-, -, -, -, -, -, hcap0, hcap⟩ := hc.toSizes.bounds
  have hv := ha.1
  have hmark : s.markerBits flush = marker := hmarker.symm
  have hlen := length_markerBits s flush
  rw [hmark] at hlen
  have hbits : s.pk.bits.length = s.pk.biValid.toNat := by
    rw [Packer.length_bits, h0]
    exact Nat.zero_add _
  have hne : flush ≠ noFlush ∧ flush ≠ finishFlush ∧ flush.toNat ≤ 4 := by
    rcases hflush with rfl | rfl | rfl <;> decide
  obtain ⟨hn, hfin, h4⟩ := hne
  have hidle : (s.begun flush).NothingOpen := ⟨hin, hla, hslide, hlit, hdef, hblock⟩
  obtain ⟨l, hrun, hsent, h7, hzero⟩ := flushMarker_run (s := s.begun flush) flush ha hcap (by
    show s.pk.bits.length + 42 ≤ 8 * s.conf.pendingBufSize
    omega)
  rw [show (s.begun flush).markerBits flush = marker from hmark] at hsent
  obtain ⟨u, hu⟩ : ∃ u, u = (s.begun flush).marked flush l := ⟨_, rfl⟩
  have hpk : u.pk = l := by rw [hu]; rfl
  obtain ⟨bs, m, hdeliver, hdel, hwire⟩ := flushPending_sent (u := u) (hpk.symm ▸ hsent) h0 hout (hpk.symm ▸ h7) (by omega) (by
    rw [hu]
    show s.pk.biValid.toNat + marker.length ≤ 8 * s.conf.pendingBufSize
    omega) (by rw [hu]; exact hroom)
  have hbu : u.boundaryOk = true := by
    rw [hu]
    exact marked_boundaryOk (s := s.begun flush) hc.toSizes hb hsent hout (by
      show s.pk.bits.length + marker.length ≤ 8 * s.conf.pendingBufSize
      omega)
  have hbt : (u.drainedAll bs.length m).boundaryOk = true := boundaryOk_drainedAll (u := u) hbu rfl rfl rfl rfl
  have hacc : stepAccepted flush s = (.ok .ok, u.drainedAll bs.length m) := by
    rw [stepAccepted_fresh (by rw [hs]; decide) (isRepeat_above hlast) (h0.trans hout.symm)]
    unfold stepWork
    have hwork : (s.begun flush).hasWork flush = true := hasWork_flush hn (show s.regs.sstate ≠ .finish by rw [hs]; decide)
    rw [get_bind_run, ite_run, if_pos hwork, bind_ok (deflate_nothingOpen hidle hn hfin), afterStrategy_blockDone, bind_ok hrun, ← hu,
      bind_ok hdeliver, pure_run]
  have hexec := exec_step_accepted hl h4 (stepRefusal_none ho (fun h => by rw [hs] at h; cases h) (fun h => by
    rw [h, BitVec.toNat_zero] at hroom
    omega)) hacc hbt
  rw [hpk] at hwire
  subst hu
  refine ⟨_, bs, hexec, ⟨hdel.bytes, hdel.elsewhere, hdel.outPtr, hdel.outAvail, hdel.totalOut⟩,
    hwire, hsent.accumulator, h7, hzero, fun h1 hv0 => ?_, rfl, rfl, fun h3 => if_neg h3, fun h3 i hi => ?_, rfl, ?_, rfl, rfl,
    rfl, rfl, rfl, rfl⟩
  · rw [hzero h1, hv0, BitVec.toNat_zero, show lowBits l.biBuf.toNat 0 = [] from rfl, List.append_nil,
      show lowBits s.pk.biBuf.toNat 0 = [] from rfl, List.nil_append, hmarker, if_neg h1, hv0] at hwire
    exact flatMap_lowBits_injective _ _ (hwire.trans (by decide))
  · show (if flush = 3#3 then s.mat.head.clearBelow s.conf.hashSize else s.mat.head).get i = 0#16
    rw [if_pos h3, Ram.get_clearBelow_of_lt _ hi]
  · exact BitVec.toNat_setWidth_of_le (by decide)

end Sys2Proof.Machine
end

section
/-! SUPPORT. A whole raw level-0 stream in one `STEP FINISH` (R261, R235, R236, R283): the loop of the stored strategy takes all the
input into the window, one final stored block holds it, and the settled statement. -/

namespace Sys2Proof.Machine

open Proc

/-! The stored strategy's loop (R261). -/

/-- `t` is `s` with its `n` bytes of input at the front of the window, all of them in the open block. -/
structure State.Stored (s t : State) (n : Nat) : Prop where
  only : t = { s with
    regs := s.regs.withInput n, cks := t.cks
    mat := { s.mat with window := t.mat.window, insH := t.mat.insH, strStart := BitVec.ofNat 17 n, lookahead := 0#17 } }
  bytes : ∀ i, i < n → some (t.mat.window.get i) = s.hostMem.get (s.regs.inPtr + BitVec.ofNat 32 i).toNat

theorem State.Stored.strStart {s t : State} {n : Nat} (h : s.Stored t n) (hn : n < 2 ^ 17) : t.mat.strStart.toNat = n := by
  rw [h.only]
  show (BitVec.ofNat 17 n).toNat = n
  rw [BitVec.toNat_ofNat, Nat.mod_eq_of_lt hn]

/-- Input that fits into the window leaves the cursors in order (R34). -/
theorem State.Stored.cursorsOk {s t : State} {n : Nat} (h : s.Stored t n) (hb : s.boundaryOk = true)
    (hblock : s.mat.blockStart = 0#32) (hn : n < 2 ^ 17) (hroom : n ≤ s.conf.windowBufSize) : t.mat.cursorsOk t.conf = true := by
  obtain ⟨hm, -, -⟩ := (boundaryOk_iff s).1 hb
  obtain ⟨-, -, hpos⟩ := (matcher_cursorsOk_iff _ _).1 hm
  have hconf : t.conf = s.conf := by rw [h.only]
  rw [hconf]
  refine (matcher_cursorsOk_iff _ _).2 ⟨?_, ?_, ?_⟩
  · rw [h.strStart hn, h.only]
    exact hroom
  · rw [h.strStart hn, h.only]
    show s.mat.blockStart.toInt ≤ n
    rw [hblock]
    exact Int.natCast_nonneg n
  · rw [h.only]
    exact hpos

/-- An open block that may still grow is not closed (R261). -/
theorem triggers_idle {s : State} (hsize : (s.mat.strStart.toNat : Int) < s.mat.blockStart.toInt + s.conf.maxBlockSize)
    (hdist : s.mat.blockLen < (s.conf.maxDist : Int)) : sizeTrigger s = (.ok false, s) ∧ distTrigger s = (.ok false, s) := by
  constructor
  · unfold sizeTrigger
    rw [get_bind_run, ite_run, if_neg (by omega), pure_run]
  · unfold distTrigger
    rw [get_bind_run, ite_run, if_neg (by omega), pure_run]

/-- The lookahead joins the open block (R261). -/
def State.tookLookahead (s : State) : State :=
  { s with mat := { s.mat with strStart := s.mat.strStart + s.mat.lookahead, lookahead := 0#17 } }

/-- A turn of the stored strategy that fills the lookahead and closes no block (R261). -/
theorem storedLoop_take {s t : State} {flush : BitVec 3} (hla : s.mat.lookahead = 0#17) (hfill : fillWindow s = (.ok (), t))
    (hne : t.mat.lookahead ≠ 0#17) (hsize : sizeTrigger t.tookLookahead = (.ok false, t.tookLookahead))
    (hdist : distTrigger t.tookLookahead = (.ok false, t.tookLookahead)) (fuel : Nat) :
    storedLoop flush (fuel + 1) s = storedLoop flush fuel t.tookLookahead := by
  have hfill' : onlyIf (s.mat.lookahead.toNat ≤ 1) fillWindow s = (.ok (), t) := by
    rw [onlyIf_run, if_pos (by rw [hla]; decide), hfill]
  have htake : takeLookahead t = (.ok (), t.tookLookahead) := rfl
  conv_lhs => unfold storedLoop
  rw [get_bind_run, bind_ok hfill', get_bind_run, ite_run, if_neg hne, bind_ok htake, bind_ok hsize, ite_run,
    if_neg Bool.false_ne_true, bind_ok hdist, ite_run, if_neg Bool.false_ne_true]

/-- The stored strategy's loop on an empty window, with input that no block limit cuts (R261). -/
theorem storedLoop_takesAll {s : State} {flush : BitVec 3} {n : Nat} (hn : n = s.regs.inAvail.toNat) (hc : s.conf.Sizes)
    (h0 : s.mat.strStart = 0#17) (hla : s.mat.lookahead = 0#17) (hblock : s.mat.blockStart = 0#32)
    (hdist : n < s.conf.maxDist) (hsize : n + 6 < s.conf.pendingBufSize) (hf : flush ≠ noFlush)
    (hread : s.readable s.regs.inPtr n) : ∃ t, storedLoop flush (n + 1) s = (.ok none, t) ∧ s.Stored t n := by
  obtain ⟨hw0, hw1, -⟩ := hc.bounds
  have hbuf : s.conf.windowBufSize = 2 * s.conf.windowSize := rfl
  have hmax := hc.maxDist
  have hslide : s.mat.strStart.toNat < s.conf.windowSize + s.conf.maxDist := by
    rw [h0, BitVec.toNat_zero]
    omega
  by_cases hin : s.regs.inAvail = 0#32
  · have hn0 : n = 0 := by rw [hn, hin]; rfl
    subst hn0
    refine ⟨s, storedLoop_leave hin hla hslide hf 0, ?_, fun i hi => absurd hi (Nat.not_lt_zero i)⟩
    have hmat : s.mat = { s.mat with strStart := s.mat.strStart, lookahead := s.mat.lookahead } := rfl
    rw [h0, hla] at hmat
    rw [withInput_zero, ← hmat]
  · obtain ⟨t, hfill, honly, hbytes, -, -⟩ := fillWindow_all hc ⟨hslide, by rw [h0, hla, BitVec.toNat_zero]; omega⟩ (hn ▸ hread)
    simp only [← hn, h0, hla, BitVec.toNat_zero, Nat.zero_add] at hbytes
    rw [← hn, hla, BitVec.toNat_zero, Nat.zero_add] at honly
    have hn0 : n ≠ 0 := fun hn0 => hin (BitVec.eq_of_toNat_eq (hn.symm.trans hn0))
    have htook : t.tookLookahead = { s with
        regs := s.regs.withInput n, cks := t.cks
        mat := { s.mat with window := t.mat.window, insH := t.mat.insH, strStart := BitVec.ofNat 17 n, lookahead := 0#17 } } := by
      conv_lhs => rw [honly]
      unfold State.tookLookahead
      simp only [h0, BitVec.zero_add]
    have hstart : t.tookLookahead.mat.strStart.toNat = n := by
      rw [htook]
      show (BitVec.ofNat 17 n).toNat = n
      rw [BitVec.toNat_ofNat, Nat.mod_eq_of_lt (by omega)]
    have hstart0 : t.tookLookahead.mat.blockStart.toInt = 0 := by
      rw [htook]
      exact congrArg BitVec.toInt hblock
    have hconf : t.tookLookahead.conf = s.conf := by rw [htook]
    obtain ⟨hts, htd⟩ := triggers_idle (s := t.tookLookahead) (by
      rw [hstart, hstart0, hconf]
      unfold Conf.maxBlockSize
      omega) (by
      unfold Matcher.blockLen
      rw [hstart, hstart0, hconf]
      omega)
    refine ⟨t.tookLookahead, ?_, htook, hbytes⟩
    have hlook : t.mat.lookahead ≠ 0#17 := by
      rw [honly]
      intro h
      have := congrArg BitVec.toNat h
      rw [BitVec.toNat_ofNat, Nat.mod_eq_of_lt (by omega)] at this
      exact hn0 this
    rw [storedLoop_take hla hfill hlook hts htd]
    obtain ⟨fuel, rfl⟩ := Nat.exists_eq_succ_of_ne_zero hn0
    refine storedLoop_leave ?_ rfl ?_ hf fuel
    · rw [htook]
      show (s.regs.withInput _).inAvail = 0#32
      rw [hn]
      exact withInput_all s.regs
    · rw [hstart, hconf]
      omega

/-! The final stored block (R235, R236). -/

/-- At level 0 a block in the window is stored (R235). -/
theorem costBlock_level0 {s : State} (hlev : s.conf.level = 0#4) {buf : Int} (hbuf : buf ≠ -1) (n : Nat) :
    costBlock buf n s = (.ok (0, true, n + 5), s) := by
  unfold costBlock
  rw [get_bind_run, ite_run, if_neg (by rw [hlev]; decide), require_bind_run, if_pos (decide_eq_true hbuf), pure_run]

/-- The end of a final block leaves the packer at a byte boundary (R235). -/
theorem endBlockStats_final {s : State} (hs : s.pk.AccumulatorOk) (hroom : s.pk.bits.length ≤ 8 * s.conf.pendingBufSize)
    (hcap : s.conf.pendingBufSize ≤ 2 ^ 17) :
    ∃ l, endBlockStats true s = (.ok (), { s with pk := l, cod := s.cod.initBlock })
      ∧ s.pk.Sent l (zeroPad s.pk.biValid.toNat) ∧ l.biValid = 0#5 := by
  rw [Packer.length_bits] at hroom
  obtain ⟨l, hl, hsent, h0⟩ := biWindup_sent hs hroom hcap
  refine ⟨l, ?_, hsent, h0⟩
  unfold endBlockStats
  rw [bind_ok (onCoder_ok (modify_run _ _)), get_bind_run, onlyIf_run, if_pos rfl]
  exact onPacker_ok hl

/-- The state behind the final stored block, which left the packer `l`; the next block would start at `strStart` (R241). -/
def State.storedFinal (s : State) (l : Packer) : State :=
  { s with
    pk := l, cod := (s.cod.withEobLen 8#4).initBlock
    mat := { s.mat with blockStart := s.mat.strStart.setWidth 32 } }

/-- `FlushBlockOnly(true)` at level 0, up to the delivery: the whole block is stored (R235, R236, R241). -/
theorem flushBlockOnly_level0 {s : State} {n : Nat} (hc : s.conf.Sizes) (hlev : s.conf.level = 0#4) (ha : s.pk.AccumulatorOk)
    (hblock : s.mat.blockStart = 0#32) (hn : s.mat.strStart.toNat = n) (hlen : n ≤ 65535) (hwin : n ≤ s.conf.windowBufSize)
    (hroom : s.pk.bits.length + (storedBlockBits true s.pk.biValid.toNat n s.mat.window 0).length ≤ 8 * s.conf.pendingBufSize) :
    ∃ l, flushBlockOnly true s = flushPending (s.storedFinal l)
      ∧ s.pk.Sent l (storedBlockBits true s.pk.biValid.toNat n s.mat.window 0) ∧ l.biValid = 0#5 := by
  obtain ⟨-, -, -, -, -, -, -, hcap⟩ := hc.bounds
  obtain ⟨k, hk, sk, hk0⟩ := storedBlock_sent (s := s) (bfinal := true) (start := 0) ha hcap hlen (by omega) hroom
  obtain ⟨l, hl, sl, hl0⟩ := endBlockStats_final (s := { s with pk := k, cod := s.cod.withEobLen 8#4 }) sk.accumulator (by
    show k.bits.length ≤ 8 * s.conf.pendingBufSize
    rw [sk.length]
    exact hroom) hcap
  have hsent := sk.trans sl
  rw [show zeroPad k.biValid.toNat = [] by rw [hk0]; rfl, List.append_nil] at hsent
  refine ⟨l, ?_, hsent, hl0⟩
  have hstart : s.mat.blockStart.toInt = 0 := congrArg BitVec.toInt hblock
  have hlen' : (indexOf s.mat.blockLen : Proc State Nat) s = (.ok n, s) := by
    rw [show s.mat.blockLen = (n : Int) by unfold Matcher.blockLen; omega]
    simp
  have hbuf : s.mat.blockBuf = ((0 : Nat) : Int) := by
    unfold Matcher.blockBuf
    rw [hstart]
    rfl
  have hchoice : chooseBlock ((0 : Nat) : Int) n (n + 5) true = .stored := if_pos ⟨by omega, by decide, hlen⟩
  unfold flushBlockOnly flushBlock
  rw [get_bind_run, bind_ok hlen', hbuf, bind_run, bind_ok (costBlock_level0 hlev (by decide) n)]
  dsimp only
  have hemit : emitBlock .stored ((0 : Nat) : Int) n true 0 s = _ := hk
  rw [hchoice, bind_ok hemit, hl]
  exact bind_ok (onMatcher_ok (modify_run _ _))

/-! Its bytes (R111). -/

theorem lowBits_ofNat8 (v : Nat) : lowBits (BitVec.ofNat 8 v).toNat 8 = lowBits v 8 := by
  rw [BitVec.toNat_ofNat, lowBits_mod _ le_rfl]

/-- A 16-bit value is sent as two bytes, low byte first. -/
theorem lowBits_two_bytes {v lo hi : Nat} (h : v = 256 * hi + lo) (hlo : lo < 256) :
    lowBits v 16 = lowBits (BitVec.ofNat 8 lo).toNat 8 ++ lowBits (BitVec.ofNat 8 hi).toNat 8 := by
  rw [lowBits_split (n := 16) (a := 8) 8 rfl, lowBits_ofNat8, lowBits_ofNat8, ← lowBits_mod v (le_refl 8),
    Nat.shiftRight_eq_div_pow, show v % 2 ^ 8 = lo by omega, show v / 2 ^ 8 = hi by omega]

/-- The final stored block of the `n` bytes at the front of the window, from a byte boundary on (R111). -/
def storedBytes (n : Nat) (window : Ram 8) : List Byte :=
  [0x01#8, BitVec.ofNat 8 (n % 256), BitVec.ofNat 8 (n / 256), BitVec.ofNat 8 (255 - n % 256), BitVec.ofNat 8 (255 - n / 256)]
    ++ (List.range n).map window.get

@[simp] theorem length_storedBytes (n : Nat) (window : Ram 8) : (storedBytes n window).length = n + 5 := by simp [storedBytes]

/-- The bits of a final stored block at a byte boundary are those of its bytes. -/
theorem storedBlockBits_bytes {n : Nat} (hn : n ≤ 65535) (window : Ram 8) :
    storedBlockBits true 0 n window 0 = (storedBytes n window).flatMap fun b => lowBits b.toNat 8 := by
  unfold storedBlockBits storedBytes
  rw [lowBits_two_bytes (v := n) (lo := n % 256) (hi := n / 256) (by omega) (by omega),
    lowBits_two_bytes (v := 65535 - n) (lo := 255 - n % 256) (hi := 255 - n / 256) (by omega) (by omega)]
  simp only [List.flatMap_append, List.flatMap_cons, List.flatMap_nil, List.flatMap_map, List.append_assoc, Nat.zero_add,
    List.append_nil]
  rfl

/-- The input at the front of the window is the input span's bytes. -/
theorem State.Stored.window_bytes {s t : State} {n : Nat} (h : s.Stored t n) :
    (List.range n).map t.mat.window.get = s.spanBytes s.regs.inPtr n := by
  unfold State.spanBytes
  refine List.map_congr_left fun i hi => ?_
  rw [← h.bytes i (List.mem_range.1 hi)]
  rfl

/-! The whole stream (R283). -/

/-- The stored strategy ends the stream when its final block is delivered with output room left (R261, R268). -/
theorem deflate_stored_final {s t v : State} (hlev : s.conf.level = 0#4)
    (hloop : storedLoop finishFlush s.turns s = (.ok none, t)) (hblock : flushBlockOnly true t = (.ok (), v))
    (hroom : v.regs.outAvail ≠ 0#32) : deflate finishFlush s = (.ok .finishDone, v) := by
  have hfn : s.conf.fn = .stored := by
    unfold Conf.fn
    rw [hlev]
    rfl
  unfold deflate
  rw [get_bind_run, hfn]
  show deflateStored finishFlush s = _
  unfold deflateStored
  rw [get_bind_run, bind_ok hloop]
  dsimp only
  unfold tail outputFull
  rw [get_bind_run, ite_run, if_pos rfl, bind_ok hblock, bind_run, get_bind_run, pure_run, decide_eq_false hroom]
  rfl

/-- In a raw session the stream ends with its final block (R283). -/
theorem afterStrategy_finishDone {s : State} (hraw : s.conf.wrap = wrapRaw) :
    afterStrategy finishFlush .finishDone s = (.ok .streamEnd, s.afterBlock true) := by
  unfold afterStrategy
  rw [bind_run, onlyIf_run, if_pos (.inr rfl)]
  exact finishStep_streamEnd (s := s.afterBlock true) (.inl hraw)

/-- Bits that fill whole bytes behind an empty packer are delivered as those bytes. -/
theorem flushPending_bytes {u : State} {k : Packer} {bs : List Byte}
    (hs : k.Sent u.pk (bs.flatMap fun b => lowBits b.toNat 8)) (h0 : k.pending = 0#18) (hout : k.pendingOut = 0#18)
    (hv : k.biValid = 0#5) (hv' : u.pk.biValid = 0#5) (hne : bs ≠ []) (hcap : bs.length ≤ u.conf.pendingBufSize)
    (hroom : bs.length ≤ u.regs.outAvail.toNat) :
    ∃ m, flushPending u = (.ok (), u.drainedAll bs.length m) ∧ u.Delivered (u.drainedAll bs.length m) bs := by
  have hpos := List.length_pos_iff.2 hne
  have hlen : (bs.flatMap fun b => lowBits b.toNat 8).length = 8 * bs.length := by simp [List.length_flatMap, Nat.mul_comm]
  obtain ⟨bs', m, hrun, hdel, hwire⟩ := flushPending_sent hs h0 hout (by rw [hv']; decide) (by omega)
    (by rw [hv, hlen, BitVec.toNat_zero]; omega) (by rw [hv, hlen, BitVec.toNat_zero]; omega)
  rw [hv, hv', BitVec.toNat_zero, show lowBits u.pk.biBuf.toNat 0 = [] from rfl, show lowBits k.biBuf.toNat 0 = [] from rfl,
    List.append_nil, List.nil_append] at hwire
  obtain rfl := flatMap_lowBits_injective _ _ hwire
  exact ⟨m, hrun, hdel⟩

/-- The final stored block of an open block of `n` bytes, delivered (R235, R236, R241). -/
theorem flushBlockOnly_delivers {s : State} {n : Nat} (hc : s.conf.Sizes) (hlev : s.conf.level = 0#4)
    (hm : s.mat.cursorsOk s.conf = true) (hblock : s.mat.blockStart = 0#32) (hn : s.mat.strStart.toNat = n)
    (hp : s.pk.pending = 0#18) (hout : s.pk.pendingOut = 0#18) (hv : s.pk.biValid = 0#5) (hbuf : s.pk.biBuf = 0#16)
    (hlen : n ≤ 65535) (hcap : n + 5 ≤ s.conf.pendingBufSize) (hroom : n + 5 ≤ s.regs.outAvail.toNat) :
    ∃ l m, flushBlockOnly true s = (.ok (), (s.storedFinal l).drainedAll (n + 5) m)
      ∧ (s.storedFinal l).Delivered ((s.storedFinal l).drainedAll (n + 5) m) (storedBytes n s.mat.window)
      ∧ ((s.storedFinal l).drainedAll (n + 5) m).boundaryOk = true := by
  have ha : s.pk.AccumulatorOk := ⟨by rw [hv]; decide, by rw [hv, hbuf]; decide⟩
  have hwin := strStart_le_of_cursorsOk hm
  have hbits := storedBlockBits_bytes hlen s.mat.window
  obtain ⟨l, hrun, hsent, hl0⟩ := flushBlockOnly_level0 hc hlev ha hblock hn hlen (by omega) (by
    rw [Packer.length_bits, length_storedBlockBits, hp, hv, BitVec.toNat_zero, BitVec.toNat_zero]
    omega)
  rw [hv, BitVec.toNat_zero, hbits] at hsent
  have hpre : (s.storedFinal l).boundaryOk = true := by
    refine (boundaryOk_iff _).2 ⟨cursorsOk_nextBlock hm, (packer_cursorsOk_iff _ _).2 ⟨?_, ?_, hsent.accumulator.1⟩, ?_⟩
    · show l.pendingOut.toNat ≤ _
      rw [hsent.pendingOut, hout]
      exact Nat.zero_le _
    · show l.pending.toNat ≤ s.conf.pendingBufSize
      have hlen := hsent.length
      rw [Packer.length_bits, Packer.length_bits, hp, hv, hl0] at hlen
      simp [List.length_flatMap] at hlen
      omega
    · have := hc.bounds
      exact decide_eq_true (show 0 + 1 ≤ s.conf.literalBufferSize by omega)
  obtain ⟨m, hflush, hdel⟩ := flushPending_bytes (u := s.storedFinal l) hsent hp hout hv hl0 (List.cons_ne_nil _ _)
    (by rw [length_storedBytes]; exact hcap) (by rw [length_storedBytes]; exact hroom)
  rw [length_storedBytes] at hflush hdel
  exact ⟨l, m, hrun.trans hflush, hdel, boundaryOk_drainedAll (u := s.storedFinal l) hpre rfl rfl rfl rfl⟩

/-- Settles O28: all the input is taken into one block (`storedLoop_takesAll`), which is sent as the final stored block
(`flushBlockOnly_level0`) and delivered; its bits are the bytes of the statement (`storedBlockBits_bytes`). -/
theorem storedStreamBytes : Obligations.StoredStreamBytes := by
  intro s hl hc hb hlev hwrap ho hs h0 hla hblock hp hout hv hbuf hdist hsize hroom hread
  obtain ⟨hw0, hw1, -, -, -, -, -, hcap⟩ := hc.toSizes.bounds
  have hmax := hc.toSizes.maxDist
  obtain ⟨n, hn⟩ : ∃ n, n = s.regs.inAvail.toNat := ⟨_, rfl⟩
  rw [← hn] at hdist hsize hroom hread ⊢
  obtain ⟨v, hloop, hstored⟩ := storedLoop_takesAll (s := s.begun finishFlush) (flush := finishFlush) hn hc.toSizes h0 hla hblock hdist
    hsize (by decide) hread
  have honly := hstored.only
  have hconf : v.conf = s.conf := by rw [honly]; rfl
  have hpk : v.pk = s.pk := by rw [honly]; rfl
  have hn17 : n < 2 ^ 17 := by omega
  have hstart := hstored.strStart hn17
  have hm := hstored.cursorsOk hb hblock hn17 (show n ≤ 2 * s.conf.windowSize by omega)
  obtain ⟨l, m, hrun, hdel, hbt⟩ := flushBlockOnly_delivers (s := v) (n := n) (hconf ▸ hc.toSizes) (hconf ▸ hlev) hm
    (by rw [honly]; exact hblock) hstart (hpk ▸ hp) (hpk ▸ hout) (hpk ▸ hv) (hpk ▸ hbuf) (by omega) (by rw [hconf]; omega)
    (by rw [honly]; exact hroom.le)
  obtain ⟨w, hw⟩ : ∃ w, w = (v.storedFinal l).drainedAll (n + 5) m := ⟨_, rfl⟩
  rw [← hw] at hrun hdel hbt
  have hleft : w.regs.outAvail ≠ 0#32 := by
    rw [hw, honly]
    show s.regs.outAvail - BitVec.ofNat 32 (n + 5) ≠ 0#32
    bv_omega
  have hturns : (s.begun finishFlush).turns = n + 1 := by
    unfold State.turns
    show s.mat.lookahead.toNat + s.regs.inAvail.toNat + 1 = n + 1
    rw [hla, ← hn, BitVec.toNat_zero, Nat.zero_add]
  have hdeflate := deflate_stored_final (s := s.begun finishFlush) hlev (hturns ▸ hloop) hrun hleft
  have hacc : stepAccepted finishFlush s = (.ok .streamEnd, w.afterBlock true) := by
    rw [stepAccepted_fresh (by rw [hs]; decide) (isRepeat_finish s) (hp.trans hout.symm)]
    unfold stepWork
    have hwork : (s.begun finishFlush).hasWork finishFlush = true :=
      hasWork_flush (by decide) (show s.regs.sstate ≠ .finish by rw [hs]; decide)
    rw [get_bind_run, ite_run, if_pos hwork, bind_ok hdeflate]
    refine afterStrategy_finishDone ?_
    rw [hw]
    exact (congrArg Conf.wrap hconf).trans hwrap
  have hexec := exec_step_accepted hl (by decide) (stepRefusal_none ho (fun h => by rw [hs] at h; cases h) (fun h => by
    rw [h, BitVec.toNat_zero] at hroom
    omega)) hacc (by exact hbt)
  have hbytes : storedBytes n v.mat.window = _ ++ s.spanBytes s.regs.inPtr n := congrArg (_ ++ ·) hstored.window_bytes
  rw [hbytes] at hdel
  refine ⟨_, hexec, rfl, rfl, ?_, ?_, ?_⟩
  · show w.regs.inAvail = 0#32
    rw [hw, honly, hn]
    exact withInput_all s.regs
  · show w.regs.totalIn = _
    rw [hw, honly]
    show s.regs.totalIn + BitVec.ofNat 64 n = _
    rw [hn, BitVec.ofNat_toNat]
  · rw [honly] at hdel
    exact ⟨hdel.bytes, hdel.elsewhere, hdel.outPtr, hdel.outAvail, hdel.totalOut⟩

end Sys2Proof.Machine
end

section
/-! SUPPORT. The settled statements about a hardware reset (R360, R361): the values the reset leaves, as an event at the core's
boundary and in the state the model starts in. -/

namespace Sys2Proof.Machine

/-- The reset event (R360). -/
theorem step_hwReset {s : State} {rest : List Event} (he : s.events = .hwReset :: rest) :
    step s = .next (s.popEvent rest).hardwareReset := by
  rw [step_other (fetch_eq_none (by simp [he]) (by simp [he]))]
  unfold State.otherEvent
  rw [he]

/-- After a reset only the end-of-block symbol has been counted, as `InitBlock` leaves it (R45). -/
theorem Coder.reset_dynL_freq {n : Nat} (hn : n ≤ 572) :
    Coder.reset.dynL.freq.get n = if n = 256 then 1#16 else 0#16 := by
  have hread := Ram.get_set (i := 256) (j := n) (by decide) (hn.trans_lt (by decide)) Ram.zero 1#16
  rwa [Ram.get_zero] at hread

/-- Whatever the state was, a hardware reset leaves the values of R361. -/
theorem State.hardwareReset_values (s : State) : s.hardwareReset.HardwareReset where
  cmd := rfl
  status := (by decide : HostRegs.reset.statusWord = 0#32)
  cfg := (by decide : Conf.reset.cfgWord = 0#32)
  args := ⟨rfl, rfl⟩
  spans := ⟨rfl, rfl, rfl, rfl⟩
  totals := ⟨rfl, rfl⟩
  cksum := rfl
  gzip := ⟨rfl, rfl⟩
  cursors := ⟨rfl, rfl, rfl, rfl, rfl⟩
  matching := ⟨rfl, rfl, rfl, rfl⟩
  packer := ⟨rfl, rfl, rfl, rfl⟩
  coder := ⟨rfl, rfl, rfl, rfl, rfl⟩
  builder := ⟨rfl, rfl, rfl, rfl, rfl⟩
  flush := rfl
  memories i _ := ⟨Ram.get_zero i, Ram.get_zero i, Ram.get_zero i⟩
  frequencies n hn := ⟨Coder.reset_dynL_freq hn, Ram.get_zero n, Ram.get_zero n⟩

/-- Settles O10: the event is the reset of the state behind it, and without a session the prologue refuses every legal command
but `INIT` (`prologueRefusals`). -/
theorem hardwareResetEvent : Obligations.HardwareResetEvent := by
  intro s rest he
  refine ⟨_, step_hwReset he, State.hardwareReset_values _, rfl, rfl, fun i _ hinit hlegal => ?_⟩
  obtain ⟨-, -, hnoSession⟩ := prologueRefusals i (s.popEvent rest).hardwareReset
  exact hnoSession hlegal (.inl rfl) rfl hinit

/-- Settles O11: the start state is its own hardware reset; it has no session, so the invariant asks nothing more of it, and its
memories are empty. -/
theorem resetMeetsInvariants : Obligations.ResetMeetsInvariants :=
  ⟨State.hardwareReset_values State.reset, .inr (.inl rfl), ⟨rfl, rfl, rfl⟩, rfl, Coder.reset_canonical, rfl⟩

end Sys2Proof.Machine
end
